-- ==== Sys2Proof/Word.lean ====
section
/-! DEFINITION. The word types of NRRX: bytes, 32-bit words, the packed complex sample and the eight words of a command. -/

namespace Sys2Proof

/-- A DMEM byte (20_memory.md R120). -/
abbrev Byte := BitVec 8

/-- A register, or one of a command's eight words (10_state.md R53, 30_encoding.md R170). -/
abbrev Word := BitVec 32

/-- The element type `C16`: two int16 two's-complement patterns (20_memory.md R128). -/
structure C16 where
  re : BitVec 16
  im : BitVec 16
deriving DecidableEq, Repr, Inhabited

/-- The eight 32-bit words `w[0]` to `w[7]` of one command (30_encoding.md R170, R171). -/
structure CmdWords where
  w0 : Word
  w1 : Word
  w2 : Word
  w3 : Word
  w4 : Word
  w5 : Word
  w6 : Word
  w7 : Word
deriving DecidableEq, Repr, Inhabited

end Sys2Proof
end

