-- ==== Sys2Proof/Syntax.lean ====
section
/-! DEFINITION. The abstract syntax of the nine commands: one constructor of `Instr` per row of spec/opcode_table.json,
its fields named as 30_encoding.md section 3 names them. A field is the unsigned integer it encodes (30_encoding.md R172),
a one-bit switch a `Bool` or a named choice. -/

namespace Sys2Proof

/-- `FEP_RX` (30_encoding.md R177). -/
structure FepRx where
  sizeClass : Nat
  scale : Bool
  symbol : Nat
  tdBase : Nat
  tdLen : Nat
  slotOffset : Nat
  cp0 : Nat
  cp : Nat
  offsetDiv : Nat
  fdBase : Nat
  firstSc : Nat
  nSc : Nat
deriving DecidableEq, Repr

/-- The pilot of `CHEST`, `pmode` with word 2 (30_encoding.md R178, R172):
`pmode = 0` one constant `C16`, `pmode = 1` the DMEM offset of a pilot buffer. -/
inductive Pilot where
  | const (p : C16)
  | buffer (base : Nat)
deriving DecidableEq, Repr

/-- `CHEST` (30_encoding.md R178). -/
structure Chest where
  interp : Bool
  nvEn : Bool
  nvShift : Nat
  yBase : Nat
  pilot : Pilot
  hBase : Nat
  nvAddr : Nat
  nSc : Nat
  nP : Nat
  start : Nat
  stride : Nat
deriving DecidableEq, Repr

/-- `MMSE` (30_encoding.md R179): `layers` is the field `L`, `rx` the field `R`, `thr` the field `T`. -/
structure Mmse where
  layers : Nat
  rx : Nat
  shift0 : Nat
  oshift : Nat
  fp : Bool
  magw : Bool
  qm : Nat
  yBase : Nat
  hBase : Nat
  nvBase : Nat
  outBase : Nat
  nSc : Nat
  yStride : Nat
  magBase : Nat
  thr : Nat
deriving DecidableEq, Repr

/-- `LLR` (30_encoding.md R180). -/
structure Llr where
  qm : Nat
  xBase : Nat
  magA : Nat
  magB : Nat
  magC : Nat
  llrBase : Nat
  n : Nat
deriving DecidableEq, Repr

/-- `LAYER_DEMAP` (30_encoding.md R181); the two codeword flags are signed (R172). -/
structure LayerDemap where
  nl : Nat
  qm : Nat
  cw0Flag : Int
  cw1Flag : Int
  layerBase : Nat
  layerStride : Nat
  dst0 : Nat
  dst1 : Nat
  totalLen : Nat
deriving DecidableEq, Repr

/-- `DESCRAMBLE` (30_encoding.md R182): `q` is the codeword index, one bit. -/
structure Descramble where
  q : Bool
  llrBase : Nat
  length : Nat
  nId : Nat
  rnti : Nat
deriving DecidableEq, Repr

/-- The field `bg` of `LDPC_DEC` (30_encoding.md R183): 0 is base graph 1, 1 is base graph 2. -/
inductive BaseGraph where
  | bg1
  | bg2
deriving DecidableEq, Repr

/-- The field `outmode` of `LDPC_DEC` (30_encoding.md R183): 0 packed bits, 1 one byte per bit. -/
inductive OutMode where
  | packed
  | bytes
deriving DecidableEq, Repr

/-- `LDPC_DEC` (30_encoding.md R183). -/
structure LdpcDec where
  bg : BaseGraph
  outmode : OutMode
  crcEt : Bool
  inShift : Nat
  maxIter : Nat
  inBase : Nat
  e : Nat
  outBase : Nat
  resAddr : Nat
  zc : Nat
deriving DecidableEq, Repr

/-- The field `mode` of `CRC24A` (30_encoding.md R184). -/
inductive CrcMode where
  | compute
  | verify
deriving DecidableEq, Repr

/-- `CRC24A` (30_encoding.md R184). -/
structure Crc24a where
  mode : CrcMode
  dataBase : Nat
  nbits : Nat
  resAddr : Nat
deriving DecidableEq, Repr

/-- The commands (30_encoding.md R173), one constructor per row of spec/opcode_table.json. -/
inductive Instr where
  | nop
  | fepRx (c : FepRx)
  | chest (c : Chest)
  | mmse (c : Mmse)
  | llr (c : Llr)
  | layerDemap (c : LayerDemap)
  | descramble (c : Descramble)
  | ldpcDec (c : LdpcDec)
  | crc24a (c : Crc24a)
deriving DecidableEq, Repr

end Sys2Proof
end

