-- ==== Sys2Proof/WellFormed.lean ====
section
/-! DEFINITION. Well-formed commands: every field fits the bits 30_encoding.md section 3 gives it. A well-formed command is one
that the encoding can hold; whether its values are LEGAL is each command's own check (30_encoding.md R185). -/

namespace Sys2Proof

/-- The value fits an unsigned field of `n` bits (30_encoding.md R172). -/
def fits (n v : Nat) : Bool := decide (v < 2 ^ n)

/-- The value fits a signed field of `n + 1` bits (30_encoding.md R172). -/
def fitsSigned (n : Nat) (v : Int) : Bool := decide (-(2 ^ n) ≤ v) && decide (v < 2 ^ n)

def FepRx.wf (c : FepRx) : Bool :=
  fits 4 c.sizeClass && fits 4 c.symbol && fits 32 c.tdBase && fits 32 c.tdLen && fits 32 c.slotOffset
    && fits 16 c.cp0 && fits 16 c.cp && fits 16 c.offsetDiv && fits 32 c.fdBase && fits 16 c.firstSc && fits 16 c.nSc

def Pilot.wf : Pilot → Bool
  | .const _ => true
  | .buffer base => fits 32 base

def Chest.wf (c : Chest) : Bool :=
  fits 5 c.nvShift && fits 32 c.yBase && c.pilot.wf && fits 32 c.hBase && fits 32 c.nvAddr
    && fits 16 c.nSc && fits 16 c.nP && fits 16 c.start && fits 16 c.stride

def Mmse.wf (c : Mmse) : Bool :=
  fits 3 c.layers && fits 4 c.rx && fits 5 c.shift0 && fits 4 c.oshift && fits 4 c.qm && fits 32 c.yBase
    && fits 32 c.hBase && fits 32 c.nvBase && fits 32 c.outBase && fits 16 c.nSc && fits 16 c.yStride
    && fits 32 c.magBase && fits 15 c.thr

def Llr.wf (c : Llr) : Bool :=
  fits 4 c.qm && fits 32 c.xBase && fits 32 c.magA && fits 32 c.magB && fits 32 c.magC && fits 32 c.llrBase
    && fits 32 c.n

def LayerDemap.wf (c : LayerDemap) : Bool :=
  fits 4 c.nl && fits 4 c.qm && fitsSigned 7 c.cw0Flag && fitsSigned 7 c.cw1Flag && fits 32 c.layerBase
    && fits 32 c.layerStride && fits 32 c.dst0 && fits 32 c.dst1 && fits 32 c.totalLen

def Descramble.wf (c : Descramble) : Bool :=
  fits 32 c.llrBase && fits 32 c.length && fits 16 c.nId && fits 16 c.rnti

def LdpcDec.wf (c : LdpcDec) : Bool :=
  fits 4 c.inShift && fits 8 c.maxIter && fits 32 c.inBase && fits 32 c.e && fits 32 c.outBase
    && fits 32 c.resAddr && fits 16 c.zc

def Crc24a.wf (c : Crc24a) : Bool :=
  fits 32 c.dataBase && fits 32 c.nbits && fits 32 c.resAddr

/-- The command's fields fit their encoding (30_encoding.md R176 to R184). -/
def Instr.wf : Instr → Bool
  | .nop => true
  | .fepRx c => c.wf
  | .chest c => c.wf
  | .mmse c => c.wf
  | .llr c => c.wf
  | .layerDemap c => c.wf
  | .descramble c => c.wf
  | .ldpcDec c => c.wf
  | .crc24a c => c.wf

end Sys2Proof
end

