-- ==== Sys2Proof/Decode.lean ====
section
/-! DEFINITION. The decoder of one command, total on any bytes and rejecting by name (30_encoding.md R185), and the encoder,
both written from the field tables of 30_encoding.md section 3. -/

namespace Sys2Proof

/-! ## Bit fields (30_encoding.md R172, 00_scope.md R12) -/

/-- `w[lo + n - 1 : lo]`, the field of `n` bits from bit `lo`, as an unsigned integer (00_scope.md R12). -/
def bits (w : Word) (lo n : Nat) : Nat := w.toNat / 2 ^ lo % 2 ^ n

/-- The one-bit field `w[lo]`. -/
def bit (w : Word) (lo : Nat) : Bool := bits w lo 1 == 1

/-- `sext_n(v)`: the `n`-bit pattern `v` read as a two's-complement integer (00_scope.md R12). -/
def sext (n v : Nat) : Int := if v < 2 ^ (n - 1) then (v : Int) else (v : Int) - 2 ^ n

/-- The `n`-bit pattern of a signed value: the inverse of `sext` on the values that fit. -/
def unsext (n : Nat) (v : Int) : Nat := (if v < 0 then v + 2 ^ n else v).toNat

/-- A one-bit field's value. -/
def bitVal (b : Bool) : Nat := if b then 1 else 0

/-- The 32-bit word of an unsigned value. -/
def word (v : Nat) : Word := BitVec.ofNat 32 v

/-! ## The opcode map (30_encoding.md R173) -/

/-- The nine opcodes (30_encoding.md R173). -/
inductive Opcode where
  | nop
  | fepRx
  | chest
  | mmse
  | llr
  | layerDemap
  | descramble
  | ldpcDec
  | crc24a
deriving DecidableEq, Repr

/-- The opcode a value of `w[0][7:0]` selects; `none` for the illegal 0x09 to 0xFF (30_encoding.md R173, R174). -/
def opcodeOf (v : Nat) : Option Opcode :=
  match v with
  | 0 => some .nop
  | 1 => some .fepRx
  | 2 => some .chest
  | 3 => some .mmse
  | 4 => some .llr
  | 5 => some .layerDemap
  | 6 => some .descramble
  | 7 => some .ldpcDec
  | 8 => some .crc24a
  | _ => none

/-- The value of `w[0][7:0]` of an opcode (30_encoding.md R173). -/
def opcodeVal : Opcode → Nat
  | .nop => 0
  | .fepRx => 1
  | .chest => 2
  | .mmse => 3
  | .llr => 4
  | .layerDemap => 5
  | .descramble => 6
  | .ldpcDec => 7
  | .crc24a => 8

/-- The reserved bits of each word of a command (30_encoding.md R175 to R184; `reserved_masks` of opcode_table.json). -/
def reservedMasks : Opcode → CmdWords
  | .nop => ⟨0xFFFFFF00, 0xFFFFFFFF, 0xFFFFFFFF, 0xFFFFFFFF, 0xFFFFFFFF, 0xFFFFFFFF, 0xFFFFFFFF, 0xFFFFFFFF⟩
  | .fepRx => ⟨0xFFF0E000, 0, 0, 0, 0, 0xFFFF0000, 0, 0⟩
  | .chest => ⟨0xFFFF0000, 0, 0, 0, 0, 0, 0, 0xFFFFFFFF⟩
  | .mmse => ⟨0xC0000000, 0, 0, 0, 0, 0, 0, 0xFFFF8000⟩
  | .llr => ⟨0xFFFFF000, 0, 0, 0, 0, 0, 0, 0xFFFFFFFF⟩
  | .layerDemap => ⟨0, 0, 0, 0, 0, 0, 0xFFFFFFFF, 0xFFFFFFFF⟩
  | .descramble => ⟨0xFFFFFE00, 0, 0, 0, 0xFFFFFFFF, 0xFFFFFFFF, 0xFFFFFFFF, 0xFFFFFFFF⟩
  | .ldpcDec => ⟨0xFF000800, 0, 0, 0, 0, 0xFFFF0000, 0xFFFFFFFF, 0xFFFFFFFF⟩
  | .crc24a => ⟨0xFFFFFE00, 0, 0, 0, 0xFFFFFFFF, 0xFFFFFFFF, 0xFFFFFFFF, 0xFFFFFFFF⟩

/-- The index of the first word with a reserved bit set, in word order (30_encoding.md R175). -/
def firstReserved (m w : CmdWords) : Option (BitVec 3) :=
  if w.w0 &&& m.w0 ≠ 0 then some 0
  else if w.w1 &&& m.w1 ≠ 0 then some 1
  else if w.w2 &&& m.w2 ≠ 0 then some 2
  else if w.w3 &&& m.w3 ≠ 0 then some 3
  else if w.w4 &&& m.w4 ≠ 0 then some 4
  else if w.w5 &&& m.w5 ≠ 0 then some 5
  else if w.w6 &&& m.w6 ≠ 0 then some 6
  else if w.w7 &&& m.w7 ≠ 0 then some 7
  else none

/-! ## Fields (30_encoding.md R176 to R184) -/

/-- A `C16` packed in a word as in memory: `re` low, `im` high (30_encoding.md R172). -/
def c16OfWord (w : Word) : C16 := ⟨BitVec.ofNat 16 (bits w 0 16), BitVec.ofNat 16 (bits w 16 16)⟩

/-- The word of a packed `C16` (30_encoding.md R172). -/
def c16Word (p : C16) : Word := word (p.re.toNat + p.im.toNat * 2 ^ 16)

def decodeFepRx (w : CmdWords) : FepRx where
  sizeClass := bits w.w0 8 4
  scale := bit w.w0 12
  symbol := bits w.w0 16 4
  tdBase := w.w1.toNat
  tdLen := w.w2.toNat
  slotOffset := w.w3.toNat
  cp0 := bits w.w4 0 16
  cp := bits w.w4 16 16
  offsetDiv := bits w.w5 0 16
  fdBase := w.w6.toNat
  firstSc := bits w.w7 0 16
  nSc := bits w.w7 16 16

def decodeChest (w : CmdWords) : Chest where
  interp := bit w.w0 9
  nvEn := bit w.w0 10
  nvShift := bits w.w0 11 5
  yBase := w.w1.toNat
  pilot := if bit w.w0 8 then .buffer w.w2.toNat else .const (c16OfWord w.w2)
  hBase := w.w3.toNat
  nvAddr := w.w4.toNat
  nSc := bits w.w5 0 16
  nP := bits w.w5 16 16
  start := bits w.w6 0 16
  stride := bits w.w6 16 16

def decodeMmse (w : CmdWords) : Mmse where
  layers := bits w.w0 8 3
  rx := bits w.w0 11 4
  shift0 := bits w.w0 15 5
  oshift := bits w.w0 20 4
  fp := bit w.w0 24
  magw := bit w.w0 25
  qm := bits w.w0 26 4
  yBase := w.w1.toNat
  hBase := w.w2.toNat
  nvBase := w.w3.toNat
  outBase := w.w4.toNat
  nSc := bits w.w5 0 16
  yStride := bits w.w5 16 16
  magBase := w.w6.toNat
  thr := bits w.w7 0 15

def decodeLlr (w : CmdWords) : Llr where
  qm := bits w.w0 8 4
  xBase := w.w1.toNat
  magA := w.w2.toNat
  magB := w.w3.toNat
  magC := w.w4.toNat
  llrBase := w.w5.toNat
  n := w.w6.toNat

def decodeLayerDemap (w : CmdWords) : LayerDemap where
  nl := bits w.w0 8 4
  qm := bits w.w0 12 4
  cw0Flag := sext 8 (bits w.w0 16 8)
  cw1Flag := sext 8 (bits w.w0 24 8)
  layerBase := w.w1.toNat
  layerStride := w.w2.toNat
  dst0 := w.w3.toNat
  dst1 := w.w4.toNat
  totalLen := w.w5.toNat

def decodeDescramble (w : CmdWords) : Descramble where
  q := bit w.w0 8
  llrBase := w.w1.toNat
  length := w.w2.toNat
  nId := bits w.w3 0 16
  rnti := bits w.w3 16 16

def decodeLdpcDec (w : CmdWords) : LdpcDec where
  bg := if bit w.w0 8 then .bg2 else .bg1
  outmode := if bit w.w0 9 then .bytes else .packed
  crcEt := bit w.w0 10
  inShift := bits w.w0 12 4
  maxIter := bits w.w0 16 8
  inBase := w.w1.toNat
  e := w.w2.toNat
  outBase := w.w3.toNat
  resAddr := w.w4.toNat
  zc := bits w.w5 0 16

def decodeCrc24a (w : CmdWords) : Crc24a where
  mode := if bit w.w0 8 then .verify else .compute
  dataBase := w.w1.toNat
  nbits := w.w2.toNat
  resAddr := w.w3.toNat

/-- The command an opcode names, with its fields. -/
def commandOf (op : Opcode) (w : CmdWords) : Instr :=
  match op with
  | .nop => .nop
  | .fepRx => .fepRx (decodeFepRx w)
  | .chest => .chest (decodeChest w)
  | .mmse => .mmse (decodeMmse w)
  | .llr => .llr (decodeLlr w)
  | .layerDemap => .layerDemap (decodeLayerDemap w)
  | .descramble => .descramble (decodeDescramble w)
  | .ldpcDec => .ldpcDec (decodeLdpcDec w)
  | .crc24a => .crc24a (decodeCrc24a w)

/-! ## The decoder -/

/-- The decoder's verdict on eight words (30_encoding.md R185). -/
inductive Verdict where
  | command (i : Instr)
  | illegalOpcode
  | reservedNonzero (word : BitVec 3)
deriving DecidableEq, Repr

/-- `decode(w)`: total on any eight words (30_encoding.md R185). -/
def decode (w : CmdWords) : Verdict :=
  match opcodeOf (bits w.w0 0 8) with
  | none => .illegalOpcode
  | some op =>
    match firstReserved (reservedMasks op) w with
    | some k => .reservedNonzero k
    | none => .command (commandOf op w)

/-- The 32-bit word of four bytes, the lowest address first (20_memory.md R122). -/
def wordOfBytes (b0 b1 b2 b3 : Byte) : Word :=
  word (b0.toNat + 2 ^ 8 * b1.toNat + 2 ^ 16 * b2.toNat + 2 ^ 24 * b3.toNat)

/-- The four bytes of a word, least significant first (20_memory.md R122). -/
def bytesOfWord (w : Word) : List Byte :=
  [BitVec.ofNat 8 w.toNat, BitVec.ofNat 8 (w.toNat / 2 ^ 8), BitVec.ofNat 8 (w.toNat / 2 ^ 16),
   BitVec.ofNat 8 (w.toNat / 2 ^ 24)]

/-- Bytes grouped four by four into words. Trailing bytes that make no whole word are dropped. -/
def wordsOfBytes : List Byte → List Word
  | b0 :: b1 :: b2 :: b3 :: rest => wordOfBytes b0 b1 b2 b3 :: wordsOfBytes rest
  | _ => []

/-- The eight words of 32 bytes (30_encoding.md R170, R171); `none` for any other number of bytes. -/
def cmdWordsOfBytes (bs : List Byte) : Option CmdWords :=
  if bs.length = 32 then
    match wordsOfBytes bs with
    | [w0, w1, w2, w3, w4, w5, w6, w7] => some ⟨w0, w1, w2, w3, w4, w5, w6, w7⟩
    | _ => none
  else none

/-- The decoder on bytes: `none` unless there are exactly 32 of them (30_encoding.md R170; log 10). -/
def decodeBytes (bs : List Byte) : Option Verdict := (cmdWordsOfBytes bs).map decode

/-! ## The encoder -/

/-- The words of a command whose fields are those of 30_encoding.md R176 to R184; every reserved bit is 0 (R175). -/
def encode : Instr → CmdWords
  | .nop => ⟨0, 0, 0, 0, 0, 0, 0, 0⟩
  | .fepRx c =>
    ⟨word (0x01 + c.sizeClass * 2 ^ 8 + bitVal c.scale * 2 ^ 12 + c.symbol * 2 ^ 16),
     word c.tdBase, word c.tdLen, word c.slotOffset, word (c.cp0 + c.cp * 2 ^ 16), word c.offsetDiv,
     word c.fdBase, word (c.firstSc + c.nSc * 2 ^ 16)⟩
  | .chest c =>
    let pmode := match c.pilot with | .const _ => 0 | .buffer _ => 1
    let w2 := match c.pilot with | .const p => c16Word p | .buffer base => word base
    ⟨word (0x02 + pmode * 2 ^ 8 + bitVal c.interp * 2 ^ 9 + bitVal c.nvEn * 2 ^ 10 + c.nvShift * 2 ^ 11),
     word c.yBase, w2, word c.hBase, word c.nvAddr, word (c.nSc + c.nP * 2 ^ 16),
     word (c.start + c.stride * 2 ^ 16), 0⟩
  | .mmse c =>
    ⟨word (0x03 + c.layers * 2 ^ 8 + c.rx * 2 ^ 11 + c.shift0 * 2 ^ 15 + c.oshift * 2 ^ 20
        + bitVal c.fp * 2 ^ 24 + bitVal c.magw * 2 ^ 25 + c.qm * 2 ^ 26),
     word c.yBase, word c.hBase, word c.nvBase, word c.outBase, word (c.nSc + c.yStride * 2 ^ 16),
     word c.magBase, word c.thr⟩
  | .llr c =>
    ⟨word (0x04 + c.qm * 2 ^ 8), word c.xBase, word c.magA, word c.magB, word c.magC, word c.llrBase, word c.n, 0⟩
  | .layerDemap c =>
    ⟨word (0x05 + c.nl * 2 ^ 8 + c.qm * 2 ^ 12 + unsext 8 c.cw0Flag * 2 ^ 16 + unsext 8 c.cw1Flag * 2 ^ 24),
     word c.layerBase, word c.layerStride, word c.dst0, word c.dst1, word c.totalLen, 0, 0⟩
  | .descramble c =>
    ⟨word (0x06 + bitVal c.q * 2 ^ 8), word c.llrBase, word c.length, word (c.nId + c.rnti * 2 ^ 16), 0, 0, 0, 0⟩
  | .ldpcDec c =>
    let bg := match c.bg with | .bg1 => 0 | .bg2 => 1
    let om := match c.outmode with | .packed => 0 | .bytes => 1
    ⟨word (0x07 + bg * 2 ^ 8 + om * 2 ^ 9 + bitVal c.crcEt * 2 ^ 10 + c.inShift * 2 ^ 12 + c.maxIter * 2 ^ 16),
     word c.inBase, word c.e, word c.outBase, word c.resAddr, word c.zc, 0, 0⟩
  | .crc24a c =>
    let mode := match c.mode with | .compute => 0 | .verify => 1
    ⟨word (0x08 + mode * 2 ^ 8), word c.dataBase, word c.nbits, word c.resAddr, 0, 0, 0, 0⟩

/-- The 32 bytes of a command in DMEM (30_encoding.md R170, 20_memory.md R122). -/
def cmdBytes (w : CmdWords) : List Byte :=
  bytesOfWord w.w0 ++ bytesOfWord w.w1 ++ bytesOfWord w.w2 ++ bytesOfWord w.w3
    ++ bytesOfWord w.w4 ++ bytesOfWord w.w5 ++ bytesOfWord w.w6 ++ bytesOfWord w.w7

/-! ## The host's question -/

/-- The eight words of an instruction whose bits are `w`, bit 0 the least significant bit of the first word, every bit from
`nbits` up being 0. -/
def tableWords (nbits w : Nat) : CmdWords :=
  let v := w % 2 ^ nbits
  ⟨word v, word (v / 2 ^ 32), word (v / 2 ^ 64), word (v / 2 ^ 96), word (v / 2 ^ 128), word (v / 2 ^ 160),
   word (v / 2 ^ 192), word (v / 2 ^ 224)⟩

/-- The instruction the decoder reads from the bytes of `tableWords nbits w`; `none` where it refuses. -/
def decodeTableWord (nbits w : Nat) : Option Instr :=
  match decodeBytes (cmdBytes (tableWords nbits w)) with
  | some (.command i) => some i
  | _ => none

end Sys2Proof
end

