-- ==== Sys2Proof/Config.lean ====
section
/-! DEFINITION. The implementation parameters of 00_scope.md R9, which "a model takes as an argument". Those that are data stand in
`Params`, with the defaults the spec gives as one value of it; the open functions (DFT, BG_TABLE, the draw of an unwritten byte) are
opaque constants, of which nothing can be proved but that they are functions of their arguments. -/

namespace Sys2Proof

/-- The parameters that are data (00_scope.md R9; log 1). They are fixed for a given block (10_state.md R52). -/
structure Params where
  /-- `DMEM_SIZE`, the bytes of DMEM -/
  dmemSize : Nat
  /-- `MAX_RX`, the largest antenna count of an `MMSE` command -/
  maxRx : Nat
  /-- `MAX_LAYERS`, the largest layer count of an `MMSE` command -/
  maxLayers : Nat
  /-- `CRC_INIT` (48_crc.md R392) -/
  crcInit : BitVec 24
  /-- `NV_SENTINEL` (42_chest.md R266) -/
  nvSentinel : BitVec 16
  /-- `CN_ALPHA_NUM` (47_ldpc.md R367) -/
  cnAlphaNum : Nat
  /-- `HW_ID` (10_state.md R54) -/
  hwId : Word
  /-- `HW_VERSION` (10_state.md R55) -/
  hwVersion : Word
deriving DecidableEq, Repr

/-- The values "this spec's hardware takes" (00_scope.md R9). -/
def Params.default : Params where
  dmemSize := 4194304
  maxRx := 8
  maxLayers := 4
  crcInit := 0xB704CE
  nvSentinel := 255
  cnAlphaNum := 3
  hwId := 0x4E525258
  hwVersion := 0x00010000

/-- The parameters a block may have: `DMEM_SIZE` a power of two from 2^16 to 2^24 (00_scope.md R9), `CN_ALPHA_NUM` from 1 to 4
(47_ldpc.md R367), `MAX_RX` within the four bits of `R` and of `CAPS` (30_encoding.md R179, 10_state.md R56), at most four layers
(43_mmse.md R280). -/
abbrev Params.legal (p : Params) : Prop :=
  (∃ k < 25, 16 ≤ k ∧ p.dmemSize = 2 ^ k) ∧ (1 ≤ p.maxRx ∧ p.maxRx ≤ 15) ∧ (1 ≤ p.maxLayers ∧ p.maxLayers ≤ 4)
    ∧ 1 ≤ p.cnAlphaNum ∧ p.cnAlphaNum ≤ 4

namespace Config

/-- `CRC_POLY`, which is fixed (00_scope.md R9, 48_crc.md R391, R392). -/
def crcPoly : BitVec 24 := 0x864CFB

/-- The DFT sizes by size class, all of which the block supports (00_scope.md R9, 41_fep.md R240, 10_state.md R56). -/
def fftSizes : List Nat := [128, 256, 512, 768, 1024, 1536, 2048, 3072, 4096, 6144, 8192]

/-- The open parameter `DFT` (41_fep.md R247; log 2): bin `k` of `DFT(N, scale, x)`, with arguments `N`, `scale`, `x`, `k`.
It depends on nothing else, and no value of it is known. -/
opaque dft : Nat → Bool → List C16 → Nat → C16

/-- The open parameter `BG_TABLE(bg, iLS, i, j)` (47_ldpc.md R364; log 3): a shift value, or `none`. -/
opaque bgTable : BaseGraph → Nat → Nat → Nat → Option Nat

/-- The draw a host read of an unwritten byte returns (20_memory.md R121; log 4): a free value, a function of how many hard
resets there were, of how many soft resets since made the byte unwritten, and of its address. -/
opaque freeByte : Nat → Nat → Nat → Byte

end Config

end Sys2Proof
end

