-- ==== Sys2Proof/Machine/Num.lean ====
section
/-! DEFINITION. The rounding and saturation primitives of 00_scope.md R13 and the exact complex arithmetic of R14. Integers are
unbounded (R11); `a / b` of a rule is the exact rational quotient, `Rat`. -/

namespace Sys2Proof.Machine

/-- `asr(v, s)`: `floor(v / 2^s)` (00_scope.md R13). -/
def asr (v : Int) (s : Nat) : Int := v.fdiv (2 ^ s)

/-- `rnd(q)`: round half away from zero, `sign(q) * floor(|q| + 1/2)` (00_scope.md R13). -/
def rnd (q : Rat) : Int := if q < 0 then -(-q + 1 / 2).floor else (q + 1 / 2).floor

/-- The exact quotient of two integers (00_scope.md R11). -/
def quot (a b : Int) : Rat := (a : Rat) / (b : Rat)

/-- `clamp(v, lo, hi)` (00_scope.md R13). -/
def clamp (v lo hi : Int) : Int := if v < lo then lo else if hi < v then hi else v

/-- `sat16` (00_scope.md R13). -/
def sat16 (v : Int) : Int := clamp v (-32768) 32767

/-- `satsym15` (00_scope.md R13). -/
def satsym15 (v : Int) : Int := clamp v (-32767) 32767

/-- `sat32` (00_scope.md R13). -/
def sat32 (v : Int) : Int := clamp v (-2147483648) 2147483647

/-- `sat127` (00_scope.md R13). -/
def sat127 (v : Int) : Int := clamp v (-127) 127

/-- `satu16` (00_scope.md R13). -/
def satu16 (v : Int) : Int := clamp v 0 65535

/-- `abs16(v) = min(|v|, 32767)` (00_scope.md R13). -/
def abs16 (v : Int) : Int := min (v.natAbs : Int) 32767

/-- A complex value with integer parts (00_scope.md R14). -/
structure CInt where
  re : Int
  im : Int
deriving DecidableEq, Repr, Inhabited

/-- `conj((a, b)) = (a, -b)` (00_scope.md R14). -/
def conj (z : CInt) : CInt := ⟨z.re, -z.im⟩

/-- Exact complex addition (00_scope.md R14). -/
def cadd (a b : CInt) : CInt := ⟨a.re + b.re, a.im + b.im⟩

/-- Exact complex negation. -/
def cneg (a : CInt) : CInt := ⟨-a.re, -a.im⟩

/-- Exact complex multiplication (00_scope.md R14). -/
def cmul (a b : CInt) : CInt := ⟨a.re * b.re - a.im * b.im, a.re * b.im + a.im * b.re⟩

/-- `|z|^2 = re^2 + im^2` (00_scope.md R14). -/
def normSq (z : CInt) : Int := z.re * z.re + z.im * z.im

/-- The sum of a list of complex values. -/
def csum : List CInt → CInt
  | [] => ⟨0, 0⟩
  | z :: zs => cadd z (csum zs)

/-- A `C16` as a pair of integers (00_scope.md R14). -/
def ofC16 (z : C16) : CInt := ⟨z.re.toInt, z.im.toInt⟩

/-- A pair of integers in the 16-bit range as a `C16`. -/
def toC16 (z : CInt) : C16 := ⟨BitVec.ofInt 16 z.re, BitVec.ofInt 16 z.im⟩

end Sys2Proof.Machine
end

