-- ==== Sys2Proof/Machine/State.lean ====
section
/-! DEFINITION. The state of NRRX (10_state.md R52): the registers of R53, DMEM, the engine's hidden state of R76, and the
model's own fields that say what the environment does next. Plain data throughout. -/

namespace Sys2Proof.Machine

/-- The engine's phase (10_state.md R76). -/
inductive Phase where
  | idle
  | run
deriving DecidableEq, Repr

/-- The error codes of 60_exceptions.md R401. -/
inductive ErrCode where
  | none
  | fetchRange
  | illegalOpcode
  | reservedNonzero
  | badFftSize
  | badParam
  | badLayerCount
  | badModOrder
  | badCodewordFlags
  | badLdpcParams
  | fepWindow
  | misaligned
  | addrRange
  | overlap
deriving DecidableEq, Repr

/-- The two bits of `IRQ_EN` and of `IRQ_STATUS` (10_state.md R67, R68): bit 0 `done`, bit 1 `error`. -/
structure IrqBits where
  done : Bool
  error : Bool
deriving DecidableEq, Repr

/-- The width of a host access: 1, 2 or 4 bytes (20_memory.md R126), or any other, which the block answers with a bus error
(60_exceptions.md R421). -/
inductive AccessSize where
  | byte
  | half
  | word
  | other
deriving DecidableEq, Repr

/-- One access of the host to the block's window, at an offset from the block's base (20_memory.md R140). -/
inductive HostAccess where
  | read (off : Nat) (size : AccessSize)
  | write (off : Nat) (size : AccessSize) (value : Word)
deriving DecidableEq, Repr

/-- What the next step is (the model's own; log 5, log 6): a step of the engine, a step of the engine inside which the host
writes `CTRL = ABORT` (in iteration `iter` if that step runs an LDPC_DEC), an access of the host, or the hard-reset input. -/
inductive Turn where
  | engine
  | engineAbort (iter : Nat)
  | host (a : HostAccess)
  | hardReset
deriving DecidableEq, Repr

/-- The bus response to a host access: the error flag and the read data (0 for a write and for an error). -/
structure Response where
  error : Bool
  data : Word
deriving DecidableEq, Repr

/-- DMEM's written bytes (20_memory.md R121) as (address, byte) pairs in strictly rising address order; an address not listed
is unwritten. -/
abbrev Memory := List Host.Cell

/-- The state (10_state.md R52, R53, R76), then the model's own fields, then the parameters. `STATUS.BUSY`, `CTRL`, `ID`, `VERSION` and `CAPS` are
views (Machine/Flags.lean): BUSY is `phase = run`, CTRL reads `abortPending`, the other three read the
parameters. -/
structure State where
  /-- R76, R77; `STATUS.BUSY` (R59) is 1 exactly when it is `run` -/
  phase : Phase
  /-- R76; readable as `CTRL.ABORT` (R57) -/
  abortPending : Bool
  /-- R76: the command latch (40_sequencing.md R221) -/
  latch : CmdWords
  /-- `STATUS.DONE` (R59) -/
  done : Bool
  /-- `STATUS.ERROR` (R59) -/
  error : Bool
  /-- `STATUS.ABORTED` (R59) -/
  aborted : Bool
  /-- `STATUS.NUMWARN` (R59) -/
  numwarn : Bool
  /-- `ERR_CODE` (R60) -/
  errCode : ErrCode
  /-- `ERR_CMD` (R61) -/
  errCmd : Word
  /-- `ERR_INFO` (R62) -/
  errInfo : BitVec 3
  /-- `CMD_BASE` (R63) -/
  cmdBase : Word
  /-- `CMD_COUNT` (R64) -/
  cmdCount : Word
  /-- `CMD_PTR`, the program counter (R65) -/
  cmdPtr : Word
  /-- `CMD_DONE` (R66) -/
  cmdDone : Word
  /-- `IRQ_EN` (R67) -/
  irqEn : IrqBits
  /-- `IRQ_STATUS` (R68) -/
  irqStatus : IrqBits
  /-- `LDPC_RESULT` (R69) -/
  ldpcResult : Word
  /-- `CRC_RESULT` (R70) -/
  crcResult : Word
  /-- `WARN_COUNT` (R71) -/
  warnCount : Word
  /-- DMEM (R75, 20_memory.md R120, R121) -/
  dmem : Memory
  /-- the model's own (log 4): the byte ranges (base, bytes) that soft resets made unwritten since the last hard reset -/
  losses : List (Nat × Nat)
  /-- the model's own (log 4): how many hard resets there were -/
  hardResets : Nat
  /-- the model's own (log 5): the coming moves, oldest first; when there are none the engine moves -/
  turns : List Turn
  /-- the model's own (log 6): the iteration in which the host's abort write lands inside the LDPC_DEC being executed -/
  midAbort : Option Nat
  /-- the model's own (log 7): the response to the host's last access -/
  response : Option Response
  /-- the block's parameters (00_scope.md R9; log 1): no state of the block (10_state.md R52) but an argument of every step, which
  stands here because `exec` and `step` take a state alone; no step changes it -/
  params : Params
deriving DecidableEq, Repr

/-- The model's faults. -/
inductive Fault where
  /-- Raised by the engine when a command fetch or a command's input read finds an unwritten DMEM byte: `UNINIT_READ`
  (20_memory.md R121), naming the command by its index in the list and its DMEM offset. SAFE: the hardware goes on with some
  value, so a claim may become unprovable and none becomes wrong (log 9). -/
  | uninitRead (index ptr : Word)
deriving DecidableEq, Repr

/-- The model's refusals. -/
inductive Refusal where
  /-- Raised by an arm of `exec` whose command has no meaning yet. SAFE: nothing follows of a refused command. No arm raises it. -/
  | notModelled (mnemonic : String)
deriving DecidableEq, Repr

/-- The state right after a hard reset (10_state.md R78, 70_reset_and_hazards.md R440, R441): every register at the value of the
table of R53, idle, no abort pending, every DMEM byte unwritten. The latch (log 8) and the model's own fields (log 4 to log 7)
take the values their log entries name; the parameters are the defaults (00_scope.md R9). -/
def State.reset : State where
  phase := .idle
  abortPending := false
  latch := ⟨0, 0, 0, 0, 0, 0, 0, 0⟩
  done := false
  error := false
  aborted := false
  numwarn := false
  errCode := .none
  errCmd := 0
  errInfo := 0
  cmdBase := 0
  cmdCount := 0
  cmdPtr := 0
  cmdDone := 0
  irqEn := ⟨false, false⟩
  irqStatus := ⟨false, false⟩
  ldpcResult := 0
  crcResult := 0
  warnCount := 0
  dmem := []
  losses := []
  hardResets := 0
  turns := []
  midAbort := none
  response := none
  params := .default

/-- The state after reset of a block built with the parameters `p` (00_scope.md R9). -/
def State.resetWith (p : Params) : State := { State.reset with params := p }

end Sys2Proof.Machine
end

