-- ==== Sys2Proof/Machine/Operands.lean ====
section
/-! DEFINITION. Operand forms: DMEM bytes and elements (20_memory.md R121 to R130), buffers and their checks (R131 to R134). -/

namespace Sys2Proof.Machine

/-! ## Memory (20_memory.md R120, R121) -/

/-- The byte at an address, `none` when it is unwritten (20_memory.md R121). -/
def Memory.read : Memory → Nat → Option Byte
  | [], _ => none
  | c :: m, a => if c.1 = a then some c.2 else Memory.read m a

/-- The cells of consecutive bytes from an address. -/
def cellsFrom : Nat → List Byte → Memory
  | _, [] => []
  | a, b :: bs => (a, b) :: cellsFrom (a + 1) bs

/-- Writes consecutive bytes from an address (20_memory.md R124); no bytes leave the memory as it is. -/
def Memory.store (m : Memory) (a : Nat) (bs : List Byte) : Memory :=
  if bs.isEmpty then m
  else m.filter (fun c => decide (c.1 < a)) ++ cellsFrom a bs ++ m.filter (fun c => decide (a + bs.length ≤ c.1))

/-- Makes `n` bytes from an address unwritten (70_reset_and_hazards.md R442). -/
def Memory.lose (m : Memory) (a n : Nat) : Memory :=
  m.filter (fun c => !(decide (a ≤ c.1) && decide (c.1 < a + n)))

/-- The canonical form: addresses strictly rising. (An unlisted address reads as unwritten, which no entry equals.) -/
def Memory.wf : Memory → Bool
  | [] => true
  | [_] => true
  | c :: d :: m => decide (c.1 < d.1) && Memory.wf (d :: m)

/-! ## Reading (20_memory.md R124, R129) -/

/-- All the values, or `none` when one is missing. -/
def collect {α : Type} : List (Option α) → Option (List α)
  | [] => some []
  | none :: _ => none
  | some x :: xs => (collect xs).map (x :: ·)

/-- The values of `f` at `0` to `n - 1`, or `none` when one is missing. -/
def collectN {α : Type} (n : Nat) (f : Nat → Option α) : Option (List α) := collect ((List.range n).map f)

/-- The little-endian unsigned integer of bytes (20_memory.md R122). -/
def leNat : List Byte → Nat
  | [] => 0
  | b :: bs => b.toNat + 256 * leNat bs

/-- The low `n` bytes of a value, least significant first (20_memory.md R122). -/
def leBytes : Nat → Nat → List Byte
  | 0, _ => []
  | n + 1, v => BitVec.ofNat 8 v :: leBytes n (v / 256)

/-- The `n` bytes from an address. -/
def loadBytes (m : Memory) (a n : Nat) : Option (List Byte) := collectN n (fun j => m.read (a + j))

/-- `MemRead(a, n)` (20_memory.md R124); `none` is the read of an unwritten byte. -/
def memRead (m : Memory) (a n : Nat) : Option Nat := (loadBytes m a n).map leNat

/-- The int16 at an address, as its pattern. -/
def load16 (m : Memory) (a : Nat) : Option (BitVec 16) := (memRead m a 2).map (BitVec.ofNat 16)

/-- `LdC16(b, i)` (20_memory.md R129). -/
def ldC16 (m : Memory) (b i : Nat) : Option C16 :=
  match load16 m (b + 4 * i), load16 m (b + 4 * i + 2) with
  | some re, some im => some ⟨re, im⟩
  | _, _ => none

/-- `LdI16(b, i)` (20_memory.md R129). -/
def ldI16 (m : Memory) (b i : Nat) : Option Int := (load16 m (b + 2 * i)).map BitVec.toInt

/-- `LdU16(b, i)` (20_memory.md R129). -/
def ldU16 (m : Memory) (b i : Nat) : Option Nat := memRead m (b + 2 * i) 2

/-- `LdPBIT(b, i)` (20_memory.md R129): most significant bit first. -/
def ldPbit (m : Memory) (b i : Nat) : Option Bool := (memRead m (b + i / 8) 1).map (fun v => v / 2 ^ (7 - i % 8) % 2 == 1)

/-! ## The bytes stored (20_memory.md R129) -/

/-- The two bytes of an int16 or uint16 (20_memory.md R129 `StI16`, `StU16`). -/
def bytes16 (v : Int) : List Byte := leBytes 2 (BitVec.ofInt 16 v).toNat

/-- The four bytes of a `C16` (20_memory.md R129 `StC16`). -/
def bytesC16 (z : CInt) : List Byte := bytes16 z.re ++ bytes16 z.im

/-- The four bytes of a result word (20_memory.md R129 `StU32`). -/
def bytes32 (v : Word) : List Byte := leBytes 4 v.toNat

/-- The byte of one `BIT` (20_memory.md R129 `StBIT`). -/
def byteBit (b : Bool) : Byte := if b then 1 else 0

/-- The value of up to eight bits, most significant first, missing ones 0 (20_memory.md R129 `StPBIT`). -/
def packByte (bs : List Bool) : Byte :=
  BitVec.ofNat 8 (((List.range 8).map (fun t => if bs.getD t false then 2 ^ (7 - t) else 0)).sum)

/-- The bytes of packed bits (20_memory.md R129 `StPBIT`): byte `j` of `ceil(n / 8)` holds bits `8j` to `8j + 7`. -/
def packBits (bs : List Bool) : List Byte :=
  (List.range ((bs.length + 7) / 8)).map (fun j => packByte (bs.drop (8 * j)))

/-! ## Buffers (00_scope.md R16, 20_memory.md R130) -/

/-- The element types (20_memory.md R128). -/
inductive Elem where
  | c16
  | i16
  | u16
  | u32
  | bit
  | pbit
deriving DecidableEq, Repr

/-- The alignment of an element type (20_memory.md R128). -/
def elemAlign : Elem → Nat
  | .c16 => 4
  | .i16 => 2
  | .u16 => 2
  | .u32 => 4
  | .bit => 1
  | .pbit => 1

/-- The bytes of `n` elements (20_memory.md R130). -/
def elemBytes (t : Elem) (n : Nat) : Nat :=
  match t with
  | .c16 => 4 * n
  | .i16 => 2 * n
  | .u16 => 2 * n
  | .u32 => 4 * n
  | .bit => n
  | .pbit => (n + 7) / 8

/-- A buffer `Buf(base, T, n)` named by command word `word` (00_scope.md R16). -/
structure Buf where
  word : BitVec 3
  base : Nat
  elem : Elem
  count : Nat
deriving DecidableEq, Repr

/-- The bytes a buffer covers (20_memory.md R130). -/
def bufBytes (b : Buf) : Nat := elemBytes b.elem b.count

/-- An address lies in a buffer. -/
def inBuf (b : Buf) (a : Nat) : Bool := decide (b.base ≤ a) && decide (a < b.base + bufBytes b)

/-! ## Checks (20_memory.md R131 to R134, 60_exceptions.md R402) -/

/-- An error a check raises: its code and the index of the word it names (60_exceptions.md R401). -/
structure CmdError where
  code : ErrCode
  word : BitVec 3
deriving DecidableEq, Repr

/-- One check: the condition under which it fails and the error it raises. -/
abbrev Check := Bool × CmdError

/-- The error of the first failing check (60_exceptions.md R402). -/
def firstError : List Check → Option CmdError
  | [] => none
  | (fails, e) :: cs => if fails then some e else firstError cs

/-- The alignment check (20_memory.md R131). -/
def alignCheck (b : Buf) : Check :=
  (decide (0 < bufBytes b) && decide (b.base % elemAlign b.elem ≠ 0), ⟨.misaligned, b.word⟩)

/-- The range check (20_memory.md R132). -/
def rangeCheck (p : Params) (b : Buf) : Check :=
  (decide (0 < bufBytes b) && decide (p.dmemSize < b.base + bufBytes b), ⟨.addrRange, b.word⟩)

/-- The overlap check of a pair (20_memory.md R133), naming the second buffer's word. -/
def overlapCheck (p : Buf × Buf) : Check :=
  (decide (0 < bufBytes p.1) && decide (0 < bufBytes p.2) && decide (p.1.base < p.2.base + bufBytes p.2)
     && decide (p.2.base < p.1.base + bufBytes p.1),
   ⟨.overlap, p.2.word⟩)

/-- The buffer checks in order: alignment of every buffer, range of every buffer, overlap pairs (20_memory.md R134). -/
def bufferChecks (p : Params) (bufs : List Buf) (pairs : List (Buf × Buf)) : List Check :=
  bufs.map alignCheck ++ bufs.map (rangeCheck p) ++ pairs.map overlapCheck

end Sys2Proof.Machine
end

