-- ==== Sys2Proof/Machine/Flags.lean ====
section
/-! DEFINITION. Flags and register views: the error codes (60_exceptions.md R401), the `STATUS`, `CTRL` and interrupt words
(10_state.md R57, R59, R67, R68), `CAPS` (R56), the interrupt output (60_exceptions.md R411) and the numerical warning
(60_exceptions.md R410). -/

namespace Sys2Proof.Machine

/-- The value of an error code (60_exceptions.md R401). -/
def errCodeVal : ErrCode → Nat
  | .none => 0x00
  | .fetchRange => 0x01
  | .illegalOpcode => 0x02
  | .reservedNonzero => 0x03
  | .badFftSize => 0x04
  | .badParam => 0x05
  | .badLayerCount => 0x06
  | .badModOrder => 0x07
  | .badCodewordFlags => 0x08
  | .badLdpcParams => 0x09
  | .fepWindow => 0x0A
  | .misaligned => 0x0B
  | .addrRange => 0x0C
  | .overlap => 0x0D

/-- The word whose bits `0`, `1`, … are the given flags and whose other bits are 0. -/
def flagWord : List Bool → Nat
  | [] => 0
  | b :: bs => (if b then 1 else 0) + 2 * flagWord bs

/-- `STATUS.BUSY` (10_state.md R59, R76). -/
def State.busy (s : State) : Bool := decide (s.phase = .run)

/-- The `STATUS` register (10_state.md R59): BUSY, DONE, ERROR, ABORTED, NUMWARN; the reserved bits read 0. -/
def State.statusWord (s : State) : Word :=
  BitVec.ofNat 32 (flagWord [s.busy, s.done, s.error, s.aborted, s.numwarn])

/-- The `CTRL` register as read (10_state.md R57): START 0, ABORT the pending bit, SOFT_RESET 0, the rest 0. -/
def State.ctrlWord (s : State) : Word := BitVec.ofNat 32 (flagWord [false, s.abortPending])

/-- `IRQ_EN` or `IRQ_STATUS` as read (10_state.md R67, R68). -/
def irqWord (b : IrqBits) : Word := BitVec.ofNat 32 (flagWord [b.done, b.error])

/-- The two interrupt bits of a written word (10_state.md R67, R68). -/
def irqBitsOf (v : Word) : IrqBits := ⟨v.getLsbD 0, v.getLsbD 1⟩

/-- `CAPS` (10_state.md R56): log2(DMEM_SIZE), MAX_RX, one bit per FFT size class, FP64. -/
def capsWord (p : Params) : Word :=
  BitVec.ofNat 32 (Nat.log2 p.dmemSize + p.maxRx * 2 ^ 8 + (2 ^ Config.fftSizes.length - 1) * 2 ^ 12 + 2 ^ 23)

/-- The interrupt output, a level (10_state.md R68, 60_exceptions.md R411). -/
def State.irq (s : State) : Bool := (s.irqStatus.done && s.irqEn.done) || (s.irqStatus.error && s.irqEn.error)

/-- `warn()` (60_exceptions.md R410): NUMWARN is set and WARN_COUNT counts up, staying at 0xFFFFFFFF (10_state.md R71). -/
def State.warn (s : State) : State :=
  { s with numwarn := true, warnCount := if s.warnCount = 0xFFFFFFFF then s.warnCount else s.warnCount + 1 }

/-- `n` calls of `warn()`. -/
def State.warns : Nat → State → State
  | 0, s => s
  | n + 1, s => State.warns n s.warn

end Sys2Proof.Machine
end

