-- ==== Sys2Proof/Machine/Ops.lean ====
section
/-! DEFINITION. The named operations every command and the sequencer share: starting a run (40_sequencing.md R220), completing a
command (R221), the three halts (60_exceptions.md R405, R406, R415), which is how this block takes an exception and, by a new
start, returns from one (R408, R409), the fetch, and running one command as checks, then effects (40_sequencing.md R224). -/

namespace Sys2Proof.Machine

/-! ## Runs and halts -/

/-- `start_run()` (40_sequencing.md R220). -/
def State.startRun (s : State) : State :=
  { s with
    done := false, error := false, aborted := false, numwarn := false
    errCode := .none, errCmd := 0, errInfo := 0
    warnCount := 0
    cmdDone := 0
    cmdPtr := s.cmdBase
    phase := .run }

/-- `halt_normal()` (60_exceptions.md R405). -/
def State.haltNormal (s : State) : State :=
  { s with done := true, irqStatus := { s.irqStatus with done := true }, abortPending := false, phase := .idle }

/-- `halt_aborted()` (60_exceptions.md R415). -/
def State.haltAborted (s : State) : State :=
  { s with
    done := true, aborted := true, irqStatus := { s.irqStatus with done := true }, abortPending := false
    phase := .idle }

/-- `error_halt(code, word)`, performed by `raise Error(code, word)` (60_exceptions.md R406): the block's one exception. -/
def State.errorHalt (e : CmdError) (s : State) : State :=
  { s with
    errCode := e.code, errInfo := e.word, errCmd := s.cmdDone
    error := true, irqStatus := { s.irqStatus with error := true }, abortPending := false, phase := .idle }

/-- The end of a completed command: `CMD_DONE <- CMD_DONE + 1; pc <- pc + 32` (40_sequencing.md R221). -/
def State.complete (s : State) : State :=
  { s with cmdDone := s.cmdDone + 1, cmdPtr := s.cmdPtr + 32 }

/-- The abort as an LDPC_DEC sees it at the end of iteration `it`: pending since before the command, or written by the host in
an iteration up to this one (47_ldpc.md R371, 60_exceptions.md R414; log 6). -/
def State.abortSeen (s : State) (it : Nat) : Bool :=
  s.abortPending || (match s.midAbort with | some k => decide (k ≤ it) | none => false)

/-! ## Fetch -/

/-- The command latch's new contents, `w[i] = MemRead(pc + 4*i, 4)` (40_sequencing.md R221); `none` when one of the 32 bytes is
unwritten (20_memory.md R121). -/
def State.fetch (s : State) : Option CmdWords := (loadBytes s.dmem s.cmdPtr.toNat 32).bind cmdWordsOfBytes

/-- The 32 bytes at `pc` lie inside DMEM (40_sequencing.md R221), in unbounded integers. -/
def State.fetchInRange (s : State) : Bool := decide (s.cmdPtr.toNat + 32 ≤ s.params.dmemSize)

/-! ## One command -/

/-- What a command does once its checks have passed: the bytes it stores (each run of bytes with its address), how often it
calls `warn()`, and the result registers it writes (40_sequencing.md R224, 10_state.md R73). -/
structure Effect where
  writes : List (Nat × List Byte)
  warnings : Nat
  ldpcResult : Option Word
  crcResult : Option Word
deriving DecidableEq, Repr

/-- An effect that only stores bytes. -/
def storesOnly (writes : List (Nat × List Byte)) : Effect := ⟨writes, 0, none, none⟩

/-- DMEM after runs of bytes are stored in order. -/
def applyWrites (m : Memory) : List (Nat × List Byte) → Memory
  | [] => m
  | (a, bs) :: ws => applyWrites (m.store a bs) ws

/-- The state after an effect. -/
def State.apply (s : State) (e : Effect) : State :=
  State.warns e.warnings
    { s with
      dmem := applyWrites s.dmem e.writes
      ldpcResult := e.ldpcResult.getD s.ldpcResult
      crcResult := e.crcResult.getD s.crcResult }

/-- One command (40_sequencing.md R224): its checks, which read no DMEM, raise the first error (60_exceptions.md R402, R406); else
its effects happen and it completes (R221). An effect that would read an unwritten byte is the fault UNINIT_READ
(20_memory.md R121; log 9). -/
def runCommand (checks : List Check) (effect : State → Option Effect) (s : State) :
    Host.Outcome State Fault Refusal :=
  match firstError checks with
  | some e => .next (s.errorHalt e)
  | none =>
    match effect s with
    | none => .fault (.uninitRead s.cmdDone s.cmdPtr)
    | some eff => .next (s.apply eff).complete

end Sys2Proof.Machine
end

