-- ==== Sys2Proof/Machine/Chest.lean ====
section
/-! DEFINITION. `CHEST`, the channel estimator (42_chest.md). -/

namespace Sys2Proof.Machine

/-! ## Buffers and checks (42_chest.md R260) -/

def chestY (c : Chest) : Buf := ⟨1, c.yBase, .c16, c.nSc⟩

def chestH (c : Chest) : Buf := ⟨3, c.hBase, .c16, c.nSc⟩

def chestNv (c : Chest) : Buf := ⟨4, c.nvAddr, .u16, 1⟩

/-- The pilot buffer `P`, only when `pmode = 1` (42_chest.md R260). -/
def chestP (c : Chest) : List Buf :=
  match c.pilot with
  | .const _ => []
  | .buffer base => [⟨2, base, .c16, c.nP⟩]

/-- The checks of `CHEST` in order (42_chest.md R260). -/
def chestChecks (p : Params) (c : Chest) : List Check :=
  [(decide (c.nSc = 0), ⟨.badParam, 5⟩),
   (decide (c.nP = 0), ⟨.badParam, 5⟩),
   (decide (c.stride = 0), ⟨.badParam, 6⟩),
   (decide (c.nSc ≤ c.start + (c.nP - 1) * c.stride), ⟨.badParam, 6⟩)]
  ++ bufferChecks p ([chestY c] ++ chestP c ++ [chestH c, chestNv c])
      ([(chestY c, chestH c)] ++ (chestP c).map (·, chestH c) ++ [(chestY c, chestNv c)]
        ++ (chestP c).map (·, chestNv c) ++ [(chestH c, chestNv c)])

/-! ## The estimate -/

/-- `pos[m]` (42_chest.md R261). -/
def chestPos (c : Chest) (m : Nat) : Nat := c.start + m * c.stride

/-- The received samples at the pilots (42_chest.md R262); no other sample of `Y` is read (log 13). -/
def chestRx (c : Chest) (m : Memory) : Option (List CInt) :=
  collectN c.nP (fun i => (ldC16 m c.yBase (chestPos c i)).map ofC16)

/-- The pilots `P[m]` (42_chest.md R261). -/
def chestPilots (c : Chest) (m : Memory) : Option (List CInt) :=
  match c.pilot with
  | .const p => some (List.replicate c.nP (ofC16 p))
  | .buffer base => collectN c.nP (fun i => (ldC16 m base i).map ofC16)

/-- `H_ls` at one pilot (42_chest.md R262): the zero-pilot fallback is `(0, 0)`. -/
def chestLs (y p : CInt) : CInt :=
  let num := cmul y (conj p)
  let d := normSq p
  if d = 0 then ⟨0, 0⟩
  else ⟨satsym15 (rnd (quot (num.re * 2 ^ 15) d)), satsym15 (rnd (quot (num.im * 2 ^ 15) d))⟩

/-- One `warn()` for each pilot of zero power (42_chest.md R262, 60_exceptions.md R410). -/
def chestWarnings (ps : List CInt) : Nat := (ps.filter (fun p => decide (normSq p = 0))).length

/-- `H_avg`, the window mean of the estimates (42_chest.md R263). -/
def chestAvg (hls : List CInt) : CInt :=
  ⟨rnd (quot (csum hls).re hls.length), rnd (quot (csum hls).im hls.length)⟩

/-- `j(k)`, the pilot whose estimate subcarrier `k` holds when `interp = 0` (42_chest.md R264). -/
def chestNearest (c : Chest) (k : Nat) : Nat :=
  if k < c.start then 0 else min ((k - c.start) / c.stride) (c.nP - 1)

/-- `Hout[k]` (42_chest.md R264). -/
def chestOut (c : Chest) (hls : List CInt) (k : Nat) : CInt :=
  if c.interp then chestAvg hls else hls.getD (chestNearest c k) ⟨0, 0⟩

/-- `e[m]`, the residual of a pilot against the reconstruction from the mean (42_chest.md R265). -/
def chestResidual (avg y p : CInt) : CInt :=
  ⟨y.re - rnd (quot (avg.re * p.re - avg.im * p.im) (2 ^ 15)),
   y.im - rnd (quot (avg.re * p.im + avg.im * p.re) (2 ^ 15))⟩

/-- The noise variance (42_chest.md R265), or the sentinel (R266). -/
def chestNoise (sentinel : Int) (c : Chest) (avg : CInt) (ys ps : List CInt) : Int :=
  if c.nvEn then
    let power := ((List.zipWith (chestResidual avg) ys ps).map normSq).sum
    min (asr (quot power c.nP).floor c.nvShift) 65535
  else sentinel

/-- The effect of `CHEST` (42_chest.md R267). -/
def chestEffect (c : Chest) (s : State) : Option Effect :=
  match chestRx c s.dmem, chestPilots c s.dmem with
  | some ys, some ps =>
    let hls := List.zipWith chestLs ys ps
    let nv := chestNoise s.params.nvSentinel.toNat c (chestAvg hls) ys ps
    some
      { writes := [(c.hBase, (List.range c.nSc).flatMap (fun k => bytesC16 (chestOut c hls k))), (c.nvAddr, bytes16 nv)]
        warnings := chestWarnings ps
        ldpcResult := none
        crcResult := none }
  | _, _ => none

/-- `CHEST` (42_chest.md R260, R267). -/
def execChest (c : Chest) (s : State) : Host.Outcome State Fault Refusal := runCommand (chestChecks s.params c) (chestEffect c) s

end Sys2Proof.Machine
end

