-- ==== Sys2Proof/Machine/Crc.lean ====
section
/-! DEFINITION. `CRC24A` and the CRC unit (48_crc.md), which `LDPC_DEC` shares (47_ldpc.md R370). -/

namespace Sys2Proof.Machine

/-! ## The CRC register (48_crc.md R391) -/

/-- One bit of `crc24` (48_crc.md R391). -/
def crcStep (reg : BitVec 24) (b : Bool) : BitVec 24 :=
  let shifted := reg <<< 1
  if reg.getLsbD 23 ^^ b then shifted ^^^ Config.crcPoly else shifted

/-- `crc24(b, n)` of a bit sequence from a preset (48_crc.md R391, R392). -/
def crc24 (init : BitVec 24) (bs : List Bool) : BitVec 24 := bs.foldl crcStep init

/-- The value of bits read most significant first (48_crc.md R394 `trailing`). -/
def msbNat (bs : List Bool) : Nat := bs.foldl (fun v b => 2 * v + bitVal b) 0

/-- The verify of a bit sequence of at least 24 bits (48_crc.md R394). -/
def crcVerify (init : BitVec 24) (bs : List Bool) : Bool :=
  (crc24 init (bs.take (bs.length - 24))).toNat == msbNat (bs.drop (bs.length - 24))

/-! ## The command (48_crc.md R390, R393, R395) -/

def crcData (c : Crc24a) : Buf := ⟨1, c.dataBase, .pbit, c.nbits⟩

def crcRes (c : Crc24a) : Buf := ⟨3, c.resAddr, .u32, 1⟩

/-- The checks of `CRC24A` in order (48_crc.md R390). -/
def crcChecks (p : Params) (c : Crc24a) : List Check :=
  [(decide (c.mode = .verify) && decide (c.nbits < 24), ⟨.badParam, 2⟩)]
  ++ bufferChecks p [crcData c, crcRes c] [(crcData c, crcRes c)]

/-- The result word (48_crc.md R393). -/
def crcResultWord (init : BitVec 24) (mode : CrcMode) (bs : List Bool) : Word :=
  match mode with
  | .compute => (crc24 init bs).setWidth 32 <<< 8
  | .verify => if crcVerify init bs then 1 else 0

/-- The effect of `CRC24A` (48_crc.md R395). -/
def crcEffect (c : Crc24a) (s : State) : Option Effect :=
  (collectN c.nbits (fun i => ldPbit s.dmem c.dataBase i)).map fun bs =>
    let result := crcResultWord s.params.crcInit c.mode bs
    { writes := [(c.resAddr, bytes32 result)], warnings := 0, ldpcResult := none, crcResult := some result }

/-- `CRC24A` (48_crc.md R390, R395). -/
def execCrc24a (c : Crc24a) (s : State) : Host.Outcome State Fault Refusal := runCommand (crcChecks s.params c) (crcEffect c) s

end Sys2Proof.Machine
end

