-- ==== Sys2Proof/Machine/Descramble.lean ====
section
/-! DEFINITION. `DESCRAMBLE`, the descrambler (46_descramble.md). -/

namespace Sys2Proof.Machine

/-- The in-place buffer `LL` (46_descramble.md R345). -/
def descrambleBuf (c : Descramble) : Buf := ⟨1, c.llrBase, .i16, c.length⟩

/-- The checks of `DESCRAMBLE` in order (46_descramble.md R345). -/
def descrambleChecks (p : Params) (c : Descramble) : List Check :=
  [(decide (1023 < c.nId), ⟨.badParam, 3⟩)] ++ bufferChecks p [descrambleBuf c] []

/-! ## The scrambling sequence (46_descramble.md R347, R348)

A register holds 31 consecutive bits of a sequence, bit `i` being element `n + i`. -/

/-- One step of the `x1` register: element `n + 31` is `x1(n + 3) + x1(n)` (46_descramble.md R347). -/
def x1Step (r : BitVec 31) : BitVec 31 :=
  (r >>> 1) ||| (BitVec.ofBool (r.getLsbD 3 ^^ r.getLsbD 0)).setWidth 31 <<< 30

/-- One step of the `x2` register: element `n + 31` is `x2(n + 3) + x2(n + 2) + x2(n + 1) + x2(n)` (46_descramble.md R347). -/
def x2Step (r : BitVec 31) : BitVec 31 :=
  (r >>> 1)
    ||| (BitVec.ofBool (r.getLsbD 3 ^^ r.getLsbD 2 ^^ r.getLsbD 1 ^^ r.getLsbD 0)).setWidth 31 <<< 30

/-- `n` steps of a register. -/
def stepN (f : BitVec 31 → BitVec 31) : Nat → BitVec 31 → BitVec 31
  | 0, r => r
  | n + 1, r => stepN f n (f r)

/-- `n` bits of the sum of two register sequences. -/
def goldFrom : Nat → BitVec 31 → BitVec 31 → List Bool
  | 0, _, _ => []
  | n + 1, r1, r2 => (r1.getLsbD 0 ^^ r2.getLsbD 0) :: goldFrom n (x1Step r1) (x2Step r2)

/-- `Nc` (46_descramble.md R347). -/
def goldNc : Nat := 1600

/-- `c(0)` to `c(n - 1)` for a seed `c_init` (46_descramble.md R347). -/
def goldBits (cInit n : Nat) : List Bool :=
  goldFrom n (stepN x1Step goldNc 1) (stepN x2Step goldNc (BitVec.ofNat 31 cInit))

/-- `c_init` (46_descramble.md R348). -/
def cInit (c : Descramble) : Nat := c.rnti * 2 ^ 15 + bitVal c.q * 2 ^ 14 + c.nId

/-- One element: negated with saturation where the sequence bit is 1 (46_descramble.md R346). -/
def descrambleElem (c : Bool) (v : Int) : Int := if c then sat16 (-v) else v

/-- The effect of `DESCRAMBLE` (46_descramble.md R346, R349). -/
def descrambleEffect (c : Descramble) (s : State) : Option Effect :=
  (collectN c.length (fun i => ldI16 s.dmem c.llrBase i)).map fun vs =>
    storesOnly [(c.llrBase, (List.zipWith descrambleElem (goldBits (cInit c) c.length) vs).flatMap bytes16)]

/-- `DESCRAMBLE` (46_descramble.md R345, R349). -/
def execDescramble (c : Descramble) (s : State) : Host.Outcome State Fault Refusal :=
  runCommand (descrambleChecks s.params c) (descrambleEffect c) s

end Sys2Proof.Machine
end

