-- ==== Sys2Proof/Machine/Fep.lean ====
section
/-! DEFINITION. `FEP_RX`, the OFDM front-end receive (41_fep.md). -/

namespace Sys2Proof.Machine

/-- `N`, the DFT size of a size class (41_fep.md R240); 0 for a class that selects none. -/
def fftSize (sizeClass : Nat) : Nat := Config.fftSizes.getD sizeClass 0

/-- `guard = floor(cp / offset_div)` (41_fep.md R242). -/
def fepGuard (c : FepRx) : Nat := c.cp / c.offsetDiv

/-- The window start in samples from `td_base`, in unbounded integers (41_fep.md R242). -/
def fepStart (c : FepRx) : Int :=
  (c.slotOffset + c.symbol * fftSize c.sizeClass + c.cp0 + c.symbol * c.cp : Nat) - (fepGuard c : Int)

/-- The time-domain buffer `TD` (41_fep.md R241). -/
def fepTd (c : FepRx) : Buf := ⟨1, c.tdBase, .c16, c.tdLen⟩

/-- The frequency-domain buffer `FD` (41_fep.md R241). -/
def fepFd (c : FepRx) : Buf := ⟨6, c.fdBase, .c16, c.nSc⟩

/-- The checks of `FEP_RX` in order (41_fep.md R241). -/
def fepChecks (p : Params) (c : FepRx) : List Check :=
  [(decide (10 < c.sizeClass), ⟨.badFftSize, 0⟩),
   (decide (13 < c.symbol), ⟨.badParam, 0⟩),
   (decide (c.offsetDiv = 0), ⟨.badParam, 5⟩),
   (decide (fftSize c.sizeClass ≤ c.firstSc), ⟨.badParam, 7⟩),
   (decide (c.nSc = 0) || decide (fftSize c.sizeClass < c.nSc), ⟨.badParam, 7⟩),
   (decide (fepStart c < 0) || decide ((c.tdLen : Int) < fepStart c + fftSize c.sizeClass), ⟨.fepWindow, 3⟩)]
  ++ bufferChecks p [fepTd c, fepFd c] [(fepTd c, fepFd c)]

/-- The DFT input: the `N` samples of the window and no other (41_fep.md R243). -/
def fepWindow (c : FepRx) (m : Memory) : Option (List C16) :=
  collectN (fftSize c.sizeClass) (fun n => ldC16 m c.tdBase ((fepStart c).toNat + n))

/-- The extracted subcarriers: bin `(first_sc + i) mod N` of `DFT(N, scale, x)` for `i` below `n_sc` (41_fep.md R244, R245). -/
def fepBins (dft : Nat → Bool → List C16 → Nat → C16) (c : FepRx) (x : List C16) : List C16 :=
  (List.range c.nSc).map (fun i => dft (fftSize c.sizeClass) c.scale x ((c.firstSc + i) % fftSize c.sizeClass))

/-- The effect of `FEP_RX` (41_fep.md R246). -/
def fepEffect (c : FepRx) (s : State) : Option Effect :=
  (fepWindow c s.dmem).map fun x =>
    storesOnly [(c.fdBase, (fepBins Config.dft c x).flatMap (fun z => bytesC16 (ofC16 z)))]

/-- `FEP_RX` (41_fep.md R241, R246). -/
def execFepRx (c : FepRx) (s : State) : Host.Outcome State Fault Refusal := runCommand (fepChecks s.params c) (fepEffect c) s

end Sys2Proof.Machine
end

