-- ==== Sys2Proof/Machine/LayerDemap.lean ====
section
/-! DEFINITION. `LAYER_DEMAP`, the layer demapper (45_layer_demap.md). -/

namespace Sys2Proof.Machine

/-- A codeword is active when its flag is not -1 (45_layer_demap.md R330). -/
def cwActive (flag : Int) : Bool := decide (flag ≠ -1)

/-- `reps` (45_layer_demap.md R330). -/
def demapReps (c : LayerDemap) : Nat := c.totalLen / (c.nl * c.qm)

/-- The base of layer `l`, in unbounded integers (45_layer_demap.md R330). -/
def demapLayer (c : LayerDemap) (l : Nat) : Nat := c.layerBase + l * c.layerStride

/-- The buffers `LAY_l` (45_layer_demap.md R330). -/
def demapLayers (c : LayerDemap) : List Buf :=
  (List.range c.nl).map (fun l => ⟨1, demapLayer c l, .i16, demapReps c * c.qm⟩)

/-- The buffer `OUT` of the active codeword (45_layer_demap.md R330): codeword 0 in word 3, else codeword 1 in word 4. -/
def demapOut (c : LayerDemap) : Buf :=
  if cwActive c.cw0Flag then ⟨3, c.dst0, .i16, c.totalLen⟩ else ⟨4, c.dst1, .i16, c.totalLen⟩

/-- The checks of `LAYER_DEMAP` in order (45_layer_demap.md R330). -/
def demapChecks (p : Params) (c : LayerDemap) : List Check :=
  [(decide (c.nl = 0) || decide (4 < c.nl), ⟨.badLayerCount, 0⟩),
   (!(c.qm == 2 || c.qm == 4 || c.qm == 6 || c.qm == 8), ⟨.badModOrder, 0⟩),
   (cwActive c.cw0Flag == cwActive c.cw1Flag, ⟨.badCodewordFlags, 0⟩),
   (decide (c.totalLen % (c.nl * c.qm) ≠ 0), ⟨.badParam, 5⟩)]
  ++ bufferChecks p (demapLayers c ++ [demapOut c]) ((demapLayers c).map (·, demapOut c))

/-- The codeword: `qm` LLRs from each layer in turn, `reps` times (45_layer_demap.md R332). -/
def demapCodeword (c : LayerDemap) (m : Memory) : Option (List Int) :=
  (collectN (demapReps c) (fun r =>
    (collectN c.nl (fun l =>
      collectN c.qm (fun b => ldI16 m (demapLayer c l) (r * c.qm + b)))).map List.flatten)).map List.flatten

/-- The effect of `LAYER_DEMAP` (45_layer_demap.md R334). -/
def demapEffect (c : LayerDemap) (s : State) : Option Effect :=
  (demapCodeword c s.dmem).map fun out => storesOnly [((demapOut c).base, out.flatMap bytes16)]

/-- `LAYER_DEMAP` (45_layer_demap.md R330, R334). -/
def execLayerDemap (c : LayerDemap) (s : State) : Host.Outcome State Fault Refusal :=
  runCommand (demapChecks s.params c) (demapEffect c) s

end Sys2Proof.Machine
end

