-- ==== Sys2Proof/Machine/Ldpc.lean ====
section
/-! DEFINITION. `LDPC_DEC`, the LDPC decoder (47_ldpc.md): flooding normalised min-sum over the expanded base graph. -/

namespace Sys2Proof.Machine

/-! ## Parameters (47_ldpc.md R361, R362) -/

/-- `Mb`, the check rows (47_ldpc.md R361). -/
def ldpcMb : BaseGraph → Nat
  | .bg1 => 46
  | .bg2 => 42

/-- `Nb`, the variable columns (47_ldpc.md R361). -/
def ldpcNb : BaseGraph → Nat
  | .bg1 => 68
  | .bg2 => 52

/-- `Kb`, the information columns (47_ldpc.md R361). -/
def ldpcKb : BaseGraph → Nat
  | .bg1 => 22
  | .bg2 => 10

/-- The accepted lifting sizes by set index `iLS` (47_ldpc.md R362). -/
def liftingSets : List (List Nat) :=
  [[2, 4, 8, 16, 32, 64, 128, 256],
   [3, 6, 12, 24, 48, 96, 192, 384],
   [5, 10, 20, 40, 80, 160, 320],
   [7, 14, 28, 56, 112, 224],
   [9, 18, 36, 72, 144, 288],
   [11, 22, 44, 88, 176, 352],
   [13, 26, 52, 104, 208],
   [15, 30, 60, 120, 240]]

/-- `zc` is an accepted lifting size (47_ldpc.md R362). -/
def isLiftingSize (zc : Nat) : Bool := liftingSets.any (·.contains zc)

/-- The set index `iLS` of a lifting size (47_ldpc.md R362). -/
def liftingSet (zc : Nat) : Nat := liftingSets.findIdx (·.contains zc)

/-- `K = Kb * Zc` (47_ldpc.md R360). -/
def ldpcK (c : LdpcDec) : Nat := ldpcKb c.bg * c.zc

/-- The number of variables, `Nb * Zc` (47_ldpc.md R365). -/
def ldpcVars (c : LdpcDec) : Nat := ldpcNb c.bg * c.zc

/-- The number of checks, `Mb * Zc` (47_ldpc.md R365). -/
def ldpcCheckNodes (c : LdpcDec) : Nat := ldpcMb c.bg * c.zc

/-! ## Buffers and checks (47_ldpc.md R360) -/

def ldpcIn (c : LdpcDec) : Buf := ⟨1, c.inBase, .i16, c.e⟩

def ldpcOut (c : LdpcDec) : Buf :=
  match c.outmode with
  | .packed => ⟨3, c.outBase, .pbit, ldpcK c⟩
  | .bytes => ⟨3, c.outBase, .bit, ldpcK c⟩

def ldpcRes (c : LdpcDec) : Buf := ⟨4, c.resAddr, .u32, 1⟩

/-- The checks of `LDPC_DEC` in order (47_ldpc.md R360). -/
def ldpcChecks (p : Params) (c : LdpcDec) : List Check :=
  [(decide (c.maxIter = 0), ⟨.badParam, 0⟩),
   (!isLiftingSize c.zc, ⟨.badLdpcParams, 5⟩),
   (decide (c.e = 0) || decide ((ldpcNb c.bg - 2) * c.zc < c.e), ⟨.badParam, 2⟩)]
  ++ bufferChecks p [ldpcIn c, ldpcOut c, ldpcRes c]
      [(ldpcIn c, ldpcOut c), (ldpcIn c, ldpcRes c), (ldpcOut c, ldpcRes c)]

/-! ## The graph (47_ldpc.md R364, R365) -/

/-- An edge joins check node `c` to variable node `v`. -/
structure Edge where
  c : Nat
  v : Nat
deriving DecidableEq, Repr

/-- The edges of one base-graph entry with shift value `V` (47_ldpc.md R365). -/
def entryEdges (zc i j shift : Nat) : List Edge :=
  (List.range zc).map (fun r => ⟨i * zc + r, j * zc + (r + shift % zc) % zc⟩)

/-- The edges of the parity-check graph of (`bg`, `Zc`) for a base-graph table (47_ldpc.md R365). -/
def ldpcEdges (table : BaseGraph → Nat → Nat → Nat → Option Nat) (bg : BaseGraph) (zc : Nat) : List Edge :=
  (List.range (ldpcMb bg)).flatMap (fun i =>
    (List.range (ldpcNb bg)).flatMap (fun j =>
      match table bg (liftingSet zc) i j with
      | none => []
      | some shift => entryEdges zc i j shift))

/-- `lam`, the input LLRs of the variables (47_ldpc.md R363): 0 on the punctured columns and past the input. -/
def ldpcLam (c : LdpcDec) (ins : List Int) : List Int :=
  (List.range (ldpcVars c)).map (fun v =>
    if v < 2 * c.zc then 0 else if v < 2 * c.zc + c.e then sat127 (asr (ins.getD (v - 2 * c.zc) 0) c.inShift) else 0)

/-! ## One iteration (47_ldpc.md R366) -/

/-- A message on an edge. -/
abbrev Msg := Edge × Int

/-- `sgn` (47_ldpc.md R366). -/
def sgn (x : Int) : Int := if x < 0 then -1 else 1

/-- Step (a): `q` on an edge, from the messages of the previous iteration (47_ldpc.md R366). -/
def varToCheck (lam : List Int) (r : List Msg) (e : Edge) : Int :=
  sat127 (lam.getD e.v 0 + ((r.filter (fun m => m.1.v == e.v && m.1.c != e.c)).map (·.2)).sum)

/-- The least magnitude of a nonempty list of messages (47_ldpc.md R366). -/
def minAbs : List Int → Nat
  | [] => 0
  | [q] => q.natAbs
  | q :: qs => min q.natAbs (minAbs qs)

/-- Step (b): `r` on an edge, from the `q` of the other edges of its check (47_ldpc.md R366, R367). -/
def checkToVar (alpha : Nat) (q : List Msg) (e : Edge) : Int :=
  let others := (q.filter (fun m => m.1.c == e.c && m.1.v != e.v)).map (·.2)
  if others.isEmpty then 0 else (others.map sgn).prod * ((alpha * minAbs others / 4 : Nat) : Int)

/-- Steps (a) and (b) on every edge (47_ldpc.md R366). -/
def ldpcIterate (alpha : Nat) (lam : List Int) (r : List Msg) : List Msg :=
  let q := r.map (fun m => (m.1, varToCheck lam r m.1))
  r.map (fun m => (m.1, checkToVar alpha q m.1))

/-- Step (c): `Lpost[v]`, not saturated (47_ldpc.md R366). -/
def ldpcPost (lam : List Int) (r : List Msg) (v : Nat) : Int :=
  lam.getD v 0 + ((r.filter (fun m => m.1.v == v)).map (·.2)).sum

/-! ## Decision and termination (47_ldpc.md R368 to R371) -/

/-- The decision after one iteration. -/
structure Decision where
  xhat : List Bool
  undecided : Bool
  syndOk : Bool
  crcOk : Bool
deriving DecidableEq, Repr

/-- The syndrome: every check sees an even number of ones (47_ldpc.md R369). -/
def syndromeOk (checks : Nat) (edges : List Edge) (xhat : List Bool) : Bool :=
  (List.range checks).all (fun c => (edges.filter (fun e => e.c == c && xhat.getD e.v false)).length % 2 == 0)

/-- The decision from the posteriors (47_ldpc.md R368 to R370). -/
def ldpcDecide (crcInit : BitVec 24) (c : LdpcDec) (lam : List Int) (r : List Msg) : Decision :=
  let post := (List.range (ldpcVars c)).map (ldpcPost lam r)
  let xhat := post.map (fun p => decide (p < 0))
  { xhat := xhat
    undecided := post.any (· == 0)
    syndOk := syndromeOk (ldpcCheckNodes c) (r.map (·.1)) xhat
    crcOk := c.crcEt && decide (24 ≤ ldpcK c) && crcVerify crcInit (xhat.take (ldpcK c)) }

/-- Why the decoder stopped (47_ldpc.md R371). -/
inductive Stop where
  | converged
  | limit
  | aborted
deriving DecidableEq, Repr

/-- The iterations from number `it` on with `left` more allowed after it, given the messages before it and the abort as each
iteration's end sees it: the last decision, the iterations performed and the reason for stopping (47_ldpc.md R371, R375). -/
def ldpcLoop (alpha : Nat) (crcInit : BitVec 24) (c : LdpcDec) (lam : List Int) (abort : Nat → Bool) :
    Nat → Nat → List Msg → Decision × Nat × Stop
  | left, it, r =>
    let r' := ldpcIterate alpha lam r
    let d := ldpcDecide crcInit c lam r'
    if !d.undecided && (d.syndOk || d.crcOk) then (d, it, .converged)
    else
      match left with
      | 0 => (d, it, .limit)
      | left' + 1 => if abort it then (d, it, .aborted) else ldpcLoop alpha crcInit c lam abort left' (it + 1) r'

/-- The whole decoding of the input LLRs (47_ldpc.md R375): every message starts at 0. -/
def ldpcDecode (alpha : Nat) (crcInit : BitVec 24) (table : BaseGraph → Nat → Nat → Nat → Option Nat) (c : LdpcDec)
    (abort : Nat → Bool) (ins : List Int) : Decision × Nat × Stop :=
  ldpcLoop alpha crcInit c (ldpcLam c ins) abort (c.maxIter - 1) 1 ((ldpcEdges table c.bg c.zc).map (fun e => (e, 0)))

/-! ## Outputs (47_ldpc.md R372, R374) -/

/-- The bytes of the decoded bits (47_ldpc.md R372). -/
def ldpcOutBytes (c : LdpcDec) (d : Decision) : List Byte :=
  match c.outmode with
  | .packed => packBits (d.xhat.take (ldpcK c))
  | .bytes => (d.xhat.take (ldpcK c)).map byteBit

/-- The result word: `ITER`, then the flags SYND_OK, CRC_OK, CONV, ABORTED, UNDECIDED (47_ldpc.md R374). -/
def ldpcResultWord (d : Decision) (iters : Nat) (stop : Stop) : Word :=
  BitVec.ofNat 32 (iters + 2 ^ 8 * flagWord
    [!d.undecided && d.syndOk, !d.undecided && d.crcOk, decide (stop = .converged), decide (stop = .aborted), d.undecided])

/-- The effect of `LDPC_DEC` (47_ldpc.md R375). -/
def ldpcEffect (c : LdpcDec) (s : State) : Option Effect :=
  (collectN c.e (fun i => ldI16 s.dmem c.inBase i)).map fun ins =>
    let out := ldpcDecode s.params.cnAlphaNum s.params.crcInit Config.bgTable c s.abortSeen ins
    let result := ldpcResultWord out.1 out.2.1 out.2.2
    { writes := [(c.outBase, ldpcOutBytes c out.1), (c.resAddr, bytes32 result)]
      warnings := 0
      ldpcResult := some result
      crcResult := none }

/-- `LDPC_DEC` (47_ldpc.md R360, R375). -/
def execLdpcDec (c : LdpcDec) (s : State) : Host.Outcome State Fault Refusal := runCommand (ldpcChecks s.params c) (ldpcEffect c) s

end Sys2Proof.Machine
end

