-- ==== Sys2Proof/Machine/Llr.lean ====
section
/-! DEFINITION. `LLR`, the soft demodulator (44_llr.md). -/

namespace Sys2Proof.Machine

/-! ## Buffers and checks (44_llr.md R310) -/

def llrX (c : Llr) : Buf := ⟨1, c.xBase, .c16, c.n⟩

/-- The magnitude buffers that `qm` uses, in order (44_llr.md R310). -/
def llrMags (c : Llr) : List Buf :=
  (if 4 ≤ c.qm then [⟨2, c.magA, .c16, c.n⟩] else []) ++ (if 6 ≤ c.qm then [⟨3, c.magB, .c16, c.n⟩] else [])
    ++ (if c.qm = 8 then [⟨4, c.magC, .c16, c.n⟩] else [])

def llrOut (c : Llr) : Buf := ⟨5, c.llrBase, .i16, c.qm * c.n⟩

/-- The checks of `LLR` in order (44_llr.md R310). -/
def llrChecks (p : Params) (c : Llr) : List Check :=
  [(!(c.qm == 2 || c.qm == 4 || c.qm == 6 || c.qm == 8), ⟨.badModOrder, 0⟩)]
  ++ bufferChecks p ([llrX c] ++ llrMags c ++ [llrOut c]) ((llrX c :: llrMags c).map (·, llrOut c))

/-! ## Formulas (44_llr.md R312) -/

/-- The signed distance to a ring boundary, part by part (44_llr.md R312). -/
def ringDistance (mag x : CInt) : CInt := ⟨sat16 (mag.re - abs16 x.re), sat16 (mag.im - abs16 x.im)⟩

/-- The LLRs of one symbol: `x`, then each further distance from the one before it and the next magnitude (44_llr.md R312). -/
def llrSymbol (x : CInt) : List CInt → List Int
  | [] => [x.re, x.im]
  | mag :: mags => x.re :: x.im :: llrSymbol (ringDistance mag x) mags

/-- The magnitudes of symbol `i` that `qm` uses (44_llr.md R312). -/
def llrSymbolMags (c : Llr) (m : Memory) (i : Nat) : Option (List CInt) :=
  collect ((llrMags c).map (fun b => (ldC16 m b.base i).map ofC16))

/-- The effect of `LLR` (44_llr.md R316). -/
def llrEffect (c : Llr) (s : State) : Option Effect :=
  let symbol := fun i =>
    match ldC16 s.dmem c.xBase i, llrSymbolMags c s.dmem i with
    | some x, some mags => some (llrSymbol (ofC16 x) mags)
    | _, _ => none
  (collectN c.n symbol).map fun out => storesOnly [(c.llrBase, out.flatten.flatMap bytes16)]

/-- `LLR` (44_llr.md R310, R316). -/
def execLlr (c : Llr) (s : State) : Host.Outcome State Fault Refusal := runCommand (llrChecks s.params c) (llrEffect c) s

end Sys2Proof.Machine
end

