-- ==== Sys2Proof/Machine/Float64.lean ====
section
/-! DEFINITION. The binary64 arithmetic of the MMSE floating-point path (43_mmse.md R289). A finite binary64 number is the
rational it denotes; each operation is the exact result rounded to nearest, ties to even, with 53 bits and the least exponent
-1074. R289 states that no operation overflows or yields NaN or infinity, so these have no representation, and the two zeros
are one (log 11). -/

namespace Sys2Proof.Machine

/-- `2^e` for an integer `e`. -/
def pow2 : Int → Rat
  | .ofNat k => ((2 ^ k : Nat) : Rat)
  | .negSucc k => 1 / ((2 ^ (k + 1) : Nat) : Rat)

/-- Round to the nearest integer, ties to even. -/
def halfEven (q : Rat) : Int :=
  let f := q.floor
  let r := q - f
  if r < 1 / 2 then f else if 1 / 2 < r then f + 1 else if f % 2 = 0 then f else f + 1

/-- The largest `e` with `2^e ≤ q`, for a positive `q`. -/
def ilog2 (q : Rat) : Int :=
  let e : Int := (Nat.log2 q.num.natAbs : Int) - (Nat.log2 q.den : Int)
  if q < pow2 e then e - 1 else e

/-- The binary64 number nearest to `q`, ties to even (43_mmse.md R289). -/
def roundF64 (q : Rat) : Rat :=
  if q = 0 then 0
  else
    let a := if q < 0 then -q else q
    let ulp := pow2 (max (ilog2 a - 52) (-1074))
    let m := (halfEven (a / ulp) : Rat) * ulp
    if q < 0 then -m else m

/-- `fadd` (43_mmse.md R289). -/
def fadd (a b : Rat) : Rat := roundF64 (a + b)

/-- `fsub` (43_mmse.md R289). -/
def fsub (a b : Rat) : Rat := roundF64 (a - b)

/-- `fmul` (43_mmse.md R289). -/
def fmul (a b : Rat) : Rat := roundF64 (a * b)

/-- `fdiv` (43_mmse.md R289), by a nonzero divisor. -/
def fdiv (a b : Rat) : Rat := roundF64 (a / b)

/-- A complex value with binary64 parts (00_scope.md R14). -/
structure CF64 where
  re : Rat
  im : Rat
deriving DecidableEq, Repr, Inhabited

/-- The binary64 complex of an integer complex: exact below 2^53 (43_mmse.md R289). -/
def cfOfInt (z : CInt) : CF64 := ⟨roundF64 z.re, roundF64 z.im⟩

/-- `cmul` of 43_mmse.md R289. -/
def cfmul (a b : CF64) : CF64 :=
  ⟨fsub (fmul a.re b.re) (fmul a.im b.im), fadd (fmul a.re b.im) (fmul a.im b.re)⟩

/-- `cadd` of 43_mmse.md R289. -/
def cfadd (a b : CF64) : CF64 := ⟨fadd a.re b.re, fadd a.im b.im⟩

/-- `csub` of 43_mmse.md R289. -/
def cfsub (a b : CF64) : CF64 := ⟨fsub a.re b.re, fsub a.im b.im⟩

/-- `cneg` of 43_mmse.md R289: exact. -/
def cfneg (a : CF64) : CF64 := ⟨-a.re, -a.im⟩

end Sys2Proof.Machine
end

