-- ==== Sys2Proof/Machine/Mmse.lean ====
section
/-! DEFINITION. `MMSE`, the MIMO equalizer (43_mmse.md): regularized Gram matrix, matched filter, cofactor inverse on the exact
fixed-point path and on the binary64 path, and the magnitude buffers. -/

namespace Sys2Proof.Machine

/-! ## Buffers and checks (43_mmse.md R280) -/

/-- `nmag` (43_mmse.md R280). -/
def mmseNmag (c : Mmse) : Nat := if c.magw then c.qm / 2 - 1 else 0

/-- `Y_rx` for each antenna (43_mmse.md R280), its base in unbounded integers. -/
def mmseY (c : Mmse) : List Buf := (List.range c.rx).map (fun r => ⟨1, c.yBase + 4 * r * c.yStride, .c16, c.nSc⟩)

def mmseH (c : Mmse) : Buf := ⟨2, c.hBase, .c16, c.layers * c.rx * c.nSc⟩

def mmseNv (c : Mmse) : Buf := ⟨3, c.nvBase, .u16, c.rx⟩

def mmseOut (c : Mmse) : Buf := ⟨4, c.outBase, .c16, c.layers * c.nSc⟩

def mmseMag (c : Mmse) : Buf := ⟨6, c.magBase, .c16, mmseNmag c * c.layers * c.nSc⟩

/-- A modulation order of the block (43_mmse.md R280, 44_llr.md R310, 45_layer_demap.md R330). -/
def isModOrder (qm : Nat) : Bool := qm == 2 || qm == 4 || qm == 6 || qm == 8

/-- The checks of `MMSE` in order (43_mmse.md R280). -/
def mmseChecks (p : Params) (c : Mmse) : List Check :=
  [(decide (c.layers = 0) || decide (p.maxLayers < c.layers), ⟨.badLayerCount, 0⟩),
   (decide (c.rx = 0) || decide (p.maxRx < c.rx), ⟨.badParam, 0⟩),
   (decide (c.nSc = 0), ⟨.badParam, 5⟩),
   (c.magw && !isModOrder c.qm, ⟨.badModOrder, 0⟩)]
  ++ bufferChecks p (mmseY c ++ [mmseH c, mmseNv c, mmseOut c, mmseMag c])
      ((mmseY c).map (·, mmseOut c) ++ [(mmseH c, mmseOut c), (mmseNv c, mmseOut c)]
        ++ (mmseY c).map (·, mmseMag c) ++ [(mmseH c, mmseMag c), (mmseNv c, mmseMag c), (mmseOut c, mmseMag c)])

/-! ## The regularized Gram matrix (43_mmse.md R282 to R284) -/

/-- A matrix of Gaussian integers, row and column from 0. -/
abbrev Mat := Nat → Nat → CInt

/-- `s2`, the mean of the antennas' noise variances rounded down (43_mmse.md R282). -/
def mmseS2 (nv : List Nat) : Nat := nv.sum / nv.length

/-- One term of a Gram or matched-filter sum after its right shift (43_mmse.md R283, R284). -/
def shiftTerm (shift0 : Nat) (t : CInt) : CInt := ⟨asr t.re shift0, asr t.im shift0⟩

/-- `sat32` on both parts. -/
def sat32c (z : CInt) : CInt := ⟨sat32 z.re, sat32 z.im⟩

/-- The saturated sum over the antennas of `conj(a) * b`, each term shifted (43_mmse.md R283, R284). -/
def innerProduct (shift0 : Nat) (a b : List CInt) : CInt :=
  sat32c (csum ((List.zipWith (fun x y => cmul (conj x) y) a b).map (shiftTerm shift0)))

/-- `G[i][j]` (43_mmse.md R283), with `cols` the channel's columns: `cols[l]` lists `H[rx][l]` over the antennas. -/
def gram (shift0 : Nat) (cols : List (List CInt)) : Mat := fun i j =>
  if i ≤ j then innerProduct shift0 (cols.getD i []) (cols.getD j [])
  else
    let g := innerProduct shift0 (cols.getD j []) (cols.getD i [])
    ⟨g.re, sat32 (-g.im)⟩

/-- The regularized matrix `A` (43_mmse.md R283). -/
def regularized (shift0 : Nat) (s2 : Nat) (cols : List (List CInt)) : Mat := fun i j =>
  if i = j then ⟨sat32 ((gram shift0 cols i i).re + s2), 0⟩ else gram shift0 cols i j

/-- The matched filter `z[j]` (43_mmse.md R284). -/
def matched (shift0 : Nat) (cols : List (List CInt)) (y : List CInt) (j : Nat) : CInt :=
  innerProduct shift0 (cols.getD j []) y

/-! ## The fixed-point path (43_mmse.md R285 to R287) -/

/-- Index `i` of a list with entry `r` removed. -/
def skip (r i : Nat) : Nat := if i < r then i else i + 1

/-- `minor(M, r, c)` (43_mmse.md R285). -/
def minor {α : Type} (M : Nat → Nat → α) (r c : Nat) : Nat → Nat → α := fun i j => M (skip r i) (skip c j)

/-- `det(M)` of an `n x n` matrix by expansion along row 0 (43_mmse.md R285). -/
def det : Nat → Mat → CInt
  | 0, _ => ⟨1, 0⟩
  | n + 1, M =>
    csum ((List.range (n + 1)).map (fun c =>
      let t := cmul (M 0 c) (det n (minor M 0 c))
      if c % 2 = 0 then t else cneg t))

/-- `C[j][l]`, the cofactor of an `n x n` matrix (43_mmse.md R285). -/
def cofactor (n : Nat) (M : Mat) (j l : Nat) : CInt :=
  let d := det (n - 1) (minor M j l)
  if (j + l) % 2 = 0 then d else cneg d

/-- The result for one subcarrier: per layer the equalized symbol and the gain, and whether the fallback was taken
(43_mmse.md R288). -/
structure SubResult where
  x : List CInt
  g : List Int
  fallback : Bool
deriving DecidableEq, Repr

/-- The fallback of a zero determinant (43_mmse.md R288). -/
def mmseFallback (layers : Nat) : SubResult := ⟨List.replicate layers ⟨0, 0⟩, List.replicate layers 0, true⟩

/-- `x[l]` from `num[l]` and `D` (43_mmse.md R286). -/
def fixedSymbol (oshift : Nat) (num d : CInt) : CInt :=
  let p := cmul num (conj d)
  ⟨sat16 (rnd (quot (p.re * 2 ^ oshift) (normSq d))), sat16 (rnd (quot (p.im * 2 ^ oshift) (normSq d)))⟩

/-- `g[l]` from `C[l][l]` and `D` (43_mmse.md R287). -/
def fixedGain (s2 : Nat) (cll d : CInt) : Int :=
  clamp (rnd (2 ^ 15 * (1 - quot (s2 * (cmul cll (conj d)).re) (normSq d)))) 0 32767

/-- The fixed-point result of one subcarrier from `A` and `z` (43_mmse.md R285 to R288). -/
def fixedSub (layers oshift s2 : Nat) (A : Mat) (z : Nat → CInt) : SubResult :=
  let d := det layers A
  if d = ⟨0, 0⟩ then mmseFallback layers
  else
    { x := (List.range layers).map (fun l =>
        fixedSymbol oshift (csum ((List.range layers).map (fun j => cmul (cofactor layers A j l) (z j)))) d)
      g := (List.range layers).map (fun l => fixedGain s2 (cofactor layers A l l) d)
      fallback := false }

/-! ## The binary64 path (43_mmse.md R289) -/

/-- A matrix of binary64 complex numbers. -/
abbrev MatF := Nat → Nat → CF64

/-- The loop of `detf`: the terms of columns `c, c + 1, …` added or subtracted in turn (43_mmse.md R289). -/
def detfLoop (term : Nat → CF64) : Nat → Nat → CF64 → CF64
  | 0, _, acc => acc
  | k + 1, c, acc => detfLoop term k (c + 1) (if c % 2 = 0 then cfadd acc (term c) else cfsub acc (term c))

/-- `detf(M)` of an `n x n` matrix, in the order of 43_mmse.md R289. -/
def detf : Nat → MatF → CF64
  | 0, _ => ⟨1, 0⟩
  | 1, M => M 0 0
  | n + 2, M =>
    detfLoop (fun c => cfmul (M 0 c) (detf (n + 1) (minor M 0 c))) (n + 1) 1 (cfmul (M 0 0) (detf (n + 1) (minor M 0 0)))

/-- `Cf[j][l]` (43_mmse.md R289). -/
def cofactorf (n : Nat) (M : MatF) (j l : Nat) : CF64 :=
  let d := detf (n - 1) (minor M j l)
  if (j + l) % 2 = 0 then d else cfneg d

/-- `numf[l]`: the first product, then the others added in order (43_mmse.md R289). -/
def numf (n : Nat) (M : MatF) (z : Nat → CF64) (l : Nat) : CF64 :=
  (List.range (n - 1)).foldl (fun acc j => cfadd acc (cfmul (cofactorf n M (j + 1) l) (z (j + 1))))
    (cfmul (cofactorf n M 0 l) (z 0))

/-- `x[l]` from `numf[l]`, `Df` and `q` (43_mmse.md R289). -/
def floatSymbol (oshift : Nat) (num d : CF64) (q : Rat) : CInt :=
  let xr := fdiv (fadd (fmul num.re d.re) (fmul num.im d.im)) q
  let xi := fdiv (fsub (fmul num.im d.re) (fmul num.re d.im)) q
  ⟨sat16 (rnd (xr * 2 ^ oshift)), sat16 (rnd (xi * 2 ^ oshift))⟩

/-- `g[l]` from `Cf[l][l]`, `Df` and `q` (43_mmse.md R289). -/
def floatGain (s2 : Rat) (cll d : CF64) (q : Rat) : Int :=
  let cr := fdiv (fadd (fmul cll.re d.re) (fmul cll.im d.im)) q
  clamp (rnd (fmul (fsub 1 (fmul s2 cr)) 32768)) 0 32767

/-- The binary64 result of one subcarrier from `A` and `z` (43_mmse.md R288, R289). -/
def floatSub (layers oshift s2 : Nat) (A : Mat) (z : Nat → CInt) : SubResult :=
  let M : MatF := fun i j => cfOfInt (A i j)
  let zf := fun j => cfOfInt (z j)
  let d := detf layers M
  let q := fadd (fmul d.re d.re) (fmul d.im d.im)
  if q = 0 then mmseFallback layers
  else
    { x := (List.range layers).map (fun l => floatSymbol oshift (numf layers M zf l) d q)
      g := (List.range layers).map (fun l => floatGain (roundF64 s2) (cofactorf layers M l l) d q)
      fallback := false }

/-! ## The whole command (43_mmse.md R290, R291) -/

/-- `A` tabulated, so that each of its entries is computed once. -/
def tabulate (n : Nat) (M : Mat) : Mat :=
  let rows := (List.range n).map (fun i => (List.range n).map (fun j => M i j))
  fun i j => (rows.getD i []).getD j ⟨0, 0⟩

/-- The result of one subcarrier from its received samples and channel columns (43_mmse.md R291). -/
def mmseSub (c : Mmse) (s2 : Nat) (y : List CInt) (cols : List (List CInt)) : SubResult :=
  let A := tabulate c.layers (regularized c.shift0 s2 cols)
  let z := matched c.shift0 cols y
  if c.fp then floatSub c.layers c.oshift s2 A z else fixedSub c.layers c.oshift s2 A z

/-- The received samples of subcarrier `k`, one per antenna (43_mmse.md R281). -/
def mmseRx (c : Mmse) (m : Memory) (k : Nat) : Option (List CInt) :=
  collectN c.rx (fun r => (ldC16 m (c.yBase + 4 * r * c.yStride) k).map ofC16)

/-- The channel columns of subcarrier `k`: for each layer `l` the values `H[rx][l]` over the antennas (43_mmse.md R281). -/
def mmseCols (c : Mmse) (m : Memory) (k : Nat) : Option (List (List CInt)) :=
  collectN c.layers (fun l => collectN c.rx (fun r => (ldC16 m c.hBase ((l * c.rx + r) * c.nSc + k)).map ofC16))

/-- The noise variances (43_mmse.md R281). -/
def mmseNoise (c : Mmse) (m : Memory) : Option (List Nat) := collectN c.rx (fun r => ldU16 m c.nvBase r)

/-- The results of every subcarrier (43_mmse.md R291). -/
def mmseSubs (c : Mmse) (m : Memory) : Option (List SubResult) :=
  match mmseNoise c m with
  | none => none
  | some nv =>
    collectN c.nSc (fun k =>
      match mmseRx c m k, mmseCols c m k with
      | some y, some cols => some (mmseSub c (mmseS2 nv) y cols)
      | _, _ => none)

/-- The sample of magnitude buffer `b` for a gain (43_mmse.md R290). -/
def magSample (thr b : Nat) (g : Int) : CInt :=
  let m := rnd (quot (g * asr thr b) (2 ^ 15))
  ⟨m, m⟩

/-- The samples of `OUT`: layer-major, subcarrier by subcarrier (43_mmse.md R281). -/
def mmseOutSamples (c : Mmse) (subs : List SubResult) : List CInt :=
  (List.range c.layers).flatMap (fun l => subs.map (fun r => r.x.getD l ⟨0, 0⟩))

/-- The samples of `MAG`: buffer by buffer, layer by layer (43_mmse.md R290). -/
def mmseMagSamples (c : Mmse) (subs : List SubResult) : List CInt :=
  (List.range (mmseNmag c)).flatMap (fun b =>
    (List.range c.layers).flatMap (fun l => subs.map (fun r => magSample c.thr b (r.g.getD l 0))))

/-- The effect of `MMSE` (43_mmse.md R291). -/
def mmseEffect (c : Mmse) (s : State) : Option Effect :=
  (mmseSubs c s.dmem).map fun subs =>
    { writes := [(c.outBase, (mmseOutSamples c subs).flatMap bytesC16), (c.magBase, (mmseMagSamples c subs).flatMap bytesC16)]
      warnings := (subs.filter (·.fallback)).length
      ldpcResult := none
      crcResult := none }

/-- `MMSE` (43_mmse.md R280, R291). -/
def execMmse (c : Mmse) (s : State) : Host.Outcome State Fault Refusal := runCommand (mmseChecks s.params c) (mmseEffect c) s

end Sys2Proof.Machine
end

