-- ==== Sys2Proof/Machine/Nop.lean ====
section
/-! DEFINITION. `NOP` (40_sequencing.md R225). -/

namespace Sys2Proof.Machine

/-- `NOP`: nothing; the command completes (40_sequencing.md R225). -/
def execNop (s : State) : Host.Outcome State Fault Refusal := runCommand [] (fun _ => some (storesOnly [])) s

end Sys2Proof.Machine
end

