-- ==== Sys2Proof/Machine/Dispatch.lean ====
section
/-! DEFINITION. `execute(verdict)` of 40_sequencing.md R221: one arm per command, each one call of its meaning. -/

namespace Sys2Proof.Machine

def exec (i : Instr) (s : State) : Host.Outcome State Fault Refusal :=
  match i with
  | .nop => Sys2Proof.Machine.execNop s
  | .fepRx c => Sys2Proof.Machine.execFepRx c s
  | .chest c => Sys2Proof.Machine.execChest c s
  | .mmse c => Sys2Proof.Machine.execMmse c s
  | .llr c => Sys2Proof.Machine.execLlr c s
  | .layerDemap c => Sys2Proof.Machine.execLayerDemap c s
  | .descramble c => Sys2Proof.Machine.execDescramble c s
  | .ldpcDec c => Sys2Proof.Machine.execLdpcDec c s
  | .crc24a c => Sys2Proof.Machine.execCrc24a c s

end Sys2Proof.Machine
end

