-- ==== Sys2Proof/Machine/HostBus.lean ====
section
/-! DEFINITION. The host bus (20_memory.md R126, R140 to R142, 60_exceptions.md R421), the register window (10_state.md R53 to R72)
and the two resets (70_reset_and_hazards.md R440, R442). -/

namespace Sys2Proof.Machine

/-! ## What a command checks and writes -/

/-- The checks of a command (40_sequencing.md R224). -/
def checksOf (p : Params) : Instr → List Check
  | .nop => []
  | .fepRx c => fepChecks p c
  | .chest c => chestChecks p c
  | .mmse c => mmseChecks p c
  | .llr c => llrChecks p c
  | .layerDemap c => demapChecks p c
  | .descramble c => descrambleChecks p c
  | .ldpcDec c => ldpcChecks p c
  | .crc24a c => crcChecks p c

/-- The output buffers of a command, by each command's own rule (20_memory.md R127). -/
def outputsOf : Instr → List Buf
  | .nop => []
  | .fepRx c => [fepFd c]
  | .chest c => [chestH c, chestNv c]
  | .mmse c => [mmseOut c, mmseMag c]
  | .llr c => [llrOut c]
  | .layerDemap c => [demapOut c]
  | .descramble c => [descrambleBuf c]
  | .ldpcDec c => [ldpcOut c, ldpcRes c]
  | .crc24a c => [crcRes c]

/-! ## Resets -/

/-- The registers, `phase` and `abort_pending` at their reset values (70_reset_and_hazards.md R440, R441); DMEM, the model's
own fields and the parameters are kept. The latch takes its reset value too (log 8). -/
def State.resetRegisters (s : State) : State :=
  { State.reset with
    dmem := s.dmem, losses := s.losses, hardResets := s.hardResets, turns := s.turns, midAbort := s.midAbort
    response := s.response, params := s.params }

/-- The hard reset (70_reset_and_hazards.md R440): registers reset, every DMEM byte unwritten. -/
def State.hardReset (s : State) : State :=
  { State.resetWith s.params with hardResets := s.hardResets + 1, turns := s.turns }

/-- The output buffers of the command at `pc`, if its fetch and checks pass (70_reset_and_hazards.md R442; log 14). -/
def State.interruptedOutputs (s : State) : List Buf :=
  if s.fetchInRange then
    match s.fetch with
    | none => []
    | some w =>
      match decode w with
      | .command i => if (firstError (checksOf s.params i)).isNone then outputsOf i else []
      | _ => []
  else []

/-- DMEM after every byte of the buffers is made unwritten. -/
def loseAll (m : Memory) : List Buf → Memory
  | [] => m
  | b :: bs => loseAll (m.lose b.base (bufBytes b)) bs

/-- The soft reset (70_reset_and_hazards.md R442): registers reset; while busy, the interrupted command's outputs become
unwritten. -/
def State.softReset (s : State) : State :=
  let lost := if s.busy then s.interruptedOutputs else []
  { s.resetRegisters with
    dmem := loseAll s.dmem lost
    losses := lost.map (fun b => (b.base, bufBytes b)) ++ s.losses }

/-! ## The register window (10_state.md R53) -/

/-- The value of the register at a word offset of the register window (10_state.md R53): a reserved bit and an unlisted offset
read 0. -/
def State.readReg (s : State) (off : Nat) : Word :=
  if off = 0x000 then s.params.hwId
  else if off = 0x004 then s.params.hwVersion
  else if off = 0x008 then capsWord s.params
  else if off = 0x00C then s.ctrlWord
  else if off = 0x010 then s.statusWord
  else if off = 0x014 then BitVec.ofNat 32 (errCodeVal s.errCode)
  else if off = 0x018 then s.errCmd
  else if off = 0x01C then s.errInfo.setWidth 32
  else if off = 0x020 then s.cmdBase
  else if off = 0x024 then s.cmdCount
  else if off = 0x028 then s.cmdPtr
  else if off = 0x02C then s.cmdDone
  else if off = 0x030 then irqWord s.irqEn
  else if off = 0x034 then irqWord s.irqStatus
  else if off = 0x038 then s.ldpcResult
  else if off = 0x03C then s.crcResult
  else if off = 0x040 then s.warnCount
  else 0

/-- A host write of `v` to `CTRL` (10_state.md R58). -/
def State.writeCtrl (s : State) (v : Word) : State :=
  if v.getLsbD 2 then s.softReset
  else if s.busy then (if v.getLsbD 1 then { s with abortPending := true } else s)
  else (if v.getLsbD 0 then s.startRun else s)

/-- A host write to the register at a word offset (10_state.md R53, R57 to R72): read-only registers, reserved bits and unlisted
offsets ignore it, `CMD_BASE` and `CMD_COUNT` while busy too (R72). -/
def State.writeReg (s : State) (off : Nat) (v : Word) : State :=
  if off = 0x00C then s.writeCtrl v
  else if off = 0x020 then (if s.busy then s else { s with cmdBase := v &&& 0xFFFFFFE0 })
  else if off = 0x024 then (if s.busy then s else { s with cmdCount := v })
  else if off = 0x030 then { s with irqEn := irqBitsOf v }
  else if off = 0x034 then
    let w := irqBitsOf v
    { s with irqStatus := ⟨s.irqStatus.done && !w.done, s.irqStatus.error && !w.error⟩ }
  else s

/-! ## The address map (20_memory.md R126, R140 to R142) -/

/-- The bytes of an access (20_memory.md R126); a wrong-width access transfers none (60_exceptions.md R421). -/
def accessBytes : AccessSize → Nat
  | .byte => 1
  | .half => 2
  | .word => 4
  | .other => 0

/-- Where an access goes (20_memory.md R140): an aligned 32-bit register access, an aligned DMEM access, or a bus error. -/
inductive Target where
  | register (off : Nat)
  | dmem (a : Nat)
  | busError
deriving DecidableEq, Repr

/-- The target of an access (10_state.md R53, 20_memory.md R126, R140 to R142, 60_exceptions.md R421). -/
def State.target (s : State) (off : Nat) (size : AccessSize) : Target :=
  if size = .other ∨ off % accessBytes size ≠ 0 then .busError
  else if off < 0x1000 then (if size = .word then .register off else .busError)
  else if 0x1000000 ≤ off ∧ off < 0x1000000 + s.params.dmemSize then
    (if s.busy then .busError else .dmem (off - 0x1000000))
  else .busError

/-- How many soft resets made an address unwritten since the last hard reset (log 4). -/
def lossCount (losses : List (Nat × Nat)) (a : Nat) : Nat :=
  (losses.filter (fun l => decide (l.1 ≤ a) && decide (a < l.1 + l.2))).length

/-- A byte as the host reads it (20_memory.md R121): the value, or for an unwritten byte a draw, the same on every read until
the byte is written (log 4). -/
def State.hostByte (s : State) (a : Nat) : Byte :=
  (s.dmem.read a).getD (Config.freeByte s.hardResets (lossCount s.losses a) a)

/-- The data of a host read of DMEM (20_memory.md R122, R126). -/
def State.hostLoad (s : State) (a n : Nat) : Word := BitVec.ofNat 32 (leNat ((List.range n).map (fun j => s.hostByte (a + j))))

/-- One access of the host (60_exceptions.md R421): its effect, and the bus response. -/
def State.hostAccess (s : State) : HostAccess → State
  | .read off size =>
    match s.target off size with
    | .register r => { s with response := some ⟨false, s.readReg r⟩ }
    | .dmem a => { s with response := some ⟨false, s.hostLoad a (accessBytes size)⟩ }
    | .busError => { s with response := some ⟨true, 0⟩ }
  | .write off size v =>
    match s.target off size with
    | .register r => { s.writeReg r v with response := some ⟨false, 0⟩ }
    | .dmem a => { s with dmem := s.dmem.store a (leBytes (accessBytes size) v.toNat), response := some ⟨false, 0⟩ }
    | .busError => { s with response := some ⟨true, 0⟩ }

end Sys2Proof.Machine
end

