-- ==== Sys2Proof/Machine/Engine.lean ====
section
/-! DEFINITION. The engine step (40_sequencing.md R221) and whose move the next step is (70_reset_and_hazards.md R462; log 5). -/

namespace Sys2Proof.Machine

/-- The fetched words go through the latch and are decoded from it (40_sequencing.md R221): an error of decoding halts the run,
else the command executes. -/
def State.executeLatched (s : State) : Host.Outcome State Fault Refusal :=
  match decode s.latch with
  | .illegalOpcode => .next (s.errorHalt ⟨.illegalOpcode, 0⟩)
  | .reservedNonzero k => .next (s.errorHalt ⟨.reservedNonzero, k⟩)
  | .command i => exec i s

/-- `engine_step()` (40_sequencing.md R221). -/
def State.engineStep (s : State) : Host.Outcome State Fault Refusal :=
  if s.cmdDone = s.cmdCount then .next s.haltNormal
  else if s.abortPending then .next s.haltAborted
  else if !s.fetchInRange then .next (s.errorHalt ⟨.fetchRange, 0⟩)
  else
    match s.fetch with
    | none => .fault (.uninitRead s.cmdDone s.cmdPtr)
    | some w => { s with latch := w }.executeLatched

/-- The engine's move (40_sequencing.md R221): a step while running; nothing while idle (70_reset_and_hazards.md R443; log 5). -/
def State.engineMove (s : State) : Host.Outcome State Fault Refusal :=
  if s.busy then s.engineStep else .next s

/-- The end of a step inside which the host wrote `CTRL = ABORT` (10_state.md R58): pending if the engine is still busy. -/
def State.landAbort (s : State) : State :=
  { s with midAbort := none, abortPending := s.abortPending || s.busy }

/-- A function on the next state of an outcome. -/
def mapNext (f : State → State) : Host.Outcome State Fault Refusal → Host.Outcome State Fault Refusal
  | .next s => .next (f s)
  | .fault r => .fault r
  | .refused r => .refused r

/-- The engine's move with the host's `CTRL = ABORT` write inside it, in iteration `iter` of an LDPC_DEC (60_exceptions.md R414,
70_reset_and_hazards.md R462; log 6). While the engine is idle the write is ignored (10_state.md R58). -/
def State.engineMoveAborted (s : State) (iter : Nat) : Host.Outcome State Fault Refusal :=
  if s.busy then mapNext State.landAbort { s with midAbort := some iter }.engineStep else .next s

/-- One move (log 5): the first of `turns`, or the engine's when there is none. -/
def State.move (s : State) : Host.Outcome State Fault Refusal :=
  match s.turns with
  | [] => s.engineMove
  | .engine :: rest => { s with turns := rest }.engineMove
  | .engineAbort k :: rest => { s with turns := rest }.engineMoveAborted k
  | .host a :: rest => .next ({ s with turns := rest }.hostAccess a)
  | .hardReset :: rest => .next { s with turns := rest }.hardReset

/-- A state whose next step fetches and runs the command of eight words: the words at `pc` (0 if 32 bytes there would not lie
inside DMEM), the engine running with one command left, no abort pending and no other move before it (log 5). -/
def State.placeCommand (s : State) (w : CmdWords) : State :=
  let pc : Word := if s.fetchInRange then s.cmdPtr else 0
  { s with
    phase := .run, abortPending := false, cmdPtr := pc, cmdCount := s.cmdDone + 1, turns := [], midAbort := none
    dmem := s.dmem.store pc.toNat (cmdBytes w) }

end Sys2Proof.Machine
end

