-- ==== Sys2Proof/Machine/Step.lean ====
section
/-! DEFINITION. The machine's step and the placing of one instruction where it fetches next. -/

namespace Sys2Proof.Machine

/-- One step: one move of the engine, the host or the platform (70_reset_and_hazards.md R462; log 5). -/
def step (s : State) : Host.Outcome State Fault Refusal := s.move

/-- `s` with the instruction whose bits are `w` where the next step fetches, and all that makes that step run it (log 5). -/
def State.withFetchWord (s : State) (nbits w : Nat) : State := s.placeCommand (tableWords nbits w)

/-- The machine built with the parameters `p` (00_scope.md R9; log 1): it starts at the reset state that holds them, and every step
takes them from the state. The host's `core` is the one with the defaults. -/
def coreWith (p : Params) : Host.Core :=
  { State := State, Fault := Fault, Refusal := Refusal, step := step, reset := State.resetWith p }

end Sys2Proof.Machine
end

