-- ==== Sys2Proof/Safety.lean ====
section
/-! DEFINITION. The terms the statements use, each written from its rule: when a command is legal and which error it reports
otherwise, which buffers it reads and writes, what completing leaves, the invariant of the block, and reference forms of the
rounding, of the sequences and of the decoder that are independent of the functions the machine computes with. -/

namespace Sys2Proof.Machine

/-! ## Buffers (20_memory.md R130 to R134) -/

/-- The alignment check passes (20_memory.md R131). -/
abbrev bufAligned (b : Buf) : Prop := bufBytes b = 0 ∨ b.base % elemAlign b.elem = 0

/-- The range check passes (20_memory.md R132). -/
abbrev bufInRange (p : Params) (b : Buf) : Prop := bufBytes b = 0 ∨ b.base + bufBytes b ≤ p.dmemSize

/-- The overlap check of a pair passes (20_memory.md R133): the two buffers share no byte. -/
abbrev bufsDisjoint (p : Buf × Buf) : Prop :=
  bufBytes p.1 = 0 ∨ bufBytes p.2 = 0 ∨ p.1.base + bufBytes p.1 ≤ p.2.base ∨ p.2.base + bufBytes p.2 ≤ p.1.base

/-- Every buffer check passes (20_memory.md R134). -/
abbrev buffersLegal (p : Params) (bufs : List Buf) (pairs : List (Buf × Buf)) : Prop :=
  (∀ b ∈ bufs, bufAligned b) ∧ (∀ b ∈ bufs, bufInRange p b) ∧ (∀ pair ∈ pairs, bufsDisjoint pair)

/-- The input buffers of a command (20_memory.md R127), by each command's own rule. -/
def inputsOf : Instr → List Buf
  | .nop => []
  | .fepRx c => [fepTd c]
  | .chest c => chestY c :: chestP c
  | .mmse c => mmseY c ++ [mmseH c, mmseNv c]
  | .llr c => llrX c :: llrMags c
  | .layerDemap c => demapLayers c
  | .descramble c => [descrambleBuf c]
  | .ldpcDec c => [ldpcIn c]
  | .crc24a c => [crcData c]

/-- The buffers of a command in the order its rule lists them: the inputs, then the outputs; the in-place buffer once. -/
def buffersOf : Instr → List Buf
  | .descramble c => [descrambleBuf c]
  | i => inputsOf i ++ outputsOf i

/-- The pairs of buffers that must not share a byte, in the order of the command's rule (20_memory.md R133): for each output,
every input with it, then the outputs among each other where the rule lists them. -/
def pairsOf : Instr → List (Buf × Buf)
  | .nop => []
  | .fepRx c => [(fepTd c, fepFd c)]
  | .chest c =>
    [(chestY c, chestH c)] ++ (chestP c).map (fun p => (p, chestH c)) ++ [(chestY c, chestNv c)]
      ++ (chestP c).map (fun p => (p, chestNv c)) ++ [(chestH c, chestNv c)]
  | .mmse c =>
    (mmseY c ++ [mmseH c, mmseNv c]).map (fun b => (b, mmseOut c))
      ++ (mmseY c ++ [mmseH c, mmseNv c, mmseOut c]).map (fun b => (b, mmseMag c))
  | .llr c => (llrX c :: llrMags c).map (fun b => (b, llrOut c))
  | .layerDemap c => (demapLayers c).map (fun b => (b, demapOut c))
  | .descramble _ => []
  | .ldpcDec c => [(ldpcIn c, ldpcOut c), (ldpcIn c, ldpcRes c), (ldpcOut c, ldpcRes c)]
  | .crc24a c => [(crcData c, crcRes c)]

/-! ## Legal commands: the field checks of each rule, as what must hold -/

/-- `qm` is 2, 4, 6 or 8. -/
abbrev modOrder (qm : Nat) : Prop := qm = 2 ∨ qm = 4 ∨ qm = 6 ∨ qm = 8

/-- The field checks of 41_fep.md R241 pass. -/
abbrev fepLegal (c : FepRx) : Prop :=
  c.sizeClass ≤ 10 ∧ c.symbol ≤ 13 ∧ c.offsetDiv ≠ 0 ∧ c.firstSc < fftSize c.sizeClass
    ∧ c.nSc ≠ 0 ∧ c.nSc ≤ fftSize c.sizeClass
    ∧ c.cp / c.offsetDiv ≤ c.slotOffset + c.symbol * fftSize c.sizeClass + c.cp0 + c.symbol * c.cp
    ∧ c.slotOffset + c.symbol * fftSize c.sizeClass + c.cp0 + c.symbol * c.cp - c.cp / c.offsetDiv
        + fftSize c.sizeClass ≤ c.tdLen

/-- The field checks of 42_chest.md R260 pass. -/
abbrev chestLegal (c : Chest) : Prop :=
  c.nSc ≠ 0 ∧ c.nP ≠ 0 ∧ c.stride ≠ 0 ∧ c.start + (c.nP - 1) * c.stride < c.nSc

/-- The field checks of 43_mmse.md R280 pass. -/
abbrev mmseLegal (p : Params) (c : Mmse) : Prop :=
  c.layers ≠ 0 ∧ c.layers ≤ p.maxLayers ∧ c.rx ≠ 0 ∧ c.rx ≤ p.maxRx ∧ c.nSc ≠ 0 ∧ (c.magw = true → modOrder c.qm)

/-- The field checks of 45_layer_demap.md R330 pass: exactly one codeword flag is not -1. -/
abbrev demapLegal (c : LayerDemap) : Prop :=
  c.nl ≠ 0 ∧ c.nl ≤ 4 ∧ modOrder c.qm ∧ ((c.cw0Flag ≠ -1 ∧ c.cw1Flag = -1) ∨ (c.cw0Flag = -1 ∧ c.cw1Flag ≠ -1))
    ∧ c.totalLen % (c.nl * c.qm) = 0

/-- The lifting sizes (47_ldpc.md R362): `a * 2^j` up to 384. -/
abbrev liftingSize (zc : Nat) : Prop :=
  zc ≤ 384 ∧ ∃ a ∈ [2, 3, 5, 7, 9, 11, 13, 15], ∃ j < 9, zc = a * 2 ^ j

/-- The field checks of 47_ldpc.md R360 pass. -/
abbrev ldpcLegal (c : LdpcDec) : Prop :=
  c.maxIter ≠ 0 ∧ liftingSize c.zc ∧ c.e ≠ 0 ∧ c.e ≤ (ldpcNb c.bg - 2) * c.zc

/-- The field checks of a command pass. -/
def fieldsLegal (p : Params) : Instr → Prop
  | .nop => True
  | .fepRx c => fepLegal c
  | .chest c => chestLegal c
  | .mmse c => mmseLegal p c
  | .llr c => modOrder c.qm
  | .layerDemap c => demapLegal c
  | .descramble c => c.nId ≤ 1023
  | .ldpcDec c => ldpcLegal c
  | .crc24a c => c.mode = .verify → 24 ≤ c.nbits

/-- Every check of a command passes (40_sequencing.md R224) on a block with the given parameters. -/
def legal (p : Params) (i : Instr) : Prop := fieldsLegal p i ∧ buffersLegal p (buffersOf i) (pairsOf i)

/-! ## The error reported (60_exceptions.md R402) -/

/-- The first failing field check of a command, in the order of its rule. -/
def fieldError (p : Params) : Instr → Option CmdError
  | .nop => none
  | .fepRx c =>
    if c.sizeClass > 10 then some ⟨.badFftSize, 0⟩
    else if c.symbol > 13 then some ⟨.badParam, 0⟩
    else if c.offsetDiv = 0 then some ⟨.badParam, 5⟩
    else if c.firstSc ≥ fftSize c.sizeClass then some ⟨.badParam, 7⟩
    else if c.nSc = 0 ∨ c.nSc > fftSize c.sizeClass then some ⟨.badParam, 7⟩
    else if c.slotOffset + c.symbol * fftSize c.sizeClass + c.cp0 + c.symbol * c.cp < c.cp / c.offsetDiv
        ∨ c.slotOffset + c.symbol * fftSize c.sizeClass + c.cp0 + c.symbol * c.cp - c.cp / c.offsetDiv
            + fftSize c.sizeClass > c.tdLen then some ⟨.fepWindow, 3⟩
    else none
  | .chest c =>
    if c.nSc = 0 then some ⟨.badParam, 5⟩
    else if c.nP = 0 then some ⟨.badParam, 5⟩
    else if c.stride = 0 then some ⟨.badParam, 6⟩
    else if c.start + (c.nP - 1) * c.stride ≥ c.nSc then some ⟨.badParam, 6⟩
    else none
  | .mmse c =>
    if c.layers = 0 ∨ c.layers > p.maxLayers then some ⟨.badLayerCount, 0⟩
    else if c.rx = 0 ∨ c.rx > p.maxRx then some ⟨.badParam, 0⟩
    else if c.nSc = 0 then some ⟨.badParam, 5⟩
    else if c.magw = true ∧ ¬ modOrder c.qm then some ⟨.badModOrder, 0⟩
    else none
  | .llr c => if ¬ modOrder c.qm then some ⟨.badModOrder, 0⟩ else none
  | .layerDemap c =>
    if c.nl = 0 ∨ c.nl > 4 then some ⟨.badLayerCount, 0⟩
    else if ¬ modOrder c.qm then some ⟨.badModOrder, 0⟩
    else if (c.cw0Flag = -1 ∧ c.cw1Flag = -1) ∨ (c.cw0Flag ≠ -1 ∧ c.cw1Flag ≠ -1) then some ⟨.badCodewordFlags, 0⟩
    else if c.totalLen % (c.nl * c.qm) ≠ 0 then some ⟨.badParam, 5⟩
    else none
  | .descramble c => if c.nId > 1023 then some ⟨.badParam, 3⟩ else none
  | .ldpcDec c =>
    if c.maxIter = 0 then some ⟨.badParam, 0⟩
    else if ¬ liftingSize c.zc then some ⟨.badLdpcParams, 5⟩
    else if c.e = 0 ∨ c.e > (ldpcNb c.bg - 2) * c.zc then some ⟨.badParam, 2⟩
    else none
  | .crc24a c => if c.mode = .verify ∧ c.nbits < 24 then some ⟨.badParam, 2⟩ else none

/-- The first failing buffer check (20_memory.md R134): the first misaligned buffer, else the first out of range, else the first
pair that shares a byte, which names the word of its second buffer. -/
def bufferError (p : Params) (bufs : List Buf) (pairs : List (Buf × Buf)) : Option CmdError :=
  ((bufs.find? (fun b => decide (¬ bufAligned b))).map (fun b => ⟨.misaligned, b.word⟩)).or
    (((bufs.find? (fun b => decide (¬ bufInRange p b))).map (fun b => ⟨.addrRange, b.word⟩)).or
      ((pairs.find? (fun q => decide (¬ bufsDisjoint q))).map (fun q => ⟨.overlap, q.2.word⟩)))

/-- The error a command reports (60_exceptions.md R402); `none` when it is legal. -/
def reportedError (p : Params) (i : Instr) : Option CmdError :=
  (fieldError p i).or (bufferError p (buffersOf i) (pairsOf i))

/-! ## What a command leaves -/

/-- Every byte outside the buffers reads as before (20_memory.md R127). -/
def sameOutside (bufs : List Buf) (s t : State) : Prop :=
  ∀ a, (∀ b ∈ bufs, ¬ (b.base ≤ a ∧ a < b.base + bufBytes b)) → t.dmem.read a = s.dmem.read a

/-- `t` is `s` after a completed command, but for DMEM: `CMD_DONE` and `pc` advance (40_sequencing.md R221), the two result
registers hold the given words, and `warn()` was called `warnings` times (60_exceptions.md R410); nothing else differs. -/
def completed (s t : State) (ldpc crc : Word) (warnings : Nat) : Prop :=
  t = { s with
    dmem := t.dmem, cmdDone := s.cmdDone + 1, cmdPtr := s.cmdPtr + 32, ldpcResult := ldpc, crcResult := crc
    numwarn := s.numwarn || decide (0 < warnings)
    warnCount := BitVec.ofNat 32 (min (s.warnCount.toNat + warnings) 0xFFFFFFFF) }

/-- The state after `error_halt(code, word)` (60_exceptions.md R406). -/
def afterError (code : ErrCode) (word : BitVec 3) (s : State) : State :=
  { s with
    errCode := code, errInfo := word, errCmd := s.cmdDone, error := true
    irqStatus := ⟨s.irqStatus.done, true⟩, abortPending := false, phase := .idle }

/-- The 32 bytes of a command stand at `pc` (40_sequencing.md R221, 20_memory.md R123). -/
def commandAt (s : State) (w : CmdWords) : Prop :=
  s.cmdPtr.toNat + 32 ≤ s.params.dmemSize ∧ ∀ j < 32, s.dmem.read (s.cmdPtr.toNat + j) = (cmdBytes w)[j]?

/-- The engine is about to fetch: running, a command left, no abort pending, and no other move before the engine's. -/
abbrev aboutToFetch (s : State) : Prop :=
  s.turns = [] ∧ s.phase = .run ∧ s.cmdDone ≠ s.cmdCount ∧ s.abortPending = false

/-- Element `i` of a `C16` buffer at `b` is the pair of integers `z` (20_memory.md R129). -/
abbrev holdsC16 (m : Memory) (b i : Nat) (z : CInt) : Prop := (ldC16 m b i).map ofC16 = some z

/-! ## Reserved bits (30_encoding.md R175 to R184) -/

/-- Word `k` of a command. -/
def wordOf (w : CmdWords) (k : Nat) : Word := [w.w0, w.w1, w.w2, w.w3, w.w4, w.w5, w.w6, w.w7].getD k 0

/-- The fields the tables mark `res`, by opcode, as (word, low bit, high bit). -/
def reservedFields : Nat → List (Nat × Nat × Nat)
  | 0 => [(0, 8, 31), (1, 0, 31), (2, 0, 31), (3, 0, 31), (4, 0, 31), (5, 0, 31), (6, 0, 31), (7, 0, 31)]
  | 1 => [(0, 13, 15), (0, 20, 31), (5, 16, 31)]
  | 2 => [(0, 16, 31), (7, 0, 31)]
  | 3 => [(0, 30, 31), (7, 15, 31)]
  | 4 => [(0, 12, 31), (7, 0, 31)]
  | 5 => [(6, 0, 31), (7, 0, 31)]
  | 6 => [(0, 9, 31), (4, 0, 31), (5, 0, 31), (6, 0, 31), (7, 0, 31)]
  | 7 => [(0, 11, 11), (0, 24, 31), (5, 16, 31), (6, 0, 31), (7, 0, 31)]
  | 8 => [(0, 9, 31), (4, 0, 31), (5, 0, 31), (6, 0, 31), (7, 0, 31)]
  | _ => []

/-- Word `k` has a reserved bit that is 1 (30_encoding.md R175). -/
abbrev reservedSet (w : CmdWords) (k : Nat) : Prop :=
  ∃ f ∈ reservedFields (w.w0.toNat % 256), f.1 = k ∧ ∃ b < 32, f.2.1 ≤ b ∧ b ≤ f.2.2 ∧ (wordOf w k).getLsbD b = true

/-! ## The invariant -/

/-- What holds of the block after every step (10_state.md R53 to R77; the memory's form and `midAbort` are the model's own). -/
structure Invariant (s : State) : Prop where
  /-- the parameters are ones a block may have (00_scope.md R9) -/
  parameters : s.params.legal
  /-- the memory is in its canonical form -/
  canonical : s.dmem.wf = true
  /-- every DMEM address is below `DMEM_SIZE` (20_memory.md R120) -/
  addresses : ∀ c ∈ s.dmem, c.1 < s.params.dmemSize
  /-- `CMD_BASE[4:0]` read 0 (10_state.md R63) -/
  baseAligned : s.cmdBase.toNat % 32 = 0
  /-- `CMD_PTR` is always a multiple of 32 (10_state.md R65) -/
  ptrAligned : s.cmdPtr.toNat % 32 = 0
  /-- an abort is pending only while running (10_state.md R58, R76) -/
  pendingBusy : s.abortPending = true → s.phase = .run
  /-- `DONE` and `ERROR` are never both 1 (10_state.md R59) -/
  doneNotError : ¬ (s.done = true ∧ s.error = true)
  /-- `ABORTED` comes with `DONE` (10_state.md R59) -/
  abortedDone : s.aborted = true → s.done = true
  /-- no outcome bit is set while a run goes on (40_sequencing.md R220) -/
  runClear : s.phase = .run → s.done = false ∧ s.error = false
  /-- `ERR_CODE` is 0 exactly when the last run did not end in error (10_state.md R60) -/
  errorCode : s.error = true ↔ s.errCode ≠ .none
  /-- `ERR_CMD` is the `CMD_DONE` of the error (10_state.md R61) -/
  errorCmd : s.error = true → s.errCmd = s.cmdDone
  /-- no error, nothing recorded (10_state.md R61, R62) -/
  noError : s.error = false → s.errCmd = 0 ∧ s.errInfo = 0
  /-- `NUMWARN` says that `WARN_COUNT` is not 0 (60_exceptions.md R410) -/
  warned : s.numwarn = true ↔ s.warnCount ≠ 0
  /-- at most `CMD_COUNT` commands are executed (40_sequencing.md R222) -/
  runCount : s.phase = .run → s.cmdDone.toNat ≤ s.cmdCount.toNat
  /-- while running, `pc = CMD_BASE + 32 * CMD_DONE` (40_sequencing.md R222) -/
  runPtr : s.phase = .run → s.cmdPtr.toNat = s.cmdBase.toNat + 32 * s.cmdDone.toNat
  /-- no abort is inside a step between steps (log 6) -/
  noMidAbort : s.midAbort = none

/-! ## Reference forms -/

/-- `rnd(a / b)` for a positive `b`, in integers: `sign(a) * floor((2*|a| + b) / (2*b))` (00_scope.md R13). -/
def rndDiv (a b : Int) : Int := a.sign * ((2 * (a.natAbs : Int) + b) / (2 * b))

/-- `x1(n)` (46_descramble.md R347). -/
def x1Seq : Nat → Bool
  | n + 31 => x1Seq (n + 3) ^^ x1Seq n
  | 0 => true
  | _ => false

/-- `x2(n)` for a seed (46_descramble.md R347). -/
def x2Seq (seed : Nat) : Nat → Bool
  | n + 31 => x2Seq seed (n + 3) ^^ x2Seq seed (n + 2) ^^ x2Seq seed (n + 1) ^^ x2Seq seed n
  | n => seed.testBit n

/-- `c(n)` for a seed (46_descramble.md R347). -/
def goldSeq (seed n : Nat) : Bool := x1Seq (n + 1600) ^^ x2Seq seed (n + 1600)

/-- The CRC register after the first `n` bits of `b`, from the preset `CRC_INIT` (48_crc.md R391, R392). -/
def crcReg (init : BitVec 24) (b : Nat → Bool) : Nat → BitVec 24
  | 0 => init
  | n + 1 =>
    if (crcReg init b n).getLsbD 23 ^^ b n then crcReg init b n <<< 1 ^^^ 0x864CFB else crcReg init b n <<< 1

/-- `trailing` of a bit sequence of length `n` (48_crc.md R394). -/
def trailing (b : Nat → Bool) (n : Nat) : Nat := ∑ t ∈ Finset.range 24, (if b (n - 24 + t) then 2 ^ (23 - t) else 0)

/-! ### The channel estimate (42_chest.md R262 to R266) -/

/-- `H_ls` of a received sample and a pilot (42_chest.md R262). -/
def specLs (y p : CInt) : CInt :=
  if p.re ^ 2 + p.im ^ 2 = 0 then ⟨0, 0⟩
  else
    ⟨satsym15 (rndDiv ((y.re * p.re + y.im * p.im) * 2 ^ 15) (p.re ^ 2 + p.im ^ 2)),
     satsym15 (rndDiv ((y.im * p.re - y.re * p.im) * 2 ^ 15) (p.re ^ 2 + p.im ^ 2))⟩

/-- `H_avg` (42_chest.md R263). -/
def specAvg (n : Nat) (ys ps : Nat → CInt) : CInt :=
  ⟨rndDiv (∑ m ∈ Finset.range n, (specLs (ys m) (ps m)).re) n, rndDiv (∑ m ∈ Finset.range n, (specLs (ys m) (ps m)).im) n⟩

/-- `e[m].re^2 + e[m].im^2` (42_chest.md R265). -/
def specResidual (avg y p : CInt) : Int :=
  (y.re - rndDiv (avg.re * p.re - avg.im * p.im) (2 ^ 15)) ^ 2
    + (y.im - rndDiv (avg.re * p.im + avg.im * p.re) (2 ^ 15)) ^ 2

/-- The noise variance with `nv_en = 1` (42_chest.md R265). -/
def specNoise (n shift : Nat) (ys ps : Nat → CInt) : Int :=
  min ((∑ m ∈ Finset.range n, specResidual (specAvg n ys ps) (ys m) (ps m)) / n / 2 ^ shift) 65535

/-! ### The reference DFT (41_fep.md R247) -/

/-- `rnd` on reals (00_scope.md R13). -/
def IsRndReal (x : ℝ) (v : Int) : Prop := v = if x < 0 then -⌊-x + 1 / 2⌋ else ⌊x + 1 / 2⌋

/-- `S[k]` of an input (41_fep.md R247). -/
def IsDftSum (N : Nat) (scale : Bool) (x : List C16) (k : Nat) (S : ℂ) : Prop :=
  S = (if scale then 1 / (Real.sqrt N : ℂ) else 1)
    * ∑ n ∈ Finset.range N, (((x.getD n ⟨0, 0⟩).re.toInt : ℂ) + ((x.getD n ⟨0, 0⟩).im.toInt : ℂ) * Complex.I)
        * Complex.exp (-2 * Real.pi * Complex.I * k * n / N)

/-- `z` is bin `k` of the reference DFT (41_fep.md R247). -/
def isReferenceBin (N : Nat) (scale : Bool) (x : List C16) (k : Nat) (z : C16) : Prop :=
  ∃ (S : ℂ) (re im : Int), IsDftSum N scale x k S ∧ IsRndReal S.re re ∧ IsRndReal S.im im
    ∧ ofC16 z = ⟨sat16 re, sat16 im⟩

/-! ### The ring distance (44_llr.md R312) -/

/-- `sat16(mag - abs16(x))`. -/
def specRing (mag x : Int) : Int := sat16 (mag - min |x| 32767)

/-! ### The Gram matrix and the matched filter (43_mmse.md R283, R284) -/

/-- `t` and `u` of 43_mmse.md R283, R284: `conj(a) * b`, part by part, shifted right by `shift0`, summed over the antennas and
saturated. -/
def specInner (shift0 antennas : Nat) (a b : Nat → CInt) : CInt :=
  ⟨sat32 (∑ rx ∈ Finset.range antennas, ((a rx).re * (b rx).re + (a rx).im * (b rx).im) / 2 ^ shift0),
   sat32 (∑ rx ∈ Finset.range antennas, ((a rx).re * (b rx).im - (a rx).im * (b rx).re) / 2 ^ shift0)⟩

/-- `G[i][j]` (43_mmse.md R283), with `h l rx` the channel from layer `l` to antenna `rx`. -/
def specGram (shift0 antennas : Nat) (h : Nat → Nat → CInt) (i j : Nat) : CInt :=
  if i ≤ j then specInner shift0 antennas (h i) (h j)
  else ⟨(specInner shift0 antennas (h j) (h i)).re, sat32 (-(specInner shift0 antennas (h j) (h i)).im)⟩

/-- `A[i][j]` (43_mmse.md R283). -/
def specA (shift0 antennas s2 : Nat) (h : Nat → Nat → CInt) : Mat := fun i j =>
  if i = j then ⟨sat32 ((specGram shift0 antennas h i i).re + s2), 0⟩ else specGram shift0 antennas h i j

/-- The result of a subcarrier from `A` and `z`: the binary64 path or the fixed path (43_mmse.md R291). -/
def subOf (c : Mmse) (s2 : Nat) (A : Mat) (z : Nat → CInt) : SubResult :=
  if c.fp then floatSub c.layers c.oshift s2 A z else fixedSub c.layers c.oshift s2 A z

/-- A pair of integers as a Gaussian integer. -/
def gauss (z : CInt) : GaussianInt := ⟨z.re, z.im⟩

/-- The leading `n x n` part of a matrix over the Gaussian integers. -/
def gaussMatrix (n : Nat) (M : Mat) : Matrix (Fin n) (Fin n) GaussianInt := fun i j => gauss (M i j)

/-! ### Binary64 (43_mmse.md R289) -/

/-- The finite binary64 numbers with no bound on the exponent from above: `m * 2^e` with 53 bits and `e` at least -1074. -/
def IsF64 (v : Rat) : Prop := ∃ (m e : Int), v = m * (2 : Rat) ^ e ∧ m.natAbs < 2 ^ 53 ∧ -1074 ≤ e

/-- A pair of integers as a binary64 complex, "converted exactly". -/
def refExact (z : CInt) : CF64 := ⟨z.re, z.im⟩

/-- `cmul` in binary64, each operation rounded. -/
def refMul (a b : CF64) : CF64 :=
  ⟨roundF64 (roundF64 (a.re * b.re) - roundF64 (a.im * b.im)), roundF64 (roundF64 (a.re * b.im) + roundF64 (a.im * b.re))⟩

/-- `cadd` in binary64. -/
def refAdd (a b : CF64) : CF64 := ⟨roundF64 (a.re + b.re), roundF64 (a.im + b.im)⟩

/-- `csub` in binary64. -/
def refSub (a b : CF64) : CF64 := ⟨roundF64 (a.re - b.re), roundF64 (a.im - b.im)⟩

/-- `detf` of a square matrix, in the order of 43_mmse.md R289: the product of column 0, then for columns 1, 2, … the product
subtracted (odd column) or added (even column); the minor of column `c` skips row 0 and column `c`. -/
def refDet : (n : Nat) → Matrix (Fin n) (Fin n) CF64 → CF64
  | 0, _ => ⟨1, 0⟩
  | 1, M => M 0 0
  | n + 2, M =>
    Fin.foldl (n + 1)
      (fun acc c =>
        let t := refMul (M 0 c.succ) (refDet (n + 1) (M.submatrix Fin.succ c.succ.succAbove))
        if c.val % 2 = 0 then refSub acc t else refAdd acc t)
      (refMul (M 0 0) (refDet (n + 1) (M.submatrix Fin.succ Fin.succ)))

/-- `Cf[j][l]` (43_mmse.md R289). -/
def refCofactor {n : Nat} (M : Matrix (Fin (n + 1)) (Fin (n + 1)) CF64) (j l : Fin (n + 1)) : CF64 :=
  let d := refDet n (M.submatrix j.succAbove l.succAbove)
  if Even (j.val + l.val) then d else ⟨-d.re, -d.im⟩

/-- `numf[l]`: the product of row 0, then those of rows 1, 2, … added in turn (43_mmse.md R289). -/
def refNum {n : Nat} (M : Matrix (Fin (n + 1)) (Fin (n + 1)) CF64) (z : Fin (n + 1) → CF64) (l : Fin (n + 1)) : CF64 :=
  Fin.foldl n (fun acc j => refAdd acc (refMul (refCofactor M j.succ l) (z j.succ))) (refMul (refCofactor M 0 l) (z 0))

/-- The quotients `xr` and `xi` of 43_mmse.md R289 (`cr` is the first of them for a cofactor). -/
def refQuotient (num d : CF64) (q : Rat) : CF64 :=
  ⟨roundF64 (roundF64 (roundF64 (num.re * d.re) + roundF64 (num.im * d.im)) / q),
   roundF64 (roundF64 (roundF64 (num.im * d.re) - roundF64 (num.re * d.im)) / q)⟩

/-- `rnd` of a rational as 00_scope.md R13 writes it: `sign(q) * floor(|q| + 1/2)`. -/
def rndRat (q : Rat) : Int := if q < 0 then -⌊-q + 1 / 2⌋ else ⌊q + 1 / 2⌋

/-! ### The decoder (47_ldpc.md R363 to R371) -/

/-- A base-graph table (47_ldpc.md R364). -/
abbrev BgTable := BaseGraph → Nat → Nat → Nat → Option Nat

/-- The set index of a lifting size (47_ldpc.md R362): the place of its `a`. -/
def setIndex (zc : Nat) : Nat :=
  [2, 3, 5, 7, 9, 11, 13, 15].findIdx (fun a => (List.range 9).any (fun j => zc == a * 2 ^ j))

/-- Check `k` is joined to variable `v` (47_ldpc.md R365): `k = i*Zc + r`, `v = j*Zc + ((r + (V mod Zc)) mod Zc)`. -/
def joined (table : BgTable) (c : LdpcDec) (k v : Nat) : Bool :=
  match table c.bg (setIndex c.zc) (k / c.zc) (v / c.zc) with
  | none => false
  | some shift => v % c.zc == (k % c.zc + shift % c.zc) % c.zc

/-- `lam[v]` of an input (47_ldpc.md R363). -/
def specLam (c : LdpcDec) (ins : Nat → Int) (v : Nat) : Int :=
  if v < 2 * c.zc then 0 else if v < 2 * c.zc + c.e then sat127 (ins (v - 2 * c.zc) / 2 ^ c.inShift) else 0

/-- `r[k][v]` after an iteration, with `q[k][v2]` of steps (a) and (b) written out (47_ldpc.md R366). The least magnitude of no
message counts as 0, which gives the rule's 0 when `others` is empty. -/
def specR (alpha : Nat) (table : BgTable) (c : LdpcDec) (ins : Nat → Int) : Nat → Nat → Nat → Int
  | 0, _, _ => 0
  | it + 1, k, v =>
    let others := (Finset.range (ldpcVars c)).filter (fun v2 => joined table c k v2 = true ∧ v2 ≠ v)
    let q : Nat → Int := fun v2 =>
      sat127 (specLam c ins v2
        + ∑ k2 ∈ (Finset.range (ldpcCheckNodes c)).filter (fun k2 => joined table c k2 v2 = true ∧ k2 ≠ k),
            specR alpha table c ins it k2 v2)
    let m : Nat := ((others.image (fun v2 => (q v2).natAbs)).min).untopD 0
    (∏ v2 ∈ others, (if q v2 < 0 then (-1 : Int) else 1)) * ((alpha * m / 4 : Nat) : Int)

/-- `Lpost[v]` after an iteration (47_ldpc.md R366 (c)). -/
def specPost (alpha : Nat) (table : BgTable) (c : LdpcDec) (ins : Nat → Int) (it v : Nat) : Int :=
  specLam c ins v
    + ∑ k ∈ (Finset.range (ldpcCheckNodes c)).filter (fun k => joined table c k v = true), specR alpha table c ins it k v

/-- The decision is undecided (47_ldpc.md R368). -/
def specUndecided (c : LdpcDec) (post : Nat → Int) : Prop := ∃ v < ldpcVars c, post v = 0

/-- `synd_ok` (47_ldpc.md R369). -/
def specSyndOk (table : BgTable) (c : LdpcDec) (bits : Nat → Bool) : Prop :=
  ∀ k < ldpcCheckNodes c, Even (((Finset.range (ldpcVars c)).filter (fun v => joined table c k v = true ∧ bits v = true)).card)

/-- `crc_ok` (47_ldpc.md R370, 48_crc.md R394). -/
def specCrcOk (init : BitVec 24) (c : LdpcDec) (bits : Nat → Bool) : Prop :=
  c.crcEt = true ∧ 24 ≤ ldpcK c ∧ (crcReg init bits (ldpcK c - 24)).toNat = trailing bits (ldpcK c)

/-- The decoder converges after an iteration with these posteriors (47_ldpc.md R371). -/
def specConverged (init : BitVec 24) (table : BgTable) (c : LdpcDec) (post : Nat → Int) : Prop :=
  ¬ specUndecided c post
    ∧ (specSyndOk table c (fun v => decide (post v < 0)) ∨ specCrcOk init c (fun v => decide (post v < 0)))

/-- The decoder stops after iteration `it` for the given reason, and after no earlier one (47_ldpc.md R371). -/
def specStops (init : BitVec 24) (table : BgTable) (c : LdpcDec) (post : Nat → Nat → Int) (abort : Nat → Bool) (it : Nat)
    (why : Stop) : Prop :=
  1 ≤ it ∧ it ≤ c.maxIter
    ∧ (∀ i, 1 ≤ i → i < it → ¬ specConverged init table c (post i) ∧ abort i = false)
    ∧ match why with
      | .converged => specConverged init table c (post it)
      | .limit => ¬ specConverged init table c (post it) ∧ it = c.maxIter
      | .aborted => ¬ specConverged init table c (post it) ∧ it < c.maxIter ∧ abort it = true

end Sys2Proof.Machine
end

