-- ==== Sys2Proof/Certificates/Slice0/Obligations.lean ====
section
/-! DEFINITION. The statements for the provers: encoding, sequencing and errors, host and reset, each command's result with its
frame and its completion, and the properties the spec claims. -/

open Sys2Proof Sys2Proof.Machine

/-! ## Encoding -/

/-- Decoding what the encoder writes gives the command back, every field at every value its bits admit (30_encoding.md R172 to
R185). -/
def Obligations.DecodeOfEncode : Prop := ∀ i : Instr, i.wf = true → decode (encode i) = .command i

/-- Eight words that decode to a command are the encoding of that command, which fits its fields: no bit of a command is
dropped (30_encoding.md R172 to R185). -/
def Obligations.EncodeOfDecode : Prop := ∀ (w : CmdWords) (i : Instr), decode w = .command i → encode i = w ∧ i.wf = true

/-- The verdict of a decoder (30_encoding.md R185), with the reserved bits of the tables R176 to R184. -/
def Obligations.DecodeVerdict : Prop :=
  ∀ w : CmdWords,
    (8 < w.w0.toNat % 256 → decode w = .illegalOpcode)
      ∧ (w.w0.toNat % 256 ≤ 8 →
          (∀ k < 8, reservedSet w k → (∀ j < k, ¬ reservedSet w j) → decode w = .reservedNonzero (BitVec.ofNat 3 k))
            ∧ ((∀ k < 8, ¬ reservedSet w k) → ∃ i : Instr, decode w = .command i))

/-- A few commands written out bit by bit from the tables of 30_encoding.md decode to what they stand for. -/
def Obligations.WrittenWordsDecode : Prop :=
  decode ⟨0, 0, 0, 0, 0, 0, 0, 0⟩ = .command .nop
    ∧ decode ⟨0x00011001, 0x1000, 300, 0, 0x0009000A, 4, 0x4000, 0x00100078⟩
        = .command (.fepRx ⟨0, true, 1, 0x1000, 300, 0, 10, 9, 4, 0x4000, 120, 16⟩)
    ∧ decode ⟨0x00000604, 0x1000, 0x2000, 0x3000, 0x4000, 0x5000, 0x10, 0⟩
        = .command (.llr ⟨6, 0x1000, 0x2000, 0x3000, 0x4000, 0x5000, 16⟩)
    ∧ decode ⟨0x00000106, 0x100, 8, 0xFFFF03FF, 0, 0, 0, 0⟩ = .command (.descramble ⟨true, 0x100, 8, 1023, 65535⟩)
    ∧ decode ⟨0x00000108, 0x100, 96, 0x200, 0, 0, 0, 0⟩ = .command (.crc24a ⟨.verify, 0x100, 96, 0x200⟩)
    ∧ decode ⟨0x00000408, 0, 0, 0, 0, 0, 0, 0⟩ = .reservedNonzero 0
    ∧ decode ⟨0x00000204, 0x1000, 0, 0, 0, 0x2000, 3, 1⟩ = .reservedNonzero 7
    ∧ decode ⟨0x00000109, 0, 0, 0, 0, 0, 0, 0⟩ = .illegalOpcode

/-! ## The engine step -/

/-- When the 32 bytes at `pc` hold a well-formed command, the step is that command's meaning on the state with the command
latched (40_sequencing.md R221). The second and third clause, the same for a move listed in `turns` and for a move inside which
the host writes `CTRL = ABORT`, are the model's form of 70_reset_and_hazards.md R462 (log 5, log 6). -/
def Obligations.StepRunsTheDecodedCommand : Prop :=
  ∀ (s : State) (i : Instr) (rest : List Turn) (it : Nat), aboutToFetch s → i.wf = true → commandAt s (encode i) →
    step s = exec i { s with latch := encode i }
      ∧ step { s with turns := .engine :: rest } = exec i { s with turns := rest, latch := encode i }
      ∧ step { s with turns := .engineAbort it :: rest }
          = mapNext State.landAbort (exec i { s with turns := rest, latch := encode i, midAbort := some it })

/-- A command with an opcode above 0x08 halts the run with `ILLEGAL_OPCODE` (30_encoding.md R174). -/
def Obligations.IllegalOpcodeHalts : Prop :=
  ∀ (s : State) (w : CmdWords), aboutToFetch s → commandAt s w → 9 ≤ w.w0.toNat % 256 →
    step s = .next (afterError .illegalOpcode 0 { s with latch := w })

/-- The first word with a reserved bit that is 1 halts the run with `RESERVED_NONZERO` and that word's index (30_encoding.md
R175). -/
def Obligations.ReservedBitHalts : Prop :=
  ∀ (s : State) (w : CmdWords) (k : Nat), aboutToFetch s → commandAt s w → w.w0.toNat % 256 ≤ 8 → k < 8 →
    (∀ j < k, ¬ reservedSet w j) → reservedSet w k →
    step s = .next (afterError .reservedNonzero (BitVec.ofNat 3 k) { s with latch := w })

/-- A `pc` whose 32 bytes do not lie inside DMEM halts the run with `FETCH_RANGE` (40_sequencing.md R221). -/
def Obligations.FetchOutOfRangeHalts : Prop :=
  ∀ s : State, aboutToFetch s → s.params.dmemSize < s.cmdPtr.toNat + 32 → step s = .next (afterError .fetchRange 0 s)

/-- A fetch that meets an unwritten byte is the model's fault `UNINIT_READ`, which names the command (20_memory.md R121). -/
def Obligations.FetchOfUnwrittenFaults : Prop :=
  ∀ (s : State) (j : Nat), aboutToFetch s → s.cmdPtr.toNat + 32 ≤ s.params.dmemSize → j < 32 →
    s.dmem.read (s.cmdPtr.toNat + j) = none → step s = .fault (.uninitRead s.cmdDone s.cmdPtr)

/-- The normal halt, whether or not an abort is pending (60_exceptions.md R405). -/
def Obligations.NormalHalt : Prop :=
  ∀ s : State, s.turns = [] → s.phase = .run → s.cmdDone = s.cmdCount →
    step s = .next { s with done := true, irqStatus := ⟨true, s.irqStatus.error⟩, abortPending := false, phase := .idle }

/-- The aborted halt at a step that finds the abort pending with commands left: nothing is fetched (60_exceptions.md R415). -/
def Obligations.AbortedHalt : Prop :=
  ∀ s : State, s.turns = [] → s.phase = .run → s.cmdDone ≠ s.cmdCount → s.abortPending = true →
    step s = .next
      { s with
        done := true, aborted := true, irqStatus := ⟨true, s.irqStatus.error⟩, abortPending := false, phase := .idle }

/-- A step never refuses, and its only fault is `UNINIT_READ` of the command at `pc` while running, when one of the 32 bytes at `pc`
is unwritten, or a byte of an input buffer of the legal command that stands there (60_exceptions.md R403, 20_memory.md R121). -/
def Obligations.StepOnlyFaultsOnUnwritten : Prop :=
  ∀ s : State,
    (∃ t, step s = .next t)
      ∨ (step s = .fault (.uninitRead s.cmdDone s.cmdPtr) ∧ s.phase = .run
          ∧ s.cmdPtr.toNat + 32 ≤ s.params.dmemSize
          ∧ ((∃ j < 32, s.dmem.read (s.cmdPtr.toNat + j) = none)
              ∨ ∃ i : Instr, i.wf = true ∧ commandAt s (encode i) ∧ legal s.params i
                  ∧ ∃ b ∈ inputsOf i, ∃ a, inBuf b a = true ∧ s.dmem.read a = none))

/-- The phase changes only as 10_state.md R77 says: idle to run by a host write that starts a run; run to idle by the end of
the list, by an abort, by an error, or by a reset, which leaves every register at its reset value. -/
def Obligations.PhaseChanges : Prop :=
  ∀ s t : State, step s = .next t →
    (s.phase = .idle → t.phase = .run →
        ∃ (v : Word) (rest : List Turn), s.turns = .host (.write 0x00C .word v) :: rest
          ∧ v.getLsbD 0 = true ∧ v.getLsbD 2 = false)
      ∧ (s.phase = .run → t.phase = .idle →
          (s.cmdDone = s.cmdCount ∧ t.done = true ∧ t.aborted = s.aborted ∧ t.error = s.error)
            ∨ (s.cmdDone ≠ s.cmdCount ∧ s.abortPending = true ∧ t.done = true ∧ t.aborted = true ∧ t.error = s.error)
            ∨ (s.cmdDone ≠ s.cmdCount ∧ s.abortPending = false ∧ t.error = true ∧ t.errCode ≠ .none
                ∧ t.done = s.done ∧ t.aborted = s.aborted)
            ∨ (((∃ (v : Word) (rest : List Turn), s.turns = .host (.write 0x00C .word v) :: rest ∧ v.getLsbD 2 = true)
                  ∨ ∃ rest : List Turn, s.turns = .hardReset :: rest)
                ∧ ∀ off < 0x1000, t.readReg off = (State.resetWith s.params).readReg off))

/-- Every run ends: with no other agent's move between, a running engine is idle after at most `CMD_COUNT - CMD_DONE + 1` steps,
unless one of them is the model's `UNINIT_READ`. (The spec's own inference, 70_reset_and_hazards.md R461: "So every run ends after at
most `CMD_COUNT + 1` engine steps".) -/
def Obligations.EveryRunEnds : Prop :=
  ∀ s : State, s.turns = [] → s.phase = .run → s.cmdDone.toNat ≤ s.cmdCount.toNat →
    ∃ k ≤ s.cmdCount.toNat - s.cmdDone.toNat + 1,
      (∃ t : State, Host.Core.run Sys2Proof.core k s = .next t ∧ t.phase = .idle)
        ∨ ∃ index ptr : Word, Host.Core.run Sys2Proof.core k s = .fault (.uninitRead index ptr)

/-- Every step keeps the invariant (10_state.md R59 to R65, R76; 40_sequencing.md R222) and the parameters, which are fixed for a
block (R52; log 1). -/
def Obligations.StepKeepsInvariant : Prop :=
  ∀ s t : State, Invariant s → step s = .next t → Invariant t ∧ t.params = s.params

/-- The state after reset has the invariant, for every choice of the parameters that a block may have (00_scope.md R9), the
defaults of `State.reset` among them. -/
def Obligations.ResetHasInvariant : Prop :=
  (∀ p : Params, p.legal → Invariant (State.resetWith p)) ∧ State.reset = State.resetWith .default ∧ Params.default.legal

/-! ## Errors -/

/-- A command reports the first failing check of its rule, in the order of 60_exceptions.md R402, and a command none of whose
checks fails reports none. -/
def Obligations.FirstFailingCheckReported : Prop :=
  ∀ (i : Instr) (s : State) (e : CmdError), exec i s = .next (s.errorHalt e) ↔ reportedError s.params i = some e

/-- An illegal command ends the run with the error halt of 60_exceptions.md R406 and changes nothing else: no DMEM byte, no
result register, not `CMD_DONE`, not `pc` (R404). -/
def Obligations.IllegalCommandHaltsPrecisely : Prop :=
  ∀ (i : Instr) (s : State), ¬ legal s.params i →
    ∃ e : CmdError, reportedError s.params i = some e ∧ e.code ≠ .none ∧ exec i s = .next (afterError e.code e.word s)

/-- A legal command whose input bytes are all written completes and is counted (40_sequencing.md R221, R224; 60_exceptions.md
R403). -/
def Obligations.LegalCommandCompletes : Prop :=
  ∀ (i : Instr) (s : State), legal s.params i →
    (∀ b ∈ inputsOf i, ∀ a, b.base ≤ a → a < b.base + bufBytes b → (s.dmem.read a).isSome = true) →
    ∃ t, exec i s = .next t ∧ t.cmdDone = s.cmdDone + 1 ∧ t.cmdPtr = s.cmdPtr + 32 ∧ t.phase = s.phase
      ∧ t.abortPending = s.abortPending ∧ t.error = s.error

/-- A command writes only the bytes of its output buffers (20_memory.md R127). -/
def Obligations.OnlyOutputsWritten : Prop :=
  ∀ (i : Instr) (s t : State), exec i s = .next t → sameOutside (outputsOf i) s t

/-- A legal command that completes has written every byte of its output buffers (20_memory.md R127). -/
def Obligations.EveryOutputByteWritten : Prop :=
  ∀ (i : Instr) (s t : State), legal s.params i → exec i s = .next t →
    ∀ b ∈ outputsOf i, ∀ a, b.base ≤ a → a < b.base + bufBytes b → (t.dmem.read a).isSome = true

/-- A command reads only its input buffers (20_memory.md R127): two states that differ only in DMEM and agree on the bytes of the
inputs take the same outcome, with the same registers, and every byte is either written with one value in both or unchanged in
both. -/
def Obligations.OnlyInputsRead : Prop :=
  ∀ (i : Instr) (s : State) (m : Memory),
    (∀ b ∈ inputsOf i, ∀ a, b.base ≤ a → a < b.base + bufBytes b → m.read a = s.dmem.read a) →
    (∃ t u : State, exec i s = .next t ∧ exec i { s with dmem := m } = .next u ∧ u = { t with dmem := u.dmem }
        ∧ ∀ a, (t.dmem.read a = s.dmem.read a ∧ u.dmem.read a = m.read a) ∨ t.dmem.read a = u.dmem.read a)
      ∨ (exec i s = .fault (.uninitRead s.cmdDone s.cmdPtr)
          ∧ exec i { s with dmem := m } = .fault (.uninitRead s.cmdDone s.cmdPtr))

/-- Only `LDPC_DEC` writes `LDPC_RESULT`, only `CRC24A` writes `CRC_RESULT`, only `CHEST` and `MMSE` warn (10_state.md R73), and no
command writes a host register, an enable or the latch; a pending interrupt bit stays pending. -/
def Obligations.ResultRegisterFrame : Prop :=
  ∀ (i : Instr) (s t : State), exec i s = .next t →
    ((∀ c, i ≠ .ldpcDec c) → t.ldpcResult = s.ldpcResult)
      ∧ ((∀ c, i ≠ .crc24a c) → t.crcResult = s.crcResult)
      ∧ ((∀ c, i ≠ .chest c) → (∀ c, i ≠ .mmse c) → t.numwarn = s.numwarn ∧ t.warnCount = s.warnCount)
      ∧ t.cmdBase = s.cmdBase ∧ t.cmdCount = s.cmdCount ∧ t.irqEn = s.irqEn ∧ t.latch = s.latch
      ∧ t.done = s.done ∧ t.aborted = s.aborted
      ∧ t.irqStatus.done = s.irqStatus.done ∧ (s.irqStatus.error = true → t.irqStatus.error = true)
      ∧ t.turns = s.turns ∧ t.midAbort = s.midAbort ∧ t.response = s.response ∧ t.losses = s.losses
      ∧ t.hardResets = s.hardResets ∧ t.params = s.params

/-! ## Host and resets -/

/-- A host access and a hard reset are each one step (70_reset_and_hazards.md R440, R462), taken when they head `turns`; an idle
engine's move changes nothing (R443). A running engine's step is the same whether it is listed or no move is, so what the statements
of a halt, of an error of decoding and of a command say for an empty list holds for a listed move. With the host's `CTRL = ABORT`
write inside the step (60_exceptions.md R414): a step that halts the run, or faults, is the one without the write, which is then
ignored (10_state.md R58, 60_exceptions.md R416); a step after which the engine still runs leaves the abort pending, and differs in
nothing else, but for the bytes and the result word of an `LDPC_DEC`. The list `turns` and the abort inside a step are the model's
choice (log 5, log 6). -/
def Obligations.StepTakesTheNextTurn : Prop :=
  ∀ (s : State) (a : HostAccess) (rest : List Turn) (it : Nat),
    step { s with turns := .host a :: rest } = .next ({ s with turns := rest }.hostAccess a)
      ∧ step { s with turns := .hardReset :: rest } = .next { s with turns := rest }.hardReset
      ∧ (s.phase = .idle →
          step { s with turns := [] } = .next { s with turns := [] }
            ∧ step { s with turns := .engine :: rest } = .next { s with turns := rest }
            ∧ step { s with turns := .engineAbort it :: rest } = .next { s with turns := rest })
      ∧ (∀ f, step { s with turns := [] } = .fault f →
          step { s with turns := .engine :: rest } = .fault f ∧ step { s with turns := .engineAbort it :: rest } = .fault f)
      ∧ (∀ t, step { s with turns := [] } = .next t → step { s with turns := .engine :: rest } = .next { t with turns := rest })
      ∧ (∀ t, s.phase = .run → s.midAbort = none → step { s with turns := [] } = .next t →
          (t.phase = .idle → t.abortPending = false
              ∧ step { s with turns := .engineAbort it :: rest } = .next { t with turns := rest })
            ∧ (t.phase = .run →
                ∃ u, step { s with turns := .engineAbort it :: rest } = .next u
                  ∧ u = { t with
                      abortPending := true, turns := rest, dmem := u.dmem, ldpcResult := u.ldpcResult }
                  ∧ ((∀ c : LdpcDec, c.wf = true → ¬ commandAt s (encode (.ldpcDec c))) →
                      u.dmem = t.dmem ∧ u.ldpcResult = t.ldpcResult)))

/-- A host write to `CTRL` with `SOFT_RESET = 0` (10_state.md R58): `ABORT` while busy sets the pending bit, `START` while idle
starts a run as 40_sequencing.md R220 says, and every other such write changes nothing. -/
def Obligations.CtrlWrite : Prop :=
  ∀ (s : State) (v : Word), v.getLsbD 2 = false →
    (s.phase = .run → v.getLsbD 1 = true →
        s.hostAccess (.write 0x00C .word v) = { s with abortPending := true, response := some ⟨false, 0⟩ })
      ∧ (s.phase = .run → v.getLsbD 1 = false →
          s.hostAccess (.write 0x00C .word v) = { s with response := some ⟨false, 0⟩ })
      ∧ (s.phase = .idle → v.getLsbD 0 = true →
          s.hostAccess (.write 0x00C .word v) =
            { s with
              done := false, error := false, aborted := false, numwarn := false, errCode := .none, errCmd := 0
              errInfo := 0, warnCount := 0, cmdDone := 0, cmdPtr := s.cmdBase, phase := .run
              response := some ⟨false, 0⟩ })
      ∧ (s.phase = .idle → v.getLsbD 0 = false →
          s.hostAccess (.write 0x00C .word v) = { s with response := some ⟨false, 0⟩ })

/-- After reset every register reads the value of the table of 10_state.md R53 (70_reset_and_hazards.md R441), the engine is idle,
`irq` is 0 and every DMEM byte is unwritten (10_state.md R78). -/
def Obligations.ResetValues : Prop :=
  (∀ p ∈ [(0x000, (0x4E525258 : Word)), (0x004, 0x00010000), (0x008, 0x00FFF816), (0x00C, 0), (0x010, 0), (0x014, 0),
      (0x018, 0), (0x01C, 0), (0x020, 0), (0x024, 0), (0x028, 0), (0x02C, 0), (0x030, 0), (0x034, 0), (0x038, 0),
      (0x03C, 0), (0x040, 0)],
    (State.reset.hostAccess (.read p.1 .word)).response = some ⟨false, p.2⟩)
    ∧ State.reset.phase = .idle ∧ State.reset.irq = false ∧ ∀ a, State.reset.dmem.read a = none

/-- A hard reset, one step from any state, leaves every register reading as after reset, the engine idle, no abort pending, `irq` 0
and every DMEM byte unwritten (70_reset_and_hazards.md R440). -/
def Obligations.HardResetResetsAll : Prop :=
  ∀ (s : State) (rest : List Turn),
    ∃ t, step { s with turns := .hardReset :: rest } = .next t
      ∧ (∀ off < 0x1000, t.readReg off = (State.resetWith s.params).readReg off)
      ∧ t.phase = .idle ∧ t.abortPending = false ∧ t.irq = false
      ∧ ∀ a, t.dmem.read a = none

/-- A soft reset (70_reset_and_hazards.md R442) sets the registers as a hard reset does. While idle it keeps every DMEM byte. While
busy it makes unwritten the output bytes of the command at `pc` if that command's fetch and checks pass, and keeps every other
byte. That it does so also where the engine's next step would halt, and that nothing is lost where the fetch would read unwritten
bytes, is the model's reading (log 14). -/
def Obligations.SoftReset : Prop :=
  ∀ (s : State) (v : Word), v.getLsbD 2 = true →
    let t := s.hostAccess (.write 0x00C .word v)
    (∀ off < 0x1000, t.readReg off = (State.resetWith s.params).readReg off)
      ∧ t.phase = .idle ∧ t.abortPending = false ∧ t.irq = false
      ∧ (s.phase = .idle → t.dmem = s.dmem)
      ∧ (s.phase = .run → ∀ i : Instr, i.wf = true → commandAt s (encode i) → legal s.params i →
          ∀ a, t.dmem.read a = if (outputsOf i).any (fun b => inBuf b a) then none else s.dmem.read a)
      ∧ (s.phase = .run → (∀ i : Instr, i.wf = true → legal s.params i → ¬ commandAt s (encode i)) → t.dmem = s.dmem)

/-- A host access to the DMEM window while busy (20_memory.md R141), an access to an unmapped offset (R142), a misaligned access
(R126), an access to the register window that is not 32 bits wide (10_state.md R53), and an access of a width other than 1, 2 or 4
bytes (60_exceptions.md R421; one case for all such widths, log 17) get a bus error, a read the value 0, and change nothing but the
bus response. That the response to a write holds 0 too is the model's choice (log 7). -/
def Obligations.BadHostAccessFails : Prop :=
  ∀ (s : State) (off : Nat) (size : AccessSize) (v : Word),
    (s.phase = .run ∧ 0x1000000 ≤ off ∧ off < 0x1000000 + s.params.dmemSize)
      ∨ (0x1000 ≤ off ∧ off < 0x1000000) ∨ 0x1000000 + s.params.dmemSize ≤ off ∨ off % accessBytes size ≠ 0
      ∨ size = .other ∨ (off < 0x1000 ∧ size ≠ .word) →
    s.hostAccess (.read off size) = { s with response := some ⟨true, 0⟩ }
      ∧ s.hostAccess (.write off size v) = { s with response := some ⟨true, 0⟩ }

/-- The host's accesses to DMEM while idle, aligned and inside it (20_memory.md R121, R122, R126, R140). A read returns what DMEM holds,
byte `j` of the value from address `a + j`, and the draw for an unwritten byte, and changes nothing but the bus response. A write
stores the value's bytes, least significant first, and no other byte changes; a read of the same place and width returns the
written value. A draw is the same after any step but a reset that leaves the byte unwritten (its form is the model's, log 4). -/
def Obligations.HostDmemAccess : Prop :=
  (∀ (s : State) (a : Nat) (size : AccessSize) (v : Word), s.phase = .idle → size ≠ .other → a % accessBytes size = 0 →
    a + accessBytes size ≤ s.params.dmemSize →
    (∃ d : Word, s.hostAccess (.read (0x1000000 + a) size) = { s with response := some ⟨false, d⟩ }
        ∧ d.toNat < 2 ^ (8 * accessBytes size)
        ∧ ∀ j < accessBytes size,
            (∀ b, s.dmem.read (a + j) = some b → d.toNat / 2 ^ (8 * j) % 256 = b.toNat)
              ∧ (s.dmem.read (a + j) = none → d.toNat / 2 ^ (8 * j) % 256 = (s.hostByte (a + j)).toNat))
      ∧ (let t := s.hostAccess (.write (0x1000000 + a) size v)
         t = { s with dmem := t.dmem, response := some ⟨false, 0⟩ }
          ∧ (∀ j < accessBytes size, t.dmem.read (a + j) = some (BitVec.ofNat 8 (v.toNat / 2 ^ (8 * j))))
          ∧ (∀ x, ¬ (a ≤ x ∧ x < a + accessBytes size) → t.dmem.read x = s.dmem.read x)
          ∧ t.hostAccess (.read (0x1000000 + a) size)
              = { t with response := some ⟨false, BitVec.ofNat 32 (v.toNat % 2 ^ (8 * accessBytes size))⟩ }))
    ∧ ∀ (s t : State) (a : Nat), step s = .next t → s.dmem.read a = none → t.dmem.read a = none →
        (∀ rest, s.turns ≠ .hardReset :: rest) →
        (∀ (v : Word) (rest : List Turn), s.turns = .host (.write 0x00C .word v) :: rest → v.getLsbD 2 = false) →
        t.hostByte a = s.hostByte a

/-- A host read of a register, at any time, returns the register's value and changes nothing but the bus response (20_memory.md
R135, 10_state.md R72); a word offset that the table of 10_state.md R53 does not list reads 0. `ID`, `VERSION` and `CAPS` read the
parameters in every state (R54 to R56), and `ERR_CODE` the value of its code (R60, 60_exceptions.md R401). -/
def Obligations.RegisterReadHasNoSideEffect : Prop :=
  ∀ (s : State) (off : Nat), off < 0x1000 → off % 4 = 0 →
    s.hostAccess (.read off .word) = { s with response := some ⟨false, s.readReg off⟩ }
      ∧ (0x040 < off → s.readReg off = 0)
      ∧ s.readReg 0x020 = s.cmdBase ∧ s.readReg 0x024 = s.cmdCount ∧ s.readReg 0x028 = s.cmdPtr
      ∧ s.readReg 0x02C = s.cmdDone ∧ s.readReg 0x038 = s.ldpcResult ∧ s.readReg 0x03C = s.crcResult
      ∧ s.readReg 0x040 = s.warnCount ∧ s.readReg 0x018 = s.errCmd
      ∧ s.readReg 0x000 = s.params.hwId ∧ s.readReg 0x004 = s.params.hwVersion
      ∧ (s.params.legal → ∀ k, s.params.dmemSize = 2 ^ k →
          (s.readReg 0x008).toNat = k + s.params.maxRx * 2 ^ 8 + 0x7FF * 2 ^ 12 + 2 ^ 23)
      ∧ ∀ p ∈ [(ErrCode.none, (0x00 : Word)), (.fetchRange, 0x01), (.illegalOpcode, 0x02), (.reservedNonzero, 0x03),
            (.badFftSize, 0x04), (.badParam, 0x05), (.badLayerCount, 0x06), (.badModOrder, 0x07), (.badCodewordFlags, 0x08),
            (.badLdpcParams, 0x09), (.fepWindow, 0x0A), (.misaligned, 0x0B), (.addrRange, 0x0C), (.overlap, 0x0D)],
          s.errCode = p.1 → s.readReg 0x014 = p.2

/-- The bits of `STATUS`, `CTRL`, `IRQ_EN`, `IRQ_STATUS` and `ERR_INFO` as the host reads them (10_state.md R57, R59, R62, R67, R68):
each flag in its bit, every other bit 0. -/
def Obligations.FlagRegisterBits : Prop :=
  ∀ (s : State) (b : Nat), b < 32 →
    ((s.readReg 0x010).getLsbD b = true ↔
        (b = 0 ∧ s.phase = .run) ∨ (b = 1 ∧ s.done = true) ∨ (b = 2 ∧ s.error = true) ∨ (b = 3 ∧ s.aborted = true)
          ∨ (b = 4 ∧ s.numwarn = true))
      ∧ ((s.readReg 0x00C).getLsbD b = true ↔ b = 1 ∧ s.abortPending = true)
      ∧ ((s.readReg 0x030).getLsbD b = true ↔ (b = 0 ∧ s.irqEn.done = true) ∨ (b = 1 ∧ s.irqEn.error = true))
      ∧ ((s.readReg 0x034).getLsbD b = true ↔ (b = 0 ∧ s.irqStatus.done = true) ∨ (b = 1 ∧ s.irqStatus.error = true))
      ∧ ((s.readReg 0x01C).getLsbD b = true ↔ b < 3 ∧ s.errInfo.getLsbD b = true)

/-- Host writes to the registers other than `CTRL`: `CMD_BASE` keeps bits [4:0] at 0, `CMD_COUNT` takes every bit, both only while
idle (10_state.md R63, R64, R72); `IRQ_EN` takes bits 1 and 0, `IRQ_STATUS` clears each bit written as 1, both at any time (R67,
R68); every other word offset ignores the write (R53). -/
def Obligations.RegisterWrites : Prop :=
  ∀ (s : State) (v : Word),
    (s.phase = .idle →
        s.hostAccess (.write 0x020 .word v) =
            { s with cmdBase := BitVec.ofNat 32 (32 * (v.toNat / 32)), response := some ⟨false, 0⟩ }
          ∧ s.hostAccess (.write 0x024 .word v) = { s with cmdCount := v, response := some ⟨false, 0⟩ })
      ∧ (s.phase = .run →
          s.hostAccess (.write 0x020 .word v) = { s with response := some ⟨false, 0⟩ }
            ∧ s.hostAccess (.write 0x024 .word v) = { s with response := some ⟨false, 0⟩ })
      ∧ s.hostAccess (.write 0x030 .word v) =
          { s with irqEn := ⟨v.getLsbD 0, v.getLsbD 1⟩, response := some ⟨false, 0⟩ }
      ∧ s.hostAccess (.write 0x034 .word v) =
          { s with
            irqStatus := ⟨s.irqStatus.done && !v.getLsbD 0, s.irqStatus.error && !v.getLsbD 1⟩
            response := some ⟨false, 0⟩ }
      ∧ ∀ off < 0x1000, off % 4 = 0 → off ∉ [0x00C, 0x020, 0x024, 0x030, 0x034] →
          s.hostAccess (.write off .word v) = { s with response := some ⟨false, 0⟩ }

/-- The interrupt output is `(DONE_IRQ and DONE_EN) or (ERROR_IRQ and ERROR_EN)` (60_exceptions.md R411, 10_state.md R68). A write of
the enables acts on it at once, whatever the engine does: raising the enable of a pending bit asserts it (60_exceptions.md R412). It
stays asserted until the host clears a pending bit or an enable, or a reset comes (R411). -/
def Obligations.InterruptOutput : Prop :=
  (∀ s : State, s.irq = true ↔
      (s.irqStatus.done = true ∧ s.irqEn.done = true) ∨ (s.irqStatus.error = true ∧ s.irqEn.error = true))
    ∧ (∀ (s : State) (v : Word), (s.hostAccess (.write 0x030 .word v)).irq = true ↔
        (s.irqStatus.done = true ∧ v.getLsbD 0 = true) ∨ (s.irqStatus.error = true ∧ v.getLsbD 1 = true))
    ∧ ∀ s t : State, step s = .next t → s.irq = true → t.irq = false →
        (∃ (off : Nat) (v : Word) (rest : List Turn), s.turns = .host (.write off .word v) :: rest
            ∧ (off = 0x030 ∨ (off = 0x034 ∧ (v.getLsbD 0 = true ∨ v.getLsbD 1 = true)) ∨ (off = 0x00C ∧ v.getLsbD 2 = true)))
          ∨ ∃ rest : List Turn, s.turns = .hardReset :: rest

/-- A step of the engine that ends a run sets exactly one pending bit, whatever the enables hold (60_exceptions.md R412). -/
def Obligations.HaltSetsOnePendingBit : Prop :=
  ∀ s t : State, s.turns = [] → s.phase = .run → step s = .next t → t.phase = .idle →
    t.irqEn = s.irqEn
      ∧ ((t.done = true ∧ t.irqStatus = ⟨true, s.irqStatus.error⟩)
          ∨ (t.error = true ∧ t.irqStatus = ⟨s.irqStatus.done, true⟩))

/-- After an error halt the host resumes at the failing command (60_exceptions.md R409): it writes `CMD_BASE <- CMD_PTR`, `CMD_COUNT
<- CMD_COUNT - ERR_CMD` and `START`, and the new run is at that command with `CMD_DONE = 0` and DMEM as the error left it. -/
def Obligations.ResumeAfterError : Prop :=
  ∀ s : State, Invariant s → s.phase = .idle → s.error = true →
    let t := ((s.hostAccess (.write 0x020 .word s.cmdPtr)).hostAccess
      (.write 0x024 .word (s.cmdCount - s.errCmd))).hostAccess (.write 0x00C .word 1)
    t = { s with
      cmdBase := s.cmdPtr, cmdCount := s.cmdCount - s.cmdDone, done := false, error := false, aborted := false
      numwarn := false, errCode := .none, errCmd := 0, errInfo := 0, warnCount := 0, cmdDone := 0, phase := .run
      response := some ⟨false, 0⟩ }

/-! ## The commands: what each completes with -/

/-- `NOP` completes and changes nothing else (40_sequencing.md R225). -/
def Obligations.NopCompletes : Prop :=
  ∀ s : State, exec .nop s = .next { s with cmdDone := s.cmdDone + 1, cmdPtr := s.cmdPtr + 32 }

/-- `FEP_RX` (41_fep.md R242 to R246): with the `N` samples of the window readable, it writes the `n_sc` bins of the DFT from
`first_sc` on, modulo `N`, and nothing else. -/
def Obligations.FepRxResult : Prop :=
  ∀ (c : FepRx) (s : State) (x : Nat → C16),
    let N := fftSize c.sizeClass
    let start := c.slotOffset + c.symbol * N + c.cp0 + c.symbol * c.cp - c.cp / c.offsetDiv
    legal s.params (.fepRx c) → (∀ n < N, ldC16 s.dmem c.tdBase (start + n) = some (x n)) →
    ∃ t, exec (.fepRx c) s = .next t ∧ completed s t s.ldpcResult s.crcResult 0
      ∧ (∀ i < c.nSc, ldC16 t.dmem c.fdBase i =
          some (Config.dft N c.scale ((List.range N).map x) ((c.firstSc + i) % N)))
      ∧ sameOutside [⟨6, c.fdBase, .c16, c.nSc⟩] s t

/-- `CHEST` (42_chest.md R261 to R267): with the samples at the pilots and the pilots readable, it writes the estimate of every
subcarrier and the noise variance or the sentinel, and warns once for each pilot of zero power. That the samples of `Y` at the pilots
are all it needs is the model's reading (log 13). -/
def Obligations.ChestResult : Prop :=
  ∀ (c : Chest) (s : State) (ys ps : Nat → CInt), legal s.params (.chest c) →
    (∀ m < c.nP, holdsC16 s.dmem c.yBase (c.start + m * c.stride) (ys m)) →
    (match c.pilot with
      | .const p => ∀ m < c.nP, ps m = ofC16 p
      | .buffer base => ∀ m < c.nP, holdsC16 s.dmem base m (ps m)) →
    ∃ t, exec (.chest c) s = .next t
      ∧ completed s t s.ldpcResult s.crcResult
          ((Finset.range c.nP).filter (fun m => (ps m).re ^ 2 + (ps m).im ^ 2 = 0)).card
      ∧ (∀ k < c.nSc, holdsC16 t.dmem c.hBase k
          (if c.interp then specAvg c.nP ys ps
            else if k < c.start then specLs (ys 0) (ps 0)
            else
              specLs (ys (min ((k - c.start) / c.stride) (c.nP - 1))) (ps (min ((k - c.start) / c.stride) (c.nP - 1)))))
      ∧ (ldU16 t.dmem c.nvAddr 0).map (fun n => (n : Int)) =
          some (if c.nvEn then specNoise c.nP c.nvShift ys ps else s.params.nvSentinel.toNat)
      ∧ sameOutside [⟨3, c.hBase, .c16, c.nSc⟩, ⟨4, c.nvAddr, .u16, 1⟩] s t

/-- `MMSE` (43_mmse.md R281 to R284, R288, R290, R291): with its inputs readable, it writes each layer's equalized symbols and, with
`magw = 1`, the magnitude buffers, from the result `subOf` of each subcarrier's regularized Gram matrix and matched filter, and warns
once for each subcarrier that takes the fallback. -/
def Obligations.MmseResult : Prop :=
  ∀ (c : Mmse) (s : State) (y : Nat → Nat → CInt) (h : Nat → Nat → Nat → CInt) (nv : Nat → Nat),
    c.wf = true → legal s.params (.mmse c) →
    (∀ rx < c.rx, ∀ k < c.nSc, holdsC16 s.dmem (c.yBase + 4 * rx * c.yStride) k (y k rx)) →
    (∀ l < c.layers, ∀ rx < c.rx, ∀ k < c.nSc, holdsC16 s.dmem c.hBase ((l * c.rx + rx) * c.nSc + k) (h k l rx)) →
    (∀ rx < c.rx, ldU16 s.dmem c.nvBase rx = some (nv rx)) →
    let s2 := (∑ rx ∈ Finset.range c.rx, nv rx) / c.rx
    let sub : Nat → SubResult := fun k =>
      subOf c s2 (specA c.shift0 c.rx s2 (h k)) (fun j => specInner c.shift0 c.rx (h k j) (y k))
    ∃ t, exec (.mmse c) s = .next t
      ∧ completed s t s.ldpcResult s.crcResult ((Finset.range c.nSc).filter (fun k => (sub k).fallback = true)).card
      ∧ (∀ l < c.layers, ∀ k < c.nSc, holdsC16 t.dmem c.outBase (l * c.nSc + k) ((sub k).x.getD l ⟨0, 0⟩))
      ∧ (c.magw = true → ∀ b < c.qm / 2 - 1, ∀ l < c.layers, ∀ k < c.nSc,
          holdsC16 t.dmem c.magBase ((b * c.layers + l) * c.nSc + k)
            ⟨rndDiv ((sub k).g.getD l 0 * (c.thr / 2 ^ b : Nat)) (2 ^ 15),
             rndDiv ((sub k).g.getD l 0 * (c.thr / 2 ^ b : Nat)) (2 ^ 15)⟩)
      ∧ sameOutside
          [⟨4, c.outBase, .c16, c.layers * c.nSc⟩,
           ⟨6, c.magBase, .c16, (if c.magw then c.qm / 2 - 1 else 0) * c.layers * c.nSc⟩] s t

/-- `LLR` (44_llr.md R312, R316): with the symbols and the magnitude buffers that `qm` uses readable, it writes the `qm` LLRs of every
symbol, and nothing else. -/
def Obligations.LlrResult : Prop :=
  ∀ (c : Llr) (s : State) (x a b d : Nat → CInt), legal s.params (.llr c) →
    (∀ i < c.n, holdsC16 s.dmem c.xBase i (x i)) →
    (4 ≤ c.qm → ∀ i < c.n, holdsC16 s.dmem c.magA i (a i)) →
    (6 ≤ c.qm → ∀ i < c.n, holdsC16 s.dmem c.magB i (b i)) →
    (c.qm = 8 → ∀ i < c.n, holdsC16 s.dmem c.magC i (d i)) →
    let t' : Nat → CInt := fun i => ⟨specRing (a i).re (x i).re, specRing (a i).im (x i).im⟩
    let u : Nat → CInt := fun i => ⟨specRing (b i).re (t' i).re, specRing (b i).im (t' i).im⟩
    let v : Nat → CInt := fun i => ⟨specRing (d i).re (u i).re, specRing (d i).im (u i).im⟩
    ∃ t, exec (.llr c) s = .next t ∧ completed s t s.ldpcResult s.crcResult 0
      ∧ (∀ i < c.n,
          ldI16 t.dmem c.llrBase (c.qm * i) = some (x i).re ∧ ldI16 t.dmem c.llrBase (c.qm * i + 1) = some (x i).im
            ∧ (4 ≤ c.qm → ldI16 t.dmem c.llrBase (c.qm * i + 2) = some (t' i).re
                ∧ ldI16 t.dmem c.llrBase (c.qm * i + 3) = some (t' i).im)
            ∧ (6 ≤ c.qm → ldI16 t.dmem c.llrBase (c.qm * i + 4) = some (u i).re
                ∧ ldI16 t.dmem c.llrBase (c.qm * i + 5) = some (u i).im)
            ∧ (c.qm = 8 → ldI16 t.dmem c.llrBase (c.qm * i + 6) = some (v i).re
                ∧ ldI16 t.dmem c.llrBase (c.qm * i + 7) = some (v i).im))
      ∧ sameOutside [⟨5, c.llrBase, .i16, c.qm * c.n⟩] s t

/-- `LAYER_DEMAP` (45_layer_demap.md R332, R334): with the layers readable, LLR `b` of symbol `r` of layer `l` stands at
`(r*nl + l)*qm + b` of the active codeword's buffer, and nothing else changes. -/
def Obligations.LayerDemapResult : Prop :=
  ∀ (c : LayerDemap) (s : State) (lay : Nat → Nat → Int), legal s.params (.layerDemap c) →
    let reps := c.totalLen / (c.nl * c.qm)
    let dst := if c.cw0Flag = -1 then c.dst1 else c.dst0
    (∀ l < c.nl, ∀ e < reps * c.qm, ldI16 s.dmem (c.layerBase + l * c.layerStride) e = some (lay l e)) →
    ∃ t, exec (.layerDemap c) s = .next t ∧ completed s t s.ldpcResult s.crcResult 0
      ∧ (∀ r < reps, ∀ l < c.nl, ∀ b < c.qm,
          ldI16 t.dmem dst ((r * c.nl + l) * c.qm + b) = some (lay l (r * c.qm + b)))
      ∧ sameOutside [⟨if c.cw0Flag = -1 then 4 else 3, dst, .i16, c.totalLen⟩] s t

/-- `DESCRAMBLE` (46_descramble.md R346 to R349): with the buffer readable, element `i` is negated with saturation where the Gold
sequence of the seed `rnti * 2^15 + q * 2^14 + n_id` has a 1, and nothing else changes. -/
def Obligations.DescrambleResult : Prop :=
  ∀ (c : Descramble) (s : State) (v : Nat → Int), legal s.params (.descramble c) →
    (∀ i < c.length, ldI16 s.dmem c.llrBase i = some (v i)) →
    let seed := c.rnti * 2 ^ 15 + (if c.q then 1 else 0) * 2 ^ 14 + c.nId
    ∃ t, exec (.descramble c) s = .next t ∧ completed s t s.ldpcResult s.crcResult 0
      ∧ (∀ i < c.length, ldI16 t.dmem c.llrBase i = some (if goldSeq seed i then sat16 (-(v i)) else v i))
      ∧ sameOutside [⟨1, c.llrBase, .i16, c.length⟩] s t

/-- `LDPC_DEC` (47_ldpc.md R363 to R375): with its input readable, it runs the flooding normalised min-sum decoder of R366 over the
graph of R365 until R371 stops it, writes the first `K` hard decisions and the result word, which `LDPC_RESULT` holds too, and
changes nothing else. The abort it sees at the end of an iteration is the pending one or the model's `midAbort` (log 6). -/
def Obligations.LdpcDecResult : Prop :=
  ∀ (c : LdpcDec) (s : State) (ins : Nat → Int), c.wf = true → legal s.params (.ldpcDec c) →
    (∀ i < c.e, ldI16 s.dmem c.inBase i = some (ins i)) →
    ∃ (t : State) (it : Nat) (why : Stop),
      exec (.ldpcDec c) s = .next t
        ∧ specStops s.params.crcInit Config.bgTable c (specPost s.params.cnAlphaNum Config.bgTable c ins)
            (fun n => s.abortPending || s.midAbort.any (fun k => decide (k ≤ n))) it why
        ∧ completed s t t.ldpcResult s.crcResult 0
        ∧ memRead t.dmem c.resAddr 4 = some t.ldpcResult.toNat
        ∧ (let post := specPost s.params.cnAlphaNum Config.bgTable c ins it
           let xhat : Nat → Bool := fun v => decide (post v < 0)
           t.ldpcResult.toNat % 256 = it
             ∧ (t.ldpcResult.getLsbD 8 = true ↔ ¬ specUndecided c post ∧ specSyndOk Config.bgTable c xhat)
             ∧ (t.ldpcResult.getLsbD 9 = true ↔ ¬ specUndecided c post ∧ specCrcOk s.params.crcInit c xhat)
             ∧ (t.ldpcResult.getLsbD 10 = true ↔ why = .converged)
             ∧ (t.ldpcResult.getLsbD 11 = true ↔ why = .aborted)
             ∧ (t.ldpcResult.getLsbD 12 = true ↔ specUndecided c post)
             ∧ t.ldpcResult.toNat < 2 ^ 13
             ∧ (match c.outmode with
               | .packed => ∀ e < 8 * ((ldpcK c + 7) / 8),
                   ldPbit t.dmem c.outBase e = some (decide (e < ldpcK c) && xhat e)
               | .bytes => ∀ e < ldpcK c, t.dmem.read (c.outBase + e) = some (if xhat e then 1 else 0)))
        ∧ sameOutside
            [match c.outmode with
              | .packed => ⟨3, c.outBase, .pbit, ldpcK c⟩
              | .bytes => ⟨3, c.outBase, .bit, ldpcK c⟩,
             ⟨4, c.resAddr, .u32, 1⟩] s t

/-- `CRC24A` (48_crc.md R391 to R395): with the `nbits` data bits readable, it writes the CRC in bits 31 to 8, or whether the last 24
bits are the CRC of those before them, to the result word and to `CRC_RESULT`, and changes nothing else. -/
def Obligations.CrcResult : Prop :=
  ∀ (c : Crc24a) (s : State) (b : Nat → Bool), legal s.params (.crc24a c) →
    (∀ i < c.nbits, ldPbit s.dmem c.dataBase i = some (b i)) →
    let result : Word := match c.mode with
      | .compute => (crcReg s.params.crcInit b c.nbits).setWidth 32 <<< 8
      | .verify => if (crcReg s.params.crcInit b (c.nbits - 24)).toNat = trailing b c.nbits then 1 else 0
    ∃ t, exec (.crc24a c) s = .next t ∧ completed s t s.ldpcResult result 0
      ∧ memRead t.dmem c.resAddr 4 = some result.toNat
      ∧ sameOutside [⟨3, c.resAddr, .u32, 1⟩] s t

/-! ## Properties the spec claims -/

/-- `rnd` of an exact quotient by a positive integer rounds half away from zero (00_scope.md R13). -/
def Obligations.RndRoundsHalfAway : Prop := ∀ a b : Int, 0 < b → rnd (quot a b) = rndDiv a b

/-- Binary64 rounding (43_mmse.md R289) gives a nearest binary64 number, and at a tie the one whose last place is even; the numbers
have no upper bound on the exponent (log 11). -/
def Obligations.RoundF64IsNearestEven : Prop :=
  ∀ q : Rat, IsF64 (roundF64 q) ∧ ∀ w : Rat, IsF64 w →
    |q - roundF64 q| ≤ |q - w|
      ∧ (|q - roundF64 q| = |q - w| → w ≠ roundF64 q →
          ∃ m e : Int, roundF64 q = (2 * m : Int) * (2 : Rat) ^ e ∧ |roundF64 q - w| = (2 : Rat) ^ e ∧ -1074 ≤ e)

/-- The two closed cases of the reference DFT (the spec's own inference, 41_fep.md R248; log 18), of whatever `dft` agrees with it on the input: the bins `FEP_RX`
extracts from a constant window, and from an impulse. -/
def Obligations.ReferenceDftClosedCases : Prop :=
  ∀ (dft : Nat → Bool → List C16 → Nat → C16) (c : FepRx) (a b : BitVec 16) (x : List C16),
    c.sizeClass ≤ 10 → c.scale = true → x.length = fftSize c.sizeClass →
    (∀ k < fftSize c.sizeClass, isReferenceBin (fftSize c.sizeClass) true x k (dft (fftSize c.sizeClass) true x k)) →
    (x = List.replicate (fftSize c.sizeClass) ⟨a, b⟩ →
        ∀ i < c.nSc, ∃ (z : C16) (re im : Int), (fepBins dft c x)[i]? = some z
          ∧ IsRndReal (a.toInt * Real.sqrt (fftSize c.sizeClass)) re
          ∧ IsRndReal (b.toInt * Real.sqrt (fftSize c.sizeClass)) im
          ∧ ofC16 z = if (c.firstSc + i) % fftSize c.sizeClass = 0 then ⟨sat16 re, sat16 im⟩ else ⟨0, 0⟩)
      ∧ (x = ⟨a, b⟩ :: List.replicate (fftSize c.sizeClass - 1) ⟨0, 0⟩ →
          ∀ i < c.nSc, ∃ z : C16, (fepBins dft c x)[i]? = some z
            ∧ IsRndReal (a.toInt / Real.sqrt (fftSize c.sizeClass)) (ofC16 z).re
            ∧ IsRndReal (b.toInt / Real.sqrt (fftSize c.sizeClass)) (ofC16 z).im)

/-- Each component of the window mean lies in [-32767, 32767] (the spec's own inference, in 42_chest.md R263), whatever was received and whatever the pilots. -/
def Obligations.ChestMeanBound : Prop :=
  ∀ ys ps : List CInt, ys ≠ [] → ys.length = ps.length →
    let avg := chestAvg (List.zipWith chestLs ys ps)
    avg.re ≤ 32767 ∧ avg.im ≤ 32767 ∧ -32767 ≤ avg.re ∧ -32767 ≤ avg.im

/-- The fixed path of `MMSE` (43_mmse.md R285 to R288): with `D` the determinant of `A` and `num` the adjugate of `A` applied to `z`, both
as Mathlib defines them over the Gaussian integers, a zero `D` gives the fallback, and else each symbol is `num * 2^oshift / D` and each
gain `2^15 * (1 - s2 * adj[l][l] / D)`, rounded and saturated. -/
def Obligations.MmseFixedPathInverts : Prop :=
  ∀ (n oshift s2 : Nat) (A : Mat) (z : Nat → CInt),
    let D := (gaussMatrix n A).det
    let adj := (gaussMatrix n A).adjugate
    let num := adj.mulVec (fun j : Fin n => gauss (z j))
    let r := fixedSub n oshift s2 A z
    r.x.length = n ∧ r.g.length = n
      ∧ (D = 0 → r.fallback = true ∧ ∀ l : Fin n, r.x[l]? = some ⟨0, 0⟩ ∧ r.g[l]? = some 0)
      ∧ (D ≠ 0 → r.fallback = false ∧ ∀ l : Fin n,
          r.x[l]? = some
              ⟨sat16 (rndDiv (((num l) * star D).re * 2 ^ oshift) D.norm),
               sat16 (rndDiv (((num l) * star D).im * 2 ^ oshift) D.norm)⟩
            ∧ r.g[l]? = some (clamp (rndDiv (2 ^ 15 * (D.norm - s2 * (adj l l * star D).re)) D.norm) 0 32767))

/-- The binary64 path of `MMSE` (43_mmse.md R288, R289), for every number of layers from 1 on: the integers converted exactly, every
operation rounded by itself in the order of R289 (the determinant and the cofactors by expansion along row 0, the numerator row by
row, then the quotients), a zero `q` gives the fallback, and else each symbol and gain is the quotient rounded half away from zero
and saturated. Binary64 rounding has no upper bound on the exponent (log 11). -/
def Obligations.MmseFloatPathOrder : Prop :=
  ∀ (n oshift s2 : Nat) (A : Mat) (z : Nat → CInt),
    (∀ i ≤ n, ∀ j ≤ n, |(A i j).re| ≤ 2 ^ 32 ∧ |(A i j).im| ≤ 2 ^ 32) →
    (∀ j ≤ n, |(z j).re| ≤ 2 ^ 32 ∧ |(z j).im| ≤ 2 ^ 32) → s2 ≤ 2 ^ 32 →
    let M : Matrix (Fin (n + 1)) (Fin (n + 1)) CF64 := fun i j => refExact (A i j)
    let d := refDet (n + 1) M
    let q := roundF64 (roundF64 (d.re * d.re) + roundF64 (d.im * d.im))
    let r := floatSub (n + 1) oshift s2 A z
    r.x.length = n + 1 ∧ r.g.length = n + 1
      ∧ (q = 0 → r.fallback = true ∧ ∀ l : Fin (n + 1), r.x[l]? = some ⟨0, 0⟩ ∧ r.g[l]? = some 0)
      ∧ (q ≠ 0 → r.fallback = false ∧ ∀ l : Fin (n + 1),
          let x := refQuotient (refNum M (fun j => refExact (z j)) l) d q
          let cr := (refQuotient (refCofactor M l l) d q).re
          r.x[l]? = some ⟨sat16 (rndRat (x.re * 2 ^ oshift)), sat16 (rndRat (x.im * 2 ^ oshift))⟩
            ∧ r.g[l]? = some (clamp (rndRat (roundF64 (roundF64 (1 - roundF64 (s2 * cr)) * 32768))) 0 32767))

/-- The identity property (the spec's own inference, 43_mmse.md R292): one layer, one antenna, channel (1, 0), no noise, no shifts: the output is the input, on both
paths. With the Q1.15 unit channel (32767, 0) and `oshift = 15` the fixed path gives `sat16(rnd(y * 32768 / 32767))`, which is `y` up to
16383 in magnitude and within 1 of it elsewhere. -/
def Obligations.MmseIdentity : Prop :=
  ∀ (c : Mmse) (p : C16), c.layers = 1 → c.rx = 1 → c.shift0 = 0 →
    let y := ofC16 p
    (c.oshift = 0 → (mmseSub c (mmseS2 [0]) [y] [[⟨1, 0⟩]]).x = [y])
      ∧ (c.oshift = 15 → c.fp = false →
          ∃ x : CInt, (mmseSub c (mmseS2 [0]) [y] [[⟨32767, 0⟩]]).x = [x]
            ∧ x = ⟨sat16 (rndDiv (y.re * 32768) 32767), sat16 (rndDiv (y.im * 32768) 32767)⟩
            ∧ |x.re - y.re| ≤ 1 ∧ |x.im - y.im| ≤ 1
            ∧ (|y.re| ≤ 16383 → x.re = y.re) ∧ (|y.im| ≤ 16383 → x.im = y.im))

/-- The monotonicity property (the spec's own inference, 43_mmse.md R293): with one layer on the fixed path, more noise does not give a larger gain, and, while
`D > 0`, no larger component. -/
def Obligations.MmseGainIsMonotone : Prop :=
  ∀ (c : Mmse) (y h : List CInt) (nv nv' : List Nat), c.layers = 1 → c.fp = false → h.length = c.rx → y.length = c.rx →
    nv ≠ [] → List.Forall₂ (· ≤ ·) nv nv' →
    let r := mmseSub c (mmseS2 nv) y [h]
    let r' := mmseSub c (mmseS2 nv') y [h]
    ∃ (x x' : CInt) (g g' : Int), r.x = [x] ∧ r'.x = [x'] ∧ r.g = [g] ∧ r'.g = [g'] ∧ g' ≤ g
      ∧ (r.fallback = false → |x'.re| ≤ |x.re| ∧ |x'.im| ≤ |x.im|)

/-- `A` is Hermitian, so `D` and every diagonal cofactor are real (the spec's own inference, 43_mmse.md R294), where no imaginary part of the upper triangle saturates
at -2^31: there the conjugate of R283 saturates to 2^31 - 1 and R294's premise fails (log 15). -/
def Obligations.MmseDeterminantIsReal : Prop :=
  ∀ (shift0 antennas s2 n : Nat) (h : Nat → Nat → CInt),
    (∀ i < n, ∀ j < n, i < j → (specGram shift0 antennas h i j).im ≠ -2147483648) →
    (det n (specA shift0 antennas s2 h)).im = 0
      ∧ ∀ l < n, (cofactor n (specA shift0 antennas s2 h) l l).im = 0

/-- The round trip of the layer mapping (the spec's own inference, 45_layer_demap.md R335): a codeword whose symbol `s` stands on layer `s mod nl` as that layer's symbol
`s / nl` comes back in its own order. -/
def Obligations.LayerDemapRoundTrip : Prop :=
  ∀ (c : LayerDemap) (s : State) (cw : Nat → Int), legal s.params (.layerDemap c) →
    (∀ sym < c.totalLen / c.qm, ∀ b < c.qm,
      ldI16 s.dmem (c.layerBase + (sym % c.nl) * c.layerStride) (sym / c.nl * c.qm + b) = some (cw (sym * c.qm + b))) →
    ∃ t, exec (.layerDemap c) s = .next t
      ∧ ∀ e < c.totalLen, ldI16 t.dmem (if c.cw0Flag = -1 then c.dst1 else c.dst0) e = some (cw e)

/-- Two descramblings over one buffer (the spec's own inference, 46_descramble.md R350): every element comes back, but -32768 where the sequence has a 1, which becomes
-32767. -/
def Obligations.DescrambleTwice : Prop :=
  ∀ (c : Descramble) (s : State) (v : Nat → Int), legal s.params (.descramble c) →
    (∀ i < c.length, ldI16 s.dmem c.llrBase i = some (v i)) →
    ∃ t u, exec (.descramble c) s = .next t ∧ exec (.descramble c) t = .next u
      ∧ ∀ i < c.length, ldI16 u.dmem c.llrBase i =
          some (if goldSeq (c.rnti * 2 ^ 15 + (if c.q then 1 else 0) * 2 ^ 14 + c.nId) i ∧ v i = -32768 then -32767 else v i)

/-- Every message of the decoder is in [-127, 127] for a factor `CN_ALPHA_NUM` up to 4, whatever the messages before (47_ldpc.md R366). -/
def Obligations.LdpcMessagesStayInRange : Prop :=
  ∀ (alpha : Nat) (lam : List Int) (r : List Msg), alpha ≤ 4 →
    (∀ e : Edge, |varToCheck lam r e| ≤ 127) ∧ ∀ m ∈ ldpcIterate alpha lam r, |m.2| ≤ 127

/-- A decoder given no information runs to the iteration limit without converging, for every base-graph table, lifting size, input length and
factor (the spec's own inference, 47_ldpc.md R377). -/
def Obligations.LdpcNoInformationHitsLimit : Prop :=
  ∀ (alpha : Nat) (crcInit : BitVec 24) (table : BgTable) (c : LdpcDec) (ins : List Int), ldpcLegal c →
    (∀ x ∈ ins, x = 0) →
    ∃ d : Decision, ldpcDecode alpha crcInit table c (fun _ => false) ins = (d, c.maxIter, .limit)
      ∧ d.undecided = true ∧ d.xhat = List.replicate (ldpcVars c) false
      ∧ ldpcResultWord d c.maxIter .limit = BitVec.ofNat 32 (c.maxIter + 0x1000)

/-- The no-noise property (the spec's own inference, 47_ldpc.md R378): a codeword whose bits come as LLRs of magnitude at least 2 and the right sign is decoded in one
iteration, if each punctured column has a row whose only punctured entry it is. The rule does not say that this row must have a
further entry, without which its check sends 0 (R366); the statement asks for one (log 16). -/
def Obligations.LdpcNoNoiseDecodesAtOnce : Prop :=
  ∀ (alpha : Nat) (crcInit : BitVec 24) (table : BgTable) (c : LdpcDec) (abort : Nat → Bool) (ins : List Int) (x : Nat → Bool),
    2 ≤ alpha → alpha ≤ 4 → ldpcLegal c → c.e = (ldpcNb c.bg - 2) * c.zc → ins.length = c.e →
    specSyndOk table c x →
    (∀ i < c.e, ∀ v ∈ ins[i]?, if x (2 * c.zc + i) then v / 2 ^ c.inShift ≤ -2 else 2 ≤ v / 2 ^ c.inShift) →
    (∀ j < 2, ∃ i < ldpcMb c.bg, (table c.bg (setIndex c.zc) i j).isSome = true
      ∧ (table c.bg (setIndex c.zc) i (1 - j)).isSome = false
      ∧ ∃ j' < ldpcNb c.bg, 2 ≤ j' ∧ (table c.bg (setIndex c.zc) i j').isSome = true) →
    ∃ d : Decision, ldpcDecode alpha crcInit table c abort ins = (d, 1, .converged)
      ∧ d.undecided = false ∧ d.syndOk = true ∧ d.xhat = (List.range (ldpcVars c)).map x

/-- The CRC round trip (the spec's own inference, 48_crc.md R396), for every preset: a payload followed by its CRC, most significant bit first, verifies, and with any
one bit of the payload or of the CRC flipped it does not. -/
def Obligations.CrcRoundTrip : Prop :=
  ∀ (init : BitVec 24) (payload : List Bool),
    let block := payload ++ (List.range 24).map (fun t => (crc24 init payload).getLsbD (23 - t))
    crcVerify init block = true
      ∧ ∀ i, (h : i < block.length) → crcVerify init (block.set i (!block[i])) = false
end

