-- ==== Sys2Proof/Laws/Memory.lean ====
section
/-! SUPPORT. Laws of DMEM: what a read gives after each memory operation, that every operation keeps the canonical form, and what
the element reads and the little-endian forms of Machine/Operands.lean amount to. -/

namespace Sys2Proof.Machine

/-! ## Reading after one operation -/

theorem Memory.read_append (m n : Memory) (x : Nat) :
    Memory.read (m ++ n) x = (Memory.read m x).or (Memory.read n x) := by
  induction m with
  | nil => rfl
  | cons c m ih =>
    by_cases h : c.1 = x
    · simp [Memory.read, h]
    · simp [Memory.read, h, ih]

theorem Memory.read_filter (p : Nat → Bool) (m : Memory) (x : Nat) :
    Memory.read (m.filter (fun c => p c.1)) x = if p x then Memory.read m x else none := by
  induction m with
  | nil => simp [Memory.read]
  | cons c m ih =>
    by_cases hc : c.1 = x
    · subst hc
      by_cases hp : p c.1
      · simp [Memory.read, hp]
      · simpa [Memory.read, hp] using ih
    · by_cases hp : p c.1
      · simpa [Memory.read, hp, hc] using ih
      · simpa [Memory.read, hp, hc] using ih

theorem Memory.read_cellsFrom (bs : List Byte) (a x : Nat) :
    Memory.read (cellsFrom a bs) x = if a ≤ x then bs[x - a]? else none := by
  induction bs generalizing a with
  | nil => simp [cellsFrom, Memory.read]
  | cons b bs ih =>
    by_cases h : a = x
    · simp [cellsFrom, Memory.read, h]
    · by_cases hle : a ≤ x
      · have h1 : a + 1 ≤ x := by omega
        have h2 : x - a = (x - (a + 1)) + 1 := by omega
        simp [cellsFrom, Memory.read, h, hle, ih, h1, h2]
      · have h1 : ¬ a + 1 ≤ x := by omega
        simp [cellsFrom, Memory.read, h, hle, ih, h1]

/-- A read after a store: the stored byte inside the stored range, the old byte elsewhere. -/
theorem Memory.read_store (m : Memory) (a : Nat) (bs : List Byte) (x : Nat) :
    (m.store a bs).read x = if a ≤ x ∧ x < a + bs.length then bs[x - a]? else m.read x := by
  unfold Memory.store
  by_cases hb : bs = []
  · subst hb
    have : ¬ (a ≤ x ∧ x < a + ([] : List Byte).length) := by simp only [List.length_nil]; omega
    simp only [List.isEmpty_nil, if_true, if_neg this]
  · have he : bs.isEmpty = false := by cases bs <;> simp_all
    rw [he, if_neg (by simp), Memory.read_append, Memory.read_append,
      Memory.read_filter (fun k => decide (k < a)), Memory.read_filter (fun k => decide (a + bs.length ≤ k)),
      Memory.read_cellsFrom]
    rcases Nat.lt_or_ge x a with h | h
    · have h1 : ¬ (a ≤ x) := by omega
      have h2 : ¬ (a + bs.length ≤ x) := by omega
      simp [h, h1, h2]
    · by_cases h2 : x < a + bs.length
      · have h3 : ¬ x < a := by omega
        have h4 : ¬ a + bs.length ≤ x := by omega
        simp [h, h2, h3, h4]
      · have h3 : ¬ x < a := by omega
        have h4 : a + bs.length ≤ x := by omega
        have h5 : bs[x - a]? = none := List.getElem?_eq_none (by omega)
        simp [h, h2, h3, h4, h5]

theorem Memory.read_store_outside (m : Memory) (a : Nat) (bs : List Byte) (x : Nat)
    (h : ¬ (a ≤ x ∧ x < a + bs.length)) : (m.store a bs).read x = m.read x := by
  rw [Memory.read_store, if_neg h]

theorem Memory.read_store_inside (m : Memory) (a : Nat) (bs : List Byte) (i : Nat) (h : i < bs.length) :
    (m.store a bs).read (a + i) = bs[i]? := by
  rw [Memory.read_store, if_pos (by omega)]
  congr 1
  omega

/-- A read after bytes are made unwritten. -/
theorem Memory.read_lose (m : Memory) (a n x : Nat) :
    (m.lose a n).read x = if a ≤ x ∧ x < a + n then none else m.read x := by
  unfold Memory.lose
  rw [Memory.read_filter (fun k => !(decide (a ≤ k) && decide (k < a + n)))]
  by_cases h : a ≤ x ∧ x < a + n
  · simp [h]
  · simp only [h, if_false]
    rw [if_pos]
    simp only [Bool.not_eq_true', Bool.and_eq_false_iff, decide_eq_false_iff_not]
    omega

/-! ## The canonical form -/

/-- The canonical form says that addresses strictly rise. -/
theorem Memory.wf_iff (m : Memory) : m.wf = true ↔ List.Pairwise (fun c d : Host.Cell => c.1 < d.1) m := by
  induction m with
  | nil => simp [Memory.wf]
  | cons c m ih =>
    cases m with
    | nil => simp [Memory.wf]
    | cons d m =>
      rw [Memory.wf, Bool.and_eq_true, ih]
      constructor
      · rintro ⟨h, hp⟩
        refine List.pairwise_cons.2 ⟨?_, hp⟩
        intro e he
        rcases List.mem_cons.1 he with rfl | he
        · simpa using h
        · exact Nat.lt_trans (by simpa using h) ((List.pairwise_cons.1 hp).1 e he)
      · intro hp
        exact ⟨by simpa using (List.pairwise_cons.1 hp).1 d (by simp), (List.pairwise_cons.1 hp).2⟩

theorem mem_cellsFrom (bs : List Byte) (a : Nat) (c : Host.Cell) (h : c ∈ cellsFrom a bs) :
    a ≤ c.1 ∧ c.1 < a + bs.length := by
  induction bs generalizing a with
  | nil => simp [cellsFrom] at h
  | cons b bs ih =>
    rcases List.mem_cons.1 h with rfl | h
    · simp
    · have := ih (a + 1) h
      simp only [List.length_cons]
      omega

theorem pairwise_cellsFrom (bs : List Byte) (a : Nat) :
    List.Pairwise (fun c d : Host.Cell => c.1 < d.1) (cellsFrom a bs) := by
  induction bs generalizing a with
  | nil => exact List.Pairwise.nil
  | cons b bs ih =>
    refine List.pairwise_cons.2 ⟨?_, ih (a + 1)⟩
    intro c hc
    have := mem_cellsFrom bs (a + 1) c hc
    simp only
    omega

theorem Memory.wf_store (m : Memory) (a : Nat) (bs : List Byte) (h : m.wf = true) : (m.store a bs).wf = true := by
  rw [Memory.wf_iff] at h ⊢
  unfold Memory.store
  split
  · exact h
  · refine List.pairwise_append.2 ⟨List.pairwise_append.2 ⟨h.filter _, pairwise_cellsFrom bs a, ?_⟩, h.filter _, ?_⟩
    · intro c hc d hd
      have := mem_cellsFrom bs a d hd
      simp only [List.mem_filter, decide_eq_true_eq] at hc
      omega
    · intro c hc d hd
      simp only [List.mem_filter, decide_eq_true_eq] at hd
      rcases List.mem_append.1 hc with hc | hc
      · simp only [List.mem_filter, decide_eq_true_eq] at hc
        omega
      · have := mem_cellsFrom bs a c hc
        omega

theorem Memory.wf_lose (m : Memory) (a n : Nat) (h : m.wf = true) : (m.lose a n).wf = true := by
  rw [Memory.wf_iff] at h ⊢
  exact h.filter _

/-- The cells of a store lie in the stored range or were there before. -/
theorem Memory.mem_store (m : Memory) (a : Nat) (bs : List Byte) (c : Host.Cell) (h : c ∈ m.store a bs) :
    c ∈ m ∨ (a ≤ c.1 ∧ c.1 < a + bs.length) := by
  unfold Memory.store at h
  split at h
  · exact .inl h
  · rcases List.mem_append.1 h with h | h
    · rcases List.mem_append.1 h with h | h
      · exact .inl (List.mem_of_mem_filter h)
      · exact .inr (mem_cellsFrom bs a c h)
    · exact .inl (List.mem_of_mem_filter h)

theorem Memory.mem_lose (m : Memory) (a n : Nat) (c : Host.Cell) (h : c ∈ m.lose a n) : c ∈ m :=
  List.mem_of_mem_filter h

/-! ## Collecting reads -/

theorem collect_eq_some {α : Type} (l : List (Option α)) (xs : List α) : collect l = some xs ↔ l = xs.map some := by
  induction l generalizing xs with
  | nil => cases xs <;> simp [collect]
  | cons o l ih =>
    cases o with
    | none => cases xs <;> simp [collect]
    | some x =>
      cases xs with
      | nil => simp [collect]
      | cons y ys =>
        simp only [collect, Option.map_eq_some_iff, List.cons.injEq, List.map_cons, Option.some.injEq]
        constructor
        · rintro ⟨zs, hz, hx, hzs⟩
          exact ⟨hx, hzs ▸ (ih zs).1 hz⟩
        · rintro ⟨hx, hl⟩
          exact ⟨ys, (ih ys).2 hl, hx, rfl⟩

/-- What `collectN` gives: one value for each index, in order. -/
theorem collectN_eq_some {α : Type} (n : Nat) (f : Nat → Option α) (xs : List α) :
    collectN n f = some xs ↔ xs.length = n ∧ ∀ i, i < n → f i = xs[i]? := by
  unfold collectN
  rw [collect_eq_some]
  constructor
  · intro h
    have hl : xs.length = n := by
      have := congrArg List.length h
      simpa using this.symm
    refine ⟨hl, fun i hi => ?_⟩
    have h1 : ((List.range n).map f)[i]? = (xs.map some)[i]? := by rw [h]
    have h2 : i < xs.length := by omega
    simpa [List.getElem?_map, List.getElem?_range hi, List.getElem?_eq_getElem h2] using h1
  · rintro ⟨hl, h⟩
    apply List.ext_getElem?
    intro i
    by_cases hi : i < n
    · have h2 : i < xs.length := by omega
      simp [List.getElem?_map, List.getElem?_range hi, h i hi, List.getElem?_eq_getElem h2]
    · rw [List.getElem?_eq_none (by simp; omega), List.getElem?_eq_none (by simp; omega)]

theorem collectN_congr {α : Type} (n : Nat) (f g : Nat → Option α) (h : ∀ i, i < n → f i = g i) :
    collectN n f = collectN n g := by
  unfold collectN
  rw [List.map_congr_left]
  intro i hi
  exact h i (List.mem_range.1 hi)

/-- `collectN` succeeds when every index has a value. -/
theorem collectN_isSome {α : Type} (n : Nat) (f : Nat → Option α) (h : ∀ i, i < n → (f i).isSome) :
    ∃ xs, collectN n f = some xs := by
  induction n with
  | zero => exact ⟨[], rfl⟩
  | succ n ih =>
    obtain ⟨xs, hxs⟩ := ih (fun i hi => h i (by omega))
    obtain ⟨y, hy⟩ := Option.isSome_iff_exists.1 (h n (by omega))
    rw [collectN_eq_some] at hxs
    refine ⟨xs ++ [y], (collectN_eq_some _ _ _).2 ⟨by simp [hxs.1], fun i hi => ?_⟩⟩
    by_cases hin : i < n
    · rw [hxs.2 i hin, List.getElem?_append_left (by omega)]
    · have : i = n := by omega
      subst this
      rw [hy, List.getElem?_append_right (by omega)]
      simp [hxs.1]

/-! ## Bytes of a store read back -/

theorem loadBytes_store (m : Memory) (a : Nat) (bs : List Byte) (i n : Nat) (h : i + n ≤ bs.length) :
    loadBytes (m.store a bs) (a + i) n = some ((bs.drop i).take n) := by
  unfold loadBytes
  rw [collectN_eq_some]
  refine ⟨by simp; omega, fun j hj => ?_⟩
  rw [Nat.add_assoc, Memory.read_store_inside _ _ _ _ (by omega), List.getElem?_take_of_lt hj, List.getElem?_drop]

theorem loadBytes_congr (m m' : Memory) (a n : Nat) (h : ∀ j, j < n → m.read (a + j) = m'.read (a + j)) :
    loadBytes m a n = loadBytes m' a n := collectN_congr _ _ _ h

theorem memRead_congr (m m' : Memory) (a n : Nat) (h : ∀ j, j < n → m.read (a + j) = m'.read (a + j)) :
    memRead m a n = memRead m' a n := by
  unfold memRead
  rw [loadBytes_congr m m' a n h]

theorem memRead_store (m : Memory) (a : Nat) (bs : List Byte) (i n : Nat) (h : i + n ≤ bs.length) :
    memRead (m.store a bs) (a + i) n = some (leNat ((bs.drop i).take n)) := by
  simp [memRead, loadBytes_store m a bs i n h]

@[simp] theorem length_leBytes (n v : Nat) : (leBytes n v).length = n := by
  induction n generalizing v with
  | zero => rfl
  | succ n ih => simp [leBytes, ih]

@[simp] theorem length_bytes16 (v : Int) : (bytes16 v).length = 2 := by simp [bytes16]

@[simp] theorem length_bytesC16 (z : CInt) : (bytesC16 z).length = 4 := by simp [bytesC16]

@[simp] theorem length_bytes32 (v : Word) : (bytes32 v).length = 4 := by simp [bytes32]

/-- Little-endian bytes read back are the value modulo their range (20_memory.md R122, R124). -/
theorem leNat_leBytes (n v : Nat) : leNat (leBytes n v) = v % 256 ^ n := by
  induction n generalizing v with
  | zero => simp [leBytes, leNat, Nat.mod_one]
  | succ n ih =>
    have h : (256 : Nat) ^ (n + 1) = 256 * 256 ^ n := by rw [Nat.pow_succ, Nat.mul_comm]
    have h8 : (2 : Nat) ^ 8 = 256 := by norm_num
    rw [leBytes, leNat, ih, BitVec.toNat_ofNat, h, h8, Nat.mod_mul]

/-- Bytes of elements of one size read back at an element's place. -/
theorem drop_take_flatMap {α β : Type} (f : α → List β) (k : Nat) (hf : ∀ x, (f x).length = k) (xs : List α) (i : Nat)
    (x : α) (hx : xs[i]? = some x) : ((xs.flatMap f).drop (k * i)).take k = f x := by
  induction xs generalizing i with
  | nil => simp at hx
  | cons y ys ih =>
    cases i with
    | zero =>
      simp only [List.getElem?_cons_zero, Option.some.injEq] at hx
      subst hx
      simp [List.flatMap_cons, hf]
    | succ i =>
      simp only [List.getElem?_cons_succ] at hx
      have h1 : k * (i + 1) = (f y).length + k * i := by rw [hf, Nat.mul_succ, Nat.add_comm]
      rw [List.flatMap_cons, h1, ← List.drop_drop, List.drop_left]
      exact ih i hx

theorem length_flatMap_const {α β : Type} (f : α → List β) (k : Nat) (hf : ∀ x, (f x).length = k) (xs : List α) :
    (xs.flatMap f).length = k * xs.length := by
  induction xs with
  | nil => simp
  | cons y ys ih => simp [List.flatMap_cons, hf, ih, Nat.mul_succ, Nat.add_comm]

end Sys2Proof.Machine
end

