-- ==== Sys2Proof/Laws/Operands.lean ====
section
/-! SUPPORT. The element reads of 20_memory.md R129: what they depend on, and that each gives back what a store of elements put there;
and the ranges of the saturations. -/

namespace Sys2Proof.Machine

/-! ## What a read depends on -/

theorem load16_congr (m m' : Memory) (a : Nat) (h : ∀ j < 2, m.read (a + j) = m'.read (a + j)) :
    load16 m a = load16 m' a := by
  unfold load16
  rw [memRead_congr m m' a 2 h]

theorem ldI16_congr (m m' : Memory) (b i : Nat) (h : ∀ j < 2, m.read (b + 2 * i + j) = m'.read (b + 2 * i + j)) :
    ldI16 m b i = ldI16 m' b i := by
  unfold ldI16
  rw [load16_congr m m' _ h]

theorem ldU16_congr (m m' : Memory) (b i : Nat) (h : ∀ j < 2, m.read (b + 2 * i + j) = m'.read (b + 2 * i + j)) :
    ldU16 m b i = ldU16 m' b i := memRead_congr m m' _ 2 h

theorem ldC16_congr (m m' : Memory) (b i : Nat) (h : ∀ j < 4, m.read (b + 4 * i + j) = m'.read (b + 4 * i + j)) :
    ldC16 m b i = ldC16 m' b i := by
  unfold ldC16
  rw [load16_congr m m' (b + 4 * i) (fun j hj => h j (by omega)),
    load16_congr m m' (b + 4 * i + 2) (fun j hj => by rw [Nat.add_assoc]; exact h (2 + j) (by omega))]

theorem ldPbit_congr (m m' : Memory) (b i : Nat) (h : m.read (b + i / 8) = m'.read (b + i / 8)) :
    ldPbit m b i = ldPbit m' b i := by
  unfold ldPbit
  rw [memRead_congr m m' (b + i / 8) 1 (fun j hj => by have : j = 0 := by omega
                                                       subst this
                                                       simpa using h)]

/-! ## Reading back a store -/

theorem ofNat_leNat_bytes16 (v : Int) : BitVec.ofNat 16 (leNat (bytes16 v)) = BitVec.ofInt 16 v := by
  rw [bytes16, leNat_leBytes]
  have h : (BitVec.ofInt 16 v).toNat % 256 ^ 2 = (BitVec.ofInt 16 v).toNat := by
    have := (BitVec.ofInt 16 v).isLt
    omega
  rw [h, BitVec.ofNat_toNat, BitVec.setWidth_eq]

/-- A 16-bit element stored in a run of elements reads back as its pattern. -/
theorem load16_store (m : Memory) (a : Nat) (xs : List Int) (i : Nat) (v : Int) (h : xs[i]? = some v) :
    load16 (m.store a (xs.flatMap bytes16)) (a + 2 * i) = some (BitVec.ofInt 16 v) := by
  have hl := length_flatMap_const bytes16 2 length_bytes16 xs
  have hi : i < xs.length := by
    by_contra hc
    rw [List.getElem?_eq_none (by omega)] at h
    simp at h
  unfold load16
  rw [memRead_store m a _ (2 * i) 2 (by omega), drop_take_flatMap bytes16 2 length_bytes16 xs i v h]
  simp [ofNat_leNat_bytes16]

/-- An int16 in range stored in a run of int16s reads back. -/
theorem ldI16_store (m : Memory) (a : Nat) (xs : List Int) (i : Nat) (v : Int) (h : xs[i]? = some v)
    (hlo : -32768 ≤ v) (hhi : v ≤ 32767) : ldI16 (m.store a (xs.flatMap bytes16)) a i = some v := by
  unfold ldI16
  rw [load16_store m a xs i v h, Option.map_some, BitVec.toInt_ofInt]
  congr 1
  rw [Int.bmod_def]
  omega

/-- A `C16` stored in a run of `C16`s reads back. -/
theorem ldC16_store (m : Memory) (a : Nat) (xs : List CInt) (i : Nat) (z : CInt) (h : xs[i]? = some z) :
    ldC16 (m.store a (xs.flatMap bytesC16)) a i = some (toC16 z) := by
  have hl := length_flatMap_const bytesC16 4 length_bytesC16 xs
  have hi : i < xs.length := by
    by_contra hc
    rw [List.getElem?_eq_none (by omega)] at h
    simp at h
  have hb := drop_take_flatMap bytesC16 4 length_bytesC16 xs i z h
  have h0 : ((xs.flatMap bytesC16).drop (4 * i)).take 2 = bytes16 z.re := by
    have := congrArg (List.take 2) hb
    rw [List.take_take] at this
    simpa [bytesC16, List.take_append] using this
  have h2 : ((xs.flatMap bytesC16).drop (4 * i + 2)).take 2 = bytes16 z.im := by
    have := congrArg (List.drop 2) hb
    rw [List.drop_take, List.drop_drop] at this
    simpa [bytesC16, List.drop_append] using this
  unfold ldC16 load16
  rw [Nat.add_assoc, memRead_store m a _ (4 * i) 2 (by omega), memRead_store m a _ (4 * i + 2) 2 (by omega), h0, h2]
  simp [ofNat_leNat_bytes16, toC16]

@[simp] theorem toC16_ofC16 (z : C16) : toC16 (ofC16 z) = z := by simp [toC16, ofC16]

theorem ofC16_toC16 (z : CInt) (h : -32768 ≤ z.re ∧ z.re ≤ 32767 ∧ -32768 ≤ z.im ∧ z.im ≤ 32767) :
    ofC16 (toC16 z) = z := by
  obtain ⟨re, im⟩ := z
  simp only [toC16, ofC16, BitVec.toInt_ofInt, Int.bmod_def, CInt.mk.injEq]
  simp only at h
  omega

/-! ## Saturations -/

theorem clamp_range (v lo hi : Int) (h : lo ≤ hi) : lo ≤ clamp v lo hi ∧ clamp v lo hi ≤ hi := by
  unfold clamp
  split
  · omega
  · split <;> omega

theorem clamp_of_range (v lo hi : Int) (h1 : lo ≤ v) (h2 : v ≤ hi) : clamp v lo hi = v := by
  unfold clamp
  rw [if_neg (by omega), if_neg (by omega)]

theorem sat16_range (v : Int) : -32768 ≤ sat16 v ∧ sat16 v ≤ 32767 := clamp_range v _ _ (by omega)

theorem satsym15_range (v : Int) : -32767 ≤ satsym15 v ∧ satsym15 v ≤ 32767 := clamp_range v _ _ (by omega)

theorem sat32_range (v : Int) : -2147483648 ≤ sat32 v ∧ sat32 v ≤ 2147483647 := clamp_range v _ _ (by omega)

theorem sat127_range (v : Int) : -127 ≤ sat127 v ∧ sat127 v ≤ 127 := clamp_range v _ _ (by omega)

end Sys2Proof.Machine
end

