-- ==== Sys2Proof/Laws/State.lean ====
section
/-! SUPPORT. One lemma per field per named update of State, each true by `rfl`, so that no later proof unfolds an update. -/

namespace Sys2Proof.Machine

/-! ## `startRun` -/

@[simp] theorem State.startRun_phase (s : State) : s.startRun.phase = .run := rfl
@[simp] theorem State.startRun_abortPending (s : State) : s.startRun.abortPending = s.abortPending := rfl
@[simp] theorem State.startRun_latch (s : State) : s.startRun.latch = s.latch := rfl
@[simp] theorem State.startRun_done (s : State) : s.startRun.done = false := rfl
@[simp] theorem State.startRun_error (s : State) : s.startRun.error = false := rfl
@[simp] theorem State.startRun_aborted (s : State) : s.startRun.aborted = false := rfl
@[simp] theorem State.startRun_numwarn (s : State) : s.startRun.numwarn = false := rfl
@[simp] theorem State.startRun_errCode (s : State) : s.startRun.errCode = .none := rfl
@[simp] theorem State.startRun_errCmd (s : State) : s.startRun.errCmd = 0 := rfl
@[simp] theorem State.startRun_errInfo (s : State) : s.startRun.errInfo = 0 := rfl
@[simp] theorem State.startRun_cmdBase (s : State) : s.startRun.cmdBase = s.cmdBase := rfl
@[simp] theorem State.startRun_cmdCount (s : State) : s.startRun.cmdCount = s.cmdCount := rfl
@[simp] theorem State.startRun_cmdPtr (s : State) : s.startRun.cmdPtr = s.cmdBase := rfl
@[simp] theorem State.startRun_cmdDone (s : State) : s.startRun.cmdDone = 0 := rfl
@[simp] theorem State.startRun_irqEn (s : State) : s.startRun.irqEn = s.irqEn := rfl
@[simp] theorem State.startRun_irqStatus (s : State) : s.startRun.irqStatus = s.irqStatus := rfl
@[simp] theorem State.startRun_ldpcResult (s : State) : s.startRun.ldpcResult = s.ldpcResult := rfl
@[simp] theorem State.startRun_crcResult (s : State) : s.startRun.crcResult = s.crcResult := rfl
@[simp] theorem State.startRun_warnCount (s : State) : s.startRun.warnCount = 0 := rfl
@[simp] theorem State.startRun_dmem (s : State) : s.startRun.dmem = s.dmem := rfl
@[simp] theorem State.startRun_losses (s : State) : s.startRun.losses = s.losses := rfl
@[simp] theorem State.startRun_hardResets (s : State) : s.startRun.hardResets = s.hardResets := rfl
@[simp] theorem State.startRun_turns (s : State) : s.startRun.turns = s.turns := rfl
@[simp] theorem State.startRun_midAbort (s : State) : s.startRun.midAbort = s.midAbort := rfl
@[simp] theorem State.startRun_response (s : State) : s.startRun.response = s.response := rfl
@[simp] theorem State.startRun_params (s : State) : s.startRun.params = s.params := rfl

/-! ## `haltNormal` -/

@[simp] theorem State.haltNormal_phase (s : State) : s.haltNormal.phase = .idle := rfl
@[simp] theorem State.haltNormal_abortPending (s : State) : s.haltNormal.abortPending = false := rfl
@[simp] theorem State.haltNormal_latch (s : State) : s.haltNormal.latch = s.latch := rfl
@[simp] theorem State.haltNormal_done (s : State) : s.haltNormal.done = true := rfl
@[simp] theorem State.haltNormal_error (s : State) : s.haltNormal.error = s.error := rfl
@[simp] theorem State.haltNormal_aborted (s : State) : s.haltNormal.aborted = s.aborted := rfl
@[simp] theorem State.haltNormal_numwarn (s : State) : s.haltNormal.numwarn = s.numwarn := rfl
@[simp] theorem State.haltNormal_errCode (s : State) : s.haltNormal.errCode = s.errCode := rfl
@[simp] theorem State.haltNormal_errCmd (s : State) : s.haltNormal.errCmd = s.errCmd := rfl
@[simp] theorem State.haltNormal_errInfo (s : State) : s.haltNormal.errInfo = s.errInfo := rfl
@[simp] theorem State.haltNormal_cmdBase (s : State) : s.haltNormal.cmdBase = s.cmdBase := rfl
@[simp] theorem State.haltNormal_cmdCount (s : State) : s.haltNormal.cmdCount = s.cmdCount := rfl
@[simp] theorem State.haltNormal_cmdPtr (s : State) : s.haltNormal.cmdPtr = s.cmdPtr := rfl
@[simp] theorem State.haltNormal_cmdDone (s : State) : s.haltNormal.cmdDone = s.cmdDone := rfl
@[simp] theorem State.haltNormal_irqEn (s : State) : s.haltNormal.irqEn = s.irqEn := rfl
@[simp] theorem State.haltNormal_irqStatus (s : State) : s.haltNormal.irqStatus = { s.irqStatus with done := true } := rfl
@[simp] theorem State.haltNormal_ldpcResult (s : State) : s.haltNormal.ldpcResult = s.ldpcResult := rfl
@[simp] theorem State.haltNormal_crcResult (s : State) : s.haltNormal.crcResult = s.crcResult := rfl
@[simp] theorem State.haltNormal_warnCount (s : State) : s.haltNormal.warnCount = s.warnCount := rfl
@[simp] theorem State.haltNormal_dmem (s : State) : s.haltNormal.dmem = s.dmem := rfl
@[simp] theorem State.haltNormal_losses (s : State) : s.haltNormal.losses = s.losses := rfl
@[simp] theorem State.haltNormal_hardResets (s : State) : s.haltNormal.hardResets = s.hardResets := rfl
@[simp] theorem State.haltNormal_turns (s : State) : s.haltNormal.turns = s.turns := rfl
@[simp] theorem State.haltNormal_midAbort (s : State) : s.haltNormal.midAbort = s.midAbort := rfl
@[simp] theorem State.haltNormal_response (s : State) : s.haltNormal.response = s.response := rfl
@[simp] theorem State.haltNormal_params (s : State) : s.haltNormal.params = s.params := rfl

/-! ## `haltAborted` -/

@[simp] theorem State.haltAborted_phase (s : State) : s.haltAborted.phase = .idle := rfl
@[simp] theorem State.haltAborted_abortPending (s : State) : s.haltAborted.abortPending = false := rfl
@[simp] theorem State.haltAborted_latch (s : State) : s.haltAborted.latch = s.latch := rfl
@[simp] theorem State.haltAborted_done (s : State) : s.haltAborted.done = true := rfl
@[simp] theorem State.haltAborted_error (s : State) : s.haltAborted.error = s.error := rfl
@[simp] theorem State.haltAborted_aborted (s : State) : s.haltAborted.aborted = true := rfl
@[simp] theorem State.haltAborted_numwarn (s : State) : s.haltAborted.numwarn = s.numwarn := rfl
@[simp] theorem State.haltAborted_errCode (s : State) : s.haltAborted.errCode = s.errCode := rfl
@[simp] theorem State.haltAborted_errCmd (s : State) : s.haltAborted.errCmd = s.errCmd := rfl
@[simp] theorem State.haltAborted_errInfo (s : State) : s.haltAborted.errInfo = s.errInfo := rfl
@[simp] theorem State.haltAborted_cmdBase (s : State) : s.haltAborted.cmdBase = s.cmdBase := rfl
@[simp] theorem State.haltAborted_cmdCount (s : State) : s.haltAborted.cmdCount = s.cmdCount := rfl
@[simp] theorem State.haltAborted_cmdPtr (s : State) : s.haltAborted.cmdPtr = s.cmdPtr := rfl
@[simp] theorem State.haltAborted_cmdDone (s : State) : s.haltAborted.cmdDone = s.cmdDone := rfl
@[simp] theorem State.haltAborted_irqEn (s : State) : s.haltAborted.irqEn = s.irqEn := rfl
@[simp] theorem State.haltAborted_irqStatus (s : State) : s.haltAborted.irqStatus = { s.irqStatus with done := true } := rfl
@[simp] theorem State.haltAborted_ldpcResult (s : State) : s.haltAborted.ldpcResult = s.ldpcResult := rfl
@[simp] theorem State.haltAborted_crcResult (s : State) : s.haltAborted.crcResult = s.crcResult := rfl
@[simp] theorem State.haltAborted_warnCount (s : State) : s.haltAborted.warnCount = s.warnCount := rfl
@[simp] theorem State.haltAborted_dmem (s : State) : s.haltAborted.dmem = s.dmem := rfl
@[simp] theorem State.haltAborted_losses (s : State) : s.haltAborted.losses = s.losses := rfl
@[simp] theorem State.haltAborted_hardResets (s : State) : s.haltAborted.hardResets = s.hardResets := rfl
@[simp] theorem State.haltAborted_turns (s : State) : s.haltAborted.turns = s.turns := rfl
@[simp] theorem State.haltAborted_midAbort (s : State) : s.haltAborted.midAbort = s.midAbort := rfl
@[simp] theorem State.haltAborted_response (s : State) : s.haltAborted.response = s.response := rfl
@[simp] theorem State.haltAborted_params (s : State) : s.haltAborted.params = s.params := rfl

/-! ## `errorHalt` -/

@[simp] theorem State.errorHalt_phase (s : State) (e : CmdError) : (s.errorHalt e).phase = .idle := rfl
@[simp] theorem State.errorHalt_abortPending (s : State) (e : CmdError) : (s.errorHalt e).abortPending = false := rfl
@[simp] theorem State.errorHalt_latch (s : State) (e : CmdError) : (s.errorHalt e).latch = s.latch := rfl
@[simp] theorem State.errorHalt_done (s : State) (e : CmdError) : (s.errorHalt e).done = s.done := rfl
@[simp] theorem State.errorHalt_error (s : State) (e : CmdError) : (s.errorHalt e).error = true := rfl
@[simp] theorem State.errorHalt_aborted (s : State) (e : CmdError) : (s.errorHalt e).aborted = s.aborted := rfl
@[simp] theorem State.errorHalt_numwarn (s : State) (e : CmdError) : (s.errorHalt e).numwarn = s.numwarn := rfl
@[simp] theorem State.errorHalt_errCode (s : State) (e : CmdError) : (s.errorHalt e).errCode = e.code := rfl
@[simp] theorem State.errorHalt_errCmd (s : State) (e : CmdError) : (s.errorHalt e).errCmd = s.cmdDone := rfl
@[simp] theorem State.errorHalt_errInfo (s : State) (e : CmdError) : (s.errorHalt e).errInfo = e.word := rfl
@[simp] theorem State.errorHalt_cmdBase (s : State) (e : CmdError) : (s.errorHalt e).cmdBase = s.cmdBase := rfl
@[simp] theorem State.errorHalt_cmdCount (s : State) (e : CmdError) : (s.errorHalt e).cmdCount = s.cmdCount := rfl
@[simp] theorem State.errorHalt_cmdPtr (s : State) (e : CmdError) : (s.errorHalt e).cmdPtr = s.cmdPtr := rfl
@[simp] theorem State.errorHalt_cmdDone (s : State) (e : CmdError) : (s.errorHalt e).cmdDone = s.cmdDone := rfl
@[simp] theorem State.errorHalt_irqEn (s : State) (e : CmdError) : (s.errorHalt e).irqEn = s.irqEn := rfl
@[simp] theorem State.errorHalt_irqStatus (s : State) (e : CmdError) :
    (s.errorHalt e).irqStatus = { s.irqStatus with error := true } := rfl
@[simp] theorem State.errorHalt_ldpcResult (s : State) (e : CmdError) : (s.errorHalt e).ldpcResult = s.ldpcResult := rfl
@[simp] theorem State.errorHalt_crcResult (s : State) (e : CmdError) : (s.errorHalt e).crcResult = s.crcResult := rfl
@[simp] theorem State.errorHalt_warnCount (s : State) (e : CmdError) : (s.errorHalt e).warnCount = s.warnCount := rfl
@[simp] theorem State.errorHalt_dmem (s : State) (e : CmdError) : (s.errorHalt e).dmem = s.dmem := rfl
@[simp] theorem State.errorHalt_losses (s : State) (e : CmdError) : (s.errorHalt e).losses = s.losses := rfl
@[simp] theorem State.errorHalt_hardResets (s : State) (e : CmdError) : (s.errorHalt e).hardResets = s.hardResets := rfl
@[simp] theorem State.errorHalt_turns (s : State) (e : CmdError) : (s.errorHalt e).turns = s.turns := rfl
@[simp] theorem State.errorHalt_midAbort (s : State) (e : CmdError) : (s.errorHalt e).midAbort = s.midAbort := rfl
@[simp] theorem State.errorHalt_response (s : State) (e : CmdError) : (s.errorHalt e).response = s.response := rfl
@[simp] theorem State.errorHalt_params (s : State) (e : CmdError) : (s.errorHalt e).params = s.params := rfl

/-! ## `complete` -/

@[simp] theorem State.complete_phase (s : State) : s.complete.phase = s.phase := rfl
@[simp] theorem State.complete_abortPending (s : State) : s.complete.abortPending = s.abortPending := rfl
@[simp] theorem State.complete_latch (s : State) : s.complete.latch = s.latch := rfl
@[simp] theorem State.complete_done (s : State) : s.complete.done = s.done := rfl
@[simp] theorem State.complete_error (s : State) : s.complete.error = s.error := rfl
@[simp] theorem State.complete_aborted (s : State) : s.complete.aborted = s.aborted := rfl
@[simp] theorem State.complete_numwarn (s : State) : s.complete.numwarn = s.numwarn := rfl
@[simp] theorem State.complete_errCode (s : State) : s.complete.errCode = s.errCode := rfl
@[simp] theorem State.complete_errCmd (s : State) : s.complete.errCmd = s.errCmd := rfl
@[simp] theorem State.complete_errInfo (s : State) : s.complete.errInfo = s.errInfo := rfl
@[simp] theorem State.complete_cmdBase (s : State) : s.complete.cmdBase = s.cmdBase := rfl
@[simp] theorem State.complete_cmdCount (s : State) : s.complete.cmdCount = s.cmdCount := rfl
@[simp] theorem State.complete_cmdPtr (s : State) : s.complete.cmdPtr = s.cmdPtr + 32 := rfl
@[simp] theorem State.complete_cmdDone (s : State) : s.complete.cmdDone = s.cmdDone + 1 := rfl
@[simp] theorem State.complete_irqEn (s : State) : s.complete.irqEn = s.irqEn := rfl
@[simp] theorem State.complete_irqStatus (s : State) : s.complete.irqStatus = s.irqStatus := rfl
@[simp] theorem State.complete_ldpcResult (s : State) : s.complete.ldpcResult = s.ldpcResult := rfl
@[simp] theorem State.complete_crcResult (s : State) : s.complete.crcResult = s.crcResult := rfl
@[simp] theorem State.complete_warnCount (s : State) : s.complete.warnCount = s.warnCount := rfl
@[simp] theorem State.complete_dmem (s : State) : s.complete.dmem = s.dmem := rfl
@[simp] theorem State.complete_losses (s : State) : s.complete.losses = s.losses := rfl
@[simp] theorem State.complete_hardResets (s : State) : s.complete.hardResets = s.hardResets := rfl
@[simp] theorem State.complete_turns (s : State) : s.complete.turns = s.turns := rfl
@[simp] theorem State.complete_midAbort (s : State) : s.complete.midAbort = s.midAbort := rfl
@[simp] theorem State.complete_response (s : State) : s.complete.response = s.response := rfl
@[simp] theorem State.complete_params (s : State) : s.complete.params = s.params := rfl

/-! ## `warn` -/

@[simp] theorem State.warn_phase (s : State) : s.warn.phase = s.phase := rfl
@[simp] theorem State.warn_abortPending (s : State) : s.warn.abortPending = s.abortPending := rfl
@[simp] theorem State.warn_latch (s : State) : s.warn.latch = s.latch := rfl
@[simp] theorem State.warn_done (s : State) : s.warn.done = s.done := rfl
@[simp] theorem State.warn_error (s : State) : s.warn.error = s.error := rfl
@[simp] theorem State.warn_aborted (s : State) : s.warn.aborted = s.aborted := rfl
@[simp] theorem State.warn_numwarn (s : State) : s.warn.numwarn = true := rfl
@[simp] theorem State.warn_errCode (s : State) : s.warn.errCode = s.errCode := rfl
@[simp] theorem State.warn_errCmd (s : State) : s.warn.errCmd = s.errCmd := rfl
@[simp] theorem State.warn_errInfo (s : State) : s.warn.errInfo = s.errInfo := rfl
@[simp] theorem State.warn_cmdBase (s : State) : s.warn.cmdBase = s.cmdBase := rfl
@[simp] theorem State.warn_cmdCount (s : State) : s.warn.cmdCount = s.cmdCount := rfl
@[simp] theorem State.warn_cmdPtr (s : State) : s.warn.cmdPtr = s.cmdPtr := rfl
@[simp] theorem State.warn_cmdDone (s : State) : s.warn.cmdDone = s.cmdDone := rfl
@[simp] theorem State.warn_irqEn (s : State) : s.warn.irqEn = s.irqEn := rfl
@[simp] theorem State.warn_irqStatus (s : State) : s.warn.irqStatus = s.irqStatus := rfl
@[simp] theorem State.warn_ldpcResult (s : State) : s.warn.ldpcResult = s.ldpcResult := rfl
@[simp] theorem State.warn_crcResult (s : State) : s.warn.crcResult = s.crcResult := rfl
@[simp] theorem State.warn_warnCount (s : State) :
    s.warn.warnCount = if s.warnCount = 0xFFFFFFFF then s.warnCount else s.warnCount + 1 := rfl
@[simp] theorem State.warn_dmem (s : State) : s.warn.dmem = s.dmem := rfl
@[simp] theorem State.warn_losses (s : State) : s.warn.losses = s.losses := rfl
@[simp] theorem State.warn_hardResets (s : State) : s.warn.hardResets = s.hardResets := rfl
@[simp] theorem State.warn_turns (s : State) : s.warn.turns = s.turns := rfl
@[simp] theorem State.warn_midAbort (s : State) : s.warn.midAbort = s.midAbort := rfl
@[simp] theorem State.warn_response (s : State) : s.warn.response = s.response := rfl
@[simp] theorem State.warn_params (s : State) : s.warn.params = s.params := rfl

/-! ## `landAbort` -/

@[simp] theorem State.landAbort_phase (s : State) : s.landAbort.phase = s.phase := rfl
@[simp] theorem State.landAbort_abortPending (s : State) : s.landAbort.abortPending = (s.abortPending || s.busy) := rfl
@[simp] theorem State.landAbort_latch (s : State) : s.landAbort.latch = s.latch := rfl
@[simp] theorem State.landAbort_done (s : State) : s.landAbort.done = s.done := rfl
@[simp] theorem State.landAbort_error (s : State) : s.landAbort.error = s.error := rfl
@[simp] theorem State.landAbort_aborted (s : State) : s.landAbort.aborted = s.aborted := rfl
@[simp] theorem State.landAbort_numwarn (s : State) : s.landAbort.numwarn = s.numwarn := rfl
@[simp] theorem State.landAbort_errCode (s : State) : s.landAbort.errCode = s.errCode := rfl
@[simp] theorem State.landAbort_errCmd (s : State) : s.landAbort.errCmd = s.errCmd := rfl
@[simp] theorem State.landAbort_errInfo (s : State) : s.landAbort.errInfo = s.errInfo := rfl
@[simp] theorem State.landAbort_cmdBase (s : State) : s.landAbort.cmdBase = s.cmdBase := rfl
@[simp] theorem State.landAbort_cmdCount (s : State) : s.landAbort.cmdCount = s.cmdCount := rfl
@[simp] theorem State.landAbort_cmdPtr (s : State) : s.landAbort.cmdPtr = s.cmdPtr := rfl
@[simp] theorem State.landAbort_cmdDone (s : State) : s.landAbort.cmdDone = s.cmdDone := rfl
@[simp] theorem State.landAbort_irqEn (s : State) : s.landAbort.irqEn = s.irqEn := rfl
@[simp] theorem State.landAbort_irqStatus (s : State) : s.landAbort.irqStatus = s.irqStatus := rfl
@[simp] theorem State.landAbort_ldpcResult (s : State) : s.landAbort.ldpcResult = s.ldpcResult := rfl
@[simp] theorem State.landAbort_crcResult (s : State) : s.landAbort.crcResult = s.crcResult := rfl
@[simp] theorem State.landAbort_warnCount (s : State) : s.landAbort.warnCount = s.warnCount := rfl
@[simp] theorem State.landAbort_dmem (s : State) : s.landAbort.dmem = s.dmem := rfl
@[simp] theorem State.landAbort_losses (s : State) : s.landAbort.losses = s.losses := rfl
@[simp] theorem State.landAbort_hardResets (s : State) : s.landAbort.hardResets = s.hardResets := rfl
@[simp] theorem State.landAbort_turns (s : State) : s.landAbort.turns = s.turns := rfl
@[simp] theorem State.landAbort_midAbort (s : State) : s.landAbort.midAbort = none := rfl
@[simp] theorem State.landAbort_response (s : State) : s.landAbort.response = s.response := rfl
@[simp] theorem State.landAbort_params (s : State) : s.landAbort.params = s.params := rfl

/-! ## `resetRegisters` -/

@[simp] theorem State.resetRegisters_phase (s : State) : s.resetRegisters.phase = .idle := rfl
@[simp] theorem State.resetRegisters_abortPending (s : State) : s.resetRegisters.abortPending = false := rfl
@[simp] theorem State.resetRegisters_latch (s : State) : s.resetRegisters.latch = ⟨0, 0, 0, 0, 0, 0, 0, 0⟩ := rfl
@[simp] theorem State.resetRegisters_done (s : State) : s.resetRegisters.done = false := rfl
@[simp] theorem State.resetRegisters_error (s : State) : s.resetRegisters.error = false := rfl
@[simp] theorem State.resetRegisters_aborted (s : State) : s.resetRegisters.aborted = false := rfl
@[simp] theorem State.resetRegisters_numwarn (s : State) : s.resetRegisters.numwarn = false := rfl
@[simp] theorem State.resetRegisters_errCode (s : State) : s.resetRegisters.errCode = .none := rfl
@[simp] theorem State.resetRegisters_errCmd (s : State) : s.resetRegisters.errCmd = 0 := rfl
@[simp] theorem State.resetRegisters_errInfo (s : State) : s.resetRegisters.errInfo = 0 := rfl
@[simp] theorem State.resetRegisters_cmdBase (s : State) : s.resetRegisters.cmdBase = 0 := rfl
@[simp] theorem State.resetRegisters_cmdCount (s : State) : s.resetRegisters.cmdCount = 0 := rfl
@[simp] theorem State.resetRegisters_cmdPtr (s : State) : s.resetRegisters.cmdPtr = 0 := rfl
@[simp] theorem State.resetRegisters_cmdDone (s : State) : s.resetRegisters.cmdDone = 0 := rfl
@[simp] theorem State.resetRegisters_irqEn (s : State) : s.resetRegisters.irqEn = ⟨false, false⟩ := rfl
@[simp] theorem State.resetRegisters_irqStatus (s : State) : s.resetRegisters.irqStatus = ⟨false, false⟩ := rfl
@[simp] theorem State.resetRegisters_ldpcResult (s : State) : s.resetRegisters.ldpcResult = 0 := rfl
@[simp] theorem State.resetRegisters_crcResult (s : State) : s.resetRegisters.crcResult = 0 := rfl
@[simp] theorem State.resetRegisters_warnCount (s : State) : s.resetRegisters.warnCount = 0 := rfl
@[simp] theorem State.resetRegisters_dmem (s : State) : s.resetRegisters.dmem = s.dmem := rfl
@[simp] theorem State.resetRegisters_losses (s : State) : s.resetRegisters.losses = s.losses := rfl
@[simp] theorem State.resetRegisters_hardResets (s : State) : s.resetRegisters.hardResets = s.hardResets := rfl
@[simp] theorem State.resetRegisters_turns (s : State) : s.resetRegisters.turns = s.turns := rfl
@[simp] theorem State.resetRegisters_midAbort (s : State) : s.resetRegisters.midAbort = s.midAbort := rfl
@[simp] theorem State.resetRegisters_response (s : State) : s.resetRegisters.response = s.response := rfl
@[simp] theorem State.resetRegisters_params (s : State) : s.resetRegisters.params = s.params := rfl

end Sys2Proof.Machine
end

