-- ==== Sys2Proof/Laws/Ops.lean ====
section
/-! SUPPORT. For each shared operation, one lemma that says everything it can do: the checks, the effect of a command, one command, the
fetch, the engine step and the moves. -/

namespace Sys2Proof.Machine

/-! ## Checks -/

/-- No error is reported exactly when no check fails. -/
theorem firstError_eq_none (cs : List Check) : firstError cs = none ↔ ∀ c ∈ cs, c.1 = false := by
  induction cs with
  | nil => simp [firstError]
  | cons c cs ih =>
    obtain ⟨fails, e⟩ := c
    cases fails <;> simp [firstError, ih]

/-- The error reported is that of a failing check before which none fails. -/
theorem firstError_eq_some (cs : List Check) (e : CmdError) :
    firstError cs = some e ↔ ∃ before after, cs = before ++ (true, e) :: after ∧ ∀ c ∈ before, c.1 = false := by
  induction cs with
  | nil => simp [firstError]
  | cons c cs ih =>
    obtain ⟨fails, e'⟩ := c
    cases fails with
    | true =>
      simp only [firstError, if_true, Option.some.injEq]
      constructor
      · rintro rfl
        exact ⟨[], cs, rfl, by simp⟩
      · rintro ⟨before, after, h, hb⟩
        cases before with
        | nil => simpa using (List.cons.inj h).1
        | cons b bs =>
          have h1 := (List.cons.inj h).1
          have h2 := hb b (by simp)
          rw [← h1] at h2
          simp at h2
    | false =>
      simp only [firstError, Bool.false_eq_true, if_false, ih]
      constructor
      · rintro ⟨before, after, rfl, hb⟩
        exact ⟨(false, e') :: before, after, rfl, by simpa using hb⟩
      · rintro ⟨before, after, h, hb⟩
        cases before with
        | nil => simp at h
        | cons b bs =>
          exact ⟨bs, after, (List.cons.inj h).2, fun c hc => hb c (by simp [hc])⟩

theorem firstError_append (cs ds : List Check) : firstError (cs ++ ds) = (firstError cs).or (firstError ds) := by
  induction cs with
  | nil => simp [firstError]
  | cons c cs ih =>
    obtain ⟨fails, e⟩ := c
    cases fails <;> simp [firstError, ih]

@[simp] theorem alignCheck_passes (b : Buf) : (alignCheck b).1 = false ↔ bufAligned b := by
  simp only [alignCheck, bufAligned, Bool.and_eq_false_iff, decide_eq_false_iff_not]
  omega

@[simp] theorem rangeCheck_passes (p : Params) (b : Buf) : (rangeCheck p b).1 = false ↔ bufInRange p b := by
  simp only [rangeCheck, bufInRange, Bool.and_eq_false_iff, decide_eq_false_iff_not]
  omega

@[simp] theorem overlapCheck_passes (p : Buf × Buf) : (overlapCheck p).1 = false ↔ bufsDisjoint p := by
  simp only [overlapCheck, bufsDisjoint, Bool.and_eq_false_iff, decide_eq_false_iff_not]
  omega

/-- The buffer checks pass exactly when the buffers are legal. -/
theorem bufferChecks_pass (par : Params) (bufs : List Buf) (pairs : List (Buf × Buf)) :
    firstError (bufferChecks par bufs pairs) = none ↔ buffersLegal par bufs pairs := by
  rw [firstError_eq_none, bufferChecks]
  constructor
  · intro h
    refine ⟨fun b hb => ?_, fun b hb => ?_, fun p hp => ?_⟩
    · exact (alignCheck_passes b).1 (h _ (by simp only [List.mem_append, List.mem_map]; exact .inl (.inl ⟨b, hb, rfl⟩)))
    · exact (rangeCheck_passes par b).1 (h _ (by simp only [List.mem_append, List.mem_map]; exact .inl (.inr ⟨b, hb, rfl⟩)))
    · exact (overlapCheck_passes p).1 (h _ (by simp only [List.mem_append, List.mem_map]; exact .inr ⟨p, hp, rfl⟩))
  · rintro ⟨ha, hr, ho⟩ c hc
    simp only [List.mem_append, List.mem_map] at hc
    rcases hc with (⟨b, hb, rfl⟩ | ⟨b, hb, rfl⟩) | ⟨p, hp, rfl⟩
    · exact (alignCheck_passes b).2 (ha b hb)
    · exact (rangeCheck_passes par b).2 (hr b hb)
    · exact (overlapCheck_passes p).2 (ho p hp)

/-! ## Effects -/

/-- `warn()` called `n` times. -/
theorem State.warns_eq (n : Nat) (s : State) :
    State.warns n s =
      { s with
        numwarn := s.numwarn || decide (0 < n)
        warnCount := BitVec.ofNat 32 (min (s.warnCount.toNat + n) 0xFFFFFFFF) } := by
  induction n generalizing s with
  | zero =>
    have h : min s.warnCount.toNat 4294967295 = s.warnCount.toNat := by have := s.warnCount.isLt; omega
    simp [State.warns, h]
  | succ n ih =>
    rw [State.warns, ih]
    have hlt := s.warnCount.isLt
    by_cases h : s.warnCount = 0xFFFFFFFF
    · have h1 : s.warn.warnCount = s.warnCount := by simp [h]
      have h2 : s.warnCount.toNat = 0xFFFFFFFF := by rw [h]; rfl
      have h3 : min (s.warn.warnCount.toNat + n) 0xFFFFFFFF = min (s.warnCount.toNat + (n + 1)) 0xFFFFFFFF := by
        rw [h1]; omega
      rw [h3]
      simp [State.warn]
    · have h1 : s.warn.warnCount = s.warnCount + 1 := by rw [State.warn_warnCount, if_neg h]
      have h2 : s.warnCount.toNat ≠ 0xFFFFFFFF := fun hc => h (BitVec.eq_of_toNat_eq (by simpa using hc))
      have h3 : (s.warnCount + 1).toNat = s.warnCount.toNat + 1 := by
        rw [BitVec.toNat_add]
        simp only [BitVec.reduceToNat] at *
        omega
      have h4 : min (s.warn.warnCount.toNat + n) 0xFFFFFFFF = min (s.warnCount.toNat + (n + 1)) 0xFFFFFFFF := by
        rw [h1, h3]; omega
      rw [h4]
      simp [State.warn]

/-- The state after an effect, in full. -/
theorem State.apply_eq (s : State) (e : Effect) :
    s.apply e =
      { s with
        dmem := applyWrites s.dmem e.writes
        ldpcResult := e.ldpcResult.getD s.ldpcResult
        crcResult := e.crcResult.getD s.crcResult
        numwarn := s.numwarn || decide (0 < e.warnings)
        warnCount := BitVec.ofNat 32 (min (s.warnCount.toNat + e.warnings) 0xFFFFFFFF) } := by
  rw [State.apply, State.warns_eq]

/-- A byte outside every run of stored bytes keeps its value. -/
theorem read_applyWrites_outside (ws : List (Nat × List Byte)) (m : Memory) (x : Nat)
    (h : ∀ w ∈ ws, ¬ (w.1 ≤ x ∧ x < w.1 + w.2.length)) : (applyWrites m ws).read x = m.read x := by
  induction ws generalizing m with
  | nil => rfl
  | cons w ws ih =>
    obtain ⟨a, bs⟩ := w
    rw [applyWrites, ih _ (fun w hw => h w (by simp [hw])), Memory.read_store_outside _ _ _ _ (h (a, bs) (by simp))]

/-- Storing keeps the canonical form. -/
theorem wf_applyWrites (ws : List (Nat × List Byte)) (m : Memory) (h : m.wf = true) : (applyWrites m ws).wf = true := by
  induction ws generalizing m with
  | nil => exact h
  | cons w ws ih => exact ih _ (Memory.wf_store _ _ _ h)

theorem mem_applyWrites (ws : List (Nat × List Byte)) (m : Memory) (c : Host.Cell) (h : c ∈ applyWrites m ws) :
    c ∈ m ∨ ∃ w ∈ ws, w.1 ≤ c.1 ∧ c.1 < w.1 + w.2.length := by
  induction ws generalizing m with
  | nil => exact .inl h
  | cons w ws ih =>
    obtain ⟨a, bs⟩ := w
    rcases ih _ h with h | ⟨w, hw, hr⟩
    · rcases Memory.mem_store _ _ _ _ h with h | h
      · exact .inl h
      · exact .inr ⟨(a, bs), by simp, h⟩
    · exact .inr ⟨w, by simp [hw], hr⟩

/-! ## One command -/

/-- The three things a command can do. -/
theorem runCommand_cases (checks : List Check) (effect : State → Option Effect) (s : State) :
    (∃ e, firstError checks = some e ∧ runCommand checks effect s = .next (s.errorHalt e))
      ∨ (firstError checks = none ∧ effect s = none
          ∧ runCommand checks effect s = .fault (.uninitRead s.cmdDone s.cmdPtr))
      ∨ (firstError checks = none ∧ ∃ f, effect s = some f ∧ runCommand checks effect s = .next (s.apply f).complete) := by
  unfold runCommand
  cases h : firstError checks with
  | some e => exact .inl ⟨e, rfl, rfl⟩
  | none =>
    cases hf : effect s with
    | none => exact .inr (.inl ⟨rfl, rfl, rfl⟩)
    | some f => exact .inr (.inr ⟨rfl, f, rfl, rfl⟩)

/-- The next states of a command. -/
theorem runCommand_eq_next (checks : List Check) (effect : State → Option Effect) (s t : State) :
    runCommand checks effect s = .next t ↔
      (∃ e, firstError checks = some e ∧ t = s.errorHalt e)
        ∨ (firstError checks = none ∧ ∃ f, effect s = some f ∧ t = (s.apply f).complete) := by
  rcases runCommand_cases checks effect s with ⟨e, h, hr⟩ | ⟨h, hf, hr⟩ | ⟨h, f, hf, hr⟩
  · simp [hr, h, eq_comm]
  · simp [hr, h, hf]
  · simp [hr, h, hf, eq_comm]

/-- The state a completed command leaves, in the terms of the statements. -/
theorem completed_apply (s : State) (f : Effect) :
    completed s (s.apply f).complete (f.ldpcResult.getD s.ldpcResult) (f.crcResult.getD s.crcResult) f.warnings := by
  unfold completed State.complete
  rw [State.apply_eq]

/-! ## Fetch -/

theorem wordOfBytes_bytesOfWord (w : Word) :
    wordOfBytes (BitVec.ofNat 8 w.toNat) (BitVec.ofNat 8 (w.toNat / 2 ^ 8)) (BitVec.ofNat 8 (w.toNat / 2 ^ 16))
      (BitVec.ofNat 8 (w.toNat / 2 ^ 24)) = w := by
  apply BitVec.eq_of_toNat_eq
  simp only [wordOfBytes, word, BitVec.toNat_ofNat]
  have := w.isLt
  omega

@[simp] theorem length_bytesOfWord (w : Word) : (bytesOfWord w).length = 4 := rfl

@[simp] theorem length_cmdBytes (w : CmdWords) : (cmdBytes w).length = 32 := rfl

@[simp] theorem cmdWordsOfBytes_cmdBytes (w : CmdWords) : cmdWordsOfBytes (cmdBytes w) = some w := by
  unfold cmdWordsOfBytes
  rw [if_pos (length_cmdBytes w)]
  simp only [cmdBytes, bytesOfWord, List.cons_append, List.nil_append, wordsOfBytes, wordOfBytes_bytesOfWord]

/-- The fetch of a command whose 32 bytes stand at `pc`. -/
theorem State.fetch_of_commandAt (s : State) (w : CmdWords) (h : commandAt s w) :
    s.fetchInRange = true ∧ s.fetch = some w := by
  refine ⟨by simpa [State.fetchInRange] using h.1, ?_⟩
  have hl : loadBytes s.dmem s.cmdPtr.toNat 32 = some (cmdBytes w) := by
    unfold loadBytes
    rw [collectN_eq_some]
    exact ⟨rfl, h.2⟩
  simp [State.fetch, hl]

/-! ## The engine step -/

/-- The moves of the engine step, in the order of 40_sequencing.md R221. -/
theorem State.engineStep_cases (s : State) :
    (s.cmdDone = s.cmdCount ∧ s.engineStep = .next s.haltNormal)
      ∨ (s.cmdDone ≠ s.cmdCount ∧ s.abortPending = true ∧ s.engineStep = .next s.haltAborted)
      ∨ (s.cmdDone ≠ s.cmdCount ∧ s.abortPending = false ∧ s.fetchInRange = false
          ∧ s.engineStep = .next (s.errorHalt ⟨.fetchRange, 0⟩))
      ∨ (s.cmdDone ≠ s.cmdCount ∧ s.abortPending = false ∧ s.fetchInRange = true ∧ s.fetch = none
          ∧ s.engineStep = .fault (.uninitRead s.cmdDone s.cmdPtr))
      ∨ (s.cmdDone ≠ s.cmdCount ∧ s.abortPending = false ∧ s.fetchInRange = true
          ∧ ∃ w, s.fetch = some w ∧ s.engineStep = { s with latch := w }.executeLatched) := by
  unfold State.engineStep
  by_cases h1 : s.cmdDone = s.cmdCount
  · exact .inl ⟨h1, by simp [h1]⟩
  · cases h2 : s.abortPending with
    | true => exact .inr (.inl ⟨h1, rfl, by simp [h1]⟩)
    | false =>
      cases h3 : s.fetchInRange with
      | false => exact .inr (.inr (.inl ⟨h1, rfl, rfl, by simp [h1]⟩))
      | true =>
        cases h4 : s.fetch with
        | none => exact .inr (.inr (.inr (.inl ⟨h1, rfl, rfl, rfl, by simp [h1]⟩)))
        | some w => exact .inr (.inr (.inr (.inr ⟨h1, rfl, rfl, w, rfl, by simp [h1]⟩)))

/-- A running state with no listed move takes the engine step. -/
theorem step_of_running (s : State) (ht : s.turns = []) (hr : s.phase = .run) : step s = s.engineStep := by
  simp [step, State.move, ht, State.engineMove, State.busy, hr]

/-- Every meaning is one command over its checks. -/
theorem exec_eq_runCommand (i : Instr) :
    ∃ effect : State → Option Effect, ∀ s, exec i s = runCommand (checksOf s.params i) effect s := by
  cases i with
  | nop => exact ⟨fun _ => some (storesOnly []), fun _ => rfl⟩
  | fepRx c => exact ⟨fepEffect c, fun _ => rfl⟩
  | chest c => exact ⟨chestEffect c, fun _ => rfl⟩
  | mmse c => exact ⟨mmseEffect c, fun _ => rfl⟩
  | llr c => exact ⟨llrEffect c, fun _ => rfl⟩
  | layerDemap c => exact ⟨demapEffect c, fun _ => rfl⟩
  | descramble c => exact ⟨descrambleEffect c, fun _ => rfl⟩
  | ldpcDec c => exact ⟨ldpcEffect c, fun _ => rfl⟩
  | crc24a c => exact ⟨crcEffect c, fun _ => rfl⟩

/-! ## The moves to come and an abort inside the step -/

/-- A command whose effect reads neither the moves to come nor the abort inside the step does the same whatever they are. -/
theorem runCommand_turns (checks : List Check) (effect : State → Option Effect) (s : State) (r : List Turn) (m : Option Nat)
    (h : effect { s with turns := r, midAbort := m } = effect s) :
    runCommand checks effect { s with turns := r, midAbort := m }
      = mapNext (fun t => { t with turns := r, midAbort := m }) (runCommand checks effect s) := by
  unfold runCommand
  rw [h]
  cases firstError checks with
  | some e => rfl
  | none =>
    cases effect s with
    | none => rfl
    | some f => simp [mapNext, State.apply_eq, State.complete]

/-- Every command but `LDPC_DEC` does the same whatever the moves to come and the abort inside the step. -/
theorem exec_turns (i : Instr) (hi : ∀ c, i ≠ .ldpcDec c) (s : State) (r : List Turn) (m : Option Nat) :
    exec i { s with turns := r, midAbort := m } = mapNext (fun t => { t with turns := r, midAbort := m }) (exec i s) := by
  cases i with
  | ldpcDec c => exact absurd rfl (hi c)
  | nop => exact runCommand_turns [] (fun _ => some (storesOnly [])) s r m rfl
  | fepRx c => exact runCommand_turns _ (fepEffect c) s r m rfl
  | chest c => exact runCommand_turns _ (chestEffect c) s r m rfl
  | mmse c => exact runCommand_turns _ (mmseEffect c) s r m rfl
  | llr c => exact runCommand_turns _ (llrEffect c) s r m rfl
  | layerDemap c => exact runCommand_turns _ (demapEffect c) s r m rfl
  | descramble c => exact runCommand_turns _ (descrambleEffect c) s r m rfl
  | crc24a c => exact runCommand_turns _ (crcEffect c) s r m rfl

/-- An abort inside the step changes nothing of an `LDPC_DEC` but its outputs. -/
theorem execLdpcDec_turns (c : LdpcDec) (s : State) (r : List Turn) (m : Option Nat) :
    (∀ t, execLdpcDec c s = .next t → ∃ u, execLdpcDec c { s with turns := r, midAbort := m } = .next u
        ∧ u = { t with turns := r, midAbort := m, dmem := u.dmem, ldpcResult := u.ldpcResult }
        ∧ (t.phase ≠ s.phase → u.dmem = t.dmem ∧ u.ldpcResult = t.ldpcResult))
      ∧ (∀ f, execLdpcDec c s = .fault f → execLdpcDec c { s with turns := r, midAbort := m } = .fault f) := by
  unfold execLdpcDec runCommand
  dsimp only
  cases firstError (ldpcChecks s.params c) with
  | some e =>
    refine ⟨?_, by simp⟩
    rintro t ht
    cases ht
    exact ⟨_, rfl, rfl, by simp⟩
  | none =>
    unfold ldpcEffect
    dsimp only
    cases collectN c.e (fun i => ldI16 s.dmem c.inBase i) with
    | none => simp
    | some ins =>
      simp only [Option.map_some]
      refine ⟨?_, by simp⟩
      rintro t ht
      cases ht
      refine ⟨_, rfl, ?_, ?_⟩
      · simp [State.complete, State.apply, State.warns]
      · simp [State.apply_eq, State.complete]

/-! ## The host -/

/-- A bus error changes nothing but the response. -/
theorem State.hostAccess_busError (s : State) (off : Nat) (size : AccessSize) (v : Word)
    (h : s.target off size = .busError) :
    s.hostAccess (.read off size) = { s with response := some ⟨true, 0⟩ }
      ∧ s.hostAccess (.write off size v) = { s with response := some ⟨true, 0⟩ } := by
  simp [State.hostAccess, h]

/-- Making the bytes of buffers unwritten keeps the memory's canonical form. -/
theorem wf_loseAll (m : Memory) (bs : List Buf) (h : m.wf = true) : (loseAll m bs).wf = true := by
  induction bs generalizing m with
  | nil => exact h
  | cons b bs ih => exact ih _ (Memory.wf_lose _ _ _ h)

/-- A read after the bytes of buffers are made unwritten. -/
theorem read_loseAll (m : Memory) (bs : List Buf) (x : Nat) :
    (loseAll m bs).read x = if bs.any (fun b => inBuf b x) then none else m.read x := by
  induction bs generalizing m with
  | nil => simp [loseAll]
  | cons b bs ih =>
    rw [loseAll, ih, Memory.read_lose]
    by_cases h : inBuf b x = true
    · have h2 : b.base ≤ x ∧ x < b.base + bufBytes b := by simpa [inBuf] using h
      simp [h, h2]
    · have h2 : ¬ (b.base ≤ x ∧ x < b.base + bufBytes b) := by simpa [inBuf] using h
      simp [h, h2]

end Sys2Proof.Machine
end

