-- ==== Sys2Proof/Laws/PerInstr.lean ====
section
/-! SUPPORT. A property of every command as syntax, one lemma per constructor of `Instr`: the first word of its encoding carries its
opcode of 30_encoding.md R173. -/

namespace Sys2Proof.Laws

/-- The opcode of a command (30_encoding.md R173). -/
def opcodeOfInstr : Instr → Nat
  | .nop => 0x00
  | .fepRx _ => 0x01
  | .chest _ => 0x02
  | .mmse _ => 0x03
  | .llr _ => 0x04
  | .layerDemap _ => 0x05
  | .descramble _ => 0x06
  | .ldpcDec _ => 0x07
  | .crc24a _ => 0x08

/-- `w[0][7:0]` of the encoding is the command's opcode. -/
def EncodeOpcode.Statement (i : Instr) : Prop := (encode i).w0.toNat % 256 = opcodeOfInstr i

theorem word_mod_256 (n : Nat) : (word n).toNat % 256 = n % 256 := by
  simp only [word, BitVec.toNat_ofNat]
  omega

theorem EncodeOpcode.nop : EncodeOpcode.Statement .nop := rfl

theorem EncodeOpcode.fepRx (c : FepRx) : EncodeOpcode.Statement (.fepRx c) := by
  simp only [EncodeOpcode.Statement, encode, word_mod_256, opcodeOfInstr]
  omega

theorem EncodeOpcode.chest (c : Chest) : EncodeOpcode.Statement (.chest c) := by
  simp only [EncodeOpcode.Statement, encode, word_mod_256, opcodeOfInstr]
  omega

theorem EncodeOpcode.mmse (c : Mmse) : EncodeOpcode.Statement (.mmse c) := by
  simp only [EncodeOpcode.Statement, encode, word_mod_256, opcodeOfInstr]
  omega

theorem EncodeOpcode.llr (c : Llr) : EncodeOpcode.Statement (.llr c) := by
  simp only [EncodeOpcode.Statement, encode, word_mod_256, opcodeOfInstr]
  omega

theorem EncodeOpcode.layerDemap (c : LayerDemap) : EncodeOpcode.Statement (.layerDemap c) := by
  simp only [EncodeOpcode.Statement, encode, word_mod_256, opcodeOfInstr]
  omega

theorem EncodeOpcode.descramble (c : Descramble) : EncodeOpcode.Statement (.descramble c) := by
  simp only [EncodeOpcode.Statement, encode, word_mod_256, opcodeOfInstr]
  omega

theorem EncodeOpcode.ldpcDec (c : LdpcDec) : EncodeOpcode.Statement (.ldpcDec c) := by
  simp only [EncodeOpcode.Statement, encode, word_mod_256, opcodeOfInstr]
  omega

theorem EncodeOpcode.crc24a (c : Crc24a) : EncodeOpcode.Statement (.crc24a c) := by
  simp only [EncodeOpcode.Statement, encode, word_mod_256, opcodeOfInstr]
  omega

end Sys2Proof.Laws
end

