-- ==== Sys2Proof/Tests/Slice0.lean ====
section
/-! SUPPORT. Small tests: the well-formedness checks, decoding of words written out from 30_encoding.md, one or two vectors of
95_test_vectors.md or of a rule's own example per command, and, for every statement with hypotheses, states and operands that meet
them. -/

namespace Sys2Proof.Tests

open Sys2Proof.Machine

set_option Elab.async false

/-! ## Well-formedness: the largest values fit, and one more in any field is refused -/

def okFep : FepRx := ⟨15, true, 15, 2 ^ 32 - 1, 2 ^ 32 - 1, 2 ^ 32 - 1, 65535, 65535, 65535, 2 ^ 32 - 1, 65535, 65535⟩

theorem test_wf_accepts_FepRx : okFep.wf = true := by decide

theorem test_wf_refuses_FepRx :
    ([{ okFep with sizeClass := 16 }, { okFep with symbol := 16 }, { okFep with tdBase := 2 ^ 32 },
     { okFep with tdLen := 2 ^ 32 }, { okFep with slotOffset := 2 ^ 32 }, { okFep with cp0 := 2 ^ 16 },
     { okFep with cp := 2 ^ 16 }, { okFep with offsetDiv := 2 ^ 16 }, { okFep with fdBase := 2 ^ 32 },
     { okFep with firstSc := 2 ^ 16 }, { okFep with nSc := 2 ^ 16 }] :
        List FepRx).all (fun c => !c.wf) = true := by decide

def okChest : Chest := ⟨true, true, 31, 2 ^ 32 - 1, .buffer (2 ^ 32 - 1), 2 ^ 32 - 1, 2 ^ 32 - 1, 65535, 65535, 65535, 65535⟩

theorem test_wf_accepts_Chest : okChest.wf = true := by decide

theorem test_wf_refuses_Chest :
    ([{ okChest with nvShift := 32 }, { okChest with yBase := 2 ^ 32 }, { okChest with pilot := .buffer (2 ^ 32) },
     { okChest with hBase := 2 ^ 32 }, { okChest with nvAddr := 2 ^ 32 }, { okChest with nSc := 2 ^ 16 },
     { okChest with nP := 2 ^ 16 }, { okChest with start := 2 ^ 16 }, { okChest with stride := 2 ^ 16 }] :
        List Chest).all (fun c => !c.wf) = true := by decide

def okMmse : Mmse := ⟨7, 15, 31, 15, true, true, 15, 2 ^ 32 - 1, 2 ^ 32 - 1, 2 ^ 32 - 1, 2 ^ 32 - 1, 65535, 65535, 2 ^ 32 - 1, 32767⟩

theorem test_wf_accepts_Mmse : okMmse.wf = true := by decide

theorem test_wf_refuses_Mmse :
    ([{ okMmse with layers := 8 }, { okMmse with rx := 16 }, { okMmse with shift0 := 32 },
     { okMmse with oshift := 16 }, { okMmse with qm := 16 }, { okMmse with yBase := 2 ^ 32 },
     { okMmse with hBase := 2 ^ 32 }, { okMmse with nvBase := 2 ^ 32 }, { okMmse with outBase := 2 ^ 32 },
     { okMmse with nSc := 2 ^ 16 }, { okMmse with yStride := 2 ^ 16 }, { okMmse with magBase := 2 ^ 32 },
     { okMmse with thr := 2 ^ 15 }] :
        List Mmse).all (fun c => !c.wf) = true := by decide

def okLlr : Llr := ⟨15, 2 ^ 32 - 1, 2 ^ 32 - 1, 2 ^ 32 - 1, 2 ^ 32 - 1, 2 ^ 32 - 1, 2 ^ 32 - 1⟩

theorem test_wf_accepts_Llr : okLlr.wf = true := by decide

theorem test_wf_refuses_Llr :
    ([{ okLlr with qm := 16 }, { okLlr with xBase := 2 ^ 32 }, { okLlr with magA := 2 ^ 32 },
     { okLlr with magB := 2 ^ 32 }, { okLlr with magC := 2 ^ 32 }, { okLlr with llrBase := 2 ^ 32 },
     { okLlr with n := 2 ^ 32 }] :
        List Llr).all (fun c => !c.wf) = true := by decide

def okDemap : LayerDemap := ⟨15, 15, -128, 127, 2 ^ 32 - 1, 2 ^ 32 - 1, 2 ^ 32 - 1, 2 ^ 32 - 1, 2 ^ 32 - 1⟩

theorem test_wf_accepts_LayerDemap : okDemap.wf = true := by decide

theorem test_wf_refuses_LayerDemap :
    ([{ okDemap with nl := 16 }, { okDemap with qm := 16 }, { okDemap with cw0Flag := -129 },
     { okDemap with cw0Flag := 128 }, { okDemap with cw1Flag := -129 }, { okDemap with cw1Flag := 128 },
     { okDemap with layerBase := 2 ^ 32 }, { okDemap with layerStride := 2 ^ 32 }, { okDemap with dst0 := 2 ^ 32 },
     { okDemap with dst1 := 2 ^ 32 }, { okDemap with totalLen := 2 ^ 32 }] :
        List LayerDemap).all (fun c => !c.wf) = true := by decide

def okDescramble : Descramble := ⟨true, 2 ^ 32 - 1, 2 ^ 32 - 1, 65535, 65535⟩

theorem test_wf_accepts_Descramble : okDescramble.wf = true := by decide

theorem test_wf_refuses_Descramble :
    ([{ okDescramble with llrBase := 2 ^ 32 }, { okDescramble with length := 2 ^ 32 }, { okDescramble with nId := 2 ^ 16 },
     { okDescramble with rnti := 2 ^ 16 }] :
        List Descramble).all (fun c => !c.wf) = true := by decide

def okLdpc : LdpcDec := ⟨.bg2, .bytes, true, 15, 255, 2 ^ 32 - 1, 2 ^ 32 - 1, 2 ^ 32 - 1, 2 ^ 32 - 1, 65535⟩

theorem test_wf_accepts_LdpcDec : okLdpc.wf = true := by decide

theorem test_wf_refuses_LdpcDec :
    ([{ okLdpc with inShift := 16 }, { okLdpc with maxIter := 256 }, { okLdpc with inBase := 2 ^ 32 },
     { okLdpc with e := 2 ^ 32 }, { okLdpc with outBase := 2 ^ 32 }, { okLdpc with resAddr := 2 ^ 32 },
     { okLdpc with zc := 2 ^ 16 }] :
        List LdpcDec).all (fun c => !c.wf) = true := by decide

def okCrc : Crc24a := ⟨.verify, 2 ^ 32 - 1, 2 ^ 32 - 1, 2 ^ 32 - 1⟩

theorem test_wf_accepts_Crc24a : okCrc.wf = true := by decide

theorem test_wf_refuses_Crc24a :
    ([{ okCrc with dataBase := 2 ^ 32 }, { okCrc with nbits := 2 ^ 32 }, { okCrc with resAddr := 2 ^ 32 }] :
        List Crc24a).all (fun c => !c.wf) = true := by decide

/-! ## Decoding: words written out bit by bit from the tables of 30_encoding.md section 3 -/

/-- R176: 32 zero bytes. -/
theorem test_decode_nop : decodeTableWord 256 0 = some .nop := by decide

/-- R177, V1.2: w0 = 0x01 | scale << 12 | symbol 1 << 16; w4 = cp0 10 | cp 9 << 16; w7 = first_sc 126 | n_sc 4 << 16. -/
theorem test_decode_fepRx :
    decode ⟨0x00011001, 0x00001000, 0x00000111, 0x00000000, 0x0009000A, 0x00000004, 0x00008000, 0x0004007E⟩
      = .command (.fepRx ⟨0, true, 1, 0x1000, 273, 0, 10, 9, 4, 0x8000, 126, 4⟩) := by decide

/-- R178, V2.1: w0 = 0x02 | pmode << 8 | interp << 9 | nv_en << 10. -/
theorem test_decode_chest_buffer :
    decode ⟨0x00000702, 0x00001000, 0x00001800, 0x00002000, 0x00003000, 0x00020003, 0x00010001, 0x00000000⟩
      = .command (.chest ⟨true, true, 0, 0x1000, .buffer 0x1800, 0x2000, 0x3000, 3, 2, 1, 1⟩) := by decide

/-- R178, R172: pmode = 0 takes w2 as a C16, re in the low half. -/
theorem test_decode_chest_const :
    decode ⟨0x00002402, 0x00001000, 0x4000FFFF, 0x00002000, 0x00003000, 0x00020004, 0x00020000, 0x00000000⟩
      = .command (.chest ⟨false, true, 4, 0x1000, .const ⟨0xFFFF, 0x4000⟩, 0x2000, 0x3000, 4, 2, 0, 2⟩) := by decide

/-- R179, S1.8: w0 = 0x03 | L 1 << 8 | R 1 << 11 | shift0 15 << 15 | oshift 15 << 20 | magw << 25 | qm 4 << 26. -/
theorem test_decode_mmse :
    decode ⟨0x12F78903, 0x1000, 0x2000, 0x3000, 0x4000, 0x00020001, 0x5000, 20000⟩
      = .command (.mmse ⟨1, 1, 15, 15, false, true, 4, 0x1000, 0x2000, 0x3000, 0x4000, 1, 2, 0x5000, 20000⟩) := by decide

/-- R180. -/
theorem test_decode_llr :
    decode ⟨0x00000804, 1, 2, 3, 4, 5, 0xFFFFFFFF, 0⟩ = .command (.llr ⟨8, 1, 2, 3, 4, 5, 0xFFFFFFFF⟩) := by decide

/-- R181: the flags are signed bytes. -/
theorem test_decode_layerDemap :
    decode ⟨0x80FF8405, 0x1000, 0x100, 0x2000, 0x3000, 32, 0, 0⟩
      = .command (.layerDemap ⟨4, 8, -1, -128, 0x1000, 0x100, 0x2000, 0x3000, 32⟩) := by decide

/-- R182: w3 = n_id | rnti << 16. -/
theorem test_decode_descramble :
    decode ⟨0x00000106, 0x1000, 8, 0xFFFF0001, 0, 0, 0, 0⟩ = .command (.descramble ⟨true, 0x1000, 8, 1, 65535⟩) := by decide

/-- R183: w0 = 0x07 | bg << 8 | outmode << 9 | crc_et << 10 | in_shift 15 << 12 | max_iter 5 << 16. -/
theorem test_decode_ldpcDec :
    decode ⟨0x0005F707, 0x1000, 132, 0x4000, 0x5000, 2, 0, 0⟩
      = .command (.ldpcDec ⟨.bg2, .bytes, true, 15, 5, 0x1000, 132, 0x4000, 0x5000, 2⟩) := by decide

/-- R184. -/
theorem test_decode_crc24a :
    decode ⟨0x00000108, 0x1000, 96, 0x2000, 0, 0, 0, 0⟩ = .command (.crc24a ⟨.verify, 0x1000, 96, 0x2000⟩) := by decide

/-- R170: a command is 32 bytes, no fewer and no more. -/
theorem test_decode_bytes_length :
    decodeBytes (List.replicate 31 0) = none ∧ decodeBytes (List.replicate 33 0) = none
      ∧ decodeBytes (List.replicate 32 0) = some (.command .nop) := by decide

/-- R122: a word's least significant byte comes first. -/
theorem test_word_bytes : bytesOfWord 0x12F78903 = [0x03, 0x89, 0xF7, 0x12] := by decide

/-! ## One step of each command -/

/-- A state whose DMEM holds the given bytes. -/
def withBytes (cells : List (Nat × List Byte)) : State := { State.reset with dmem := applyWrites [] cells }

/-- A value of the next state, if there is one. -/
def after {α : Type} (f : State → α) : Host.Outcome State Fault Refusal → Option α
  | .next t => some (f t)
  | _ => none

def samples (zs : List CInt) : List Byte := zs.flatMap bytesC16

def llrs (vs : List Int) : List Byte := vs.flatMap bytes16

/-- The `n` int16 values from an address. -/
def read16 (a n : Nat) (t : State) : Option (List Int) := collectN n (fun i => ldI16 t.dmem a i)

/-- The error code and the word index an error halt records. -/
def errorOf (t : State) : Nat × Nat := (errCodeVal t.errCode, t.errInfo.toNat)

/-- R225: with one NOP in the list the step completes it. -/
theorem test_nop : after (fun t => (t.cmdDone, t.cmdPtr, t.phase)) (step (State.reset.withFetchWord 256 0))
    = some (1, 32, .run) := by decide +kernel

/-- V1.7: size class 11 is BAD_FFT_SIZE in word 0. -/
theorem test_fepRx_size :
    after errorOf (exec (.fepRx ⟨11, false, 0, 0x1000, 128, 0, 0, 0, 1, 0x8000, 0, 1⟩) State.reset) = some (4, 0) := by decide

/-- R246: the window of the rule's example starts at sample 145; V1.6 ends exactly at td_len, V1.13 leaves it by one. -/
theorem test_fepRx_window :
    fepStart ⟨0, true, 1, 0x1000, 273, 0, 10, 9, 4, 0x8000, 126, 4⟩ = 145
      ∧ firstError (fepChecks .default ⟨0, true, 1, 0x1000, 273, 0, 10, 9, 4, 0x8000, 126, 4⟩) = none
      ∧ firstError (fepChecks .default ⟨0, true, 1, 0x1000, 272, 0, 10, 9, 4, 0x8000, 126, 4⟩) = some ⟨.fepWindow, 3⟩ := by decide

/-- R267, the example: per-pilot estimates and the noise variance. -/
theorem test_chest_example :
    after (fun t => (read16 0x2000 8 t, ldU16 t.dmem 0x3000 0, t.warnCount))
      (exec (.chest ⟨false, true, 4, 0x1000, .const ⟨0x4000, 0x4000⟩, 0x2000, 0x3000, 4, 2, 0, 2⟩)
        (withBytes [(0x1000, samples [⟨1000, 0⟩, ⟨5, 5⟩, ⟨2000, 0⟩, ⟨7, 7⟩])]))
      = some (some [1000, -1000, 1000, -1000, 2000, -2000, 2000, -2000], some 15625, 0) := by decide +kernel

/-- V2.2: two pilots of zero power, two warnings. -/
theorem test_chest_zero_pilot :
    after (fun t => (read16 0x2000 6 t, ldU16 t.dmem 0x3000 0, t.numwarn, t.warnCount))
      (exec (.chest ⟨false, true, 2, 0x1000, .const ⟨0, 0⟩, 0x2000, 0x3000, 3, 2, 0, 2⟩)
        (withBytes [(0x1000, samples [⟨100, 100⟩, ⟨200, 200⟩, ⟨300, 300⟩])]))
      = some (some [0, 0, 0, 0, 0, 0], some 25000, true, 2) := by decide +kernel

/-- S1.8 with nv = 16384: the output, and the magnitude sample from the gain. -/
theorem test_mmse_fixed :
    after (fun t => (read16 0x4000 2 t, read16 0x5000 2 t))
      (exec (.mmse ⟨1, 1, 15, 15, false, true, 4, 0x1000, 0x2000, 0x3000, 0x4000, 1, 1, 0x5000, 20000⟩)
        (withBytes [(0x1000, samples [⟨8192, 4096⟩]), (0x2000, samples [⟨16384, 0⟩]), (0x3000, llrs [16384])]))
      = some (some [5461, 2731], some [6667, 6667]) := by decide +kernel

/-- R291, the example, on the binary64 path. -/
theorem test_mmse_float :
    after (fun t => (read16 0x4000 2 t, t.warnCount))
      (exec (.mmse ⟨1, 1, 0, 0, true, false, 0, 0x1000, 0x2000, 0x3000, 0x4000, 1, 1, 0, 0⟩)
        (withBytes [(0x1000, samples [⟨1234, -567⟩]), (0x2000, samples [⟨1, 0⟩]), (0x3000, llrs [0])]))
      = some (some [1234, -567], 0) := by decide +kernel

/-- R316, the example. -/
theorem test_llr_example :
    after (read16 0x3000 4)
      (exec (.llr ⟨4, 0x1000, 0x2000, 0, 0, 0x3000, 1⟩)
        (withBytes [(0x1000, samples [⟨-5000, 12000⟩]), (0x2000, samples [⟨8000, 8000⟩])]))
      = some (some [-5000, 12000, 3000, -4000]) := by decide +kernel

/-- R316, the corner: the distance saturates at -32768, and |-32768| counts as 32767. -/
theorem test_llr_saturates :
    specRing (-32768) 32767 = -32768 ∧ ringDistance ⟨-32768, 0⟩ ⟨32767, -32768⟩ = ⟨-32768, -32767⟩ := by decide

/-- R334, the example. -/
theorem test_layerDemap_example :
    after (read16 0x2000 8)
      (exec (.layerDemap ⟨2, 2, 0, -1, 0x1000, 0x100, 0x2000, 0, 8⟩)
        (withBytes [(0x1000, llrs [1, 2, 3, 4]), (0x1100, llrs [5, 6, 7, 8])]))
      = some (some [1, 2, 5, 6, 3, 4, 7, 8]) := by decide +kernel

/-- R331: both codewords active is BAD_CODEWORD_FLAGS. -/
theorem test_layerDemap_flags :
    after errorOf (exec (.layerDemap ⟨2, 2, 0, 1, 0x1000, 0x100, 0x2000, 0, 8⟩) State.reset) = some (8, 0) := by decide

/-- S1.4: one descrambling, with the saturated negation. -/
theorem test_descramble :
    after (read16 0x1000 8)
      (exec (.descramble ⟨false, 0x1000, 8, 0, 0xFFFF⟩)
        (withBytes [(0x1000, llrs [5, 0, -1, -32768, -32768, 32767, 7, 7])]))
      = some (some [5, 0, -1, 32767, 32767, -32767, 7, 7]) := by decide +kernel

/-- V7: the table with the four entries of S1.6, over the smallest base graph 2. -/
def smallTable : BgTable := fun _ _ i j =>
  if i = 0 ∧ (j = 0 ∨ j = 2) then some 0 else if i = 1 ∧ j = 1 then some 1 else if i = 1 ∧ j = 3 then some 0 else none

/-- R378 with S1.6's input of +50: one iteration, converged, all zero. -/
theorem test_ldpc_no_noise :
    (fun out => (out.1.xhat.all (!·), out.1.undecided, out.1.syndOk, out.2.1, out.2.2))
      (ldpcDecode 3 0xB704CE smallTable ⟨.bg2, .packed, false, 0, 5, 0, 100, 0x4000, 0x5000, 2⟩ (fun _ => false)
        (List.replicate 100 50))
      = (true, false, true, 1, .converged) := by decide +kernel

/-- R374, S1.11: five iterations to the limit, undecided. -/
theorem test_ldpc_result_word : ldpcResultWord ⟨[], true, true, false⟩ 5 .limit = 0x00001005 := by decide

/-- S1.1a: the CRC of "123456789" in bits 31 to 8, in DMEM with its lowest byte first. -/
theorem test_crc_compute :
    after (fun t => (t.crcResult, loadBytes t.dmem 0x2000 4))
      (exec (.crc24a ⟨.compute, 0x1000, 72, 0x2000⟩)
        (withBytes [(0x1000, [0x31, 0x32, 0x33, 0x34, 0x35, 0x36, 0x37, 0x38, 0x39])]))
      = some (0x21CF0200, some [0x00, 0x02, 0xCF, 0x21]) := by decide +kernel

/-- S1.3d: a verify of 36 bits, the last nibble of the last byte not read. -/
theorem test_crc_verify :
    after (fun t => t.crcResult)
      (exec (.crc24a ⟨.verify, 0x1000, 36, 0x2000⟩) (withBytes [(0x1000, [0xAB, 0xC3, 0x2E, 0xCE, 0x60])]))
      = some 1 := by decide +kernel

/-! ## The host and the engine -/

/-- R56: CAPS with the default parameters. -/
theorem test_caps : capsWord .default = 0x00FFF816 := by decide

/-- R56: CAPS of the smallest DMEM with MAX_RX 4. -/
theorem test_caps_small : capsWord { Params.default with dmemSize := 0x10000, maxRx := 4 } = 0x00FFF410 := by decide

/-- R9, S1.1b: with CRC_INIT = 0 the CRC of "123456789" is the standard's, 0xCDE703. -/
theorem test_crc_init_zero :
    after (fun t => t.crcResult)
      (exec (.crc24a ⟨.compute, 0x1000, 72, 0x2000⟩)
        { withBytes [(0x1000, [0x31, 0x32, 0x33, 0x34, 0x35, 0x36, 0x37, 0x38, 0x39])] with
          params := { Params.default with crcInit := 0 } })
      = some 0xCDE70300 := by decide +kernel

/-- R9, R132: with DMEM_SIZE = 2^16 a buffer that ends at 0x10000 fits, and one that ends above it is ADDR_RANGE. -/
theorem test_small_dmem :
    after errorOf (exec (.crc24a ⟨.compute, 0, 0, 0xFFFC⟩) (State.resetWith { Params.default with dmemSize := 0x10000 })) = some (0, 0)
      ∧ after errorOf (exec (.crc24a ⟨.compute, 0, 0, 0x10000⟩) (State.resetWith { Params.default with dmemSize := 0x10000 }))
        = some (12, 3) := by decide +kernel

/-- R58: START and ABORT written together start a run when idle. -/
theorem test_ctrl_start_and_abort :
    (State.reset.hostAccess (.write 0x00C .word 3)).phase = .run
      ∧ (State.reset.hostAccess (.write 0x00C .word 3)).abortPending = false := by decide

/-- R121: a fetch of unwritten DMEM is UNINIT_READ of command 0 at offset 0. -/
theorem test_uninit_fetch :
    step { State.reset with phase := .run, cmdCount := 1 } = .fault (.uninitRead 0 0) := by rfl

/-! ## Witnesses: for each statement with hypotheses, states and operands that meet them -/

/-- A state about to fetch the command of the given words at DMEM offset 0. -/
def fetching (w : CmdWords) (cells : List (Nat × List Byte) := []) : State := (withBytes cells).placeCommand w

theorem aboutToFetch_fetching (w : CmdWords) (cells : List (Nat × List Byte)) : aboutToFetch (fetching w cells) :=
  ⟨rfl, rfl, by show (0 : Word) ≠ 0 + 1; decide, rfl⟩

/-- Every field of each command at its largest value. -/
theorem witness_DecodeOfEncode :
    ([.nop, .fepRx okFep, .chest okChest, .mmse okMmse, .llr okLlr, .layerDemap okDemap, .descramble okDescramble,
      .ldpcDec okLdpc, .crc24a okCrc] : List Instr).all Instr.wf = true := by decide

theorem witness_EncodeOfDecode : decode ⟨0x08, 0xFFFFFFFF, 0xFFFFFFFF, 0xFFFFFFFF, 0, 0, 0, 0⟩
    = .command (.crc24a ⟨.compute, 0xFFFFFFFF, 0xFFFFFFFF, 0xFFFFFFFF⟩) := by decide

/-- Opcode 9 is above 8; opcode 8 with bit 9 set has its first reserved bit in word 0, LLR with word 7 set in word 7; a NOP has none. -/
theorem witness_DecodeVerdict :
    8 < (9 : Word).toNat % 256
      ∧ (reservedSet ⟨0x208, 0, 0, 0, 0, 0, 0, 0⟩ 0 ∧ ∀ j < 0, ¬ reservedSet ⟨0x208, 0, 0, 0, 0, 0, 0, 0⟩ j)
      ∧ (reservedSet ⟨0x204, 0, 0, 0, 0, 0, 0, 0x80000000⟩ 7
          ∧ ∀ j < 7, ¬ reservedSet ⟨0x204, 0, 0, 0, 0, 0, 0, 0x80000000⟩ j)
      ∧ ∀ k < 8, ¬ reservedSet ⟨0, 0, 0, 0, 0, 0, 0, 0⟩ k := by decide

theorem witness_StepRunsTheDecodedCommand :
    aboutToFetch (fetching (encode (.crc24a ⟨.compute, 0x1000, 0, 0x2000⟩)))
      ∧ (Instr.crc24a ⟨.compute, 0x1000, 0, 0x2000⟩).wf = true
      ∧ commandAt (fetching (encode (.crc24a ⟨.compute, 0x1000, 0, 0x2000⟩))) (encode (.crc24a ⟨.compute, 0x1000, 0, 0x2000⟩)) :=
  ⟨aboutToFetch_fetching _ _, by decide, by unfold commandAt; decide⟩

/-- The lowest illegal opcode. -/
theorem witness_IllegalOpcodeHalts :
    aboutToFetch (fetching ⟨9, 0, 0, 0, 0, 0, 0, 0⟩) ∧ commandAt (fetching ⟨9, 0, 0, 0, 0, 0, 0, 0⟩) ⟨9, 0, 0, 0, 0, 0, 0, 0⟩
      ∧ 9 ≤ (9 : Word).toNat % 256 :=
  ⟨aboutToFetch_fetching _ _, by unfold commandAt; decide, by decide⟩

/-- A reserved bit in the last word only. -/
theorem witness_ReservedBitHalts :
    aboutToFetch (fetching ⟨0, 0, 0, 0, 0, 0, 0, 1⟩) ∧ commandAt (fetching ⟨0, 0, 0, 0, 0, 0, 0, 1⟩) ⟨0, 0, 0, 0, 0, 0, 0, 1⟩
      ∧ (∀ j < 7, ¬ reservedSet ⟨0, 0, 0, 0, 0, 0, 0, 1⟩ j) ∧ reservedSet ⟨0, 0, 0, 0, 0, 0, 0, 1⟩ 7 :=
  ⟨aboutToFetch_fetching _ _, by unfold commandAt; decide, by decide, by decide⟩

/-- Of FetchOutOfRangeHalts and FetchOfUnwrittenFaults: the first `pc` past the last one that fits, and the last one that fits with its bytes unwritten. -/
theorem witness_Fetch :
    (aboutToFetch { State.reset with phase := .run, cmdCount := 1, cmdPtr := 0x400000 }
        ∧ Params.default.dmemSize < (0x400000 : Word).toNat + 32)
      ∧ (aboutToFetch { State.reset with phase := .run, cmdCount := 1, cmdPtr := 0x3FFFE0 }
          ∧ (0x3FFFE0 : Word).toNat + 32 ≤ Params.default.dmemSize ∧ Memory.read [] ((0x3FFFE0 : Word).toNat + 31) = none) := by decide

/-- Of NormalHalt and AbortedHalt. -/
theorem witness_Halts :
    (∃ s : State, s.turns = [] ∧ s.phase = .run ∧ s.cmdDone = s.cmdCount)
      ∧ ∃ s : State, s.turns = [] ∧ s.phase = .run ∧ s.cmdDone ≠ s.cmdCount ∧ s.abortPending = true :=
  ⟨⟨{ State.reset with phase := .run }, by decide⟩,
   ⟨{ State.reset with phase := .run, cmdCount := 1, abortPending := true }, by decide⟩⟩

/-- Idle to running by START; running to idle by the end of the list, an abort, an error, a soft reset and a hard reset. -/
theorem witness_PhaseChanges :
    (after State.phase (step { State.reset with turns := [.host (.write 0x00C .word 1)] }) = some .run)
      ∧ (after State.phase (step { State.reset with phase := .run }) = some .idle)
      ∧ (after State.phase (step { State.reset with phase := .run, cmdCount := 1, abortPending := true }) = some .idle)
      ∧ (after State.phase (step { State.reset with phase := .run, cmdCount := 1, cmdPtr := 0x400000 }) = some .idle)
      ∧ (after State.phase (step { State.reset with phase := .run, turns := [.host (.write 0x00C .word 4)] }) = some .idle)
      ∧ (after State.phase (step { State.reset with phase := .run, turns := [.hardReset] }) = some .idle) := by decide

/-- Of StepTakesTheNextTurn: an idle state; a running one whose step completes a NOP, one whose step halts, one whose step faults. -/
theorem witness_StepTakesTheNextTurn :
    State.reset.phase = .idle
      ∧ ((fetching ⟨0, 0, 0, 0, 0, 0, 0, 0⟩).phase = .run ∧ (fetching ⟨0, 0, 0, 0, 0, 0, 0, 0⟩).midAbort = none
          ∧ after State.phase (step (fetching ⟨0, 0, 0, 0, 0, 0, 0, 0⟩)) = some .run
          ∧ ∀ c : LdpcDec, c.wf = true → ¬ commandAt (fetching ⟨0, 0, 0, 0, 0, 0, 0, 0⟩) (encode (.ldpcDec c)))
      ∧ after State.phase (step { State.reset with phase := .run }) = some .idle
      ∧ step { State.reset with phase := .run, cmdCount := 1 } = .fault (.uninitRead 0 0) := by
  refine ⟨rfl, ⟨rfl, rfl, by decide, fun c _ h => ?_⟩, by decide, rfl⟩
  have h0 := h.2 0 (by omega)
  rw [show (cmdBytes (encode (.ldpcDec c)))[0]? = some (BitVec.ofNat 8 (encode (.ldpcDec c)).w0.toNat) from rfl,
    show (fetching ⟨0, 0, 0, 0, 0, 0, 0, 0⟩).dmem.read ((fetching ⟨0, 0, 0, 0, 0, 0, 0, 0⟩).cmdPtr.toNat + 0) = some 0
      from by decide] at h0
  have h1 : (0 : Byte).toNat = (encode (.ldpcDec c)).w0.toNat % 2 ^ 8 := by rw [Option.some.inj h0, BitVec.toNat_ofNat]
  rw [show (0 : Byte).toNat = 0 from rfl] at h1
  have h2 : (encode (.ldpcDec c)).w0.toNat % 256 = 7 := Laws.EncodeOpcode.ldpcDec c
  omega

/-- A run of one NOP, and one whose list is finished. -/
theorem witness_EveryRunEnds :
    (∀ s ∈ [fetching ⟨0, 0, 0, 0, 0, 0, 0, 0⟩, { State.reset with phase := .run }],
      s.turns = [] ∧ s.phase = .run ∧ s.cmdDone.toNat ≤ s.cmdCount.toNat) := by decide

/-- A running state meets the invariant, and its step gives a next state. -/
theorem witness_StepKeepsInvariant :
    Invariant (fetching ⟨0, 0, 0, 0, 0, 0, 0, 0⟩) ∧ ∃ t, step (fetching ⟨0, 0, 0, 0, 0, 0, 0, 0⟩) = .next t := by
  refine ⟨?_, ⟨_, rfl⟩⟩
  constructor <;> decide

/-- Illegal commands: a field, an alignment, a range, an overlap. -/
theorem witness_IllegalCommandHaltsPrecisely :
    ([(.llr ⟨3, 0, 0, 0, 0, 0, 0⟩, ⟨.badModOrder, 0⟩), (.llr ⟨2, 2, 0, 0, 0, 0x1000, 1⟩, ⟨.misaligned, 1⟩),
      (.llr ⟨2, 0, 0, 0, 0, 0x3FFFFE, 1⟩, ⟨.addrRange, 5⟩), (.llr ⟨2, 0, 0, 0, 0, 2, 1⟩, ⟨.overlap, 5⟩)] :
        List (Instr × CmdError)).all (fun p => decide (reportedError .default p.1 = some p.2)) = true := by decide

theorem not_legal_llr : ¬ legal .default (.llr ⟨3, 0, 0, 0, 0, 0, 0⟩) := fun h => absurd h.1 (by decide : ¬ modOrder 3)

theorem legal_crc : legal .default (.crc24a ⟨.compute, 0x1000, 8, 0x2000⟩) := ⟨(fun h => nomatch h : CrcMode.compute = CrcMode.verify → 24 ≤ 8), by decide⟩

/-- Of LegalCommandCompletes, OnlyOutputsWritten, EveryOutputByteWritten and ResultRegisterFrame: a legal command with its one input
byte written, which completes. -/
theorem witness_LegalCommandCompletes :
    legal .default (.crc24a ⟨.compute, 0x1000, 8, 0x2000⟩)
      ∧ (∀ b ∈ inputsOf (.crc24a ⟨.compute, 0x1000, 8, 0x2000⟩), ∀ a, b.base ≤ a → a < b.base + bufBytes b →
          ((withBytes [(0x1000, [0xAB])]).dmem.read a).isSome = true)
      ∧ ∃ t, exec (.crc24a ⟨.compute, 0x1000, 8, 0x2000⟩) (withBytes [(0x1000, [0xAB])]) = .next t := by
  refine ⟨legal_crc, fun b hb a h1 h2 => ?_, ⟨_, rfl⟩⟩
  simp only [inputsOf, crcData, List.mem_singleton] at hb
  subst hb
  have h3 : a = 0x1000 := by simp only [bufBytes, elemBytes] at h1 h2; omega
  subst h3
  decide

/-- A memory that agrees on the input byte and differs elsewhere. -/
theorem witness_OnlyInputsRead :
    (withBytes [(0x1000, [0xAB]), (0x3000, [1])]).dmem ≠ (withBytes [(0x1000, [0xAB])]).dmem
      ∧ ∀ b ∈ inputsOf (.crc24a ⟨.compute, 0x1000, 8, 0x2000⟩), ∀ a, b.base ≤ a → a < b.base + bufBytes b →
          (withBytes [(0x1000, [0xAB]), (0x3000, [1])]).dmem.read a = (withBytes [(0x1000, [0xAB])]).dmem.read a := by
  refine ⟨by decide, fun b hb a h1 h2 => ?_⟩
  simp only [inputsOf, crcData, List.mem_singleton] at hb
  subst hb
  have h3 : a = 0x1000 := by simp only [bufBytes, elemBytes] at h1 h2; omega
  subst h3
  decide

/-- The written values of each clause: START or ABORT or both, and neither, with SOFT_RESET 0. -/
theorem witness_CtrlWrite :
    ([0, 1, 2, 3, 0xFFFFFFFB] : List Word).all (fun v => !v.getLsbD 2) = true
      ∧ ([2, 3, 0xFFFFFFFB] : List Word).all (fun v => v.getLsbD 1) = true
      ∧ ([1, 3, 0xFFFFFFFB] : List Word).all (fun v => v.getLsbD 0) = true := by decide

theorem legal_nop : legal .default .nop := ⟨trivial, by decide⟩

/-- A soft reset while idle; while busy with a legal command at `pc`; and while busy with an illegal one there. -/
theorem witness_SoftReset :
    (4 : Word).getLsbD 2 = true ∧ State.reset.phase = .idle
      ∧ (commandAt (fetching (encode (.crc24a ⟨.compute, 0x1000, 8, 0x2000⟩))) (encode (.crc24a ⟨.compute, 0x1000, 8, 0x2000⟩))
          ∧ legal .default (.crc24a ⟨.compute, 0x1000, 8, 0x2000⟩))
      ∧ ∀ i : Instr, ¬ commandAt { State.reset with phase := .run } (encode i) := by
  refine ⟨by decide, rfl, ⟨by unfold commandAt; decide, legal_crc⟩, fun i h => ?_⟩
  have := h.2 0 (by omega)
  rw [show (cmdBytes (encode i))[0]? = some (BitVec.ofNat 8 (encode i).w0.toNat) from rfl] at this
  simp [State.reset, Memory.read] at this

/-- Both ends of the DMEM window while busy; both ends of each unmapped range, a misaligned access in each window, a narrow access to a
register, and a wrong width in each window. -/
theorem witness_BadHostAccessFails :
    (∃ s : State, s.phase = .run ∧ ∀ off ∈ [0x1000000, 0x13FFFFF], 0x1000000 ≤ off ∧ off < 0x1000000 + s.params.dmemSize)
      ∧ ∀ p ∈ [(0x1000, AccessSize.word), (0xFFFFFC, .word), (0x1400000, .byte), (0x00E, .word), (0x1000001, .half), (0x010, .byte),
        (0xFFE, .half), (0x010, .other), (0x1000000, .other)],
      (0x1000 ≤ p.1 ∧ p.1 < 0x1000000) ∨ 0x1000000 + Params.default.dmemSize ≤ p.1 ∨ p.1 % accessBytes p.2 ≠ 0
        ∨ p.2 = .other ∨ (p.1 < 0x1000 ∧ p.2 ≠ .word) :=
  ⟨⟨{ State.reset with phase := .run }, rfl, by decide⟩, by decide⟩

/-- Each width at the last place it fits, in the default DMEM and in the smallest; and a step that leaves a byte unwritten. -/
theorem witness_HostDmemAccess :
    (State.reset.phase = .idle ∧ ∀ p ∈ [(0x3FFFFF, AccessSize.byte), (0x3FFFFE, .half), (0x3FFFFC, .word), (0, .word)],
        p.2 ≠ .other ∧ p.1 % accessBytes p.2 = 0 ∧ p.1 + accessBytes p.2 ≤ State.reset.params.dmemSize)
      ∧ (∃ p : Params, p.legal ∧ 0xFFFC + accessBytes .word = (State.resetWith p).params.dmemSize)
      ∧ ∃ t, step State.reset = .next t ∧ State.reset.dmem.read 5 = none ∧ t.dmem.read 5 = none ∧ State.reset.turns = [] :=
  ⟨by decide, ⟨{ Params.default with dmemSize := 0x10000 }, by decide, rfl⟩, ⟨_, rfl, rfl, rfl, rfl⟩⟩

/-- Of RegisterReadHasNoSideEffect and RegisterWrites: the first unlisted register offset and the last of the window; and for the writes, one of each kind. -/
theorem witness_Registers :
    (∀ off ∈ [0x044, 0xFFC], 0x040 < off ∧ off < 0x1000 ∧ off % 4 = 0)
      ∧ (∀ off ∈ [0x000, 0x010, 0x028, 0x040, 0x044, 0xFFC], off < 0x1000 ∧ off % 4 = 0
          ∧ off ∉ [0x00C, 0x020, 0x024, 0x030, 0x034])
      ∧ (State.reset.params.legal ∧ State.reset.params.dmemSize = 2 ^ 22) ∧ State.reset.errCode = .none := by decide

/-- `irq` falls by each of the ways the statement names. -/
theorem witness_InterruptOutput :
    ([.host (.write 0x030 .word 0), .host (.write 0x034 .word 1), .host (.write 0x00C .word 4), .hardReset] : List Turn).all
      (fun turn =>
        let s : State := { State.reset with irqEn := ⟨true, true⟩, irqStatus := ⟨true, false⟩, turns := [turn] }
        s.irq && decide (after State.irq (step s) = some false)) = true := by decide

theorem witness_HaltSetsOnePendingBit :
    (∃ s t : State, s.turns = [] ∧ s.phase = .run ∧ step s = .next t ∧ t.phase = .idle ∧ t.done = true)
      ∧ ∃ s t : State, s.turns = [] ∧ s.phase = .run ∧ step s = .next t ∧ t.phase = .idle ∧ t.error = true :=
  ⟨⟨{ State.reset with phase := .run }, _, rfl, rfl, rfl, rfl, rfl⟩,
   ⟨{ State.reset with phase := .run, cmdCount := 1, cmdPtr := 0x400000 }, _, rfl, rfl, rfl, rfl, rfl⟩⟩

/-- A block halted by an error in its third command. -/
theorem witness_ResumeAfterError :
    ∃ s : State, Invariant s ∧ s.phase = .idle ∧ s.error = true ∧ s.cmdDone = 2 := by
  refine ⟨{ State.reset with
    error := true, errCode := .badParam, errInfo := 5, errCmd := 2, cmdDone := 2, cmdCount := 5, cmdBase := 0x100
    cmdPtr := 0x140 }, ?_, rfl, rfl, rfl⟩
  constructor <;> decide

/-! ### The commands' results -/

theorem legal_fep : legal .default (.fepRx ⟨0, true, 0, 0x1000, 128, 0, 0, 0, 1, 0x8000, 127, 2⟩) :=
  ⟨(by decide : fepLegal ⟨0, true, 0, 0x1000, 128, 0, 0, 0, 1, 0x8000, 127, 2⟩), by decide⟩

/-- A window that ends exactly at `td_len`, bins 127 and 0. -/
theorem witness_FepRxResult :
    legal .default (.fepRx ⟨0, true, 0, 0x1000, 128, 0, 0, 0, 1, 0x8000, 127, 2⟩)
      ∧ ∀ n < 128, ldC16 (withBytes [(0x1000, samples (List.replicate 128 ⟨100, -50⟩))]).dmem 0x1000 (0 + n)
          = some ⟨100, -50⟩ :=
  ⟨legal_fep, by decide +kernel⟩

/-- A constant pilot with a hold, and a pilot buffer with the mean; one pilot of each has zero power in the first. -/
theorem witness_ChestResult :
    (legal .default (.chest ⟨false, true, 2, 0x1000, .const ⟨0, 0⟩, 0x2000, 0x3000, 2, 1, 1, 1⟩)
        ∧ holdsC16 (withBytes [(0x1000, samples [⟨1, 2⟩, ⟨100, 100⟩])]).dmem 0x1000 (1 + 0 * 1) ⟨100, 100⟩
        ∧ (⟨0, 0⟩ : CInt) = ofC16 ⟨0, 0⟩)
      ∧ (legal .default (.chest ⟨true, false, 31, 0x1000, .buffer 0x1800, 0x2000, 0x3000, 3, 2, 1, 1⟩)
          ∧ ∀ m < 2, holdsC16 (withBytes [(0x1000, samples [⟨9, 9⟩, ⟨10, 20⟩, ⟨3, -4⟩]), (0x1800, samples [⟨32767, 0⟩, ⟨0, 1⟩])]).dmem
              0x1000 (1 + m * 1) ([⟨10, 20⟩, ⟨3, -4⟩].getD m ⟨0, 0⟩)
            ∧ holdsC16 (withBytes [(0x1000, samples [⟨9, 9⟩, ⟨10, 20⟩, ⟨3, -4⟩]), (0x1800, samples [⟨32767, 0⟩, ⟨0, 1⟩])]).dmem
              0x1800 m ([⟨32767, 0⟩, ⟨0, 1⟩].getD m ⟨0, 0⟩)) := by
  refine ⟨⟨⟨?_, by decide⟩, by decide, by decide⟩, ⟨?_, by decide⟩, by decide⟩
  · exact (by decide : chestLegal ⟨false, true, 2, 0x1000, .const ⟨0, 0⟩, 0x2000, 0x3000, 2, 1, 1, 1⟩)
  · exact (by decide : chestLegal ⟨true, false, 31, 0x1000, .buffer 0x1800, 0x2000, 0x3000, 3, 2, 1, 1⟩)

/-- One antenna, one layer, with a magnitude buffer, on both paths. -/
theorem witness_MmseResult (fp : Bool) :
    let c : Mmse := ⟨1, 1, 15, 15, fp, true, 4, 0x1000, 0x2000, 0x3000, 0x4000, 1, 1, 0x5000, 32767⟩
    let s := withBytes [(0x1000, samples [⟨8192, 4096⟩]), (0x2000, samples [⟨16384, 0⟩]), (0x3000, llrs [255])]
    c.wf = true ∧ legal .default (.mmse c) ∧ (∀ rx < c.rx, ∀ k < c.nSc, holdsC16 s.dmem (c.yBase + 4 * rx * c.yStride) k ⟨8192, 4096⟩)
      ∧ (∀ l < c.layers, ∀ rx < c.rx, ∀ k < c.nSc, holdsC16 s.dmem c.hBase ((l * c.rx + rx) * c.nSc + k) ⟨16384, 0⟩)
      ∧ ∀ rx < c.rx, ldU16 s.dmem c.nvBase rx = some 255 := by
  cases fp
  · exact ⟨by decide, ⟨(by decide : mmseLegal .default ⟨1, 1, 15, 15, false, true, 4, 0x1000, 0x2000, 0x3000, 0x4000, 1, 1, 0x5000, 32767⟩),
      by decide⟩, by decide, by decide, by decide⟩
  · exact ⟨by decide, ⟨(by decide : mmseLegal .default ⟨1, 1, 15, 15, true, true, 4, 0x1000, 0x2000, 0x3000, 0x4000, 1, 1, 0x5000, 32767⟩),
      by decide⟩, by decide, by decide, by decide⟩

/-- One symbol with each modulation order; the fields that `qm` ignores hold values no used buffer could have. -/
theorem witness_LlrResult :
    let s := withBytes [(0x1000, samples [⟨-32768, 5⟩]), (0x1100, samples [⟨7, 8⟩]), (0x1200, samples [⟨3, 4⟩]),
      (0x1300, samples [⟨1, 2⟩])]
    legal .default (.llr ⟨2, 0x1000, 1, 1, 1, 0x2000, 1⟩) ∧ legal .default (.llr ⟨4, 0x1000, 0x1100, 1, 1, 0x2000, 1⟩)
      ∧ legal .default (.llr ⟨6, 0x1000, 0x1100, 0x1200, 1, 0x2000, 1⟩) ∧ legal .default (.llr ⟨8, 0x1000, 0x1100, 0x1200, 0x1300, 0x2000, 1⟩)
      ∧ holdsC16 s.dmem 0x1000 0 ⟨-32768, 5⟩ ∧ holdsC16 s.dmem 0x1100 0 ⟨7, 8⟩ ∧ holdsC16 s.dmem 0x1200 0 ⟨3, 4⟩
      ∧ holdsC16 s.dmem 0x1300 0 ⟨1, 2⟩ :=
  ⟨⟨(by decide : modOrder 2), by decide⟩, ⟨(by decide : modOrder 4), by decide⟩, ⟨(by decide : modOrder 6), by decide⟩,
   ⟨(by decide : modOrder 8), by decide⟩, by decide, by decide, by decide, by decide⟩

/-- Of LayerDemapResult and LayerDemapRoundTrip: two layers into codeword 0, and one layer into codeword 1. -/
theorem witness_LayerDemapResult :
    let s := withBytes [(0x1000, llrs [0, 1]), (0x1100, llrs [10, 11])]
    legal .default (.layerDemap ⟨2, 2, 0, -1, 0x1000, 0x100, 0x2000, 1, 4⟩) ∧ legal .default (.layerDemap ⟨1, 2, -1, -128, 0x1000, 1, 1, 0x3000, 2⟩)
      ∧ (∀ l < 2, ∀ e < 1 * 2, ldI16 s.dmem (0x1000 + l * 0x100) e = some (10 * l + e))
      ∧ (∀ sym < 4 / 2, ∀ b < 2, ldI16 s.dmem (0x1000 + (sym % 2) * 0x100) (sym / 2 * 2 + b) = some (([0, 1, 10, 11] : List Int).getD (sym * 2 + b) 0)) :=
  ⟨⟨(by decide : demapLegal ⟨2, 2, 0, -1, 0x1000, 0x100, 0x2000, 1, 4⟩), by decide⟩,
   ⟨(by decide : demapLegal ⟨1, 2, -1, -128, 0x1000, 1, 1, 0x3000, 2⟩), by decide⟩, by decide, by decide⟩

/-- Of DescrambleResult and DescrambleTwice: the largest identity, with the least LLR. -/
theorem witness_DescrambleResult :
    legal .default (.descramble ⟨true, 0x1000, 2, 1023, 65535⟩)
      ∧ ∀ i < 2, ldI16 (withBytes [(0x1000, llrs [-32768, 7])]).dmem 0x1000 i = some (([-32768, 7] : List Int).getD i 0) :=
  ⟨⟨(by decide : 1023 ≤ 1023), by decide⟩, by decide⟩

theorem legal_ldpc : ldpcLegal ⟨.bg2, .bytes, true, 0, 255, 0x1000, 1, 0x4000, 0x5000, 384⟩ := by decide

/-- One input LLR, the most iterations, the largest lifting size. -/
theorem witness_LdpcDecResult :
    (LdpcDec.wf ⟨.bg2, .bytes, true, 0, 255, 0x1000, 1, 0x4000, 0x5000, 384⟩ = true)
      ∧ legal .default (.ldpcDec ⟨.bg2, .bytes, true, 0, 255, 0x1000, 1, 0x4000, 0x5000, 384⟩)
      ∧ ∀ i < 1, ldI16 (withBytes [(0x1000, llrs [-5])]).dmem 0x1000 i = some (-5) :=
  ⟨by decide, ⟨legal_ldpc, by decide⟩, by decide⟩

/-- A compute of no bits, and a verify of the fewest bits it takes. -/
theorem witness_CrcResult :
    legal .default (.crc24a ⟨.compute, 1, 0, 0x2000⟩) ∧ legal .default (.crc24a ⟨.verify, 0x1000, 24, 0x2000⟩)
      ∧ ∀ i < 24, ldPbit (withBytes [(0x1000, [0xB7, 0x04, 0xCE])]).dmem 0x1000 i = some (Nat.testBit 0xB704CE (23 - i)) :=
  ⟨⟨(fun h => nomatch h : CrcMode.compute = CrcMode.verify → 24 ≤ 0), by decide⟩, ⟨(fun _ => by decide : CrcMode.verify = CrcMode.verify → 24 ≤ 24), by decide⟩, by decide⟩

/-! ### The properties -/

theorem witness_IsF64 : IsF64 0 ∧ IsF64 1 := ⟨⟨0, 0, by norm_num, by norm_num, by norm_num⟩, ⟨1, 0, by norm_num, by norm_num, by norm_num⟩⟩

/-- The reference DFT has a value for every input: some `dft` agrees with it everywhere. -/
theorem witness_ReferenceDftClosedCases :
    ∃ dft : Nat → Bool → List C16 → Nat → C16, ∀ N scale x k, isReferenceBin N scale x k (dft N scale x k) := by
  have h : ∀ N scale x k, ∃ z, isReferenceBin N scale x k z := by
    intro N scale x k
    obtain ⟨S, hS⟩ : ∃ S, IsDftSum N scale x k S := ⟨_, rfl⟩
    obtain ⟨re, hre⟩ : ∃ v, IsRndReal S.re v := ⟨_, rfl⟩
    obtain ⟨im, him⟩ : ∃ v, IsRndReal S.im v := ⟨_, rfl⟩
    refine ⟨toC16 ⟨sat16 re, sat16 im⟩, S, re, im, hS, hre, him, ofC16_toC16 _ ?_⟩
    exact ⟨(sat16_range re).1, (sat16_range re).2, (sat16_range im).1, (sat16_range im).2⟩
  choose dft hd using h
  exact ⟨dft, hd⟩

/-- Two layers: a matrix of binary64 `q = 0` and one with `q` not 0, entries and `z` at the bound. -/
theorem witness_MmseFloatPathOrder :
    let A : Mat := fun i j => if i = j then ⟨2 ^ 32, 0⟩ else ⟨0, -2 ^ 32⟩
    let q : Mat → Rat := fun B =>
      let d := refDet 2 (fun i j : Fin 2 => refExact (B i j))
      roundF64 (roundF64 (d.re * d.re) + roundF64 (d.im * d.im))
    (∀ i ≤ 1, ∀ j ≤ 1, |(A i j).re| ≤ 2 ^ 32 ∧ |(A i j).im| ≤ 2 ^ 32) ∧ |(2 ^ 32 : Int)| ≤ 2 ^ 32
      ∧ q (fun _ _ => ⟨0, 0⟩) = 0 ∧ q A ≠ 0 := by decide +kernel

/-- A matrix with a zero and one with a nonzero determinant. -/
theorem witness_MmseFixedPathInverts :
    (gaussMatrix 1 (fun _ _ => ⟨0, 0⟩)).det = 0 ∧ (gaussMatrix 1 (fun _ _ => ⟨1, 0⟩)).det ≠ 0 := by
  constructor <;> simp [gaussMatrix, gauss, Zsqrtd.ext_iff]

/-- Two layers whose Gram entries are far from the bounds. -/
theorem witness_MmseDeterminantIsReal :
    ∀ i < 2, ∀ j < 2, i < j → (specGram 0 2 (fun l rx => ⟨(l : Int) + 1, rx⟩) i j).im ≠ -2147483648 := by decide

/-- Two antennas, more noise on each, no fallback at the smaller noise. -/
theorem witness_MmseGainIsMonotone :
    ∃ c : Mmse, c.layers = 1 ∧ c.fp = false ∧ ([⟨16384, 0⟩, ⟨0, 1⟩] : List CInt).length = c.rx
      ∧ ([⟨5, 6⟩, ⟨7, 8⟩] : List CInt).length = c.rx ∧ List.Forall₂ (· ≤ ·) [0, 255] [1, 65535]
      ∧ (mmseSub c (mmseS2 [0, 255]) [⟨5, 6⟩, ⟨7, 8⟩] [[⟨16384, 0⟩, ⟨0, 1⟩]]).fallback = false :=
  ⟨⟨1, 2, 15, 15, false, false, 0, 0, 0, 0, 0, 1, 1, 0, 0⟩, rfl, rfl, rfl, rfl,
    .cons (by decide) (.cons (by decide) .nil), by decide +kernel⟩

/-- The parameters of each clause, on both paths in the first. -/
theorem witness_MmseIdentity :
    ∀ c ∈ ([⟨1, 1, 0, 0, false, false, 0, 0, 0, 0, 0, 1, 1, 0, 0⟩, ⟨1, 1, 0, 0, true, false, 0, 0, 0, 0, 0, 1, 1, 0, 0⟩,
        ⟨1, 1, 0, 15, false, false, 0, 0, 0, 0, 0, 1, 1, 0, 0⟩] : List Mmse),
      c.layers = 1 ∧ c.rx = 1 ∧ c.shift0 = 0 ∧ (c.oshift = 0 ∨ (c.oshift = 15 ∧ c.fp = false)) := by decide

/-- One pilot, whatever its power. -/
theorem witness_ChestMeanBound : ([⟨-32768, 1⟩] : List CInt) ≠ [] ∧ ([⟨-32768, 1⟩] : List CInt).length = ([⟨0, 0⟩] : List CInt).length := by
  decide

theorem witness_RndRoundsHalfAway : (0 : Int) < 1 := by decide

/-- Plain min-sum, the largest factor the bound allows. -/
theorem witness_LdpcMessagesStayInRange : (4 : Nat) ≤ 4 ∧ ldpcIterate 4 [127, -127] [(⟨0, 0⟩, 127), (⟨0, 1⟩, -127)] ≠ [] := by decide

theorem witness_LdpcNoInformationHitsLimit :
    ldpcLegal ⟨.bg1, .packed, false, 0, 5, 0x1000, 132, 0x4000, 0x5000, 2⟩ ∧ ∀ x ∈ List.replicate 132 (0 : Int), x = 0 :=
  ⟨by decide, fun _ hx => (List.mem_replicate.1 hx).2⟩

/-- The table of S1.6 on base graph 2, the all-zero codeword, LLRs of exactly 2 and factor 2. -/
theorem witness_LdpcNoNoiseDecodesAtOnce :
    let c : LdpcDec := ⟨.bg2, .packed, false, 0, 5, 0, 100, 0x4000, 0x5000, 2⟩
    let ins := List.replicate 100 (2 : Int)
    let x : Nat → Bool := fun _ => false
    ldpcLegal c ∧ c.e = (ldpcNb c.bg - 2) * c.zc ∧ ins.length = c.e ∧ specSyndOk smallTable c x
      ∧ (∀ i < c.e, ∀ v ∈ ins[i]?, if x (2 * c.zc + i) then v / 2 ^ c.inShift ≤ -2 else 2 ≤ v / 2 ^ c.inShift)
      ∧ ∀ j < 2, ∃ i < ldpcMb c.bg, (smallTable c.bg (setIndex c.zc) i j).isSome = true
          ∧ (smallTable c.bg (setIndex c.zc) i (1 - j)).isSome = false
          ∧ ∃ j' < ldpcNb c.bg, 2 ≤ j' ∧ (smallTable c.bg (setIndex c.zc) i j').isSome = true := by
  refine ⟨by decide, by decide, by decide, fun k _ => by simp, ?_, ?_⟩
  · intro i hi v hv
    have hi' : i < 100 := hi
    rw [List.getElem?_replicate, if_pos hi'] at hv
    have : v = 2 := by simpa using hv.symm
    subst this
    simp
  · intro j hj
    have hj' : j = 0 ∨ j = 1 := by omega
    rcases hj' with rfl | rfl
    · exact ⟨0, by decide, by decide, by decide, 2, by decide, by decide, by decide⟩
    · exact ⟨1, by decide, by decide, by decide, 3, by decide, by decide, by decide⟩

end Sys2Proof.Tests
end

section
/-! PROOF. What the decoder rejects as an illegal opcode (30_encoding.md R173, R174), the engine step of a command whose bytes stand at
`pc` (40_sequencing.md R221), and the halt that follows from the two. -/

namespace Sys2Proof

/-! ## The opcode -/

/-- The illegal opcodes are those from 0x09 on (30_encoding.md R173, R174). -/
theorem opcodeOf_eq_none_iff (v : Nat) : opcodeOf v = none ↔ 9 ≤ v := by
  constructor
  · intro h
    by_contra hlt
    interval_cases v <;> exact Option.some_ne_none _ h
  · intro h
    obtain ⟨k, rfl⟩ := Nat.exists_eq_add_of_le' h
    rfl

/-- `w[7:0]` as the statements write it (00_scope.md R12). -/
theorem bits_zero_eight (w : Word) : bits w 0 8 = w.toNat % 256 := by
  simp [bits]

/-- The decoder names an illegal opcode exactly when the opcode is none of R173 (30_encoding.md R185). -/
theorem decode_eq_illegalOpcode_iff (w : CmdWords) : decode w = .illegalOpcode ↔ 9 ≤ w.w0.toNat % 256 := by
  rw [← bits_zero_eight, ← opcodeOf_eq_none_iff]
  unfold decode
  cases opcodeOf (bits w.w0 0 8) with
  | none => simp
  | some op => cases hr : firstReserved (reservedMasks op) w <;> simp [hr]

end Sys2Proof

namespace Sys2Proof.Machine

/-! ## The step of a command at `pc` -/

/-- The error halt in the terms of the statements (60_exceptions.md R406). -/
theorem State.errorHalt_eq_afterError (e : CmdError) (s : State) : s.errorHalt e = afterError e.code e.word s := rfl

/-- A step that fetches the words at `pc` latches them and executes the latch (40_sequencing.md R221). -/
theorem step_of_commandAt (s : State) (w : CmdWords) (hs : aboutToFetch s) (hw : commandAt s w) :
    step s = { s with latch := w }.executeLatched := by
  obtain ⟨hturns, hrun, hleft, habort⟩ := hs
  obtain ⟨hrange, hfetch⟩ := State.fetch_of_commandAt s w hw
  rw [step_of_running s hturns hrun]
  simp [State.engineStep, hleft, habort, hrange, hfetch]

/-- A latched command with an illegal opcode is the error halt with word 0 (30_encoding.md R174). -/
theorem State.executeLatched_of_illegalOpcode (s : State) (h : decode s.latch = .illegalOpcode) :
    s.executeLatched = .next (afterError .illegalOpcode 0 s) := by
  simp [State.executeLatched, h, State.errorHalt_eq_afterError]

/-- Settles O6: the step executes the latched words, and the decoder rejects their opcode. -/
theorem illegalOpcodeHalts : Obligations.IllegalOpcodeHalts := by
  intro s w hs hw hop
  rw [step_of_commandAt s w hs hw]
  exact State.executeLatched_of_illegalOpcode _ ((decode_eq_illegalOpcode_iff w).2 hop)

end Sys2Proof.Machine
end

section
/-! PROOF. What `FEP_RX` does (41_fep.md R241 to R246): when its checks pass, which samples it reads, what stands in `FD` afterwards and
what it leaves unchanged. -/

namespace Sys2Proof.Machine

/-! ## A command that completes -/

/-- A command whose checks pass and whose reads all succeed completes with its effect (40_sequencing.md R224). -/
theorem runCommand_of_effect (checks : List Check) (effect : State → Option Effect) (s : State) (f : Effect)
    (hc : firstError checks = none) (hf : effect s = some f) : runCommand checks effect s = .next (s.apply f).complete := by
  simp [runCommand, hc, hf]

/-- Reads that succeed at every index collect to the list of their values. -/
theorem collectN_of_forall {α : Type} (n : Nat) (f : Nat → Option α) (x : Nat → α) (h : ∀ i < n, f i = some (x i)) :
    collectN n f = some ((List.range n).map x) := by
  rw [collectN_eq_some]
  refine ⟨by simp, fun i hi => ?_⟩
  simp [h i hi, List.getElem?_range hi]

/-! ## A buffer of stored samples -/

/-- The bytes of consecutive packed samples (20_memory.md R129 `StC16`). -/
def sampleBytes (zs : List C16) : List Byte := zs.flatMap (fun z => bytesC16 (ofC16 z))

@[simp] theorem length_sampleBytes (zs : List C16) : (sampleBytes zs).length = 4 * zs.length :=
  length_flatMap_const _ 4 (fun _ => length_bytesC16 _) zs

/-- A packed sample stored in a run of samples reads back. -/
theorem ldC16_store_sampleBytes (m : Memory) (a : Nat) (zs : List C16) (i : Nat) (z : C16) (h : zs[i]? = some z) :
    ldC16 (m.store a (sampleBytes zs)) a i = some z := by
  have hz : (zs.map ofC16)[i]? = some (ofC16 z) := by simp [h]
  simpa [sampleBytes, List.flatMap_map] using ldC16_store m a (zs.map ofC16) i (ofC16 z) hz

/-- Storing `n` samples changes no byte outside a buffer of `n` samples at the same base (20_memory.md R130). -/
theorem sameOutside_store_sampleBytes (s t : State) (word : BitVec 3) (b : Nat) (zs : List C16)
    (ht : t.dmem = s.dmem.store b (sampleBytes zs)) : sameOutside [⟨word, b, .c16, zs.length⟩] s t := by
  intro a ha
  rw [ht]
  apply Memory.read_store_outside
  rw [length_sampleBytes]
  exact ha _ (List.mem_singleton.2 rfl)

/-! ## The checks and the window -/

/-- The window start as the statements write it, where the guard does not reach before `td_base` (41_fep.md R242). -/
theorem fepStart_of_guard_le (c : FepRx)
    (h : c.cp / c.offsetDiv ≤ c.slotOffset + c.symbol * fftSize c.sizeClass + c.cp0 + c.symbol * c.cp) :
    fepStart c
      = ((c.slotOffset + c.symbol * fftSize c.sizeClass + c.cp0 + c.symbol * c.cp - c.cp / c.offsetDiv : Nat) : Int) := by
  rw [fepStart, fepGuard, Nat.cast_sub h]

/-- The window test in unbounded integers is the one in naturals (41_fep.md R241, R242). -/
theorem fepStart_window_iff (c : FepRx) :
    (0 ≤ fepStart c ∧ fepStart c + fftSize c.sizeClass ≤ c.tdLen) ↔
      c.cp / c.offsetDiv ≤ c.slotOffset + c.symbol * fftSize c.sizeClass + c.cp0 + c.symbol * c.cp
        ∧ c.slotOffset + c.symbol * fftSize c.sizeClass + c.cp0 + c.symbol * c.cp - c.cp / c.offsetDiv
            + fftSize c.sizeClass ≤ c.tdLen := by
  unfold fepStart fepGuard
  omega

/-- The checks of `FEP_RX` pass exactly on the legal commands (41_fep.md R241). -/
theorem fepChecks_pass (p : Params) (c : FepRx) : firstError (fepChecks p c) = none ↔ legal p (.fepRx c) := by
  have hbufs : firstError (bufferChecks p [fepTd c, fepFd c] [(fepTd c, fepFd c)]) = none
      ↔ buffersLegal p (buffersOf (.fepRx c)) (pairsOf (.fepRx c)) := bufferChecks_pass p _ _
  rw [fepChecks, firstError_append, Option.or_eq_none_iff, hbufs, firstError_eq_none, legal, fieldsLegal]
  refine and_congr_left' ?_
  simp only [fepLegal, ← fepStart_window_iff, List.forall_mem_cons, List.not_mem_nil, false_implies, implies_true, and_true,
    Bool.or_eq_false_iff, decide_eq_false_iff_not, not_lt, not_le, ne_eq, and_assoc]

/-- The samples a legal `FEP_RX` transforms are the `N` of its window (41_fep.md R243). -/
theorem fepWindow_of_readable (c : FepRx) (m : Memory) (x : Nat → C16) (hc : fepLegal c)
    (hx : ∀ n < fftSize c.sizeClass, ldC16 m c.tdBase
      (c.slotOffset + c.symbol * fftSize c.sizeClass + c.cp0 + c.symbol * c.cp - c.cp / c.offsetDiv + n) = some (x n)) :
    fepWindow c m = some ((List.range (fftSize c.sizeClass)).map x) := by
  obtain ⟨-, -, -, -, -, -, hguard, -⟩ := hc
  rw [fepWindow, fepStart_of_guard_le c hguard, Int.toNat_natCast]
  exact collectN_of_forall _ _ x hx

/-! ## The subcarriers -/

@[simp] theorem length_fepBins (dft : Nat → Bool → List C16 → Nat → C16) (c : FepRx) (x : List C16) :
    (fepBins dft c x).length = c.nSc := by
  simp [fepBins]

/-- Subcarrier `i` is bin `first_sc + i` modulo `N` (41_fep.md R245). -/
theorem getElem?_fepBins (dft : Nat → Bool → List C16 → Nat → C16) (c : FepRx) (x : List C16) (i : Nat) (hi : i < c.nSc) :
    (fepBins dft c x)[i]? = some (dft (fftSize c.sizeClass) c.scale x ((c.firstSc + i) % fftSize c.sizeClass)) := by
  simp [fepBins, List.getElem?_range hi]

/-- The one store of `FEP_RX`: the extracted bins of the samples `x`, at `fd_base` (41_fep.md R246). -/
def fepStores (c : FepRx) (x : List C16) : Effect := storesOnly [(c.fdBase, sampleBytes (fepBins Config.dft c x))]

theorem fepEffect_eq (c : FepRx) (s : State) : fepEffect c s = (fepWindow c s.dmem).map (fepStores c) := rfl

theorem dmem_apply_fepStores (c : FepRx) (x : List C16) (s : State) :
    (s.apply (fepStores c x)).complete.dmem = s.dmem.store c.fdBase (sampleBytes (fepBins Config.dft c x)) := by
  rw [State.complete_dmem, State.apply_eq]
  rfl

/-- A legal `FEP_RX` whose window holds the samples `x` completes with their bins stored. -/
theorem exec_fepRx_of_window (c : FepRx) (s : State) (x : List C16) (hc : legal s.params (.fepRx c))
    (hx : fepWindow c s.dmem = some x) : exec (.fepRx c) s = .next (s.apply (fepStores c x)).complete :=
  runCommand_of_effect _ _ s _ ((fepChecks_pass s.params c).2 hc) (by rw [fepEffect_eq, hx, Option.map_some])

/-- Settles O38: the window's samples are collected, and the one store is that of the extracted bins. -/
theorem fepRxResult : Obligations.FepRxResult := by
  intro c s x N start hlegal hx
  have hwindow : fepWindow c s.dmem = some ((List.range N).map x) := fepWindow_of_readable c s.dmem x hlegal.1 hx
  have hdmem := dmem_apply_fepStores c ((List.range N).map x) s
  refine ⟨_, exec_fepRx_of_window c s _ hlegal hwindow, completed_apply s _, fun i hi => ?_, ?_⟩
  · rw [hdmem]
    exact ldC16_store_sampleBytes _ _ _ i _ (getElem?_fepBins Config.dft c _ i hi)
  · rw [← length_fepBins Config.dft c ((List.range N).map x)]
    exact sameOutside_store_sampleBytes s _ 6 c.fdBase _ hdmem

end Sys2Proof.Machine
end

section
/-! PROOF. The fixed path of `MMSE` over the Gaussian integers (43_mmse.md R285 to R288): the machine's complex integers are Mathlib's
Gaussian integers, its expansions along row 0 are Mathlib's determinant and adjugate, and its rounded quotients are the quotients of the
statements. -/

namespace Sys2Proof.Machine

/-! ## Rounded quotients (00_scope.md R13) -/

/-- The floor of a quotient plus one half, in integers. -/
theorem floor_quot_add_half (a b : Int) (hb : 0 < b) : (quot a b + 1 / 2).floor = (2 * a + b) / (2 * b) := by
  lift b to Nat using hb.le
  have hcast : (b : Rat) ≠ 0 := by exact_mod_cast hb.ne'
  have hsum : quot a b + 1 / 2 = ((2 * a + b : Int) : Rat) / ((2 * b : Nat) : Rat) := by
    unfold quot
    push_cast
    field_simp
  rw [hsum]
  exact_mod_cast Rat.floor_intCast_div_natCast (2 * a + b) (2 * b)

theorem quot_neg_iff (a b : Int) (hb : 0 < b) : quot a b < 0 ↔ a < 0 := by
  have hcast : (0 : Rat) < b := by exact_mod_cast hb
  rw [quot, div_lt_iff₀ hcast, zero_mul, Int.cast_lt_zero]

theorem neg_quot (a b : Int) : -quot a b = quot (-a) b := by
  simp [quot, neg_div]

/-- `rnd` of a quotient by a positive integer, in integers (00_scope.md R13). -/
theorem rnd_quot (a b : Int) (hb : 0 < b) : rnd (quot a b) = rndDiv a b := by
  simp only [rnd, quot_neg_iff a b hb, neg_quot, floor_quot_add_half _ b hb, rndDiv]
  rcases lt_trichotomy a 0 with h | rfl | h
  · have habs : (a.natAbs : Int) = -a := by omega
    rw [if_pos h, Int.sign_eq_neg_one_of_neg h, habs, neg_one_mul]
  · have hzero : b / (2 * b) = 0 := Int.ediv_eq_zero_of_lt (by omega) (by omega)
    simp [hzero]
  · have habs : (a.natAbs : Int) = a := by omega
    rw [if_neg (by omega), Int.sign_eq_one_of_pos h, habs, one_mul]

/-! ## The machine's complex integers as Gaussian integers (00_scope.md R14) -/

@[simp] theorem gauss_re (z : CInt) : (gauss z).re = z.re := rfl

@[simp] theorem gauss_im (z : CInt) : (gauss z).im = z.im := rfl

theorem gauss_eq_zero_iff (z : CInt) : gauss z = 0 ↔ z = ⟨0, 0⟩ := by
  obtain ⟨re, im⟩ := z
  simp [Zsqrtd.ext_iff]

@[simp] theorem gauss_cadd (a b : CInt) : gauss (cadd a b) = gauss a + gauss b := rfl

@[simp] theorem gauss_cneg (a : CInt) : gauss (cneg a) = -gauss a := rfl

@[simp] theorem gauss_conj (a : CInt) : gauss (conj a) = star (gauss a) := rfl

@[simp] theorem gauss_cmul (a b : CInt) : gauss (cmul a b) = gauss a * gauss b := by
  apply Zsqrtd.ext <;> simp [cmul, sub_eq_add_neg]

theorem norm_gauss (z : CInt) : (gauss z).norm = normSq z := by
  simp [Zsqrtd.norm_def, normSq]

theorem normSq_pos (z : CInt) (hz : gauss z ≠ 0) : 0 < normSq z := by
  rw [← norm_gauss]
  exact GaussianInt.norm_pos.2 hz

/-- The machine's sum over a list is the sum in the Gaussian integers. -/
theorem gauss_csum (zs : List CInt) : gauss (csum zs) = (zs.map gauss).sum := by
  induction zs with
  | nil => rfl
  | cons z zs ih => simp [csum, ih]

/-- A sum over `0` to `n - 1` as a sum over the indices of an `n x n` matrix. -/
theorem gauss_csum_range (n : Nat) (f : Nat → CInt) :
    gauss (csum ((List.range n).map f)) = ∑ i : Fin n, gauss (f i) := by
  rw [gauss_csum, List.map_map]
  exact Finset.sum_range (fun i => gauss (f i))

/-- A term of an expansion with its sign. -/
theorem gauss_signed (k : Nat) (z : CInt) : gauss (if k % 2 = 0 then z else cneg z) = (-1) ^ k * gauss z := by
  split
  · next h => rw [Even.neg_one_pow (Nat.even_iff.2 h), one_mul]
  · next h => rw [Odd.neg_one_pow (Nat.odd_iff.2 (by omega)), neg_one_mul, gauss_cneg]

/-! ## Determinant and cofactors (43_mmse.md R285) -/

/-- Removing entry `r` from a list of indices is Mathlib's `succAbove`. -/
theorem skip_val {n : Nat} (r : Fin (n + 1)) (i : Fin n) : skip r i = (r.succAbove i).val := by
  unfold skip Fin.succAbove
  simp only [Fin.lt_def, Fin.val_castSucc]
  split <;> simp

/-- A minor is a submatrix. -/
theorem gaussMatrix_minor {n : Nat} (M : Mat) (r c : Fin (n + 1)) :
    gaussMatrix n (minor M r c) = (gaussMatrix (n + 1) M).submatrix r.succAbove c.succAbove := by
  ext i j
  all_goals simp [gaussMatrix, minor, skip_val]

/-- The machine's expansion along row 0 is the determinant. -/
theorem gauss_det (n : Nat) (M : Mat) : gauss (det n M) = (gaussMatrix n M).det := by
  induction n generalizing M with
  | zero => rw [Matrix.det_fin_zero]; rfl
  | succ n ih =>
    rw [det, gauss_csum_range, Matrix.det_succ_row_zero]
    refine Finset.sum_congr rfl fun c _ => ?_
    have hminor := gaussMatrix_minor M 0 c
    rw [Fin.val_zero, Fin.succAbove_zero] at hminor
    rw [gauss_signed, gauss_cmul, ih, hminor, mul_assoc]
    rfl

/-- The machine's cofactor is an entry of the adjugate. -/
theorem gauss_cofactor {n : Nat} (M : Mat) (j l : Fin n) :
    gauss (cofactor n M j l) = (gaussMatrix n M).adjugate l j := by
  obtain ⟨n, rfl⟩ : ∃ m, n = m + 1 := ⟨n - 1, by have := j.isLt; omega⟩
  rw [cofactor, gauss_signed, Nat.add_sub_cancel, gauss_det, gaussMatrix_minor, Matrix.adjugate_fin_succ_eq_det_submatrix]

/-- The numerator of a symbol is the adjugate applied to the matched filter (43_mmse.md R286). -/
theorem gauss_numerator {n : Nat} (A : Mat) (z : Nat → CInt) (l : Fin n) :
    gauss (csum ((List.range n).map (fun j => cmul (cofactor n A j l) (z j))))
      = (gaussMatrix n A).adjugate.mulVec (fun j : Fin n => gauss (z j)) l := by
  rw [gauss_csum_range]
  exact Finset.sum_congr rfl fun j _ => by rw [gauss_cmul, gauss_cofactor]

/-! ## Symbols and gains (43_mmse.md R286, R287) -/

/-- A symbol as the rounded and saturated quotient of Gaussian integers. -/
theorem fixedSymbol_eq (oshift : Nat) (num d : CInt) (hd : gauss d ≠ 0) :
    fixedSymbol oshift num d
      = ⟨sat16 (rndDiv ((gauss num * star (gauss d)).re * 2 ^ oshift) (gauss d).norm),
         sat16 (rndDiv ((gauss num * star (gauss d)).im * 2 ^ oshift) (gauss d).norm)⟩ := by
  have hpos := normSq_pos d hd
  rw [← gauss_conj, ← gauss_cmul, norm_gauss]
  simp only [fixedSymbol, rnd_quot _ _ hpos, gauss_re, gauss_im]

/-- A gain as the rounded and clamped quotient of integers. -/
theorem fixedGain_eq (s2 : Nat) (cll d : CInt) (hd : gauss d ≠ 0) :
    fixedGain s2 cll d
      = clamp (rndDiv (2 ^ 15 * ((gauss d).norm - s2 * (gauss cll * star (gauss d)).re)) (gauss d).norm) 0 32767 := by
  have hpos := normSq_pos d hd
  have hcast : (normSq d : Rat) ≠ 0 := by exact_mod_cast hpos.ne'
  rw [← gauss_conj, ← gauss_cmul, norm_gauss, ← rnd_quot _ _ hpos, fixedGain]
  congr 2
  unfold quot
  push_cast
  rw [gauss_re]
  field_simp
  ring

/-- A zero determinant is the zero Gaussian integer. -/
theorem det_eq_zero_iff (n : Nat) (A : Mat) : det n A = ⟨0, 0⟩ ↔ (gaussMatrix n A).det = 0 := by
  rw [← gauss_det, gauss_eq_zero_iff]

/-- A zero determinant gives the fallback (43_mmse.md R288). -/
theorem fixedSub_of_det_eq_zero (n oshift s2 : Nat) (A : Mat) (z : Nat → CInt) (h : (gaussMatrix n A).det = 0) :
    fixedSub n oshift s2 A z = mmseFallback n :=
  if_pos ((det_eq_zero_iff n A).2 h)

/-- A nonzero determinant gives one symbol and one gain for each layer (43_mmse.md R286, R287). -/
theorem fixedSub_of_det_ne_zero (n oshift s2 : Nat) (A : Mat) (z : Nat → CInt) (h : (gaussMatrix n A).det ≠ 0) :
    fixedSub n oshift s2 A z =
      { x := (List.range n).map (fun l =>
          fixedSymbol oshift (csum ((List.range n).map (fun j => cmul (cofactor n A j l) (z j)))) (det n A))
        g := (List.range n).map (fun l => fixedGain s2 (cofactor n A l l) (det n A))
        fallback := false } :=
  if_neg (fun hzero => h ((det_eq_zero_iff n A).1 hzero))

/-- Settles O50: the machine's determinant, cofactors and numerators are Mathlib's, so its two branches are the two cases of `D`. -/
theorem mmseFixedPathInverts : Obligations.MmseFixedPathInverts := by
  intro n oshift s2 A z D adj num r
  by_cases hD : D = 0
  · have hr : r = mmseFallback n := fixedSub_of_det_eq_zero n oshift s2 A z hD
    simp [hr, mmseFallback, hD]
  · have hr := fixedSub_of_det_ne_zero n oshift s2 A z hD
    have hdet : gauss (det n A) ≠ 0 := by rwa [gauss_det]
    refine ⟨by simp [r, hr], by simp [r, hr], fun h => absurd h hD, fun _ => ⟨by simp only [r, hr], fun l => ⟨?_, ?_⟩⟩⟩
    · have hx : r.x[l]? = some (fixedSymbol oshift
          (csum ((List.range n).map (fun j => cmul (cofactor n A j l) (z j)))) (det n A)) := by simp [r, hr]
      rw [hx, fixedSymbol_eq _ _ _ hdet, gauss_numerator, gauss_det]
    · have hg : r.g[l]? = some (fixedGain s2 (cofactor n A l l) (det n A)) := by simp [r, hr]
      rw [hg, fixedGain_eq _ _ _ hdet, gauss_cofactor, gauss_det]

end Sys2Proof.Machine
end

section
/-! PROOF. What `MMSE` computes for one subcarrier (43_mmse.md R282 to R290): the Gram matrix, the matched filter and the noise mean in
the terms of the statements, that a result depends only on the entries below the layer count, and the ranges of what it stores. -/

namespace Sys2Proof.Machine

/-! ## Inner products (43_mmse.md R283, R284) -/

/-- A right shift is the floor quotient by a power of two (00_scope.md R13). -/
theorem asr_eq_ediv (v : Int) (s : Nat) : asr v s = v / 2 ^ s := Int.fdiv_eq_ediv_of_nonneg v (by positivity)

theorem csum_re (zs : List CInt) : (csum zs).re = (zs.map CInt.re).sum := by
  induction zs with
  | nil => rfl
  | cons z zs ih => simp [csum, cadd, ih]

theorem csum_im (zs : List CInt) : (csum zs).im = (zs.map CInt.im).sum := by
  induction zs with
  | nil => rfl
  | cons z zs ih => simp [csum, cadd, ih]

/-- The sum of a function's values at `0` to `n - 1`. -/
theorem sum_map_range {α : Type} [AddCommMonoid α] (n : Nat) (f : Nat → α) :
    ((List.range n).map f).sum = ∑ i ∈ Finset.range n, f i := rfl

/-- The machine's inner product of two lists of antenna values is that of the statements. -/
theorem innerProduct_eq_specInner (shift0 n : Nat) (a b : Nat → CInt) :
    innerProduct shift0 ((List.range n).map a) ((List.range n).map b) = specInner shift0 n a b := by
  have hterms : (List.zipWith (fun x y => cmul (conj x) y) ((List.range n).map a) ((List.range n).map b)).map (shiftTerm shift0)
      = (List.range n).map (fun rx => shiftTerm shift0 (cmul (conj (a rx)) (b rx))) := by
    simp [List.zipWith_map, List.zipWith_self]
  have hre (rx : Nat) : (shiftTerm shift0 (cmul (conj (a rx)) (b rx))).re
      = ((a rx).re * (b rx).re + (a rx).im * (b rx).im) / 2 ^ shift0 := by
    simp [shiftTerm, cmul, conj, asr_eq_ediv]
  have him (rx : Nat) : (shiftTerm shift0 (cmul (conj (a rx)) (b rx))).im
      = ((a rx).re * (b rx).im - (a rx).im * (b rx).re) / 2 ^ shift0 := by
    simp [shiftTerm, cmul, conj, asr_eq_ediv, sub_eq_add_neg]
  rw [innerProduct, hterms, sat32c, csum_re, csum_im, List.map_map, List.map_map, specInner]
  simp only [Function.comp_def, hre, him, sum_map_range]

/-- The noise mean in the terms of the statements (43_mmse.md R282). -/
theorem mmseS2_map_range (n : Nat) (nv : Nat → Nat) :
    mmseS2 ((List.range n).map nv) = (∑ rx ∈ Finset.range n, nv rx) / n := by
  rw [mmseS2, sum_map_range, List.length_map, List.length_range]

/-! ## The entries that matter -/

/-- Two matrices agree on their leading `n x n` parts. -/
def AgreeBelow {α : Type} (n : Nat) (M N : Nat → Nat → α) : Prop := ∀ i < n, ∀ j < n, M i j = N i j

theorem skip_lt (r i n : Nat) (h : i < n - 1) : skip r i < n := by
  unfold skip
  split <;> omega

/-- Minors of matrices that agree agree. -/
theorem AgreeBelow.minor {α : Type} {n : Nat} {M N : Nat → Nat → α} (h : AgreeBelow n M N) (r c : Nat) :
    AgreeBelow (n - 1) (minor M r c) (minor N r c) :=
  fun i hi j hj => h _ (skip_lt r i n hi) _ (skip_lt c j n hj)

/-- The leading part of a tabulated matrix is that of the matrix. -/
theorem agreeBelow_tabulate (n : Nat) (M : Mat) : AgreeBelow n (tabulate n M) M := by
  intro i hi j hj
  simp [tabulate, hi, hj]

theorem det_congr {n : Nat} {M N : Mat} (h : AgreeBelow n M N) : det n M = det n N := by
  induction n generalizing M N with
  | zero => rfl
  | succ n ih =>
    unfold det
    congr 1
    refine List.map_congr_left fun c hc => ?_
    rw [h 0 n.succ_pos c (List.mem_range.1 hc), ih (h.minor 0 c)]

theorem cofactor_congr {n : Nat} {M N : Mat} (h : AgreeBelow n M N) (j l : Nat) : cofactor n M j l = cofactor n N j l := by
  rw [cofactor, cofactor, det_congr (h.minor j l)]

/-- The fixed-point result depends only on the entries below the layer count. -/
theorem fixedSub_congr {n : Nat} (oshift s2 : Nat) {A B : Mat} {z w : Nat → CInt} (hA : AgreeBelow n A B)
    (hz : ∀ j < n, z j = w j) : fixedSub n oshift s2 A z = fixedSub n oshift s2 B w := by
  have hnum (l : Nat) : (List.range n).map (fun j => cmul (cofactor n B j l) (z j))
      = (List.range n).map (fun j => cmul (cofactor n B j l) (w j)) :=
    List.map_congr_left fun j hj => by rw [hz j (List.mem_range.1 hj)]
  simp only [fixedSub, det_congr hA, cofactor_congr hA, hnum]

/-- The loop of `detf` depends only on the terms it reads. -/
theorem detfLoop_congr {f g : Nat → CF64} (k c : Nat) (acc : CF64) (h : ∀ i < c + k, f i = g i) :
    detfLoop f k c acc = detfLoop g k c acc := by
  induction k generalizing c acc with
  | zero => rfl
  | succ k ih =>
    rw [detfLoop, detfLoop, h c (by omega)]
    exact ih _ _ fun i hi => h i (by omega)

theorem detf_congr {n : Nat} {M N : MatF} (h : AgreeBelow n M N) : detf n M = detf n N := by
  induction n generalizing M N with
  | zero => rfl
  | succ n ih =>
    cases n with
    | zero => exact h 0 one_pos 0 one_pos
    | succ n =>
      have hterm : ∀ c < n + 2, cfmul (M 0 c) (detf (n + 1) (minor M 0 c)) = cfmul (N 0 c) (detf (n + 1) (minor N 0 c)) :=
        fun c hc => by rw [h 0 (by omega) c hc, ih (h.minor 0 c)]
      rw [detf, detf, hterm 0 (by omega)]
      exact detfLoop_congr _ _ _ fun i hi => hterm i (by omega)

theorem cofactorf_congr {n : Nat} {M N : MatF} (h : AgreeBelow n M N) (j l : Nat) : cofactorf n M j l = cofactorf n N j l := by
  rw [cofactorf, cofactorf, detf_congr (h.minor j l)]

theorem numf_congr {n : Nat} {M N : MatF} {z w : Nat → CF64} (hn : 0 < n) (hM : AgreeBelow n M N) (hz : ∀ j < n, z j = w j)
    (l : Nat) : numf n M z l = numf n N w l := by
  unfold numf
  rw [cofactorf_congr hM, hz 0 hn]
  refine List.foldl_ext _ _ _ fun acc j hj => ?_
  have hlt := List.mem_range.1 hj
  rw [cofactorf_congr hM, hz (j + 1) (by omega)]

/-- The binary64 result depends only on the entries below the layer count. -/
theorem floatSub_congr {n : Nat} (oshift s2 : Nat) {A B : Mat} {z w : Nat → CInt} (hA : AgreeBelow n A B)
    (hz : ∀ j < n, z j = w j) : floatSub n oshift s2 A z = floatSub n oshift s2 B w := by
  have hM : AgreeBelow n (fun i j => cfOfInt (A i j)) (fun i j => cfOfInt (B i j)) :=
    fun i hi j hj => congrArg cfOfInt (hA i hi j hj)
  have hx (d : CF64) (q : Rat) :
      (List.range n).map (fun l => floatSymbol oshift (numf n (fun i j => cfOfInt (A i j)) (fun j => cfOfInt (z j)) l) d q)
      = (List.range n).map (fun l => floatSymbol oshift (numf n (fun i j => cfOfInt (B i j)) (fun j => cfOfInt (w j)) l) d q) :=
    List.map_congr_left fun l hl => by
      rw [numf_congr (Nat.zero_lt_of_lt (List.mem_range.1 hl)) hM fun j hj => by rw [hz j hj]]
  simp only [floatSub, detf_congr hM, cofactorf_congr hM, hx]

/-- The result of a subcarrier depends only on the entries below the layer count. -/
theorem subOf_congr (c : Mmse) (s2 : Nat) {A B : Mat} {z w : Nat → CInt} (hA : AgreeBelow c.layers A B)
    (hz : ∀ j < c.layers, z j = w j) : subOf c s2 A z = subOf c s2 B w := by
  unfold subOf
  rw [floatSub_congr c.oshift s2 hA hz, fixedSub_congr c.oshift s2 hA hz]

/-! ## One subcarrier (43_mmse.md R291) -/

theorem getD_map_range {α : Type} (n : Nat) (f : Nat → α) (d : α) (i : Nat) (hi : i < n) :
    ((List.range n).map f).getD i d = f i := by
  simp [hi]

/-- The machine's regularized Gram matrix is that of the statements below the layer count. -/
theorem agreeBelow_regularized (shift0 antennas s2 n : Nat) (h : Nat → Nat → CInt) :
    AgreeBelow n (regularized shift0 s2 ((List.range n).map (fun l => (List.range antennas).map (h l))))
      (specA shift0 antennas s2 h) := by
  intro i hi j hj
  simp only [regularized, gram, specA, specGram, getD_map_range n _ _ i hi, getD_map_range n _ _ j hj,
    innerProduct_eq_specInner]

/-- The machine's result of a subcarrier is the one of the statements. -/
theorem mmseSub_eq_subOf (c : Mmse) (s2 : Nat) (y : Nat → CInt) (h : Nat → Nat → CInt) :
    mmseSub c s2 ((List.range c.rx).map y) ((List.range c.layers).map (fun l => (List.range c.rx).map (h l)))
      = subOf c s2 (specA c.shift0 c.rx s2 h) (fun j => specInner c.shift0 c.rx (h j) y) := by
  refine subOf_congr c s2 (fun i hi j hj => ?_) (fun j hj => ?_)
  · rw [agreeBelow_tabulate _ _ i hi j hj, agreeBelow_regularized _ c.rx _ _ h i hi j hj]
  · rw [matched, getD_map_range _ _ _ j hj, innerProduct_eq_specInner]

/-! ## Ranges of a result -/

/-- A pair of integers in the 16-bit range, which a `C16` holds exactly (20_memory.md R128). -/
def FitsC16 (z : CInt) : Prop := -32768 ≤ z.re ∧ z.re ≤ 32767 ∧ -32768 ≤ z.im ∧ z.im ≤ 32767

theorem fitsC16_sat16 (a b : Int) : FitsC16 ⟨sat16 a, sat16 b⟩ :=
  ⟨(sat16_range a).1, (sat16_range a).2, (sat16_range b).1, (sat16_range b).2⟩

/-- The two forms of a result: the fallback, or one saturated symbol and one clamped gain for each layer. -/
theorem subOf_cases (c : Mmse) (s2 : Nat) (A : Mat) (z : Nat → CInt) :
    subOf c s2 A z = mmseFallback c.layers
      ∨ ∃ (x : Nat → CInt) (g : Nat → Int), (∀ l, FitsC16 (x l)) ∧ (∀ l, 0 ≤ g l ∧ g l ≤ 32767)
          ∧ subOf c s2 A z = ⟨(List.range c.layers).map x, (List.range c.layers).map g, false⟩ := by
  unfold subOf floatSub fixedSub
  dsimp only
  split <;> split
  · exact .inl rfl
  · exact .inr ⟨_, _, fun l => fitsC16_sat16 _ _, fun l => clamp_range _ 0 32767 (by decide), rfl⟩
  · exact .inl rfl
  · exact .inr ⟨_, _, fun l => fitsC16_sat16 _ _, fun l => clamp_range _ 0 32767 (by decide), rfl⟩

/-- The symbol of every layer fits a `C16`. -/
theorem subOf_x_fits (c : Mmse) (s2 : Nat) (A : Mat) (z : Nat → CInt) (l : Nat) (hl : l < c.layers) :
    FitsC16 ((subOf c s2 A z).x.getD l ⟨0, 0⟩) := by
  rcases subOf_cases c s2 A z with h | ⟨x, g, hx, -, h⟩
  · simp [h, mmseFallback, hl, FitsC16]
  · rw [h, getD_map_range _ _ _ l hl]
    exact hx l

/-- The gain of every layer is a nonnegative Q1.15 value. -/
theorem subOf_g_range (c : Mmse) (s2 : Nat) (A : Mat) (z : Nat → CInt) (l : Nat) (hl : l < c.layers) :
    0 ≤ (subOf c s2 A z).g.getD l 0 ∧ (subOf c s2 A z).g.getD l 0 ≤ 32767 := by
  rcases subOf_cases c s2 A z with h | ⟨x, g, -, hg, h⟩
  · simp [h, mmseFallback, hl]
  · rw [h, getD_map_range _ _ _ l hl]
    exact hg l

/-! ## Magnitudes (43_mmse.md R290) -/

/-- A magnitude sample in the terms of the statements. -/
theorem magSample_eq (thr b : Nat) (g : Int) :
    magSample thr b g = ⟨rndDiv (g * (thr / 2 ^ b : Nat)) (2 ^ 15), rndDiv (g * (thr / 2 ^ b : Nat)) (2 ^ 15)⟩ := by
  have hthr : asr thr b = (thr / 2 ^ b : Nat) := by
    rw [asr_eq_ediv]
    push_cast
    rfl
  rw [magSample, hthr, rnd_quot _ _ (by positivity)]

/-- The threshold of a well-formed command has 15 bits (30_encoding.md R179). -/
theorem mmse_thr_lt_of_wf (c : Mmse) (h : c.wf = true) : c.thr < 2 ^ 15 := by
  rw [Mmse.wf, Bool.and_eq_true] at h
  obtain ⟨-, hthr⟩ := h
  simpa [fits] using hthr

/-- A magnitude of a Q1.15 gain and a 15-bit threshold fits 16 bits. -/
theorem fitsC16_magSample (thr b : Nat) (g : Int) (hthr : thr < 2 ^ 15) (hg : 0 ≤ g ∧ g ≤ 32767) :
    FitsC16 (magSample thr b g) := by
  obtain ⟨hg0, hg1⟩ := hg
  have ht : thr / 2 ^ b ≤ 32767 := (Nat.div_le_self _ _).trans (by omega)
  obtain ⟨p, hp⟩ : ∃ p, p = g * (thr / 2 ^ b : Nat) := ⟨_, rfl⟩
  have hp0 : 0 ≤ p := hp ▸ mul_nonneg hg0 (Int.natCast_nonneg _)
  have hp1 : p ≤ 32767 * 32767 := hp ▸ mul_le_mul hg1 (by exact_mod_cast ht) (Int.natCast_nonneg _) (by decide)
  have hm : 0 ≤ rndDiv p (2 ^ 15) ∧ rndDiv p (2 ^ 15) ≤ 32767 := by
    rw [rndDiv]
    rcases hp0.eq_or_lt with h | h
    · simp [← h]
    · rw [Int.sign_eq_one_of_pos h]
      omega
  rw [magSample_eq, ← hp]
  have hlo : -32768 ≤ rndDiv p (2 ^ 15) := by omega
  exact ⟨hlo, hm.2, hlo, hm.2⟩

end Sys2Proof.Machine
end

section
/-! PROOF. The whole `MMSE` command (43_mmse.md R280, R281, R290, R291): when its checks pass, what it reads, where each sample of `OUT`
and `MAG` stands afterwards, and what it leaves unchanged. -/

namespace Sys2Proof.Machine

/-! ## Checks (43_mmse.md R280) -/

theorem isModOrder_iff (qm : Nat) : isModOrder qm = true ↔ modOrder qm := by
  simp [isModOrder, or_assoc]

/-- The checks of `MMSE` pass exactly on the legal commands. -/
theorem mmseChecks_pass (p : Params) (c : Mmse) : firstError (mmseChecks p c) = none ↔ legal p (.mmse c) := by
  have hbufs : firstError (bufferChecks p (mmseY c ++ [mmseH c, mmseNv c, mmseOut c, mmseMag c])
      ((mmseY c).map (·, mmseOut c) ++ [(mmseH c, mmseOut c), (mmseNv c, mmseOut c)]
        ++ (mmseY c).map (·, mmseMag c) ++ [(mmseH c, mmseMag c), (mmseNv c, mmseMag c), (mmseOut c, mmseMag c)])) = none
      ↔ buffersLegal p (buffersOf (.mmse c)) (pairsOf (.mmse c)) := by
    rw [bufferChecks_pass]
    simp [buffersOf, inputsOf, outputsOf, pairsOf]
  rw [mmseChecks, firstError_append, Option.or_eq_none_iff, hbufs, firstError_eq_none, legal, fieldsLegal]
  refine and_congr_left' ?_
  have hmod : (c.magw && !isModOrder c.qm) = false ↔ (c.magw = true → modOrder c.qm) := by
    rw [← isModOrder_iff]
    cases c.magw <;> simp
  simp only [mmseLegal, List.forall_mem_cons, List.not_mem_nil, false_implies, implies_true, and_true, hmod,
    Bool.or_eq_false_iff, decide_eq_false_iff_not, not_lt, ne_eq, and_assoc]

/-- A legal `MMSE` has `OUT` and `MAG` apart. -/
theorem mmse_out_mag_disjoint (p : Params) (c : Mmse) (h : legal p (.mmse c)) : bufsDisjoint (mmseOut c, mmseMag c) := by
  obtain ⟨-, -, -, hpairs⟩ := h
  exact hpairs _ (by simp [pairsOf])

/-! ## Reads (43_mmse.md R281) -/

/-- With the inputs readable, the machine's results are those of each subcarrier's samples. -/
theorem mmseSubs_of_readable (c : Mmse) (m : Memory) (y : Nat → Nat → CInt) (h : Nat → Nat → Nat → CInt) (nv : Nat → Nat)
    (hy : ∀ rx < c.rx, ∀ k < c.nSc, holdsC16 m (c.yBase + 4 * rx * c.yStride) k (y k rx))
    (hh : ∀ l < c.layers, ∀ rx < c.rx, ∀ k < c.nSc, holdsC16 m c.hBase ((l * c.rx + rx) * c.nSc + k) (h k l rx))
    (hnv : ∀ rx < c.rx, ldU16 m c.nvBase rx = some (nv rx)) :
    mmseSubs c m = some ((List.range c.nSc).map (fun k =>
      mmseSub c (mmseS2 ((List.range c.rx).map nv)) ((List.range c.rx).map (y k))
        ((List.range c.layers).map (fun l => (List.range c.rx).map (h k l))))) := by
  have hnoise : mmseNoise c m = some ((List.range c.rx).map nv) := collectN_of_forall _ _ _ hnv
  simp only [mmseSubs, hnoise]
  refine collectN_of_forall _ _ _ fun k hk => ?_
  have hrx : mmseRx c m k = some ((List.range c.rx).map (y k)) := collectN_of_forall _ _ _ fun rx hr => hy rx hr k hk
  have hcols : mmseCols c m k = some ((List.range c.layers).map (fun l => (List.range c.rx).map (h k l))) :=
    collectN_of_forall _ _ _ fun l hl => collectN_of_forall _ _ _ fun rx hr => hh l hl rx hr k hk
  simp only [hrx, hcols]

/-! ## Where a sample stands (43_mmse.md R281, R290) -/

/-- Element `k` of row `i` in a list of rows of one length. -/
theorem getElem?_flatMap_rows {α β : Type} (f : α → List β) (n : Nat) (hf : ∀ x, (f x).length = n) (xs : List α) (i k : Nat)
    (x : α) (hx : xs[i]? = some x) (hk : k < n) : (xs.flatMap f)[i * n + k]? = (f x)[k]? := by
  rw [← drop_take_flatMap f n hf xs i x hx, List.getElem?_take_of_lt hk, List.getElem?_drop, Nat.mul_comm]

/-- Element `k` of row `l` lies among the elements of all rows. -/
theorem row_index_lt {l k rows n : Nat} (hl : l < rows) (hk : k < n) : l * n + k < rows * n := by
  calc l * n + k < l * n + n := by omega
    _ = (l + 1) * n := by ring
    _ ≤ rows * n := Nat.mul_le_mul_right _ hl

@[simp] theorem length_mmseOutSamples (c : Mmse) (subs : List SubResult) :
    (mmseOutSamples c subs).length = c.layers * subs.length := by
  rw [mmseOutSamples, length_flatMap_const _ subs.length (by simp), List.length_range, Nat.mul_comm]

/-- The samples of one magnitude buffer: layer by layer (43_mmse.md R290). -/
def magRows (c : Mmse) (subs : List SubResult) (b : Nat) : List CInt :=
  (List.range c.layers).flatMap (fun l => subs.map (fun r => magSample c.thr b (r.g.getD l 0)))

theorem length_magRows (c : Mmse) (subs : List SubResult) (b : Nat) : (magRows c subs b).length = c.layers * subs.length := by
  rw [magRows, length_flatMap_const _ subs.length (by simp), List.length_range, Nat.mul_comm]

theorem mmseMagSamples_eq (c : Mmse) (subs : List SubResult) :
    mmseMagSamples c subs = (List.range (mmseNmag c)).flatMap (magRows c subs) := rfl

@[simp] theorem length_mmseMagSamples (c : Mmse) (subs : List SubResult) :
    (mmseMagSamples c subs).length = mmseNmag c * c.layers * subs.length := by
  rw [mmseMagSamples_eq, length_flatMap_const _ _ (length_magRows c subs), List.length_range, Nat.mul_comm, Nat.mul_assoc]

/-- The sample of layer `l` and subcarrier `k` in `OUT`. -/
theorem getElem?_mmseOutSamples (c : Mmse) (sub : Nat → SubResult) (l k : Nat) (hl : l < c.layers) (hk : k < c.nSc) :
    (mmseOutSamples c ((List.range c.nSc).map sub))[l * c.nSc + k]? = some ((sub k).x.getD l ⟨0, 0⟩) := by
  rw [mmseOutSamples, getElem?_flatMap_rows _ c.nSc (by simp) _ l k l (List.getElem?_range hl) hk]
  simp [hk]

/-- The sample of layer `l` and subcarrier `k` in magnitude buffer `b`. -/
theorem getElem?_mmseMagSamples (c : Mmse) (sub : Nat → SubResult) (b l k : Nat) (hb : b < mmseNmag c) (hl : l < c.layers)
    (hk : k < c.nSc) :
    (mmseMagSamples c ((List.range c.nSc).map sub))[(b * c.layers + l) * c.nSc + k]?
      = some (magSample c.thr b ((sub k).g.getD l 0)) := by
  have hindex : (b * c.layers + l) * c.nSc + k = b * (c.layers * c.nSc) + (l * c.nSc + k) := by ring
  have hrow := row_index_lt hl hk
  rw [mmseMagSamples_eq, hindex, getElem?_flatMap_rows _ (c.layers * c.nSc) (by simp [length_magRows]) _ b _ b
    (List.getElem?_range hb) hrow, magRows, getElem?_flatMap_rows _ c.nSc (by simp) _ l k l (List.getElem?_range hl) hk]
  simp [hk]

/-! ## Memory afterwards -/

/-- A pair in the 16-bit range stored in a run of samples reads back. -/
theorem holdsC16_store (m : Memory) (a : Nat) (zs : List CInt) (i : Nat) (z : CInt) (h : zs[i]? = some z) (hz : FitsC16 z) :
    holdsC16 (m.store a (zs.flatMap bytesC16)) a i z := by
  rw [holdsC16, ldC16_store m a zs i z h, Option.map_some, ofC16_toC16 z hz]

/-- A sample that lies outside a store reads as before. -/
theorem holdsC16_store_outside (m : Memory) (a : Nat) (bs : List Byte) (b i : Nat) (z : CInt) (h : holdsC16 m b i z)
    (hout : bs.length = 0 ∨ b + 4 * i + 4 ≤ a ∨ a + bs.length ≤ b + 4 * i) : holdsC16 (m.store a bs) b i z := by
  rw [holdsC16, ldC16_congr _ m b i fun j hj => Memory.read_store_outside _ _ _ _ (by omega)]
  exact h

/-- The effect of `MMSE` with the given results (43_mmse.md R291). -/
def mmseStores (c : Mmse) (subs : List SubResult) : Effect where
  writes := [(c.outBase, (mmseOutSamples c subs).flatMap bytesC16), (c.magBase, (mmseMagSamples c subs).flatMap bytesC16)]
  warnings := (subs.filter (·.fallback)).length
  ldpcResult := none
  crcResult := none

theorem mmseEffect_eq (c : Mmse) (s : State) : mmseEffect c s = (mmseSubs c s.dmem).map (mmseStores c) := rfl

theorem dmem_apply_mmseStores (c : Mmse) (subs : List SubResult) (s : State) :
    (s.apply (mmseStores c subs)).complete.dmem
      = (s.dmem.store c.outBase ((mmseOutSamples c subs).flatMap bytesC16)).store c.magBase
          ((mmseMagSamples c subs).flatMap bytesC16) := by
  rw [State.complete_dmem, State.apply_eq]
  rfl

/-- One warning for each subcarrier that takes the fallback (43_mmse.md R288). -/
theorem mmseStores_warnings (c : Mmse) (n : Nat) (sub : Nat → SubResult) :
    (mmseStores c ((List.range n).map sub)).warnings = ((Finset.range n).filter (fun k => (sub k).fallback = true)).card := by
  have hfilter : (mmseStores c ((List.range n).map sub)).warnings
      = ((List.range n).filter (fun k => (sub k).fallback)).length := by
    simp only [mmseStores, List.filter_map, List.length_map, Function.comp_def]
  rw [hfilter, Finset.card_def, Finset.filter_val, Finset.range_val, Multiset.range, Multiset.filter_coe, Multiset.coe_card]
  simp

/-- A legal `MMSE` whose subcarriers have the given results completes with their samples stored. -/
theorem exec_mmse_of_subs (c : Mmse) (s : State) (subs : List SubResult) (hc : legal s.params (.mmse c))
    (hsubs : mmseSubs c s.dmem = some subs) : exec (.mmse c) s = .next (s.apply (mmseStores c subs)).complete :=
  runCommand_of_effect _ _ s _ ((mmseChecks_pass s.params c).2 hc) (by rw [mmseEffect_eq, hsubs, Option.map_some])

/-- Each layer's symbols stand in `OUT`, which the store of `MAG` does not touch. -/
theorem holdsC16_out_of_mmseStores (c : Mmse) (s : State) (sub : Nat → SubResult) (hc : legal s.params (.mmse c)) (l k : Nat)
    (hl : l < c.layers) (hk : k < c.nSc) (hfits : FitsC16 ((sub k).x.getD l ⟨0, 0⟩)) :
    holdsC16 (s.apply (mmseStores c ((List.range c.nSc).map sub))).complete.dmem c.outBase (l * c.nSc + k)
      ((sub k).x.getD l ⟨0, 0⟩) := by
  rw [dmem_apply_mmseStores]
  refine holdsC16_store_outside _ _ _ _ _ _ (holdsC16_store _ _ _ _ _ (getElem?_mmseOutSamples c sub l k hl hk) hfits) ?_
  have hdisjoint := mmse_out_mag_disjoint s.params c hc
  have hindex := row_index_lt hl hk
  simp only [bufsDisjoint, mmseOut, mmseMag, bufBytes, elemBytes] at hdisjoint
  simp only [length_flatMap_const _ 4 length_bytesC16, length_mmseMagSamples, List.length_map, List.length_range]
  omega

/-- The magnitudes stand in `MAG`. -/
theorem holdsC16_mag_of_mmseStores (c : Mmse) (s : State) (sub : Nat → SubResult) (b l k : Nat) (hb : b < mmseNmag c)
    (hl : l < c.layers) (hk : k < c.nSc) (hfits : FitsC16 (magSample c.thr b ((sub k).g.getD l 0))) :
    holdsC16 (s.apply (mmseStores c ((List.range c.nSc).map sub))).complete.dmem c.magBase ((b * c.layers + l) * c.nSc + k)
      (magSample c.thr b ((sub k).g.getD l 0)) := by
  rw [dmem_apply_mmseStores]
  exact holdsC16_store _ _ _ _ _ (getElem?_mmseMagSamples c sub b l k hb hl hk) hfits

/-- No byte outside `OUT` and `MAG` changes (20_memory.md R127). -/
theorem sameOutside_mmseStores (c : Mmse) (s : State) (sub : Nat → SubResult) :
    sameOutside [mmseOut c, mmseMag c] s (s.apply (mmseStores c ((List.range c.nSc).map sub))).complete := by
  intro a ha
  have hout := ha (mmseOut c) (by simp)
  have hmag := ha (mmseMag c) (by simp)
  simp only [mmseOut, mmseMag, bufBytes, elemBytes] at hout hmag
  rw [dmem_apply_mmseStores, Memory.read_store_outside, Memory.read_store_outside]
  · simpa [length_flatMap_const _ 4 length_bytesC16] using hout
  · simpa [length_flatMap_const _ 4 length_bytesC16] using hmag

/-- Settles O40: every subcarrier's result is `subOf` of the statement's matrix and vector, and its samples stand where R281 and R290
put them. -/
theorem mmseResult : Obligations.MmseResult := by
  intro c s y h nv hwf hlegal hy hh hnv s2 sub
  have hthr := mmse_thr_lt_of_wf c hwf
  have hsubs : mmseSubs c s.dmem = some ((List.range c.nSc).map sub) := by
    rw [mmseSubs_of_readable c s.dmem y h nv hy hh hnv]
    simp only [mmseSub_eq_subOf, mmseS2_map_range]
    rfl
  refine ⟨_, exec_mmse_of_subs c s _ hlegal hsubs, ?_, fun l hl k hk => ?_, fun hmagw b hb l hl k hk => ?_,
    sameOutside_mmseStores c s sub⟩
  · rw [← mmseStores_warnings c]
    exact completed_apply s _
  · exact holdsC16_out_of_mmseStores c s sub hlegal l k hl hk (subOf_x_fits c _ _ _ l hl)
  · have hnmag : b < mmseNmag c := by simpa [mmseNmag, hmagw] using hb
    rw [← magSample_eq]
    exact holdsC16_mag_of_mmseStores c s sub b l k hnmag hl hk (fitsC16_magSample _ _ _ hthr (subOf_g_range c _ _ _ l hl))

end Sys2Proof.Machine
end

section
/-! PROOF. What `LLR` does (44_llr.md R310 to R316): when its checks pass, the chain of ring distances of a symbol, where the parts of each
distance stand afterwards and what it leaves unchanged. -/

namespace Sys2Proof.Machine

/-! ## Checks (44_llr.md R310) -/

/-- The checks of `LLR` pass exactly on the legal commands. -/
theorem llrChecks_pass (p : Params) (c : Llr) : firstError (llrChecks p c) = none ↔ legal p (.llr c) := by
  have hbufs : firstError (bufferChecks p ([llrX c] ++ llrMags c ++ [llrOut c]) ((llrX c :: llrMags c).map (·, llrOut c))) = none
      ↔ buffersLegal p (buffersOf (.llr c)) (pairsOf (.llr c)) := bufferChecks_pass p _ _
  have hmod : (!(c.qm == 2 || c.qm == 4 || c.qm == 6 || c.qm == 8)) = false ↔ modOrder c.qm := by
    rw [Bool.not_eq_false']
    exact isModOrder_iff c.qm
  rw [llrChecks, firstError_append, Option.or_eq_none_iff, hbufs, firstError_eq_none, List.forall_mem_singleton, hmod, legal,
    fieldsLegal]

/-! ## The distances of a symbol (44_llr.md R312) -/

/-- The machine's ring distance is that of the statements, part by part. -/
theorem ringDistance_eq (mag x : CInt) : ringDistance mag x = ⟨specRing mag.re x.re, specRing mag.im x.im⟩ := by
  simp only [ringDistance, specRing, abs16, Int.natCast_natAbs]

/-- The magnitudes that `qm` uses, of the three of a symbol (44_llr.md R310). -/
def usedMags (qm : Nat) (a b d : CInt) : List CInt :=
  (if 4 ≤ qm then [a] else []) ++ (if 6 ≤ qm then [b] else []) ++ (if qm = 8 then [d] else [])

/-- The symbol `x`, then each further distance from the one before it and the next magnitude that `qm` uses. -/
def llrDistances (qm : Nat) (x a b d : CInt) : List CInt :=
  (usedMags qm a b d).scanl (fun z mag => ringDistance mag z) x

/-- The LLRs of a symbol are the parts of its distances, the real part first. -/
theorem llrSymbol_eq_flatMap_scanl (x : CInt) (mags : List CInt) :
    llrSymbol x mags = (mags.scanl (fun z mag => ringDistance mag z) x).flatMap (fun z => [z.re, z.im]) := by
  induction mags generalizing x with
  | nil => rfl
  | cons mag mags ih => simp [llrSymbol, ih]

/-- A modulation order is even. -/
theorem two_mul_half_of_modOrder (qm : Nat) (h : modOrder qm) : 2 * (qm / 2) = qm := by
  rcases h with rfl | rfl | rfl | rfl <;> rfl

/-- A symbol has one distance for each two of its `qm` LLRs. -/
theorem length_llrDistances (qm : Nat) (x a b d : CInt) (h : modOrder qm) : (llrDistances qm x a b d).length = qm / 2 := by
  rw [llrDistances, List.length_scanl]
  rcases h with rfl | rfl | rfl | rfl <;> rfl

/-- Every distance of a symbol that fits a `C16` fits one, by the saturation. -/
theorem fitsC16_of_mem_scanl (x : CInt) (mags : List CInt) (hx : FitsC16 x) :
    ∀ z ∈ mags.scanl (fun z mag => ringDistance mag z) x, FitsC16 z := by
  induction mags generalizing x with
  | nil => simpa using hx
  | cons mag mags ih =>
    rw [List.scanl_cons, List.forall_mem_cons]
    exact ⟨hx, ih _ (fitsC16_sat16 _ _)⟩

theorem getElem?_llrDistances_zero (qm : Nat) (x a b d : CInt) : (llrDistances qm x a b d)[0]? = some x := by
  simp [llrDistances]

theorem getElem?_llrDistances_one (qm : Nat) (x a b d : CInt) (h : 4 ≤ qm) :
    (llrDistances qm x a b d)[1]? = some (ringDistance a x) := by
  simp [llrDistances, usedMags, h]

theorem getElem?_llrDistances_two (qm : Nat) (x a b d : CInt) (h : 6 ≤ qm) :
    (llrDistances qm x a b d)[2]? = some (ringDistance b (ringDistance a x)) := by
  have h4 : 4 ≤ qm := by omega
  simp [llrDistances, usedMags, h, h4]

theorem getElem?_llrDistances_three (qm : Nat) (x a b d : CInt) (h : qm = 8) :
    (llrDistances qm x a b d)[3]? = some (ringDistance d (ringDistance b (ringDistance a x))) := by
  simp [llrDistances, usedMags, h]

/-! ## Reads (44_llr.md R312) -/

/-- A sample read from memory fits a `C16`. -/
theorem fitsC16_of_holdsC16 (m : Memory) (b i : Nat) (z : CInt) (h : holdsC16 m b i z) : FitsC16 z := by
  obtain ⟨w, -, rfl⟩ := Option.map_eq_some_iff.1 h
  exact ⟨w.re.le_toInt, Int.le_of_lt_add_one w.re.toInt_lt, w.im.le_toInt, Int.le_of_lt_add_one w.im.toInt_lt⟩

/-- The two parts of a sample are two consecutive int16s (20_memory.md R129). -/
theorem ldI16_of_holdsC16 (m : Memory) (b j : Nat) (z : CInt) (h : holdsC16 m b j z) :
    ldI16 m b (2 * j) = some z.re ∧ ldI16 m b (2 * j + 1) = some z.im := by
  obtain ⟨w, hw, rfl⟩ := Option.map_eq_some_iff.1 h
  have hre : b + 2 * (2 * j) = b + 4 * j := by omega
  have him : b + 2 * (2 * j + 1) = b + 4 * j + 2 := by omega
  rw [ldI16, ldI16, hre, him]
  rw [ldC16] at hw
  split at hw
  · next hloadRe hloadIm =>
    obtain rfl := Option.some.inj hw
    simp [hloadRe, hloadIm, ofC16]
  · exact absurd hw (Option.some_ne_none w).symm

/-- Reading a buffer that is listed only under a condition needs it readable only under that condition. -/
theorem map_ite_singleton {α β : Type} (P : Prop) [Decidable P] (f : α → Option β) (x : α) (y : β) (h : P → f x = some y) :
    (if P then [x] else []).map f = (if P then [y] else []).map some := by
  split
  · next hP => simp [h hP]
  · rfl

section
variable (c : Llr) (x a b d : Nat → CInt)

/-- The distances of all symbols, symbol by symbol. -/
def llrSamples : List CInt :=
  (List.range c.n).flatMap (fun i => llrDistances c.qm (x i) (a i) (b i) (d i))

/-- The one store of `LLR`: the parts of all distances, at `llr_base` (44_llr.md R312). -/
def llrStores : Effect := storesOnly [(c.llrBase, (llrSamples c x a b d).flatMap bytesC16)]

/-- With the used magnitude buffers readable, the machine's magnitudes of a symbol are those that `qm` uses. -/
theorem llrSymbolMags_of_readable (m : Memory) (i : Nat) (ha : 4 ≤ c.qm → holdsC16 m c.magA i (a i))
    (hb : 6 ≤ c.qm → holdsC16 m c.magB i (b i)) (hd : c.qm = 8 → holdsC16 m c.magC i (d i)) :
    llrSymbolMags c m i = some (usedMags c.qm (a i) (b i) (d i)) := by
  rw [llrSymbolMags, collect_eq_some, llrMags, usedMags]
  simp only [List.map_append]
  exact congrArg₂ _ (congrArg₂ _ (map_ite_singleton _ _ _ _ ha) (map_ite_singleton _ _ _ _ hb)) (map_ite_singleton _ _ _ _ hd)

/-- The bytes of all LLRs are those of all distances. -/
theorem llrSymbol_bytes_eq :
    ((List.range c.n).map (fun i => llrSymbol (x i) (usedMags c.qm (a i) (b i) (d i)))).flatten.flatMap bytes16
      = (llrSamples c x a b d).flatMap bytesC16 := by
  have hsample (z : CInt) : [z.re, z.im].flatMap bytes16 = bytesC16 z := by simp [bytesC16]
  simp only [llrSamples, llrDistances, llrSymbol_eq_flatMap_scanl, ← List.flatMap_def, List.flatMap_assoc, hsample]

/-- With the inputs readable, the effect of `LLR` is the store of all distances. -/
theorem llrEffect_of_readable (s : State) (hx : ∀ i < c.n, holdsC16 s.dmem c.xBase i (x i))
    (ha : 4 ≤ c.qm → ∀ i < c.n, holdsC16 s.dmem c.magA i (a i))
    (hb : 6 ≤ c.qm → ∀ i < c.n, holdsC16 s.dmem c.magB i (b i))
    (hd : c.qm = 8 → ∀ i < c.n, holdsC16 s.dmem c.magC i (d i)) :
    llrEffect c s = some (llrStores c x a b d) := by
  rw [llrEffect, collectN_of_forall c.n _ (fun i => llrSymbol (x i) (usedMags c.qm (a i) (b i) (d i))), Option.map_some,
    llrSymbol_bytes_eq, llrStores]
  intro i hi
  obtain ⟨z, hz, hzx⟩ := Option.map_eq_some_iff.1 (hx i hi)
  have hmags := llrSymbolMags_of_readable c a b d s.dmem i (fun h => ha h i hi) (fun h => hb h i hi) (fun h => hd h i hi)
  simp only [hz, hmags, hzx]

/-! ## Memory afterwards -/

theorem dmem_apply_llrStores (s : State) :
    (s.apply (llrStores c x a b d)).complete.dmem = s.dmem.store c.llrBase ((llrSamples c x a b d).flatMap bytesC16) := by
  rw [State.complete_dmem, State.apply_eq]
  rfl

/-- Distance `k` of symbol `i` among all distances. -/
theorem getElem?_llrSamples (i k : Nat) (z : CInt) (hc : modOrder c.qm) (hi : i < c.n)
    (hz : (llrDistances c.qm (x i) (a i) (b i) (d i))[k]? = some z) : (llrSamples c x a b d)[i * (c.qm / 2) + k]? = some z := by
  obtain ⟨hk, -⟩ := List.getElem?_eq_some_iff.1 hz
  rw [length_llrDistances _ _ _ _ _ hc] at hk
  rw [llrSamples, getElem?_flatMap_rows _ _ (fun _ => length_llrDistances _ _ _ _ _ hc) _ i k i (List.getElem?_range hi) hk, hz]

/-- The parts of distance `k` of symbol `i` stand at `qm * i + 2 * k` and after it (44_llr.md R312). -/
theorem ldI16_llrStores (s : State) (i k : Nat) (z : CInt) (hc : modOrder c.qm) (hi : i < c.n) (hx : FitsC16 (x i))
    (hz : (llrDistances c.qm (x i) (a i) (b i) (d i))[k]? = some z) :
    ldI16 (s.apply (llrStores c x a b d)).complete.dmem c.llrBase (c.qm * i + 2 * k) = some z.re
      ∧ ldI16 (s.apply (llrStores c x a b d)).complete.dmem c.llrBase (c.qm * i + 2 * k + 1) = some z.im := by
  have hindex : c.qm * i + 2 * k = 2 * (i * (c.qm / 2) + k) := by
    rw [Nat.mul_add, Nat.mul_left_comm, two_mul_half_of_modOrder _ hc, Nat.mul_comm]
  have hfits : FitsC16 z := fitsC16_of_mem_scanl _ _ hx z (List.mem_of_getElem? hz)
  rw [hindex, dmem_apply_llrStores]
  exact ldI16_of_holdsC16 _ _ _ _ (holdsC16_store _ _ _ _ _ (getElem?_llrSamples c x a b d i k z hc hi hz) hfits)

/-- `LLR` stores two bytes for each of the `qm` LLRs of the `n` symbols. -/
theorem length_llrSamples_bytes (hc : modOrder c.qm) :
    ((llrSamples c x a b d).flatMap bytesC16).length = bufBytes (llrOut c) := by
  have hsamples : (llrSamples c x a b d).length = c.qm / 2 * c.n := by
    rw [llrSamples, length_flatMap_const _ _ (fun _ => length_llrDistances _ _ _ _ _ hc), List.length_range]
  calc ((llrSamples c x a b d).flatMap bytesC16).length = 4 * (c.qm / 2 * c.n) := by
        rw [length_flatMap_const _ 4 length_bytesC16, hsamples]
    _ = 2 * (2 * (c.qm / 2) * c.n) := by ring
    _ = 2 * (c.qm * c.n) := by rw [two_mul_half_of_modOrder _ hc]

/-- No byte outside the output buffer changes (20_memory.md R127). -/
theorem sameOutside_llrStores (s : State) (hc : modOrder c.qm) :
    sameOutside [llrOut c] s (s.apply (llrStores c x a b d)).complete := by
  intro adr hadr
  rw [dmem_apply_llrStores]
  apply Memory.read_store_outside
  rw [length_llrSamples_bytes c x a b d hc]
  exact hadr _ (List.mem_singleton.2 rfl)

end

/-- Settles O41: the effect is the one store of the ring distances, whose parts stand where R312 puts the LLRs. -/
theorem llrResult : Obligations.LlrResult := by
  intro c s x a b d hlegal hx ha hb hd t' u v
  have hqm : modOrder c.qm := hlegal.1
  have ht (i : Nat) : ringDistance (a i) (x i) = t' i := ringDistance_eq _ _
  have hu (i : Nat) : ringDistance (b i) (t' i) = u i := ringDistance_eq _ _
  have hv (i : Nat) : ringDistance (d i) (u i) = v i := ringDistance_eq _ _
  refine ⟨_, runCommand_of_effect _ _ s _ ((llrChecks_pass s.params c).2 hlegal) (llrEffect_of_readable c x a b d s hx ha hb hd),
    completed_apply s _, fun i hi => ?_, sameOutside_llrStores c x a b d s hqm⟩
  have hpart (k : Nat) (z : CInt) := ldI16_llrStores c x a b d s i k z hqm hi (fitsC16_of_holdsC16 _ _ _ _ (hx i hi))
  obtain ⟨hre, him⟩ := hpart 0 (x i) (getElem?_llrDistances_zero _ _ _ _ _)
  refine ⟨hre, him, fun h => hpart 1 (t' i) ?_, fun h => hpart 2 (u i) ?_, fun h => hpart 3 (v i) ?_⟩
  · rw [getElem?_llrDistances_one _ _ _ _ _ h, ht]
  · rw [getElem?_llrDistances_two _ _ _ _ _ h, ht, hu]
  · rw [getElem?_llrDistances_three _ _ _ _ _ h, ht, hu, hv]

end Sys2Proof.Machine
end

section
/-! PROOF. What `LAYER_DEMAP` does (45_layer_demap.md R330 to R334): when its checks pass, the codeword it collects from the layers, where
each LLR of it stands in the active codeword's buffer, and what it leaves unchanged. -/

namespace Sys2Proof.Machine

/-! ## Checks and the active codeword (45_layer_demap.md R330) -/

/-- The two activity bits differ exactly when one codeword flag is -1 and the other is not. -/
theorem cwActive_differ_iff (f g : Int) :
    (cwActive f == cwActive g) = false ↔ (f ≠ -1 ∧ g = -1) ∨ (f = -1 ∧ g ≠ -1) := by
  rw [beq_eq_false_iff_ne, cwActive, cwActive, Ne, decide_eq_decide]
  tauto

/-- The checks of `LAYER_DEMAP` pass exactly on the legal commands. -/
theorem demapChecks_pass (p : Params) (c : LayerDemap) : firstError (demapChecks p c) = none ↔ legal p (.layerDemap c) := by
  have hbufs : firstError (bufferChecks p (demapLayers c ++ [demapOut c]) ((demapLayers c).map (·, demapOut c))) = none
      ↔ buffersLegal p (buffersOf (.layerDemap c)) (pairsOf (.layerDemap c)) := bufferChecks_pass p _ _
  have hmod : (!(c.qm == 2 || c.qm == 4 || c.qm == 6 || c.qm == 8)) = false ↔ modOrder c.qm := by
    rw [Bool.not_eq_false']
    exact isModOrder_iff c.qm
  rw [demapChecks, firstError_append, Option.or_eq_none_iff, hbufs, firstError_eq_none, legal, fieldsLegal]
  refine and_congr_left' ?_
  simp only [demapLegal, List.forall_mem_cons, List.not_mem_nil, false_implies, implies_true, and_true, hmod,
    cwActive_differ_iff, Bool.or_eq_false_iff, decide_eq_false_iff_not, not_lt, not_not, ne_eq, and_assoc]

/-- The output buffer as the statements write it: codeword 1 where the flag of codeword 0 is -1. -/
theorem demapOut_eq (c : LayerDemap) :
    demapOut c = ⟨if c.cw0Flag = -1 then 4 else 3, if c.cw0Flag = -1 then c.dst1 else c.dst0, .i16, c.totalLen⟩ := by
  by_cases h : c.cw0Flag = -1 <;> simp [demapOut, cwActive, h]

/-- A legal codeword is `reps` symbols of `qm` LLRs from each of the `nl` layers. -/
theorem demapReps_mul (c : LayerDemap) (h : demapLegal c) : c.nl * c.qm * demapReps c = c.totalLen := by
  obtain ⟨-, -, -, -, hdvd⟩ := h
  exact Nat.mul_div_cancel' (Nat.dvd_of_mod_eq_zero hdvd)

/-! ## Reads (20_memory.md R129) -/

/-- An int16 read from memory is in the 16-bit range. -/
theorem ldI16_range (m : Memory) (b i : Nat) (v : Int) (h : ldI16 m b i = some v) : -32768 ≤ v ∧ v ≤ 32767 := by
  obtain ⟨w, -, rfl⟩ := Option.map_eq_some_iff.1 h
  exact ⟨w.le_toInt, Int.le_of_lt_add_one w.toInt_lt⟩

section
variable (c : LayerDemap) (lay : Nat → Nat → Int)

/-! ## The codeword (45_layer_demap.md R332) -/

/-- The LLRs that repetition `r` takes: symbol `r` of each layer in turn. -/
def demapRow (r : Nat) : List Int :=
  (List.range c.nl).flatMap (fun l => (List.range c.qm).map (fun b => lay l (r * c.qm + b)))

/-- The codeword: the LLRs of all repetitions in order. -/
def demapLlrs : List Int := (List.range (demapReps c)).flatMap (demapRow c lay)

theorem length_demapRow (r : Nat) : (demapRow c lay r).length = c.nl * c.qm := by
  rw [demapRow, length_flatMap_const _ c.qm (by simp), List.length_range, Nat.mul_comm]

theorem length_demapLlrs (hc : demapLegal c) : (demapLlrs c lay).length = c.totalLen := by
  rw [demapLlrs, length_flatMap_const _ _ (length_demapRow c lay), List.length_range, demapReps_mul c hc]

/-- LLR `b` of symbol `r` of layer `l` in the codeword. -/
theorem getElem?_demapLlrs (r l b : Nat) (hr : r < demapReps c) (hl : l < c.nl) (hb : b < c.qm) :
    (demapLlrs c lay)[(r * c.nl + l) * c.qm + b]? = some (lay l (r * c.qm + b)) := by
  have hindex : (r * c.nl + l) * c.qm + b = r * (c.nl * c.qm) + (l * c.qm + b) := by ring
  have hrow : l * c.qm + b < c.nl * c.qm := row_index_lt hl hb
  rw [demapLlrs, hindex, getElem?_flatMap_rows _ _ (length_demapRow c lay) _ r _ r (List.getElem?_range hr) hrow, demapRow,
    getElem?_flatMap_rows _ c.qm (by simp) _ l b l (List.getElem?_range hl) hb]
  simp [hb]

/-- With the layers readable, the machine collects the codeword of their LLRs. -/
theorem demapCodeword_of_readable (m : Memory)
    (h : ∀ l < c.nl, ∀ e < demapReps c * c.qm, ldI16 m (demapLayer c l) e = some (lay l e)) :
    demapCodeword c m = some (demapLlrs c lay) := by
  have hsymbol : ∀ r < demapReps c, ∀ l < c.nl, collectN c.qm (fun b => ldI16 m (demapLayer c l) (r * c.qm + b))
      = some ((List.range c.qm).map (fun b => lay l (r * c.qm + b))) :=
    fun r hr l hl => collectN_of_forall _ _ _ fun b hb => h l hl _ (row_index_lt hr hb)
  have hrow : ∀ r < demapReps c,
      (collectN c.nl (fun l => collectN c.qm (fun b => ldI16 m (demapLayer c l) (r * c.qm + b)))).map List.flatten
        = some (demapRow c lay r) := fun r hr => by
    rw [collectN_of_forall _ _ _ (hsymbol r hr), Option.map_some, ← List.flatMap_def, demapRow]
  rw [demapCodeword, collectN_of_forall _ _ _ hrow, Option.map_some, ← List.flatMap_def, demapLlrs]

/-! ## Memory afterwards (45_layer_demap.md R334) -/

/-- The one store of `LAYER_DEMAP`: the codeword, at the base of the active codeword's buffer. -/
def demapStores : Effect := storesOnly [((demapOut c).base, (demapLlrs c lay).flatMap bytes16)]

/-- A legal `LAYER_DEMAP` whose layers are readable completes with its codeword stored. -/
theorem exec_layerDemap_of_readable (s : State) (hc : legal s.params (.layerDemap c))
    (h : ∀ l < c.nl, ∀ e < demapReps c * c.qm, ldI16 s.dmem (demapLayer c l) e = some (lay l e)) :
    exec (.layerDemap c) s = .next (s.apply (demapStores c lay)).complete :=
  runCommand_of_effect _ _ s _ ((demapChecks_pass s.params c).2 hc)
    (by rw [demapEffect, demapCodeword_of_readable c lay s.dmem h, Option.map_some, demapStores])

theorem dmem_apply_demapStores (s : State) :
    (s.apply (demapStores c lay)).complete.dmem = s.dmem.store (demapOut c).base ((demapLlrs c lay).flatMap bytes16) := by
  rw [State.complete_dmem, State.apply_eq]
  rfl

/-- LLR `b` of symbol `r` of layer `l` reads back from the codeword's buffer, if it is in the 16-bit range. -/
theorem ldI16_demapStores (s : State) (r l b : Nat) (hr : r < demapReps c) (hl : l < c.nl) (hb : b < c.qm)
    (hrange : -32768 ≤ lay l (r * c.qm + b) ∧ lay l (r * c.qm + b) ≤ 32767) :
    ldI16 (s.apply (demapStores c lay)).complete.dmem (demapOut c).base ((r * c.nl + l) * c.qm + b)
      = some (lay l (r * c.qm + b)) := by
  rw [dmem_apply_demapStores]
  exact ldI16_store _ _ _ _ _ (getElem?_demapLlrs c lay r l b hr hl hb) hrange.1 hrange.2

/-- No byte outside the output buffer changes (20_memory.md R127). -/
theorem sameOutside_demapStores (s : State) (hc : demapLegal c) :
    sameOutside [demapOut c] s (s.apply (demapStores c lay)).complete := by
  have hbytes : ((demapLlrs c lay).flatMap bytes16).length = bufBytes (demapOut c) := by
    rw [length_flatMap_const _ 2 length_bytes16, length_demapLlrs c lay hc, demapOut_eq]
    rfl
  intro a ha
  rw [dmem_apply_demapStores]
  apply Memory.read_store_outside
  rw [hbytes]
  exact ha _ (List.mem_singleton.2 rfl)

end

/-- Settles O42: the effect is the one store of the layers' LLRs, repetition by repetition, into the active codeword's buffer. -/
theorem layerDemapResult : Obligations.LayerDemapResult := by
  intro c s lay hlegal reps dst hread
  have hout : demapOut c = ⟨if c.cw0Flag = -1 then 4 else 3, dst, .i16, c.totalLen⟩ := demapOut_eq c
  have hbase : (demapOut c).base = dst := congrArg Buf.base hout
  refine ⟨_, exec_layerDemap_of_readable c lay s hlegal hread, completed_apply s _, fun r hr l hl b hb => ?_, ?_⟩
  · rw [← hbase]
    exact ldI16_demapStores c lay s r l b hr hl hb (ldI16_range _ _ _ _ (hread l hl _ (row_index_lt hr hb)))
  · rw [← hout]
    exact sameOutside_demapStores c lay s hlegal.1

end Sys2Proof.Machine
end

section
/-! PROOF. What `DESCRAMBLE` does (46_descramble.md R345 to R349): that the shift registers hold the sequences of R347, the list of LLRs it
stores, and what it leaves unchanged. -/

namespace Sys2Proof.Machine

/-! ## The two sequences (46_descramble.md R347) -/

theorem x1Seq_add (n : Nat) : x1Seq (n + 31) = (x1Seq (n + 3) ^^ x1Seq n) := by rw [x1Seq]

theorem x2Seq_add (seed n : Nat) :
    x2Seq seed (n + 31) = (x2Seq seed (n + 3) ^^ x2Seq seed (n + 2) ^^ x2Seq seed (n + 1) ^^ x2Seq seed n) := by rw [x2Seq]

/-- The first 31 elements of `x1` are the bits of 1. -/
theorem x1Seq_of_lt (n : Nat) (h : n < 31) : x1Seq n = (1 : BitVec 31).getLsbD n := by
  interval_cases n <;> rfl

/-- The first 31 elements of `x2` are the bits of the seed. -/
theorem x2Seq_of_lt (seed n : Nat) (h : n < 31) : x2Seq seed n = seed.testBit n := by
  rw [x2Seq]
  omega

/-! ## The shift registers -/

/-- A register holds the 31 elements of the sequence `x` from element `n` on, bit `i` being element `n + i`. -/
def IsWindow (x : Nat → Bool) (n : Nat) (r : BitVec 31) : Prop := ∀ j < 31, r.getLsbD j = x (n + j)

/-- The lowest bit of a window is its first element. -/
theorem IsWindow.getLsbD_zero {x : Nat → Bool} {n : Nat} {r : BitVec 31} (h : IsWindow x n r) : r.getLsbD 0 = x n :=
  h 0 (by omega)

/-- A register shifted down by one, with a bit put in at the top. -/
theorem getLsbD_shift_in (r : BitVec 31) (b : Bool) (j : Nat) (hj : j < 31) :
    (r >>> 1 ||| (BitVec.ofBool b).setWidth 31 <<< 30).getLsbD j = if j = 30 then b else r.getLsbD (j + 1) := by
  by_cases htop : j = 30
  · subst htop
    simp
  · have hlow : j < 30 := by omega
    simp [htop, hlow, Nat.add_comm 1 j]

/-- A window moves on by one element when that element is put in at the top. -/
theorem IsWindow.shift_in {x : Nat → Bool} {n : Nat} {r : BitVec 31} (h : IsWindow x n r) (b : Bool) (hb : b = x (n + 31)) :
    IsWindow x (n + 1) (r >>> 1 ||| (BitVec.ofBool b).setWidth 31 <<< 30) := by
  intro j hj
  rw [getLsbD_shift_in r b j hj]
  split
  case isTrue htop => rw [hb, htop]
  case isFalse hlow => rw [h (j + 1) (by omega), Nat.add_right_comm, Nat.add_assoc]

theorem IsWindow.x1Step {n : Nat} {r : BitVec 31} (h : IsWindow x1Seq n r) : IsWindow x1Seq (n + 1) (x1Step r) :=
  h.shift_in _ (by rw [x1Seq_add, h 3 (by omega), h.getLsbD_zero])

theorem IsWindow.x2Step {seed n : Nat} {r : BitVec 31} (h : IsWindow (x2Seq seed) n r) :
    IsWindow (x2Seq seed) (n + 1) (x2Step r) :=
  h.shift_in _ (by rw [x2Seq_add, h 3 (by omega), h 2 (by omega), h 1 (by omega), h.getLsbD_zero])

/-- If one step moves a window on by one element, `k` steps move it on by `k`. -/
theorem IsWindow.stepN {x : Nat → Bool} {f : BitVec 31 → BitVec 31} (hf : ∀ n r, IsWindow x n r → IsWindow x (n + 1) (f r))
    (k n : Nat) (r : BitVec 31) (h : IsWindow x n r) : IsWindow x (n + k) (stepN f k r) := by
  induction k generalizing n r with
  | zero => exact h
  | succ k ih =>
    rw [← Nat.add_assoc, Nat.add_right_comm]
    exact ih (n + 1) (f r) (hf n r h)

/-- The `x1` register starts with the first window of its sequence. -/
theorem isWindow_x1Seq_zero : IsWindow x1Seq 0 1 := by
  intro j hj
  rw [Nat.zero_add, x1Seq_of_lt j hj]

/-- The `x2` register starts with the first window of its sequence: a seed of more than 31 bits is cut in both. -/
theorem isWindow_x2Seq_zero (seed : Nat) : IsWindow (x2Seq seed) 0 (BitVec.ofNat 31 seed) := by
  intro j hj
  rw [Nat.zero_add, x2Seq_of_lt seed j hj, BitVec.getLsbD_ofNat, decide_eq_true hj, Bool.true_and]

/-- From the windows at element `n`, the generated bits are the sums of the two sequences from `n` on. -/
theorem goldFrom_of_isWindow (seed k n : Nat) (r1 r2 : BitVec 31) (h1 : IsWindow x1Seq n r1) (h2 : IsWindow (x2Seq seed) n r2) :
    goldFrom k r1 r2 = (List.range k).map (fun i => x1Seq (n + i) ^^ x2Seq seed (n + i)) := by
  induction k generalizing n r1 r2 with
  | zero => rfl
  | succ k ih =>
    rw [goldFrom, ih (n + 1) _ _ h1.x1Step h2.x2Step, h1.getLsbD_zero, h2.getLsbD_zero, List.range_succ_eq_map]
    simp [Function.comp_def, Nat.add_right_comm, Nat.add_assoc]

/-- The generated bits are the Gold sequence of the seed (46_descramble.md R347). -/
theorem goldBits_eq (seed n : Nat) : goldBits seed n = (List.range n).map (goldSeq seed) := by
  have h1 := isWindow_x1Seq_zero.stepN (fun _ _ => IsWindow.x1Step) goldNc
  have h2 := (isWindow_x2Seq_zero seed).stepN (fun _ _ => IsWindow.x2Step) goldNc
  rw [goldBits, goldFrom_of_isWindow seed n _ _ _ h1 h2]
  simp [goldSeq, goldNc, Nat.add_comm]

/-! ## The checks (46_descramble.md R345) -/

/-- The checks of `DESCRAMBLE` pass exactly on the legal commands. -/
theorem descrambleChecks_pass (p : Params) (c : Descramble) :
    firstError (descrambleChecks p c) = none ↔ legal p (.descramble c) := by
  have hbufs : firstError (bufferChecks p [descrambleBuf c] []) = none
      ↔ buffersLegal p (buffersOf (.descramble c)) (pairsOf (.descramble c)) := bufferChecks_pass p _ _
  rw [descrambleChecks, firstError_append, Option.or_eq_none_iff, hbufs, firstError_eq_none, legal, fieldsLegal]
  refine and_congr_left' ?_
  simp only [List.forall_mem_cons, List.not_mem_nil, false_implies, implies_true, and_true, decide_eq_false_iff_not, not_lt]

/-! ## The LLRs stored (46_descramble.md R346) -/

/-- A descrambled int16 is an int16: the negation saturates. -/
theorem descrambleElem_range (b : Bool) (v : Int) (hv : -32768 ≤ v ∧ v ≤ 32767) :
    -32768 ≤ descrambleElem b v ∧ descrambleElem b v ≤ 32767 := by
  cases b with
  | false => exact hv
  | true => exact sat16_range (-v)

section
variable (c : Descramble) (v : Nat → Int)

/-- The elements `v` negated with saturation where the sequence of the command's seed has a 1. -/
def descrambledLlrs : List Int := (List.range c.length).map (fun i => descrambleElem (goldSeq (cInit c) i) (v i))

/-- The one store of `DESCRAMBLE`: the descrambled elements, in place. -/
def descrambleStores : Effect := storesOnly [(c.llrBase, (descrambledLlrs c v).flatMap bytes16)]

/-- With the buffer readable, the effect of `DESCRAMBLE` is the store of the descrambled elements. -/
theorem descrambleEffect_of_readable (s : State) (h : ∀ i < c.length, ldI16 s.dmem c.llrBase i = some (v i)) :
    descrambleEffect c s = some (descrambleStores c v) := by
  rw [descrambleEffect, collectN_of_forall _ _ v h, Option.map_some, goldBits_eq, List.zipWith_map, List.zipWith_self,
    descrambleStores, descrambledLlrs]

/-- A legal `DESCRAMBLE` with a readable buffer completes with the descrambled elements stored. -/
theorem exec_descramble_of_readable (s : State) (hc : legal s.params (.descramble c))
    (h : ∀ i < c.length, ldI16 s.dmem c.llrBase i = some (v i)) :
    exec (.descramble c) s = .next (s.apply (descrambleStores c v)).complete :=
  runCommand_of_effect _ _ s _ ((descrambleChecks_pass s.params c).2 hc) (descrambleEffect_of_readable c v s h)

/-! ## Memory afterwards -/

theorem dmem_apply_descrambleStores (s : State) :
    (s.apply (descrambleStores c v)).complete.dmem = s.dmem.store c.llrBase ((descrambledLlrs c v).flatMap bytes16) := by
  rw [State.complete_dmem, State.apply_eq]
  rfl

/-- Element `i` reads back descrambled, if it was an int16 before. -/
theorem ldI16_descrambleStores (s : State) (i : Nat) (hi : i < c.length) (hrange : -32768 ≤ v i ∧ v i ≤ 32767) :
    ldI16 (s.apply (descrambleStores c v)).complete.dmem c.llrBase i
      = some (descrambleElem (goldSeq (cInit c) i) (v i)) := by
  obtain ⟨hlo, hhi⟩ := descrambleElem_range (goldSeq (cInit c) i) (v i) hrange
  rw [dmem_apply_descrambleStores]
  exact ldI16_store _ _ _ _ _ (by simp [descrambledLlrs, hi]) hlo hhi

/-- No byte outside the in-place buffer changes (20_memory.md R127). -/
theorem sameOutside_descrambleStores (s : State) :
    sameOutside [descrambleBuf c] s (s.apply (descrambleStores c v)).complete := by
  have hbytes : ((descrambledLlrs c v).flatMap bytes16).length = bufBytes (descrambleBuf c) := by
    rw [length_flatMap_const _ 2 length_bytes16, descrambledLlrs, List.length_map, List.length_range]
    rfl
  intro a ha
  rw [dmem_apply_descrambleStores]
  apply Memory.read_store_outside
  rw [hbytes]
  exact ha _ (List.mem_singleton.2 rfl)

end

/-- Settles O43: the registers hold the windows of `x1` and `x2`, so the effect is the one in-place store of the elements descrambled with
the Gold sequence of R347. -/
theorem descrambleResult : Obligations.DescrambleResult := by
  intro c s v hlegal hread seed
  have hseed : cInit c = seed := rfl
  refine ⟨_, exec_descramble_of_readable c v s hlegal hread, completed_apply s _, fun i hi => ?_,
    sameOutside_descrambleStores c v s⟩
  rw [ldI16_descrambleStores c v s i hi (ldI16_range _ _ _ _ (hread i hi)), hseed, descrambleElem]

end Sys2Proof.Machine
end

section
/-! PROOF. What `CRC24A` does (48_crc.md R390 to R395): that the machine's CRC of a bit list is the register of R391 and its verify the
comparison of R394, the result word it stores, and what it leaves unchanged. -/

namespace Sys2Proof.Machine

/-! ## The CRC of a bit sequence (48_crc.md R391, R394) -/

/-- The CRC of the first `n` bits, folded over the list, is the register after `n` steps. -/
theorem crc24_map_range (init : BitVec 24) (b : Nat → Bool) (n : Nat) : crc24 init ((List.range n).map b) = crcReg init b n := by
  induction n with
  | zero => rfl
  | succ n ih =>
    have hlast : crc24 init ((List.range (n + 1)).map b) = crcStep (crc24 init ((List.range n).map b)) (b n) := by
      simp [crc24, List.range_succ]
    rw [hlast, ih]
    rfl

/-- Of `n` bits read most significant first, bit `t` weighs `2^(n - 1 - t)`. -/
theorem msbNat_map_range (f : Nat → Bool) (n : Nat) :
    msbNat ((List.range n).map f) = ∑ t ∈ Finset.range n, (if f t then 2 ^ (n - 1 - t) else 0) := by
  induction n with
  | zero => rfl
  | succ n ih =>
    have hlast : msbNat ((List.range (n + 1)).map f) = 2 * msbNat ((List.range n).map f) + bitVal (f n) := by
      simp [msbNat, List.range_succ]
    have hdouble : ∀ t ∈ Finset.range n,
        2 * (if f t then 2 ^ (n - 1 - t) else 0) = if f t then 2 ^ (n + 1 - 1 - t) else 0 := by
      intro t ht
      have hexp : n + 1 - 1 - t = n - 1 - t + 1 := by
        have := Finset.mem_range.1 ht
        omega
      rw [hexp, mul_ite, mul_zero, pow_succ']
    rw [hlast, ih, Finset.mul_sum, Finset.sum_congr rfl hdouble, Finset.sum_range_succ]
    simp [bitVal]

/-- The last 24 of at least 24 bits, as a number, are the reference's trailing value. -/
theorem msbNat_drop_eq_trailing (b : Nat → Bool) (n : Nat) (h : 24 ≤ n) :
    msbNat (((List.range n).map b).drop (n - 24)) = trailing b n := by
  have hlast : ((List.range n).map b).drop (n - 24) = (List.range 24).map (fun t => b (n - 24 + t)) := by
    obtain ⟨k, rfl⟩ := Nat.exists_eq_add_of_le' h
    rw [Nat.add_sub_cancel, List.range_add, List.map_append, List.drop_left' (by simp), List.map_map]
    rfl
  rw [hlast, msbNat_map_range]
  rfl

/-- The verify of at least 24 bits compares the CRC of all but the last 24 with the value of those (48_crc.md R394). -/
theorem crcVerify_map_range_iff (init : BitVec 24) (b : Nat → Bool) (n : Nat) (h : 24 ≤ n) :
    crcVerify init ((List.range n).map b) = true ↔ (crcReg init b (n - 24)).toNat = trailing b n := by
  have hfirst : ((List.range n).map b).take (n - 24) = (List.range (n - 24)).map b := by
    rw [← List.map_take, List.take_range, Nat.min_eq_left (Nat.sub_le n 24)]
  rw [crcVerify, List.length_map, List.length_range, hfirst, crc24_map_range, msbNat_drop_eq_trailing b n h, beq_iff_eq]

/-! ## The result word (48_crc.md R393) -/

/-- A compute gives the register in bits 31 to 8. -/
theorem crcResultWord_compute (init : BitVec 24) (b : Nat → Bool) (n : Nat) :
    crcResultWord init .compute ((List.range n).map b) = (crcReg init b n).setWidth 32 <<< 8 := by
  rw [crcResultWord, crc24_map_range]

/-- A verify gives 1 where the trailing value is the register before it, else 0. -/
theorem crcResultWord_verify (init : BitVec 24) (b : Nat → Bool) (n : Nat) (h : 24 ≤ n) :
    crcResultWord init .verify ((List.range n).map b)
      = if (crcReg init b (n - 24)).toNat = trailing b n then 1 else 0 := by
  rw [crcResultWord]
  exact if_congr (crcVerify_map_range_iff init b n h) rfl rfl

/-! ## The checks (48_crc.md R390) -/

/-- The checks of `CRC24A` pass exactly on the legal commands. -/
theorem crcChecks_pass (p : Params) (c : Crc24a) : firstError (crcChecks p c) = none ↔ legal p (.crc24a c) := by
  have hbufs : firstError (bufferChecks p [crcData c, crcRes c] [(crcData c, crcRes c)]) = none
      ↔ buffersLegal p (buffersOf (.crc24a c)) (pairsOf (.crc24a c)) := bufferChecks_pass p _ _
  rw [crcChecks, firstError_append, Option.or_eq_none_iff, hbufs, firstError_eq_none, legal, fieldsLegal]
  refine and_congr_left' ?_
  rw [List.forall_mem_singleton]
  simp only [Bool.and_eq_false_iff, decide_eq_false_iff_not, not_lt, imp_iff_not_or]

/-! ## Memory afterwards (48_crc.md R395) -/

/-- A stored word reads back (20_memory.md R124, R129 `StU32`). -/
theorem memRead_store_bytes32 (m : Memory) (a : Nat) (v : Word) : memRead (m.store a (bytes32 v)) a 4 = some v.toNat := by
  have hread : memRead (m.store a (bytes32 v)) a 4 = some (leNat (((bytes32 v).drop 0).take 4)) :=
    memRead_store m a (bytes32 v) 0 4 (by simp)
  have hall : ((bytes32 v).drop 0).take 4 = bytes32 v := List.take_of_length_le (by simp)
  have hfits : v.toNat < 256 ^ 4 := v.isLt
  rw [hread, hall, bytes32, leNat_leBytes, Nat.mod_eq_of_lt hfits]

/-- Storing a word changes no byte outside its buffer (20_memory.md R130). -/
theorem sameOutside_store_bytes32 (s t : State) (word : BitVec 3) (a : Nat) (v : Word)
    (ht : t.dmem = s.dmem.store a (bytes32 v)) : sameOutside [⟨word, a, .u32, 1⟩] s t := by
  intro x hx
  rw [ht]
  apply Memory.read_store_outside
  rw [length_bytes32]
  exact hx _ (List.mem_singleton.2 rfl)

/-- What `CRC24A` leaves: its result word, in DMEM and in `CRC_RESULT`. -/
def crcStores (c : Crc24a) (result : Word) : Effect where
  writes := [(c.resAddr, bytes32 result)]
  warnings := 0
  ldpcResult := none
  crcResult := some result

theorem crcEffect_eq (c : Crc24a) (s : State) :
    crcEffect c s = (collectN c.nbits (fun i => ldPbit s.dmem c.dataBase i)).map
      (fun bs => crcStores c (crcResultWord s.params.crcInit c.mode bs)) := rfl

theorem dmem_apply_crcStores (c : Crc24a) (result : Word) (s : State) :
    (s.apply (crcStores c result)).complete.dmem = s.dmem.store c.resAddr (bytes32 result) := by
  rw [State.complete_dmem, State.apply_eq]
  rfl

/-- A legal `CRC24A` whose data bits are readable completes with the result word of those bits. -/
theorem exec_crc24a_of_readable (c : Crc24a) (s : State) (b : Nat → Bool) (hc : legal s.params (.crc24a c))
    (h : ∀ i < c.nbits, ldPbit s.dmem c.dataBase i = some (b i)) :
    exec (.crc24a c) s
      = .next (s.apply (crcStores c (crcResultWord s.params.crcInit c.mode ((List.range c.nbits).map b)))).complete :=
  runCommand_of_effect _ _ s _ ((crcChecks_pass s.params c).2 hc)
    (by rw [crcEffect_eq, collectN_of_forall _ _ b h, Option.map_some])

/-- Settles O45: the bits are collected, their result word is the reference's in either mode, and the one store is that word. -/
theorem crcResult : Obligations.CrcResult := by
  intro c s b hlegal hread result
  have hresult : crcResultWord s.params.crcInit c.mode ((List.range c.nbits).map b) = result := by
    cases hmode : c.mode with
    | compute =>
      rw [crcResultWord_compute]
      simp only [result, hmode]
    | verify =>
      rw [crcResultWord_verify _ _ _ (hlegal.1 hmode)]
      simp only [result, hmode]
  have hexec := exec_crc24a_of_readable c s b hlegal hread
  rw [hresult] at hexec
  have hdmem := dmem_apply_crcStores c result s
  refine ⟨_, hexec, completed_apply s _, ?_, sameOutside_store_bytes32 s _ 3 c.resAddr result hdmem⟩
  rw [hdmem]
  exact memRead_store_bytes32 s.dmem c.resAddr result

end Sys2Proof.Machine
end

section
/-! PROOF. The normal halt (60_exceptions.md R405): the engine step tests for the end of the list before it reads the pending abort
(40_sequencing.md R221). -/

namespace Sys2Proof.Machine

/-- At the end of the list the engine step is the normal halt, whatever `abort_pending` and the bytes at `pc` are. -/
theorem State.engineStep_of_listEnd (s : State) (hend : s.cmdDone = s.cmdCount) : s.engineStep = .next s.haltNormal :=
  if_pos hend

/-- The normal halt in the terms of the statements (60_exceptions.md R405). -/
theorem State.haltNormal_eq (s : State) :
    s.haltNormal
      = { s with done := true, irqStatus := ⟨true, s.irqStatus.error⟩, abortPending := false, phase := .idle } := rfl

/-- Settles O10: the move is the running engine's, and its first test ends the run. -/
theorem normalHalt : Obligations.NormalHalt := by
  intro s hturns hrun hend
  rw [step_of_running s hturns hrun, s.engineStep_of_listEnd hend, s.haltNormal_eq]

end Sys2Proof.Machine
end

section
/-! PROOF. The hard reset (70_reset_and_hazards.md R440): it is the platform's move, and each thing a reset sets is one rule about
`State.hardReset`. The model's own fields it does not clear (`hardResets`, `turns`) are not seen through a register. -/

namespace Sys2Proof.Machine

/-- A listed hard reset is a step in either phase, whatever the engine and DMEM hold; it is the first move used up. -/
theorem step_hardReset (s : State) (rest : List Turn) :
    step { s with turns := .hardReset :: rest } = .next { s with turns := rest }.hardReset := rfl

@[simp] theorem State.hardReset_phase (s : State) : s.hardReset.phase = .idle := rfl
@[simp] theorem State.hardReset_abortPending (s : State) : s.hardReset.abortPending = false := rfl
@[simp] theorem State.hardReset_irqStatus (s : State) : s.hardReset.irqStatus = ⟨false, false⟩ := rfl
@[simp] theorem State.hardReset_dmem (s : State) : s.hardReset.dmem = [] := rfl

/-- The register window shows neither the count of hard resets nor the coming moves, and the parameters of `ID`, `VERSION` and
`CAPS` are kept. -/
theorem State.readReg_hardReset (s : State) (off : Nat) :
    s.hardReset.readReg off = (State.resetWith s.params).readReg off := rfl

/-- With no interrupt pending the output is 0, whatever is enabled (60_exceptions.md R411). -/
theorem State.irq_of_irqStatus_clear (s : State) (h : s.irqStatus = ⟨false, false⟩) : s.irq = false := by
  simp [State.irq, h]

@[simp] theorem Memory.read_nil (a : Nat) : Memory.read [] a = none := rfl

/-- Settles O27: the step is the hard reset of the state with that move used up, and the clauses are the rules above. -/
theorem hardResetResetsAll : Obligations.HardResetResetsAll := by
  intro s rest
  refine ⟨_, step_hardReset s rest, ?registers, State.hardReset_phase _, State.hardReset_abortPending _, ?irq, ?dmem⟩
  case registers => exact fun off _ => State.readReg_hardReset { s with turns := rest } off
  case irq => exact State.irq_of_irqStatus_clear _ (State.hardReset_irqStatus _)
  case dmem =>
    intro a
    rw [State.hardReset_dmem, Memory.read_nil]

end Sys2Proof.Machine
end

section
/-! PROOF. The encoding (30_encoding.md): the reserved bits of the masks are those of the tables, what the decoder answers, and that
encoder and decoder invert each other, command by command. -/

namespace Sys2Proof

open Sys2Proof.Machine

/-! ## Bit fields of a word (30_encoding.md R172) -/

theorem bits_lt (w : Word) (lo n : Nat) : bits w lo n < 2 ^ n := Nat.mod_lt _ (by positivity)

/-- A run of bits is 0 exactly when each of its bits is. -/
theorem bits_eq_zero_iff (w : Word) (lo n : Nat) : bits w lo n = 0 ↔ ∀ b, lo ≤ b → b < lo + n → w.getLsbD b = false := by
  have htest (j : Nat) : (bits w lo n).testBit j = (decide (j < n) && w.getLsbD (lo + j)) := by
    rw [bits, Nat.testBit_mod_two_pow, Nat.testBit_div_two_pow, Nat.add_comm, BitVec.getLsbD]
  constructor
  · intro h b hlo hhi
    have hb := htest (b - lo)
    have hsum : lo + (b - lo) = b := by omega
    have hlt : b - lo < n := by omega
    rw [h, Nat.zero_testBit, hsum, decide_eq_true hlt, Bool.true_and] at hb
    exact hb.symm
  · intro h
    refine Nat.eq_of_testBit_eq fun j => ?_
    rw [htest, Nat.zero_testBit]
    by_cases hj : j < n
    · rw [h (lo + j) (by omega) (by omega), Bool.and_false]
    · rw [decide_eq_false hj, Bool.false_and]

/-! ## Reserved bits (30_encoding.md R175 to R184) -/

/-- Two words share a set bit exactly when their conjunction is not 0. -/
theorem and_ne_zero_iff (x m : Word) : x &&& m ≠ 0 ↔ ∃ b < 32, m.getLsbD b = true ∧ x.getLsbD b = true := by
  constructor
  · intro h
    by_contra hno
    push Not at hno
    refine h (BitVec.eq_of_getLsbD_eq fun b hb => ?_)
    have := hno b hb
    cases hm : m.getLsbD b <;> simp_all
  · rintro ⟨b, -, hm, hx⟩ h
    have := congrArg (fun v => BitVec.getLsbD v b) h
    simp [hm, hx] at this

/-- The masks mark the bits of the fields the tables call `res`, word by word. -/
theorem getLsbD_reservedMasks (op : Opcode) : ∀ k < 8, ∀ b < 32, (wordOf (reservedMasks op) k).getLsbD b
    = (reservedFields (opcodeVal op)).any (fun f => f.1 == k && decide (f.2.1 ≤ b) && decide (b ≤ f.2.2)) := by
  cases op <;> decide

theorem opcodeOf_eq_some_iff (v : Nat) (op : Opcode) : opcodeOf v = some op ↔ v = opcodeVal op := by
  constructor
  · intro h
    have hv : v < 9 := by
      by_contra hge
      rw [(opcodeOf_eq_none_iff v).2 (by omega)] at h
      exact absurd h (by simp)
    interval_cases v <;> obtain rfl := Option.some.inj h <;> rfl
  · rintro rfl
    cases op <;> rfl

/-- A word has a reserved bit set exactly when it meets its opcode's mask. -/
theorem reservedSet_iff (w : CmdWords) (op : Opcode) (hop : w.w0.toNat % 256 = opcodeVal op) (k : Nat) (hk : k < 8) :
    reservedSet w k ↔ wordOf w k &&& wordOf (reservedMasks op) k ≠ 0 := by
  rw [and_ne_zero_iff]
  unfold reservedSet
  rw [hop]
  constructor
  · rintro ⟨f, hf, hfk, b, hb, hlo, hhi, hset⟩
    refine ⟨b, hb, ?_, hset⟩
    rw [getLsbD_reservedMasks op k hk b hb, List.any_eq_true]
    exact ⟨f, hf, by simp [hfk, hlo, hhi]⟩
  · rintro ⟨b, hb, hmask, hset⟩
    rw [getLsbD_reservedMasks op k hk b hb, List.any_eq_true] at hmask
    obtain ⟨f, hf, hmatch⟩ := hmask
    simp only [Bool.and_eq_true, beq_iff_eq, decide_eq_true_eq] at hmatch
    obtain ⟨⟨hfk, hlo⟩, hhi⟩ := hmatch
    exact ⟨f, hf, hfk, b, hb, hlo, hhi, hset⟩

/-- The first word that meets its mask, as a search over the word indices. -/
theorem firstReserved_eq_find? (m w : CmdWords) :
    firstReserved m w
      = ((List.range 8).find? (fun k => decide (wordOf w k &&& wordOf m k ≠ 0))).map (BitVec.ofNat 3) := by
  have hrange : List.range 8 = [0, 1, 2, 3, 4, 5, 6, 7] := rfl
  simp only [hrange, List.find?_cons, List.find?_nil, wordOf, List.getD_cons_zero, List.getD_cons_succ, firstReserved]
  repeat' split
  all_goals simp_all

theorem firstReserved_of_first (m w : CmdWords) (k : Nat) (hk : k < 8) (hset : wordOf w k &&& wordOf m k ≠ 0)
    (hbefore : ∀ j < k, wordOf w j &&& wordOf m j = 0) : firstReserved m w = some (BitVec.ofNat 3 k) := by
  have hfind : (List.range 8).find? (fun k => decide (wordOf w k &&& wordOf m k ≠ 0)) = some k := by
    rw [List.find?_range_eq_some]
    exact ⟨by simpa using hset, List.mem_range.2 hk, fun j hj => by simpa using hbefore j hj⟩
  rw [firstReserved_eq_find?, hfind, Option.map_some]

theorem firstReserved_eq_none_iff (m w : CmdWords) :
    firstReserved m w = none ↔ ∀ k < 8, wordOf w k &&& wordOf m k = 0 := by
  rw [firstReserved_eq_find?, Option.map_eq_none_iff, List.find?_range_eq_none]
  simp

/-- Every field that the tables call `res` for this opcode reads 0. -/
def ReservedClear (op : Opcode) (w : CmdWords) : Prop :=
  ∀ f ∈ reservedFields (opcodeVal op), bits (wordOf w f.1) f.2.1 (f.2.2 + 1 - f.2.1) = 0

/-- No reserved bit is set exactly when every reserved field reads 0. -/
theorem firstReserved_eq_none_iff_reservedClear (w : CmdWords) (op : Opcode) (hop : w.w0.toNat % 256 = opcodeVal op) :
    firstReserved (reservedMasks op) w = none ↔ ReservedClear op w := by
  have hshape : ∀ f ∈ reservedFields (opcodeVal op), f.1 < 8 ∧ f.2.1 ≤ f.2.2 ∧ f.2.2 < 32 := by cases op <;> decide
  rw [firstReserved_eq_none_iff]
  have hword : ∀ k < 8, (wordOf w k &&& wordOf (reservedMasks op) k = 0 ↔ ¬ reservedSet w k) := fun k hk => by
    rw [reservedSet_iff w op hop k hk, not_not]
  constructor
  · intro h f hf
    obtain ⟨hk, hle, hlt⟩ := hshape f hf
    rw [bits_eq_zero_iff]
    intro b hlo hhi
    by_contra hset
    refine (hword f.1 hk).1 (h f.1 hk) ⟨f, hop ▸ hf, rfl, b, by omega, hlo, by omega, ?_⟩
    simpa using hset
  · intro h k hk
    rw [hword k hk]
    rintro ⟨f, hf, rfl, b, -, hlo, hhi, hset⟩
    have hzero := (bits_eq_zero_iff _ _ _).1 (h f (hop ▸ hf)) b hlo (by omega)
    rw [hzero] at hset
    exact Bool.false_ne_true hset

/-! ## The decoder's verdict (30_encoding.md R185) -/

theorem decode_of_firstReserved_some (w : CmdWords) (op : Opcode) (k : BitVec 3) (hop : w.w0.toNat % 256 = opcodeVal op)
    (hk : firstReserved (reservedMasks op) w = some k) : decode w = .reservedNonzero k := by
  simp only [decode, bits_zero_eight, (opcodeOf_eq_some_iff _ _).2 hop, hk]

theorem decode_of_firstReserved_none (w : CmdWords) (op : Opcode) (hop : w.w0.toNat % 256 = opcodeVal op)
    (hnone : firstReserved (reservedMasks op) w = none) : decode w = .command (commandOf op w) := by
  simp only [decode, bits_zero_eight, (opcodeOf_eq_some_iff _ _).2 hop, hnone]

/-- The opcodes up to 8 are the nine legal ones. -/
theorem exists_opcode (v : Nat) (h : v ≤ 8) : ∃ op, v = opcodeVal op := by
  cases hop : opcodeOf v with
  | none =>
    have := (opcodeOf_eq_none_iff v).1 hop
    omega
  | some op => exact ⟨op, (opcodeOf_eq_some_iff v op).1 hop⟩

/-- The decoder answers a command exactly when the opcode is legal and every reserved field reads 0. -/
theorem decode_eq_command_iff (w : CmdWords) (i : Instr) :
    decode w = .command i ↔ ∃ op, w.w0.toNat % 256 = opcodeVal op ∧ ReservedClear op w ∧ commandOf op w = i := by
  constructor
  · intro h
    have hle : w.w0.toNat % 256 ≤ 8 := by
      by_contra hgt
      rw [(decode_eq_illegalOpcode_iff w).2 (by omega)] at h
      cases h
    obtain ⟨op, hop⟩ := exists_opcode _ hle
    cases hres : firstReserved (reservedMasks op) w with
    | some k =>
      rw [decode_of_firstReserved_some w op k hop hres] at h
      cases h
    | none =>
      rw [decode_of_firstReserved_none w op hop hres] at h
      exact ⟨op, hop, (firstReserved_eq_none_iff_reservedClear w op hop).1 hres, Verdict.command.inj h⟩
  · rintro ⟨op, hop, hfields, rfl⟩
    exact decode_of_firstReserved_none w op hop ((firstReserved_eq_none_iff_reservedClear w op hop).2 hfields)

/-- With a legal opcode the first word with a reserved bit set is the verdict. -/
theorem decode_of_first_reserved (w : CmdWords) (k : Nat) (hle : w.w0.toNat % 256 ≤ 8) (hk : k < 8) (hset : reservedSet w k)
    (hbefore : ∀ j < k, ¬ reservedSet w j) : decode w = .reservedNonzero (BitVec.ofNat 3 k) := by
  obtain ⟨op, hop⟩ := exists_opcode _ hle
  refine decode_of_firstReserved_some w op _ hop (firstReserved_of_first _ _ k hk ((reservedSet_iff w op hop k hk).1 hset)
    fun j hj => ?_)
  by_contra hne
  exact hbefore j hj ((reservedSet_iff w op hop j (by omega)).2 hne)

/-- With a legal opcode and no reserved bit set the verdict is a command. -/
theorem decode_of_no_reserved (w : CmdWords) (hle : w.w0.toNat % 256 ≤ 8) (hclear : ∀ k < 8, ¬ reservedSet w k) :
    ∃ i, decode w = .command i := by
  obtain ⟨op, hop⟩ := exists_opcode _ hle
  refine ⟨_, decode_of_firstReserved_none w op hop ((firstReserved_eq_none_iff _ _).2 fun k hk => ?_)⟩
  by_contra hne
  exact hclear k hk ((reservedSet_iff w op hop k hk).2 hne)

/-- Settles O3: the opcode decides first, then the first word that meets its mask, whose bits are those of the tables. -/
theorem decodeVerdict : Obligations.DecodeVerdict := fun w =>
  ⟨fun hop => (decode_eq_illegalOpcode_iff w).2 hop, fun hop =>
    ⟨fun k hk hset hbefore => decode_of_first_reserved w k hop hk hset hbefore, decode_of_no_reserved w hop⟩⟩

/-! ## Words and fields (30_encoding.md R172) -/

theorem toNat_word (v : Nat) : (word v).toNat = v % 2 ^ 32 := by rw [word, BitVec.toNat_ofNat]

theorem word_toNat (w : Word) : word w.toNat = w := by rw [word, BitVec.ofNat_toNat, BitVec.setWidth_eq]

theorem bitVal_lt (b : Bool) : bitVal b < 2 := by cases b <;> decide

theorem bit_eq_of_bits {w : Word} {lo : Nat} {b : Bool} (h : bits w lo 1 = bitVal b) : bit w lo = b := by
  rw [bit, h]
  cases b <;> rfl

/-- A one-bit field as a number. -/
theorem bitVal_bit (w : Word) (lo : Nat) : bitVal (bit w lo) = bits w lo 1 := by
  have hlt := bits_lt w lo 1
  rw [bit]
  rcases (show bits w lo 1 = 0 ∨ bits w lo 1 = 1 by omega) with h | h <;> rw [h] <;> rfl

theorem unsext_lt (v : Int) (h : -(2 ^ 7) ≤ v ∧ v < 2 ^ 7) : unsext 8 v < 256 := by
  unfold unsext
  split <;> omega

/-- The pattern of a signed value in range reads as the value (00_scope.md R12). -/
theorem sext_unsext (v : Int) (h : -(2 ^ 7) ≤ v ∧ v < 2 ^ 7) : sext 8 (unsext 8 v) = v := by
  unfold sext unsext
  split <;> split <;> omega

/-- The pattern of a pattern's signed value is the pattern. -/
theorem unsext_sext (v : Nat) (h : v < 256) : unsext 8 (sext 8 v) = v := by
  unfold sext unsext
  split <;> split <;> omega

theorem sext_range (v : Nat) (h : v < 256) : -(2 ^ 7) ≤ sext 8 v ∧ sext 8 v < 2 ^ 7 := by
  unfold sext
  split <;> omega

theorem toNat_c16Word (p : C16) : (c16Word p).toNat = p.re.toNat + p.im.toNat * 2 ^ 16 := by
  have hre := p.re.isLt
  have him := p.im.isLt
  rw [c16Word, toNat_word]
  omega

/-- The word of a packed sample unpacks to it. -/
theorem c16OfWord_c16Word (p : C16) : c16OfWord (c16Word p) = p := by
  have hre := p.re.isLt
  have him := p.im.isLt
  have hlow : bits (c16Word p) 0 16 = p.re.toNat := by
    rw [bits, toNat_c16Word]
    omega
  have hhigh : bits (c16Word p) 16 16 = p.im.toNat := by
    rw [bits, toNat_c16Word]
    omega
  simp [c16OfWord, hlow, hhigh]

/-- Packing the sample of a word gives the word back. -/
theorem c16Word_c16OfWord (w : Word) : c16Word (c16OfWord w) = w := by
  apply BitVec.eq_of_toNat_eq
  have hlt := w.isLt
  simp only [toNat_c16Word, c16OfWord, BitVec.toNat_ofNat, bits]
  omega

/-! ## The reserved fields of each opcode (30_encoding.md R176 to R184) -/

theorem reservedClear_nop_iff (w : CmdWords) : ReservedClear .nop w
    ↔ bits w.w0 8 24 = 0 ∧ bits w.w1 0 32 = 0 ∧ bits w.w2 0 32 = 0 ∧ bits w.w3 0 32 = 0 ∧ bits w.w4 0 32 = 0 ∧ bits w.w5 0 32 = 0 ∧ bits w.w6 0 32 = 0 ∧ bits w.w7 0 32 = 0 := by
  simp [ReservedClear, reservedFields, opcodeVal, wordOf]

theorem reservedClear_fepRx_iff (w : CmdWords) : ReservedClear .fepRx w
    ↔ bits w.w0 13 3 = 0 ∧ bits w.w0 20 12 = 0 ∧ bits w.w5 16 16 = 0 := by
  simp [ReservedClear, reservedFields, opcodeVal, wordOf]

theorem reservedClear_chest_iff (w : CmdWords) : ReservedClear .chest w
    ↔ bits w.w0 16 16 = 0 ∧ bits w.w7 0 32 = 0 := by
  simp [ReservedClear, reservedFields, opcodeVal, wordOf]

theorem reservedClear_mmse_iff (w : CmdWords) : ReservedClear .mmse w
    ↔ bits w.w0 30 2 = 0 ∧ bits w.w7 15 17 = 0 := by
  simp [ReservedClear, reservedFields, opcodeVal, wordOf]

theorem reservedClear_llr_iff (w : CmdWords) : ReservedClear .llr w
    ↔ bits w.w0 12 20 = 0 ∧ bits w.w7 0 32 = 0 := by
  simp [ReservedClear, reservedFields, opcodeVal, wordOf]

theorem reservedClear_layerDemap_iff (w : CmdWords) : ReservedClear .layerDemap w
    ↔ bits w.w6 0 32 = 0 ∧ bits w.w7 0 32 = 0 := by
  simp [ReservedClear, reservedFields, opcodeVal, wordOf]

theorem reservedClear_descramble_iff (w : CmdWords) : ReservedClear .descramble w
    ↔ bits w.w0 9 23 = 0 ∧ bits w.w4 0 32 = 0 ∧ bits w.w5 0 32 = 0 ∧ bits w.w6 0 32 = 0 ∧ bits w.w7 0 32 = 0 := by
  simp [ReservedClear, reservedFields, opcodeVal, wordOf]

theorem reservedClear_ldpcDec_iff (w : CmdWords) : ReservedClear .ldpcDec w
    ↔ bits w.w0 11 1 = 0 ∧ bits w.w0 24 8 = 0 ∧ bits w.w5 16 16 = 0 ∧ bits w.w6 0 32 = 0 ∧ bits w.w7 0 32 = 0 := by
  simp [ReservedClear, reservedFields, opcodeVal, wordOf]

theorem reservedClear_crc24a_iff (w : CmdWords) : ReservedClear .crc24a w
    ↔ bits w.w0 9 23 = 0 ∧ bits w.w4 0 32 = 0 ∧ bits w.w5 0 32 = 0 ∧ bits w.w6 0 32 = 0 ∧ bits w.w7 0 32 = 0 := by
  simp [ReservedClear, reservedFields, opcodeVal, wordOf]

/-- Settles O4: the eight words are evaluated. -/
theorem writtenWordsDecode : Obligations.WrittenWordsDecode := by
  unfold Obligations.WrittenWordsDecode
  decide

end Sys2Proof
end

section
/-! PROOF. Encoder and decoder invert each other (30_encoding.md R172 to R185): for each command its fields come back from its words, its
reserved fields are 0, and eight words with the reserved fields 0 are packed again from their fields. -/

namespace Sys2Proof

open Sys2Proof.Machine Sys2Proof.Laws

@[simp] theorem bits_zero_word (lo n : Nat) : bits (0#32) lo n = 0 := by simp [bits]

/-! ## Fields that name a choice (30_encoding.md R178, R183, R184) -/

/-- A choice between two values, by the one-bit field that names it. -/
theorem ite_bit_eq {α : Type} {w : Word} {lo : Nat} {b : Bool} (x y : α) (h : bits w lo 1 = bitVal b) :
    (if bit w lo then x else y) = if b then x else y := by
  rw [bit_eq_of_bits h]

/-- `pmode`, `bg`, `outmode` and `mode` as switches. -/
def Pilot.isBuffer : Pilot → Bool
  | .const _ => false
  | .buffer _ => true

/-- Word 2 of a `CHEST`. -/
def Pilot.word : Pilot → Word
  | .const p => c16Word p
  | .buffer base => Sys2Proof.word base

def BaseGraph.isBg2 : BaseGraph → Bool
  | .bg1 => false
  | .bg2 => true

def OutMode.isBytes : OutMode → Bool
  | .packed => false
  | .bytes => true

def CrcMode.isVerify : CrcMode → Bool
  | .compute => false
  | .verify => true

theorem encode_chest (c : Chest) : encode (.chest c) =
    ⟨word (0x02 + bitVal c.pilot.isBuffer * 2 ^ 8 + bitVal c.interp * 2 ^ 9 + bitVal c.nvEn * 2 ^ 10 + c.nvShift * 2 ^ 11),
     word c.yBase, c.pilot.word, word c.hBase, word c.nvAddr, word (c.nSc + c.nP * 2 ^ 16),
     word (c.start + c.stride * 2 ^ 16), 0⟩ := by
  cases hp : c.pilot <;> simp only [encode, hp] <;> rfl

theorem encode_ldpcDec (c : LdpcDec) : encode (.ldpcDec c) =
    ⟨word (0x07 + bitVal c.bg.isBg2 * 2 ^ 8 + bitVal c.outmode.isBytes * 2 ^ 9 + bitVal c.crcEt * 2 ^ 10 + c.inShift * 2 ^ 12
        + c.maxIter * 2 ^ 16),
     word c.inBase, word c.e, word c.outBase, word c.resAddr, word c.zc, 0, 0⟩ := by
  cases hb : c.bg <;> cases ho : c.outmode <;> simp only [encode, hb, ho] <;> rfl

theorem encode_crc24a (c : Crc24a) : encode (.crc24a c) =
    ⟨word (0x08 + bitVal c.mode.isVerify * 2 ^ 8), word c.dataBase, word c.nbits, word c.resAddr, 0, 0, 0, 0⟩ := by
  cases hm : c.mode <;> simp only [encode, hm] <;> rfl

/-- The pilot of a `CHEST` comes back from its switch and its word. -/
theorem pilot_of_word (p : Pilot) (h : p.wf = true) :
    (if p.isBuffer then Pilot.buffer p.word.toNat else .const (c16OfWord p.word)) = p := by
  cases p with
  | const p => simp [Pilot.isBuffer, Pilot.word, c16OfWord_c16Word]
  | buffer base =>
    have hlt : base < 2 ^ 32 := by simpa [Pilot.wf, fits] using h
    simp only [Pilot.isBuffer, Pilot.word, toNat_word, Nat.mod_eq_of_lt hlt, if_true]

theorem ite_isBg2 (b : BaseGraph) : (if b.isBg2 then BaseGraph.bg2 else .bg1) = b := by cases b <;> rfl

theorem ite_isBytes (o : OutMode) : (if o.isBytes then OutMode.bytes else .packed) = o := by cases o <;> rfl

theorem ite_isVerify (m : CrcMode) : (if m.isVerify then CrcMode.verify else .compute) = m := by cases m <;> rfl

/-! ## From the command to the words and back -/

/-- The encoding of a command decodes to it if its reserved fields are 0 and its fields come back. -/
theorem decode_encode_of_fields (i : Instr) (op : Opcode) (hop : (encode i).w0.toNat % 256 = opcodeVal op)
    (hclear : ReservedClear op (encode i)) (hfields : commandOf op (encode i) = i) : decode (encode i) = .command i :=
  (decode_eq_command_iff _ _).2 ⟨op, hop, hclear, hfields⟩

theorem reservedClear_encode_nop : ReservedClear .nop (encode .nop) := by
  rw [reservedClear_nop_iff]
  decide

theorem decodeFepRx_encode (c : FepRx) (h : c.wf = true) : decodeFepRx (encode (.fepRx c)) = c := by
  obtain ⟨sizeClass, scale, symbol, tdBase, tdLen, slotOffset, cp0, cp, offsetDiv, fdBase, firstSc, nSc⟩ := c
  simp only [FepRx.wf, fits, Bool.and_eq_true, decide_eq_true_eq] at h
  have hscale := bitVal_lt scale
  simp only [encode, decodeFepRx, FepRx.mk.injEq]
  refine ⟨?_, bit_eq_of_bits ?_, ?_, ?_, ?_, ?_, ?_, ?_, ?_, ?_, ?_, ?_⟩
  all_goals
    simp only [bits, toNat_word]
    omega

theorem reservedClear_encode_fepRx (c : FepRx) (h : c.wf = true) : ReservedClear .fepRx (encode (.fepRx c)) := by
  simp only [FepRx.wf, fits, Bool.and_eq_true, decide_eq_true_eq] at h
  have hscale := bitVal_lt c.scale
  simp only [reservedClear_fepRx_iff, encode, bits, toNat_word]
  omega

theorem decodeChest_encode (c : Chest) (h : c.wf = true) : decodeChest (encode (.chest c)) = c := by
  obtain ⟨interp, nvEn, nvShift, yBase, pilot, hBase, nvAddr, nSc, nP, start, stride⟩ := c
  simp only [Chest.wf, fits, Bool.and_eq_true, decide_eq_true_eq] at h
  have hpilot : pilot.wf = true := by simp only [h]
  have hmode := bitVal_lt pilot.isBuffer
  have hinterp := bitVal_lt interp
  have hnvEn := bitVal_lt nvEn
  simp only [encode_chest, decodeChest, Chest.mk.injEq]
  refine ⟨bit_eq_of_bits ?_, bit_eq_of_bits ?_, ?_, ?_, (ite_bit_eq _ _ ?_).trans (pilot_of_word pilot hpilot), ?_, ?_, ?_, ?_,
    ?_, ?_⟩
  all_goals
    simp only [bits, toNat_word]
    omega

theorem reservedClear_encode_chest (c : Chest) (h : c.wf = true) : ReservedClear .chest (encode (.chest c)) := by
  simp only [Chest.wf, fits, Bool.and_eq_true, decide_eq_true_eq] at h
  have hmode := bitVal_lt c.pilot.isBuffer
  have hinterp := bitVal_lt c.interp
  have hnvEn := bitVal_lt c.nvEn
  rw [reservedClear_chest_iff, encode_chest]
  refine ⟨?_, bits_zero_word _ _⟩
  simp only [bits, toNat_word]
  omega

theorem decodeMmse_encode (c : Mmse) (h : c.wf = true) : decodeMmse (encode (.mmse c)) = c := by
  obtain ⟨layers, rx, shift0, oshift, fp, magw, qm, yBase, hBase, nvBase, outBase, nSc, yStride, magBase, thr⟩ := c
  simp only [Mmse.wf, fits, Bool.and_eq_true, decide_eq_true_eq] at h
  have hfp := bitVal_lt fp
  have hmagw := bitVal_lt magw
  simp only [encode, decodeMmse, Mmse.mk.injEq]
  refine ⟨?_, ?_, ?_, ?_, bit_eq_of_bits ?_, bit_eq_of_bits ?_, ?_, ?_, ?_, ?_, ?_, ?_, ?_, ?_, ?_⟩
  all_goals
    simp only [bits, toNat_word]
    omega

theorem reservedClear_encode_mmse (c : Mmse) (h : c.wf = true) : ReservedClear .mmse (encode (.mmse c)) := by
  simp only [Mmse.wf, fits, Bool.and_eq_true, decide_eq_true_eq] at h
  have hfp := bitVal_lt c.fp
  have hmagw := bitVal_lt c.magw
  simp only [reservedClear_mmse_iff, encode, bits, toNat_word]
  omega

theorem decodeLlr_encode (c : Llr) (h : c.wf = true) : decodeLlr (encode (.llr c)) = c := by
  obtain ⟨qm, xBase, magA, magB, magC, llrBase, n⟩ := c
  simp only [Llr.wf, fits, Bool.and_eq_true, decide_eq_true_eq] at h
  simp only [encode, decodeLlr, Llr.mk.injEq, bits, toNat_word]
  omega

theorem reservedClear_encode_llr (c : Llr) (h : c.wf = true) : ReservedClear .llr (encode (.llr c)) := by
  simp only [Llr.wf, fits, Bool.and_eq_true, decide_eq_true_eq] at h
  rw [reservedClear_llr_iff]
  refine ⟨?_, bits_zero_word _ _⟩
  simp only [encode, bits, toNat_word]
  omega

theorem fitsSigned_seven (v : Int) : fitsSigned 7 v = true ↔ -(2 ^ 7) ≤ v ∧ v < 2 ^ 7 := by
  simp [fitsSigned]

theorem sext_of_eq_unsext {v : Int} {n : Nat} (h : -(2 ^ 7) ≤ v ∧ v < 2 ^ 7) (hn : n = unsext 8 v) : sext 8 n = v := by
  rw [hn, sext_unsext v h]

theorem decodeLayerDemap_encode (c : LayerDemap) (h : c.wf = true) : decodeLayerDemap (encode (.layerDemap c)) = c := by
  obtain ⟨nl, qm, cw0Flag, cw1Flag, layerBase, layerStride, dst0, dst1, totalLen⟩ := c
  simp only [LayerDemap.wf, fits, fitsSigned_seven, Bool.and_eq_true, decide_eq_true_eq] at h
  obtain ⟨⟨⟨⟨⟨⟨⟨⟨hnl, hqm⟩, hflag0⟩, hflag1⟩, hbase⟩, hstride⟩, hdst0⟩, hdst1⟩, hlen⟩ := h
  have hpattern0 := unsext_lt cw0Flag hflag0
  have hpattern1 := unsext_lt cw1Flag hflag1
  simp only [encode, decodeLayerDemap, LayerDemap.mk.injEq]
  refine ⟨?_, ?_, sext_of_eq_unsext hflag0 ?_, sext_of_eq_unsext hflag1 ?_, ?_, ?_, ?_, ?_, ?_⟩
  all_goals
    simp only [bits, toNat_word]
    omega

theorem reservedClear_encode_layerDemap (c : LayerDemap) : ReservedClear .layerDemap (encode (.layerDemap c)) := by
  simp [reservedClear_layerDemap_iff, encode]

theorem decodeDescramble_encode (c : Descramble) (h : c.wf = true) : decodeDescramble (encode (.descramble c)) = c := by
  obtain ⟨q, llrBase, length, nId, rnti⟩ := c
  simp only [Descramble.wf, fits, Bool.and_eq_true, decide_eq_true_eq] at h
  have hq := bitVal_lt q
  simp only [encode, decodeDescramble, Descramble.mk.injEq]
  refine ⟨bit_eq_of_bits ?_, ?_, ?_, ?_, ?_⟩
  all_goals
    simp only [bits, toNat_word]
    omega

theorem reservedClear_encode_descramble (c : Descramble) : ReservedClear .descramble (encode (.descramble c)) := by
  have hq := bitVal_lt c.q
  rw [reservedClear_descramble_iff]
  refine ⟨?_, bits_zero_word _ _, bits_zero_word _ _, bits_zero_word _ _, bits_zero_word _ _⟩
  simp only [encode, bits, toNat_word]
  omega

theorem decodeLdpcDec_encode (c : LdpcDec) (h : c.wf = true) : decodeLdpcDec (encode (.ldpcDec c)) = c := by
  obtain ⟨bg, outmode, crcEt, inShift, maxIter, inBase, e, outBase, resAddr, zc⟩ := c
  simp only [LdpcDec.wf, fits, Bool.and_eq_true, decide_eq_true_eq] at h
  have hbg := bitVal_lt bg.isBg2
  have hout := bitVal_lt outmode.isBytes
  have hcrcEt := bitVal_lt crcEt
  simp only [encode_ldpcDec, decodeLdpcDec, LdpcDec.mk.injEq]
  refine ⟨(ite_bit_eq _ _ ?_).trans (ite_isBg2 bg), (ite_bit_eq _ _ ?_).trans (ite_isBytes outmode), bit_eq_of_bits ?_, ?_, ?_,
    ?_, ?_, ?_, ?_, ?_⟩
  all_goals
    simp only [bits, toNat_word]
    omega

theorem reservedClear_encode_ldpcDec (c : LdpcDec) (h : c.wf = true) : ReservedClear .ldpcDec (encode (.ldpcDec c)) := by
  simp only [LdpcDec.wf, fits, Bool.and_eq_true, decide_eq_true_eq] at h
  have hbg := bitVal_lt c.bg.isBg2
  have hout := bitVal_lt c.outmode.isBytes
  have hcrcEt := bitVal_lt c.crcEt
  rw [reservedClear_ldpcDec_iff, encode_ldpcDec]
  refine ⟨?_, ?_, ?_, bits_zero_word _ _, bits_zero_word _ _⟩
  all_goals
    simp only [bits, toNat_word]
    omega

theorem decodeCrc24a_encode (c : Crc24a) (h : c.wf = true) : decodeCrc24a (encode (.crc24a c)) = c := by
  obtain ⟨mode, dataBase, nbits, resAddr⟩ := c
  simp only [Crc24a.wf, fits, Bool.and_eq_true, decide_eq_true_eq] at h
  have hmode := bitVal_lt mode.isVerify
  simp only [encode_crc24a, decodeCrc24a, Crc24a.mk.injEq]
  refine ⟨(ite_bit_eq _ _ ?_).trans (ite_isVerify mode), ?_, ?_, ?_⟩
  all_goals
    simp only [bits, toNat_word]
    omega

theorem reservedClear_encode_crc24a (c : Crc24a) : ReservedClear .crc24a (encode (.crc24a c)) := by
  have hmode := bitVal_lt c.mode.isVerify
  rw [reservedClear_crc24a_iff, encode_crc24a]
  refine ⟨?_, bits_zero_word _ _, bits_zero_word _ _, bits_zero_word _ _, bits_zero_word _ _⟩
  simp only [bits, toNat_word]
  omega

/-- Settles O1: for each command the opcode is its own, the reserved fields are 0 and the fields come back. -/
theorem decodeOfEncode : Obligations.DecodeOfEncode := by
  intro i hwf
  cases i with
  | nop => exact decode_encode_of_fields _ .nop EncodeOpcode.nop reservedClear_encode_nop rfl
  | fepRx c =>
    exact decode_encode_of_fields _ .fepRx (EncodeOpcode.fepRx c) (reservedClear_encode_fepRx c hwf)
      (congrArg Instr.fepRx (decodeFepRx_encode c hwf))
  | chest c =>
    exact decode_encode_of_fields _ .chest (EncodeOpcode.chest c) (reservedClear_encode_chest c hwf)
      (congrArg Instr.chest (decodeChest_encode c hwf))
  | mmse c =>
    exact decode_encode_of_fields _ .mmse (EncodeOpcode.mmse c) (reservedClear_encode_mmse c hwf)
      (congrArg Instr.mmse (decodeMmse_encode c hwf))
  | llr c =>
    exact decode_encode_of_fields _ .llr (EncodeOpcode.llr c) (reservedClear_encode_llr c hwf)
      (congrArg Instr.llr (decodeLlr_encode c hwf))
  | layerDemap c =>
    exact decode_encode_of_fields _ .layerDemap (EncodeOpcode.layerDemap c) (reservedClear_encode_layerDemap c)
      (congrArg Instr.layerDemap (decodeLayerDemap_encode c hwf))
  | descramble c =>
    exact decode_encode_of_fields _ .descramble (EncodeOpcode.descramble c) (reservedClear_encode_descramble c)
      (congrArg Instr.descramble (decodeDescramble_encode c hwf))
  | ldpcDec c =>
    exact decode_encode_of_fields _ .ldpcDec (EncodeOpcode.ldpcDec c) (reservedClear_encode_ldpcDec c hwf)
      (congrArg Instr.ldpcDec (decodeLdpcDec_encode c hwf))
  | crc24a c =>
    exact decode_encode_of_fields _ .crc24a (EncodeOpcode.crc24a c) (reservedClear_encode_crc24a c)
      (congrArg Instr.crc24a (decodeCrc24a_encode c hwf))

/-! ## From the words to the command and back -/

@[simp] theorem fits_bits (w : Word) (lo n : Nat) : fits n (bits w lo n) = true := decide_eq_true (bits_lt w lo n)

@[simp] theorem fits_toNat (w : Word) : fits 32 w.toNat = true := decide_eq_true w.isLt

@[simp] theorem fitsSigned_sext_bits (w : Word) (lo : Nat) : fitsSigned 7 (sext 8 (bits w lo 8)) = true :=
  (fitsSigned_seven _).2 (sext_range _ (bits_lt w lo 8))

/-- Every decoded field fits its bits. -/
theorem wf_commandOf (op : Opcode) (w : CmdWords) : (commandOf op w).wf = true := by
  cases op with
  | nop => rfl
  | fepRx => simp only [commandOf, Instr.wf, FepRx.wf, decodeFepRx, fits_bits, fits_toNat, Bool.and_self]
  | chest =>
    have hpilot : (decodeChest w).pilot.wf = true := by
      rw [decodeChest]
      split
      · exact fits_toNat _
      · rfl
    simp only [commandOf, Instr.wf, Chest.wf, hpilot]
    simp only [decodeChest, fits_bits, fits_toNat, Bool.and_self]
  | mmse => simp only [commandOf, Instr.wf, Mmse.wf, decodeMmse, fits_bits, fits_toNat, Bool.and_self]
  | llr => simp only [commandOf, Instr.wf, Llr.wf, decodeLlr, fits_bits, fits_toNat, Bool.and_self]
  | layerDemap =>
    simp only [commandOf, Instr.wf, LayerDemap.wf, decodeLayerDemap, fits_bits, fits_toNat, fitsSigned_sext_bits, Bool.and_self]
  | descramble => simp only [commandOf, Instr.wf, Descramble.wf, decodeDescramble, fits_bits, fits_toNat, Bool.and_self]
  | ldpcDec => simp only [commandOf, Instr.wf, LdpcDec.wf, decodeLdpcDec, fits_bits, fits_toNat, Bool.and_self]
  | crc24a => simp only [commandOf, Instr.wf, Crc24a.wf, decodeCrc24a, fits_toNat, Bool.and_self]

/-- A word whose bits are all 0 is the word 0. -/
theorem eq_zero_of_bits {w : Word} (h : bits w 0 32 = 0) : (0 : Word) = w := by
  apply BitVec.eq_of_toNat_eq
  have hlt := w.isLt
  have hzero : (0 : Word).toNat = 0 := rfl
  rw [bits] at h
  rw [hzero]
  omega

/-- A word packed from its value. -/
theorem word_eq_of_toNat {v : Nat} {w : Word} (h : v = w.toNat) : word v = w := by
  rw [h, word_toNat]

section
variable (w : CmdWords)

theorem encode_decodeNop (hop : w.w0.toNat % 256 = 0) (hclear : ReservedClear .nop w) : encode .nop = w := by
  obtain ⟨w0, w1, w2, w3, w4, w5, w6, w7⟩ := w
  obtain ⟨h0, h1, h2, h3, h4, h5, h6, h7⟩ := (reservedClear_nop_iff _).1 hclear
  have hw0 : (0 : Word) = w0 := eq_zero_of_bits (by simp only [bits] at h0 ⊢; dsimp only at hop h0; omega)
  simp only [encode, CmdWords.mk.injEq]
  exact ⟨hw0, eq_zero_of_bits h1, eq_zero_of_bits h2, eq_zero_of_bits h3, eq_zero_of_bits h4, eq_zero_of_bits h5,
    eq_zero_of_bits h6, eq_zero_of_bits h7⟩

theorem encode_decodeFepRx (hop : w.w0.toNat % 256 = 1) (hclear : ReservedClear .fepRx w) :
    encode (.fepRx (decodeFepRx w)) = w := by
  obtain ⟨w0, w1, w2, w3, w4, w5, w6, w7⟩ := w
  obtain ⟨hlow, hhigh, h5⟩ := (reservedClear_fepRx_iff _).1 hclear
  dsimp only at hop
  simp only [bits] at hlow hhigh h5
  simp only [encode, decodeFepRx, CmdWords.mk.injEq, bitVal_bit, bits, word_toNat, true_and]
  refine ⟨word_eq_of_toNat ?_, word_eq_of_toNat ?_, word_eq_of_toNat ?_, word_eq_of_toNat ?_⟩ <;> omega

theorem decodeChest_isBuffer : (decodeChest w).pilot.isBuffer = bit w.w0 8 := by
  rw [decodeChest]
  cases hb : bit w.w0 8 <;> rfl

theorem decodeChest_word : (decodeChest w).pilot.word = w.w2 := by
  rw [decodeChest]
  cases hb : bit w.w0 8
  · exact c16Word_c16OfWord w.w2
  · exact word_toNat w.w2

theorem encode_decodeChest (hop : w.w0.toNat % 256 = 2) (hclear : ReservedClear .chest w) :
    encode (.chest (decodeChest w)) = w := by
  obtain ⟨h0, h7⟩ := (reservedClear_chest_iff _).1 hclear
  rw [encode_chest, decodeChest_isBuffer, decodeChest_word]
  obtain ⟨w0, w1, w2, w3, w4, w5, w6, w7⟩ := w
  dsimp only at hop
  simp only [bits] at h0
  simp only [decodeChest, CmdWords.mk.injEq, bitVal_bit, bits, word_toNat, true_and]
  refine ⟨word_eq_of_toNat ?_, word_eq_of_toNat ?_, word_eq_of_toNat ?_, eq_zero_of_bits h7⟩ <;> omega

theorem encode_decodeMmse (hop : w.w0.toNat % 256 = 3) (hclear : ReservedClear .mmse w) :
    encode (.mmse (decodeMmse w)) = w := by
  obtain ⟨w0, w1, w2, w3, w4, w5, w6, w7⟩ := w
  obtain ⟨h0, h7⟩ := (reservedClear_mmse_iff _).1 hclear
  dsimp only at hop
  simp only [bits] at h0 h7
  simp only [encode, decodeMmse, CmdWords.mk.injEq, bitVal_bit, bits, word_toNat, true_and]
  refine ⟨word_eq_of_toNat ?_, word_eq_of_toNat ?_, word_eq_of_toNat ?_⟩ <;> omega

theorem encode_decodeLlr (hop : w.w0.toNat % 256 = 4) (hclear : ReservedClear .llr w) : encode (.llr (decodeLlr w)) = w := by
  obtain ⟨w0, w1, w2, w3, w4, w5, w6, w7⟩ := w
  obtain ⟨h0, h7⟩ := (reservedClear_llr_iff _).1 hclear
  dsimp only at hop
  simp only [bits] at h0
  simp only [encode, decodeLlr, CmdWords.mk.injEq, bits, word_toNat, true_and]
  refine ⟨word_eq_of_toNat ?_, eq_zero_of_bits h7⟩
  omega

theorem encode_decodeLayerDemap (hop : w.w0.toNat % 256 = 5) (hclear : ReservedClear .layerDemap w) :
    encode (.layerDemap (decodeLayerDemap w)) = w := by
  obtain ⟨w0, w1, w2, w3, w4, w5, w6, w7⟩ := w
  obtain ⟨h6, h7⟩ := (reservedClear_layerDemap_iff _).1 hclear
  dsimp only at hop
  have hflag0 := unsext_sext _ (bits_lt w0 16 8)
  have hflag1 := unsext_sext _ (bits_lt w0 24 8)
  simp only [encode, decodeLayerDemap, CmdWords.mk.injEq, hflag0, hflag1, word_toNat, true_and]
  refine ⟨word_eq_of_toNat ?_, eq_zero_of_bits h6, eq_zero_of_bits h7⟩
  simp only [bits]
  omega

theorem encode_decodeDescramble (hop : w.w0.toNat % 256 = 6) (hclear : ReservedClear .descramble w) :
    encode (.descramble (decodeDescramble w)) = w := by
  obtain ⟨w0, w1, w2, w3, w4, w5, w6, w7⟩ := w
  obtain ⟨h0, h4, h5, h6, h7⟩ := (reservedClear_descramble_iff _).1 hclear
  dsimp only at hop
  simp only [bits] at h0
  simp only [encode, decodeDescramble, CmdWords.mk.injEq, bitVal_bit, bits, word_toNat, true_and]
  refine ⟨word_eq_of_toNat ?_, word_eq_of_toNat ?_, eq_zero_of_bits h4, eq_zero_of_bits h5, eq_zero_of_bits h6,
    eq_zero_of_bits h7⟩ <;> omega

theorem decodeLdpcDec_isBg2 : (decodeLdpcDec w).bg.isBg2 = bit w.w0 8 := by
  rw [decodeLdpcDec]
  cases hb : bit w.w0 8 <;> rfl

theorem decodeLdpcDec_isBytes : (decodeLdpcDec w).outmode.isBytes = bit w.w0 9 := by
  rw [decodeLdpcDec]
  cases hb : bit w.w0 9 <;> rfl

theorem encode_decodeLdpcDec (hop : w.w0.toNat % 256 = 7) (hclear : ReservedClear .ldpcDec w) :
    encode (.ldpcDec (decodeLdpcDec w)) = w := by
  obtain ⟨hgap, hhigh, h5, h6, h7⟩ := (reservedClear_ldpcDec_iff _).1 hclear
  rw [encode_ldpcDec, decodeLdpcDec_isBg2, decodeLdpcDec_isBytes]
  obtain ⟨w0, w1, w2, w3, w4, w5, w6, w7⟩ := w
  dsimp only at hop
  simp only [bits] at hgap hhigh h5
  simp only [decodeLdpcDec, CmdWords.mk.injEq, bitVal_bit, bits, word_toNat, true_and]
  refine ⟨word_eq_of_toNat ?_, word_eq_of_toNat ?_, eq_zero_of_bits h6, eq_zero_of_bits h7⟩ <;> omega

theorem decodeCrc24a_isVerify : (decodeCrc24a w).mode.isVerify = bit w.w0 8 := by
  rw [decodeCrc24a]
  cases hb : bit w.w0 8 <;> rfl

theorem encode_decodeCrc24a (hop : w.w0.toNat % 256 = 8) (hclear : ReservedClear .crc24a w) :
    encode (.crc24a (decodeCrc24a w)) = w := by
  obtain ⟨h0, h4, h5, h6, h7⟩ := (reservedClear_crc24a_iff _).1 hclear
  rw [encode_crc24a, decodeCrc24a_isVerify]
  obtain ⟨w0, w1, w2, w3, w4, w5, w6, w7⟩ := w
  dsimp only at hop
  simp only [bits] at h0
  simp only [decodeCrc24a, CmdWords.mk.injEq, bitVal_bit, bits, word_toNat, true_and]
  refine ⟨word_eq_of_toNat ?_, eq_zero_of_bits h4, eq_zero_of_bits h5, eq_zero_of_bits h6, eq_zero_of_bits h7⟩
  omega

end

/-- Eight words with the reserved fields 0 are the encoding of the command their opcode names. -/
theorem encode_commandOf (op : Opcode) (w : CmdWords) (hop : w.w0.toNat % 256 = opcodeVal op) (hclear : ReservedClear op w) :
    encode (commandOf op w) = w := by
  cases op with
  | nop => exact encode_decodeNop w hop hclear
  | fepRx => exact encode_decodeFepRx w hop hclear
  | chest => exact encode_decodeChest w hop hclear
  | mmse => exact encode_decodeMmse w hop hclear
  | llr => exact encode_decodeLlr w hop hclear
  | layerDemap => exact encode_decodeLayerDemap w hop hclear
  | descramble => exact encode_decodeDescramble w hop hclear
  | ldpcDec => exact encode_decodeLdpcDec w hop hclear
  | crc24a => exact encode_decodeCrc24a w hop hclear

/-- Settles O2: words that decode to a command are packed again from its fields, which fit their bits. -/
theorem encodeOfDecode : Obligations.EncodeOfDecode := by
  intro w i h
  obtain ⟨op, hop, hclear, rfl⟩ := (decode_eq_command_iff w i).1 h
  exact ⟨encode_commandOf op w hop hclear, wf_commandOf op w⟩

end Sys2Proof
end

section
/-! PROOF. The checks of a command and the error it reports (60_exceptions.md R402, R404, R406; 20_memory.md R134): the first failing
check of the machine's list is the first failing check of the rule. -/

namespace Sys2Proof.Machine

/-! ## The effect of each command -/

/-- What each command does once its checks have passed (40_sequencing.md R224). -/
def effectOf : Instr → State → Option Effect
  | .nop => fun _ => some (storesOnly [])
  | .fepRx c => fepEffect c
  | .chest c => chestEffect c
  | .mmse c => mmseEffect c
  | .llr c => llrEffect c
  | .layerDemap c => demapEffect c
  | .descramble c => descrambleEffect c
  | .ldpcDec c => ldpcEffect c
  | .crc24a c => crcEffect c

/-- Every command is its checks, then its effect. -/
theorem exec_eq (i : Instr) (s : State) : exec i s = runCommand (checksOf s.params i) (effectOf i) s := by
  cases i <;> rfl

/-! ## The buffer checks (20_memory.md R131 to R134) -/

/-- The first failing check of a family is that of the first member that fails it. -/
theorem firstError_map {α : Type} (l : List α) (check : α → Check) :
    firstError (l.map check) = (l.find? (fun x => (check x).1)).map (fun x => (check x).2) := by
  induction l with
  | nil => rfl
  | cons x xs ih =>
    obtain ⟨fails, e⟩ : ∃ fails, (check x).1 = fails := ⟨_, rfl⟩
    cases fails <;> simp [firstError, e, ih]

theorem fails_eq_decide {b : Bool} {P : Prop} [Decidable P] (h : b = false ↔ P) : b = decide (¬ P) := by
  cases b <;> simp_all

theorem firstError_bufferChecks (p : Params) (bufs : List Buf) (pairs : List (Buf × Buf)) :
    firstError (bufferChecks p bufs pairs) = bufferError p bufs pairs := by
  have halign (b : Buf) : (alignCheck b).1 = decide (¬ bufAligned b) := fails_eq_decide (alignCheck_passes b)
  have hrange (b : Buf) : (rangeCheck p b).1 = decide (¬ bufInRange p b) := fails_eq_decide (rangeCheck_passes p b)
  have hoverlap (q : Buf × Buf) : (overlapCheck q).1 = decide (¬ bufsDisjoint q) := fails_eq_decide (overlapCheck_passes q)
  rw [bufferChecks, firstError_append, firstError_append, firstError_map, firstError_map, firstError_map, Option.or_assoc]
  simp only [halign, hrange, hoverlap]
  rfl

/-! ## The lifting sizes (47_ldpc.md R362) -/

/-- The eight sets list exactly the sizes `a * 2^j` up to 384. -/
theorem isLiftingSize_iff (zc : Nat) : isLiftingSize zc = true ↔ liftingSize zc := by
  have hsets : ∀ set ∈ liftingSets, ∀ z ∈ set, z ≤ 384 ∧ ∃ a ∈ [2, 3, 5, 7, 9, 11, 13, 15], ∃ j < 9, z = a * 2 ^ j := by decide
  have hsizes : ∀ a ∈ [2, 3, 5, 7, 9, 11, 13, 15], ∀ j < 9, a * 2 ^ j ≤ 384 → isLiftingSize (a * 2 ^ j) = true := by decide
  constructor
  · intro h
    obtain ⟨set, hset, hz⟩ := List.any_eq_true.1 h
    exact hsets set hset zc (by simpa using hz)
  · rintro ⟨hle, a, ha, j, hj, rfl⟩
    exact hsizes a ha j hj hle

/-! ## The field checks -/

/-- The checks of a command that are about its fields alone. -/
def fieldChecks (p : Params) : Instr → List Check
  | .nop => []
  | .fepRx c =>
    [(decide (10 < c.sizeClass), ⟨.badFftSize, 0⟩),
     (decide (13 < c.symbol), ⟨.badParam, 0⟩),
     (decide (c.offsetDiv = 0), ⟨.badParam, 5⟩),
     (decide (fftSize c.sizeClass ≤ c.firstSc), ⟨.badParam, 7⟩),
     (decide (c.nSc = 0) || decide (fftSize c.sizeClass < c.nSc), ⟨.badParam, 7⟩),
     (decide (fepStart c < 0) || decide ((c.tdLen : Int) < fepStart c + fftSize c.sizeClass), ⟨.fepWindow, 3⟩)]
  | .chest c =>
    [(decide (c.nSc = 0), ⟨.badParam, 5⟩),
     (decide (c.nP = 0), ⟨.badParam, 5⟩),
     (decide (c.stride = 0), ⟨.badParam, 6⟩),
     (decide (c.nSc ≤ c.start + (c.nP - 1) * c.stride), ⟨.badParam, 6⟩)]
  | .mmse c =>
    [(decide (c.layers = 0) || decide (p.maxLayers < c.layers), ⟨.badLayerCount, 0⟩),
     (decide (c.rx = 0) || decide (p.maxRx < c.rx), ⟨.badParam, 0⟩),
     (decide (c.nSc = 0), ⟨.badParam, 5⟩),
     (c.magw && !isModOrder c.qm, ⟨.badModOrder, 0⟩)]
  | .llr c => [(!isModOrder c.qm, ⟨.badModOrder, 0⟩)]
  | .layerDemap c =>
    [(decide (c.nl = 0) || decide (4 < c.nl), ⟨.badLayerCount, 0⟩),
     (!isModOrder c.qm, ⟨.badModOrder, 0⟩),
     (cwActive c.cw0Flag == cwActive c.cw1Flag, ⟨.badCodewordFlags, 0⟩),
     (decide (c.totalLen % (c.nl * c.qm) ≠ 0), ⟨.badParam, 5⟩)]
  | .descramble c => [(decide (1023 < c.nId), ⟨.badParam, 3⟩)]
  | .ldpcDec c =>
    [(decide (c.maxIter = 0), ⟨.badParam, 0⟩),
     (!isLiftingSize c.zc, ⟨.badLdpcParams, 5⟩),
     (decide (c.e = 0) || decide ((ldpcNb c.bg - 2) * c.zc < c.e), ⟨.badParam, 2⟩)]
  | .crc24a c => [(decide (c.mode = .verify) && decide (c.nbits < 24), ⟨.badParam, 2⟩)]

/-- The machine's checks are the field checks, then the buffer checks over the rule's buffers and pairs. -/
theorem checksOf_eq (p : Params) (i : Instr) : checksOf p i = fieldChecks p i ++ bufferChecks p (buffersOf i) (pairsOf i) := by
  cases i with
  | mmse c => simp [checksOf, mmseChecks, fieldChecks, buffersOf, inputsOf, outputsOf, pairsOf]
  | _ => rfl

theorem firstError_cons (fails : Bool) (e : CmdError) (cs : List Check) :
    firstError ((fails, e) :: cs) = if fails then some e else firstError cs := rfl

/-- The window test fails exactly as the rule says, in naturals (41_fep.md R241, R242). -/
theorem fepWindow_fails_iff (c : FepRx) :
    (fepStart c < 0 ∨ (c.tdLen : Int) < fepStart c + fftSize c.sizeClass) ↔
      c.slotOffset + c.symbol * fftSize c.sizeClass + c.cp0 + c.symbol * c.cp < c.cp / c.offsetDiv
        ∨ c.slotOffset + c.symbol * fftSize c.sizeClass + c.cp0 + c.symbol * c.cp - c.cp / c.offsetDiv
            + fftSize c.sizeClass > c.tdLen := by
  unfold fepStart fepGuard
  omega

theorem isModOrder_fails_iff (qm : Nat) : (!isModOrder qm) = true ↔ ¬ modOrder qm := by
  rw [← isModOrder_iff, Bool.not_eq_true', Bool.not_eq_true]

theorem cwActive_same_iff (f g : Int) :
    (cwActive f == cwActive g) = true ↔ (f = -1 ∧ g = -1) ∨ (f ≠ -1 ∧ g ≠ -1) := by
  rw [beq_iff_eq, cwActive, cwActive, decide_eq_decide]
  tauto

/-- The first failing field check is that of the rule. -/
theorem firstError_fieldChecks (p : Params) (i : Instr) : firstError (fieldChecks p i) = fieldError p i := by
  cases i with
  | nop => rfl
  | fepRx c =>
    simp only [fieldChecks, fieldError, firstError_cons, Bool.or_eq_true, decide_eq_true_eq, fepWindow_fails_iff]
    rfl
  | chest c =>
    simp only [fieldChecks, fieldError, firstError_cons, decide_eq_true_eq]
    rfl
  | mmse c =>
    simp only [fieldChecks, fieldError, firstError_cons, Bool.or_eq_true, Bool.and_eq_true, decide_eq_true_eq,
      isModOrder_fails_iff]
    rfl
  | llr c =>
    simp only [fieldChecks, fieldError, firstError_cons, isModOrder_fails_iff]
    rfl
  | layerDemap c =>
    simp only [fieldChecks, fieldError, firstError_cons, Bool.or_eq_true, decide_eq_true_eq, isModOrder_fails_iff,
      cwActive_same_iff]
    rfl
  | descramble c =>
    simp only [fieldChecks, fieldError, firstError_cons, decide_eq_true_eq]
    rfl
  | ldpcDec c =>
    simp only [fieldChecks, fieldError, firstError_cons, Bool.or_eq_true, decide_eq_true_eq, Bool.not_eq_true',
      ← Bool.not_eq_true, isLiftingSize_iff]
    rfl
  | crc24a c =>
    simp only [fieldChecks, fieldError, firstError_cons, Bool.and_eq_true, decide_eq_true_eq]
    rfl

/-- The error of a command's first failing check is the one the rule reports (60_exceptions.md R402). -/
theorem firstError_checksOf (p : Params) (i : Instr) : firstError (checksOf p i) = reportedError p i := by
  rw [checksOf_eq, firstError_append, firstError_fieldChecks, firstError_bufferChecks, reportedError]

/-! ## Legal commands -/

/-- The checks of `NOP`, `CHEST` and `LDPC_DEC` pass exactly on the legal commands (40_sequencing.md R225, 42_chest.md R260,
47_ldpc.md R360). -/
theorem nopChecks_pass (p : Params) : firstError (checksOf p .nop) = none ↔ legal p .nop := by
  simp [checksOf, firstError, legal, fieldsLegal, buffersOf, inputsOf, outputsOf, pairsOf, buffersLegal]

theorem chestChecks_pass (p : Params) (c : Chest) : firstError (chestChecks p c) = none ↔ legal p (.chest c) := by
  have hsplit := checksOf_eq p (.chest c)
  rw [checksOf] at hsplit
  rw [hsplit, firstError_append, Option.or_eq_none_iff, bufferChecks_pass, firstError_eq_none, legal]
  refine and_congr_left' ?_
  simp only [fieldChecks, fieldsLegal, chestLegal, List.forall_mem_cons, List.not_mem_nil, false_implies, implies_true, and_true,
    decide_eq_false_iff_not, not_le, ne_eq]

theorem ldpcChecks_pass (p : Params) (c : LdpcDec) : firstError (ldpcChecks p c) = none ↔ legal p (.ldpcDec c) := by
  have hsplit := checksOf_eq p (.ldpcDec c)
  rw [checksOf] at hsplit
  rw [hsplit, firstError_append, Option.or_eq_none_iff, bufferChecks_pass, firstError_eq_none, legal]
  refine and_congr_left' ?_
  simp only [fieldChecks, fieldsLegal, ldpcLegal, List.forall_mem_cons, List.not_mem_nil, false_implies, implies_true, and_true,
    Bool.or_eq_false_iff, Bool.not_eq_false', isLiftingSize_iff, decide_eq_false_iff_not, not_lt, ne_eq]

/-- The checks of a command pass exactly when it is legal (40_sequencing.md R224). -/
theorem checksOf_pass (p : Params) (i : Instr) : firstError (checksOf p i) = none ↔ legal p i := by
  cases i with
  | nop => exact nopChecks_pass p
  | fepRx c => exact fepChecks_pass p c
  | chest c => exact chestChecks_pass p c
  | mmse c => exact mmseChecks_pass p c
  | llr c => exact llrChecks_pass p c
  | layerDemap c => exact demapChecks_pass p c
  | descramble c => exact descrambleChecks_pass p c
  | ldpcDec c => exact ldpcChecks_pass p c
  | crc24a c => exact crcChecks_pass p c

theorem reportedError_eq_none_iff (p : Params) (i : Instr) : reportedError p i = none ↔ legal p i := by
  rw [← firstError_checksOf, checksOf_pass]

/-- No check of a command carries the code of no error (60_exceptions.md R401). -/
theorem code_ne_none_of_reportedError (p : Params) (i : Instr) (e : CmdError) (h : reportedError p i = some e) :
    e.code ≠ .none := by
  rw [← firstError_checksOf] at h
  obtain ⟨before, after, hlist, -⟩ := (firstError_eq_some _ _).1 h
  have hmem : (true, e) ∈ fieldChecks p i ++ bufferChecks p (buffersOf i) (pairsOf i) := by
    rw [← checksOf_eq, hlist]
    simp
  have hfields : ∀ c ∈ fieldChecks p i, c.2.code ≠ .none := by cases i <;> simp [fieldChecks]
  have hbuffers : ∀ c ∈ bufferChecks p (buffersOf i) (pairsOf i), c.2.code ≠ .none := by
    intro c hc
    simp only [bufferChecks, List.mem_append, List.mem_map] at hc
    rcases hc with (⟨b, -, rfl⟩ | ⟨b, -, rfl⟩) | ⟨q, -, rfl⟩ <;> simp [alignCheck, rangeCheck, overlapCheck]
  rcases List.mem_append.1 hmem with hc | hc
  · exact hfields _ hc
  · exact hbuffers _ hc

/-! ## What a command can do -/

/-- The three outcomes of a command, in the terms of the statements. -/
theorem exec_cases (i : Instr) (s : State) :
    (∃ e, reportedError s.params i = some e ∧ exec i s = .next (s.errorHalt e))
      ∨ (legal s.params i ∧ effectOf i s = none ∧ exec i s = .fault (.uninitRead s.cmdDone s.cmdPtr))
      ∨ (legal s.params i ∧ ∃ f, effectOf i s = some f ∧ exec i s = .next (s.apply f).complete) := by
  rw [exec_eq, ← firstError_checksOf, ← checksOf_pass]
  exact runCommand_cases _ _ s

/-- The next states of a command: the error halt of an illegal one, the completion of a legal one. -/
theorem exec_eq_next (i : Instr) (s t : State) :
    exec i s = .next t ↔ (∃ e, reportedError s.params i = some e ∧ t = s.errorHalt e)
      ∨ (legal s.params i ∧ ∃ f, effectOf i s = some f ∧ t = (s.apply f).complete) := by
  rw [exec_eq, ← firstError_checksOf, ← checksOf_pass]
  exact runCommand_eq_next _ _ s t

theorem exec_of_reportedError (i : Instr) (s : State) (e : CmdError) (h : reportedError s.params i = some e) :
    exec i s = .next (s.errorHalt e) :=
  (exec_eq_next i s _).2 (.inl ⟨e, h, rfl⟩)

@[simp] theorem State.apply_cmdDone (s : State) (f : Effect) : (s.apply f).cmdDone = s.cmdDone := by rw [State.apply_eq]

/-- A completed command is counted, so it is no error halt. -/
theorem complete_ne_errorHalt (s : State) (f : Effect) (e : CmdError) : (s.apply f).complete ≠ s.errorHalt e := by
  intro h
  have hdone := congrArg State.cmdDone h
  rw [State.complete_cmdDone, State.apply_cmdDone, State.errorHalt_cmdDone] at hdone
  exact absurd hdone (by simp)

theorem errorHalt_injective (s : State) (e e' : CmdError) (h : s.errorHalt e = s.errorHalt e') : e = e' := by
  have hcode := congrArg State.errCode h
  have hinfo := congrArg State.errInfo h
  obtain ⟨code, word⟩ := e
  simp only [State.errorHalt_errCode] at hcode
  simp only [State.errorHalt_errInfo] at hinfo
  rw [hcode, hinfo]

/-- Settles O17: the first failing check is the reported error, and neither another error nor a completion leaves the same state. -/
theorem firstFailingCheckReported : Obligations.FirstFailingCheckReported := by
  intro i s e
  constructor
  · intro h
    rcases (exec_eq_next i s _).1 h with ⟨e', he', hhalt⟩ | ⟨-, f, -, hdone⟩
    · rw [he', errorHalt_injective s e e' hhalt]
    · exact absurd hdone.symm (complete_ne_errorHalt s f e)
  · exact exec_of_reportedError i s e

/-- Settles O18: an illegal command reports an error, whose halt is the whole outcome. -/
theorem illegalCommandHaltsPrecisely : Obligations.IllegalCommandHaltsPrecisely := by
  intro i s hillegal
  rw [← reportedError_eq_none_iff] at hillegal
  obtain ⟨e, he⟩ := Option.ne_none_iff_exists'.1 hillegal
  exact ⟨e, he, code_ne_none_of_reportedError _ _ _ he, by rw [exec_of_reportedError i s e he, State.errorHalt_eq_afterError]⟩

/-- Settles O37: `NOP` has no check and stores nothing. -/
theorem nopCompletes : Obligations.NopCompletes := by
  intro s
  rw [exec_eq, runCommand_of_effect _ _ s (storesOnly []) rfl rfl]
  rfl

end Sys2Proof.Machine
end

section
/-! PROOF. What a command reads (20_memory.md R121, R127, 60_exceptions.md R403): its effect is a computation whose every read lies in an
input buffer, so it succeeds when those are written and depends on nothing else of DMEM. -/

namespace Sys2Proof.Machine

/-! ## Computations that read only given buffers -/

/-- The address lies in one of the buffers. -/
def covers (bufs : List Buf) (a : Nat) : Prop := ∃ b ∈ bufs, b.base ≤ a ∧ a < b.base + bufBytes b

/-- A computation over DMEM reads only bytes of the given buffers: it gives the same on memories that agree there, and a result
where they are all written. -/
structure ReadsOnly {α : Type} (bufs : List Buf) (r : Memory → Option α) : Prop where
  /-- the result depends on the buffers' bytes alone -/
  determined : ∀ m m' : Memory, (∀ a, covers bufs a → m.read a = m'.read a) → r m = r m'
  /-- with those bytes written there is a result -/
  total : ∀ m : Memory, (∀ a, covers bufs a → (m.read a).isSome = true) → (r m).isSome = true

section
variable {α β γ : Type} {bufs : List Buf}

theorem ReadsOnly.byte {a : Nat} (h : covers bufs a) : ReadsOnly bufs (fun m => m.read a) where
  determined _ _ hsame := hsame a h
  total _ hwritten := hwritten a h

theorem ReadsOnly.some (x : α) : ReadsOnly bufs (fun _ => some x) where
  determined _ _ _ := rfl
  total _ _ := rfl

theorem ReadsOnly.map {r : Memory → Option α} (h : ReadsOnly bufs r) (g : α → β) : ReadsOnly bufs (fun m => (r m).map g) where
  determined m m' hsame := by rw [h.determined m m' hsame]
  total m hwritten := by rw [Option.isSome_map, h.total m hwritten]

theorem ReadsOnly.bind {r : Memory → Option α} {k : α → Memory → Option β} (h : ReadsOnly bufs r)
    (hk : ∀ x, ReadsOnly bufs (k x)) : ReadsOnly bufs (fun m => (r m).bind (fun x => k x m)) where
  determined m m' hsame := by
    rw [h.determined m m' hsame]
    exact Option.bind_congr fun x _ => (hk x).determined m m' hsame
  total m hwritten := by
    obtain ⟨x, hx⟩ := Option.isSome_iff_exists.1 (h.total m hwritten)
    rw [hx, Option.bind_some]
    exact (hk x).total m hwritten

theorem ReadsOnly.collectN {n : Nat} {f : Nat → Memory → Option α} (h : ∀ i < n, ReadsOnly bufs (f i)) :
    ReadsOnly bufs (fun m => collectN n (fun i => f i m)) where
  determined m m' hsame := collectN_congr _ _ _ fun i hi => (h i hi).determined m m' hsame
  total m hwritten := by
    obtain ⟨xs, hxs⟩ := collectN_isSome n (fun i => f i m) fun i hi => (h i hi).total m hwritten
    simp [hxs]

theorem collect_cons_eq_bind (o : Option α) (os : List (Option α)) :
    Machine.collect (o :: os) = o.bind (fun x => (Machine.collect os).map (x :: ·)) := by
  cases o <;> rfl

theorem ReadsOnly.collect {xs : List γ} {f : γ → Memory → Option α} (h : ∀ x ∈ xs, ReadsOnly bufs (f x)) :
    ReadsOnly bufs (fun m => Machine.collect (xs.map (fun x => f x m))) := by
  induction xs with
  | nil => exact ReadsOnly.some []
  | cons x xs ih =>
    simp only [List.map_cons, collect_cons_eq_bind]
    exact (h x (by simp)).bind fun y => (ih fun z hz => h z (by simp [hz])).map (y :: ·)

end

/-! ## Elements of a buffer (20_memory.md R128 to R130) -/

section
variable {bufs : List Buf} {b : Buf}

theorem covers_of_mem (hb : b ∈ bufs) {j : Nat} (hj : j < bufBytes b) : covers bufs (b.base + j) :=
  ⟨b, hb, Nat.le_add_right _ _, Nat.add_lt_add_left hj _⟩

theorem ReadsOnly.memRead {a n : Nat} (h : ∀ j < n, covers bufs (a + j)) : ReadsOnly bufs (fun m => memRead m a n) :=
  (ReadsOnly.collectN fun j hj => ReadsOnly.byte (h j hj)).map leNat

theorem ReadsOnly.load16 {a : Nat} (h : ∀ j < 2, covers bufs (a + j)) : ReadsOnly bufs (fun m => load16 m a) :=
  (ReadsOnly.memRead h).map (BitVec.ofNat 16)

theorem ldC16_eq_bind (m : Memory) (a i : Nat) :
    ldC16 m a i = (Machine.load16 m (a + 4 * i)).bind fun re => (Machine.load16 m (a + 4 * i + 2)).map fun im => ⟨re, im⟩ := by
  rw [ldC16]
  cases Machine.load16 m (a + 4 * i) <;> cases Machine.load16 m (a + 4 * i + 2) <;> rfl

theorem ReadsOnly.ldC16 (hb : b ∈ bufs) (helem : b.elem = .c16) {i : Nat} (hi : i < b.count) :
    ReadsOnly bufs (fun m => ldC16 m b.base i) := by
  have hbytes : bufBytes b = 4 * b.count := by rw [bufBytes, helem, elemBytes]
  simp only [ldC16_eq_bind]
  refine ReadsOnly.bind (ReadsOnly.load16 fun j hj => ?_) fun re => ReadsOnly.map (ReadsOnly.load16 fun j hj => ?_) _
  · rw [Nat.add_assoc]
    exact covers_of_mem hb (by omega)
  · rw [Nat.add_assoc, Nat.add_assoc]
    exact covers_of_mem hb (by omega)

theorem ReadsOnly.ldI16 (hb : b ∈ bufs) (helem : b.elem = .i16) {i : Nat} (hi : i < b.count) :
    ReadsOnly bufs (fun m => ldI16 m b.base i) := by
  have hbytes : bufBytes b = 2 * b.count := by rw [bufBytes, helem, elemBytes]
  refine ReadsOnly.map (ReadsOnly.load16 fun j hj => ?_) BitVec.toInt
  rw [Nat.add_assoc]
  exact covers_of_mem hb (by omega)

theorem ReadsOnly.ldU16 (hb : b ∈ bufs) (helem : b.elem = .u16) {i : Nat} (hi : i < b.count) :
    ReadsOnly bufs (fun m => ldU16 m b.base i) := by
  have hbytes : bufBytes b = 2 * b.count := by rw [bufBytes, helem, elemBytes]
  refine ReadsOnly.memRead fun j hj => ?_
  rw [Nat.add_assoc]
  exact covers_of_mem hb (by omega)

theorem ReadsOnly.ldPbit (hb : b ∈ bufs) (helem : b.elem = .pbit) {i : Nat} (hi : i < b.count) :
    ReadsOnly bufs (fun m => ldPbit m b.base i) := by
  have hbytes : bufBytes b = (b.count + 7) / 8 := by rw [bufBytes, helem, elemBytes]
  refine ReadsOnly.map (ReadsOnly.memRead fun j hj => ?_) _
  rw [Nat.add_assoc]
  exact covers_of_mem hb (by omega)

end

/-! ## The nine effects -/

section
variable (s : State)

theorem fepEffect_readsOnly (c : FepRx) (hc : fepLegal c) :
    ReadsOnly (inputsOf (.fepRx c)) (fun m => fepEffect c { s with dmem := m }) := by
  obtain ⟨-, -, -, -, -, -, hguard, hwindow⟩ := hc
  have hstart := fepStart_of_guard_le c hguard
  refine ReadsOnly.map (ReadsOnly.collectN fun n hn => ?_) _
  refine ReadsOnly.ldC16 (b := fepTd c) (by simp [inputsOf]) rfl ?_
  rw [hstart, Int.toNat_natCast]
  exact Nat.lt_of_lt_of_le (Nat.add_lt_add_left hn _) hwindow

theorem chestPos_lt (c : Chest) (hc : chestLegal c) (m : Nat) (hm : m < c.nP) : chestPos c m < c.nSc := by
  obtain ⟨-, -, -, hlast⟩ := hc
  have hle : m * c.stride ≤ (c.nP - 1) * c.stride := Nat.mul_le_mul_right _ (by omega)
  unfold chestPos
  omega

theorem chestPilots_readsOnly (c : Chest) : ReadsOnly (inputsOf (.chest c)) (chestPilots c) := by
  unfold chestPilots
  cases hp : c.pilot with
  | const p => exact ReadsOnly.some _
  | buffer base =>
    have hmem : (⟨2, base, .c16, c.nP⟩ : Buf) ∈ inputsOf (.chest c) := by simp [inputsOf, chestP, hp]
    exact ReadsOnly.collectN fun m hm => (ReadsOnly.ldC16 hmem rfl hm).map ofC16

/-- What `CHEST` leaves, from the samples at the pilots and the pilots (42_chest.md R267). -/
def chestStores (p : Params) (c : Chest) (ys ps : List CInt) : Effect where
  writes := [(c.hBase, (List.range c.nSc).flatMap (fun k => bytesC16 (chestOut c (List.zipWith chestLs ys ps) k))),
    (c.nvAddr, bytes16 (chestNoise p.nvSentinel.toNat c (chestAvg (List.zipWith chestLs ys ps)) ys ps))]
  warnings := chestWarnings ps
  ldpcResult := none
  crcResult := none

theorem chestEffect_eq_bind (c : Chest) :
    chestEffect c s = (chestRx c s.dmem).bind fun ys => (chestPilots c s.dmem).map fun ps => chestStores s.params c ys ps := by
  rw [chestEffect]
  cases chestRx c s.dmem <;> cases chestPilots c s.dmem <;> rfl

theorem chestEffect_readsOnly (c : Chest) (hc : chestLegal c) :
    ReadsOnly (inputsOf (.chest c)) (fun m => chestEffect c { s with dmem := m }) := by
  simp only [chestEffect_eq_bind]
  refine ReadsOnly.bind (ReadsOnly.collectN fun m hm => ?_) fun ys => (chestPilots_readsOnly c).map _
  exact (ReadsOnly.ldC16 (b := chestY c) (by simp [inputsOf]) rfl (chestPos_lt c hc m hm)).map ofC16

theorem mmseSubs_eq_bind (c : Mmse) (m : Memory) :
    mmseSubs c m = (mmseNoise c m).bind fun nv => collectN c.nSc fun k =>
      (mmseRx c m k).bind fun y => (mmseCols c m k).map fun cols => mmseSub c (mmseS2 nv) y cols := by
  rw [mmseSubs]
  cases mmseNoise c m with
  | none => rfl
  | some nv =>
    refine collectN_congr _ _ _ fun k _ => ?_
    cases mmseRx c m k <;> cases mmseCols c m k <;> rfl

theorem mmseEffect_readsOnly (c : Mmse) : ReadsOnly (inputsOf (.mmse c)) (fun m => mmseEffect c { s with dmem := m }) := by
  simp only [mmseEffect_eq, mmseSubs_eq_bind]
  refine ReadsOnly.map (ReadsOnly.bind (ReadsOnly.collectN fun r hr => ?noise) fun nv => ReadsOnly.collectN fun k hk =>
    ReadsOnly.bind (ReadsOnly.collectN fun r hr => ?rx) fun y => (ReadsOnly.collectN fun l hl => ReadsOnly.collectN fun r hr =>
      ?cols).map _) _
  case noise => exact ReadsOnly.ldU16 (b := mmseNv c) (by simp [inputsOf]) rfl hr
  case rx =>
    have hmem : (⟨1, c.yBase + 4 * r * c.yStride, .c16, c.nSc⟩ : Buf) ∈ inputsOf (.mmse c) :=
      List.mem_append_left _ (List.mem_map.2 ⟨r, List.mem_range.2 hr, rfl⟩)
    exact (ReadsOnly.ldC16 hmem rfl hk).map ofC16
  case cols =>
    exact (ReadsOnly.ldC16 (b := mmseH c) (by simp [inputsOf]) rfl (row_index_lt (row_index_lt hl hr) hk)).map ofC16

theorem llrEffect_eq_bind (c : Llr) :
    llrEffect c s = (collectN c.n fun i => (ldC16 s.dmem c.xBase i).bind fun x => (llrSymbolMags c s.dmem i).map fun mags =>
      llrSymbol (ofC16 x) mags).map fun out => storesOnly [(c.llrBase, out.flatten.flatMap bytes16)] := by
  rw [llrEffect]
  congr 1
  refine collectN_congr _ _ _ fun i _ => ?_
  cases ldC16 s.dmem c.xBase i <;> cases llrSymbolMags c s.dmem i <;> rfl

/-- Every magnitude buffer that `qm` uses has one sample for each symbol (44_llr.md R310). -/
theorem llrMags_elem_count (c : Llr) : ∀ b ∈ llrMags c, b.elem = .c16 ∧ b.count = c.n := by
  intro b hb
  simp only [llrMags, List.mem_append, List.mem_ite_nil_right, List.mem_singleton] at hb
  rcases hb with (⟨-, rfl⟩ | ⟨-, rfl⟩) | ⟨-, rfl⟩ <;> exact ⟨rfl, rfl⟩

theorem llrEffect_readsOnly (c : Llr) : ReadsOnly (inputsOf (.llr c)) (fun m => llrEffect c { s with dmem := m }) := by
  simp only [llrEffect_eq_bind]
  refine ReadsOnly.map (ReadsOnly.collectN fun i hi => ReadsOnly.bind ?_ fun x => ReadsOnly.map
    (ReadsOnly.collect fun b hb => ?_) _) _
  · exact ReadsOnly.ldC16 (b := llrX c) (by simp [inputsOf]) rfl hi
  · obtain ⟨helem, hcount⟩ := llrMags_elem_count c b hb
    exact (ReadsOnly.ldC16 (List.mem_cons_of_mem _ hb) helem (hcount ▸ hi)).map ofC16

theorem demapEffect_readsOnly (c : LayerDemap) :
    ReadsOnly (inputsOf (.layerDemap c)) (fun m => demapEffect c { s with dmem := m }) := by
  refine ReadsOnly.map (ReadsOnly.map (ReadsOnly.collectN fun r hr => ReadsOnly.map (ReadsOnly.collectN fun l hl =>
    ReadsOnly.collectN fun b hb => ?_) _) _) _
  have hmem : (⟨1, demapLayer c l, .i16, demapReps c * c.qm⟩ : Buf) ∈ inputsOf (.layerDemap c) :=
    List.mem_map.2 ⟨l, List.mem_range.2 hl, rfl⟩
  exact ReadsOnly.ldI16 hmem rfl (row_index_lt hr hb)

theorem descrambleEffect_readsOnly (c : Descramble) :
    ReadsOnly (inputsOf (.descramble c)) (fun m => descrambleEffect c { s with dmem := m }) :=
  ReadsOnly.map (ReadsOnly.collectN fun _ hi => ReadsOnly.ldI16 (b := descrambleBuf c) (by simp [inputsOf]) rfl hi) _

/-- What the decoder gives for the input LLRs `ins` in the state: the last decision, the iterations and the reason (47_ldpc.md R375). -/
def ldpcOutcome (c : LdpcDec) (ins : List Int) : Decision × Nat × Stop :=
  ldpcDecode s.params.cnAlphaNum s.params.crcInit Config.bgTable c s.abortSeen ins

/-- What `LDPC_DEC` leaves, from the decoder's outcome (47_ldpc.md R372, R374). -/
def ldpcStores (c : LdpcDec) (out : Decision × Nat × Stop) : Effect where
  writes := [(c.outBase, ldpcOutBytes c out.1), (c.resAddr, bytes32 (ldpcResultWord out.1 out.2.1 out.2.2))]
  warnings := 0
  ldpcResult := some (ldpcResultWord out.1 out.2.1 out.2.2)
  crcResult := none

theorem ldpcEffect_eq (c : LdpcDec) :
    ldpcEffect c s = (collectN c.e fun i => ldI16 s.dmem c.inBase i).map fun ins => ldpcStores c (ldpcOutcome s c ins) := rfl

theorem ldpcEffect_readsOnly (c : LdpcDec) :
    ReadsOnly (inputsOf (.ldpcDec c)) (fun m => ldpcEffect c { s with dmem := m }) := by
  have heq : (fun m => ldpcEffect c { s with dmem := m })
      = fun m => (collectN c.e fun i => ldI16 m c.inBase i).map fun ins => ldpcStores c (ldpcOutcome s c ins) := rfl
  rw [heq]
  exact ReadsOnly.map (ReadsOnly.collectN fun _ hi => ReadsOnly.ldI16 (b := ldpcIn c) (by simp [inputsOf]) rfl hi) _

theorem crcEffect_readsOnly (c : Crc24a) : ReadsOnly (inputsOf (.crc24a c)) (fun m => crcEffect c { s with dmem := m }) := by
  have heq : (fun m => crcEffect c { s with dmem := m }) = fun m => (collectN c.nbits fun i => ldPbit m c.dataBase i).map
      fun bs => crcStores c (crcResultWord s.params.crcInit c.mode bs) := rfl
  rw [heq]
  exact ReadsOnly.map (ReadsOnly.collectN fun _ hi => ReadsOnly.ldPbit (b := crcData c) (by simp [inputsOf]) rfl hi) _

/-- The effect of a legal command reads its input buffers alone (20_memory.md R127). -/
theorem effectOf_readsOnly (i : Instr) (h : legal s.params i) :
    ReadsOnly (inputsOf i) (fun m => effectOf i { s with dmem := m }) := by
  cases i with
  | nop => exact ReadsOnly.some _
  | fepRx c => exact fepEffect_readsOnly s c h.1
  | chest c => exact chestEffect_readsOnly s c h.1
  | mmse c => exact mmseEffect_readsOnly s c
  | llr c => exact llrEffect_readsOnly s c
  | layerDemap c => exact demapEffect_readsOnly s c
  | descramble c => exact descrambleEffect_readsOnly s c
  | ldpcDec c => exact ldpcEffect_readsOnly s c
  | crc24a c => exact crcEffect_readsOnly s c

end

/-! ## Completion (40_sequencing.md R224, 60_exceptions.md R403) -/

/-- A legal command whose input bytes are written has an effect. -/
theorem effectOf_of_readable (i : Instr) (s : State) (h : legal s.params i)
    (hread : ∀ a, covers (inputsOf i) a → (s.dmem.read a).isSome = true) : ∃ f, effectOf i s = some f :=
  Option.isSome_iff_exists.1 ((effectOf_readsOnly s i h).total s.dmem hread)

/-- A legal command without an effect has an unwritten input byte. -/
theorem exists_unwritten_of_effectOf_eq_none (i : Instr) (s : State) (h : legal s.params i) (hnone : effectOf i s = none) :
    ∃ a, covers (inputsOf i) a ∧ s.dmem.read a = none := by
  by_contra hall
  push Not at hall
  obtain ⟨f, hf⟩ := effectOf_of_readable i s h fun a ha => Option.isSome_iff_ne_none.2 (hall a ha)
  rw [hnone] at hf
  cases hf

theorem exec_of_effectOf (i : Instr) (s : State) (f : Effect) (h : legal s.params i) (hf : effectOf i s = some f) :
    exec i s = .next (s.apply f).complete :=
  (exec_eq_next i s _).2 (.inr ⟨h, f, hf, rfl⟩)

/-- Settles O19: the reads of a legal command lie in its inputs, so it has an effect and completes. -/
theorem legalCommandCompletes : Obligations.LegalCommandCompletes := by
  intro i s hlegal hread
  obtain ⟨f, hf⟩ := effectOf_of_readable i s hlegal fun a ⟨b, hb, hlo, hhi⟩ => hread b hb a hlo hhi
  refine ⟨_, exec_of_effectOf i s f hlegal hf, ?_⟩
  simp [State.apply_eq]

end Sys2Proof.Machine
end

section
/-! PROOF. What a command writes (20_memory.md R127, 10_state.md R73, R226): its stores fill its output buffers exactly, and its result
registers are its own. -/

namespace Sys2Proof.Machine

/-! ## Runs of stored bytes -/

/-- The address lies in one of the runs of stored bytes. -/
def inWrites (ws : List (Nat × List Byte)) (a : Nat) : Prop := ∃ w ∈ ws, w.1 ≤ a ∧ a < w.1 + w.2.length

theorem read_applyWrites_of_not_inWrites (ws : List (Nat × List Byte)) (m : Memory) (a : Nat) (h : ¬ inWrites ws a) :
    (applyWrites m ws).read a = m.read a :=
  read_applyWrites_outside ws m a fun w hw hr => h ⟨w, hw, hr⟩

theorem isSome_read_store (m : Memory) (b : Nat) (bs : List Byte) (a : Nat)
    (h : (m.read a).isSome = true ∨ (b ≤ a ∧ a < b + bs.length)) : ((m.store b bs).read a).isSome = true := by
  rw [Memory.read_store]
  split
  · next hin => rw [List.getElem?_eq_getElem (by omega), Option.isSome_some]
  · next hout => exact h.resolve_right hout

/-- A stored byte is written, and one written before stays written. -/
theorem isSome_read_applyWrites (ws : List (Nat × List Byte)) (m : Memory) (a : Nat)
    (h : (m.read a).isSome = true ∨ inWrites ws a) : ((applyWrites m ws).read a).isSome = true := by
  induction ws generalizing m with
  | nil =>
    rcases h with h | ⟨w, hw, -⟩
    · exact h
    · exact absurd hw List.not_mem_nil
  | cons w ws ih =>
    refine ih _ ?_
    rcases h with h | ⟨v, hv, hr⟩
    · exact .inl (isSome_read_store m _ _ a (.inl h))
    · rcases List.mem_cons.1 hv with rfl | hv
      · exact .inl (isSome_read_store m _ _ a (.inr hr))
      · exact .inr ⟨v, hv, hr⟩

theorem read_store_congr (m m' : Memory) (b : Nat) (bs : List Byte) (a : Nat)
    (h : m.read a = m'.read a ∨ (b ≤ a ∧ a < b + bs.length)) : (m.store b bs).read a = (m'.store b bs).read a := by
  rw [Memory.read_store, Memory.read_store]
  split
  · rfl
  · next hout => exact h.resolve_right hout

/-- A stored byte is the same whatever the memory was before. -/
theorem read_applyWrites_congr (ws : List (Nat × List Byte)) (m m' : Memory) (a : Nat)
    (h : m.read a = m'.read a ∨ inWrites ws a) : (applyWrites m ws).read a = (applyWrites m' ws).read a := by
  induction ws generalizing m m' with
  | nil =>
    rcases h with h | ⟨w, hw, -⟩
    · exact h
    · exact absurd hw List.not_mem_nil
  | cons w ws ih =>
    refine ih _ _ ?_
    rcases h with h | ⟨v, hv, hr⟩
    · exact .inl (read_store_congr m m' _ _ a (.inl h))
    · rcases List.mem_cons.1 hv with rfl | hv
      · exact .inl (read_store_congr m m' _ _ a (.inr hr))
      · exact .inr ⟨v, hv, hr⟩

/-! ## The stores of each command -/

/-- The runs stored, as base and number of bytes, are the output buffers in order. -/
def FillsOutputs (i : Instr) (f : Effect) : Prop :=
  f.writes.map (fun w => (w.1, w.2.length)) = (outputsOf i).map (fun b => (b.base, bufBytes b))

section
variable (s : State) (f : Effect)

theorem fep_fillsOutputs (c : FepRx) (h : fepEffect c s = some f) : FillsOutputs (.fepRx c) f := by
  obtain ⟨x, -, rfl⟩ := Option.map_eq_some_iff.1 ((fepEffect_eq c s).symm.trans h)
  simp [FillsOutputs, fepStores, storesOnly, outputsOf, fepFd, bufBytes, elemBytes]

theorem chest_fillsOutputs (c : Chest) (h : chestEffect c s = some f) : FillsOutputs (.chest c) f := by
  rw [chestEffect_eq_bind] at h
  obtain ⟨ys, -, hps⟩ := Option.bind_eq_some_iff.1 h
  obtain ⟨ps, -, rfl⟩ := Option.map_eq_some_iff.1 hps
  have hbytes (g : Nat → CInt) : ((List.range c.nSc).flatMap (fun k => bytesC16 (g k))).length = 4 * c.nSc := by
    rw [length_flatMap_const _ 4 (fun k => length_bytesC16 _), List.length_range]
  simp only [FillsOutputs, chestStores, List.map_cons, List.map_nil, hbytes, length_bytes16]
  rfl

theorem mmseSubs_length (c : Mmse) (m : Memory) (subs : List SubResult) (h : mmseSubs c m = some subs) :
    subs.length = c.nSc := by
  rw [mmseSubs_eq_bind] at h
  obtain ⟨nv, -, hsubs⟩ := Option.bind_eq_some_iff.1 h
  exact ((collectN_eq_some _ _ _).1 hsubs).1

theorem mmse_fillsOutputs (c : Mmse) (h : mmseEffect c s = some f) : FillsOutputs (.mmse c) f := by
  obtain ⟨subs, hsubs, rfl⟩ := Option.map_eq_some_iff.1 ((mmseEffect_eq c s).symm.trans h)
  have hlen := mmseSubs_length c _ _ hsubs
  simp only [FillsOutputs, mmseStores, List.map_cons, List.map_nil, length_flatMap_const _ 4 length_bytesC16,
    length_mmseOutSamples, length_mmseMagSamples, hlen]
  rfl

/-- A symbol has two LLRs, and two more for each magnitude. -/
theorem length_llrSymbol (x : CInt) (mags : List CInt) : (llrSymbol x mags).length = 2 + 2 * mags.length := by
  induction mags generalizing x with
  | nil => rfl
  | cons mag mags ih =>
    rw [llrSymbol, List.length_cons, List.length_cons, ih, List.length_cons]
    omega

theorem length_llrMags (c : Llr) (hc : modOrder c.qm) : 2 + 2 * (llrMags c).length = c.qm := by
  rcases hc with h | h | h | h <;> simp [llrMags, h]

theorem length_llrSymbolMags (c : Llr) (m : Memory) (i : Nat) (mags : List CInt) (h : llrSymbolMags c m i = some mags) :
    mags.length = (llrMags c).length := by
  have hlen := congrArg List.length ((collect_eq_some _ _).1 h)
  simpa using hlen.symm

theorem length_flatten_const {α : Type} (xss : List (List α)) (k : Nat) (h : ∀ xs ∈ xss, xs.length = k) :
    xss.flatten.length = k * xss.length := by
  induction xss with
  | nil => rfl
  | cons xs xss ih =>
    rw [List.flatten_cons, List.length_append, h xs (by simp), ih fun ys hys => h ys (by simp [hys]), List.length_cons]
    ring

/-- Every value collected has what each of the reads has. -/
theorem forall_mem_of_collectN {α : Type} {n : Nat} {g : Nat → Option α} {xs : List α} {P : α → Prop}
    (h : collectN n g = some xs) (hP : ∀ i < n, ∀ x, g i = some x → P x) : ∀ x ∈ xs, P x := by
  obtain ⟨hlen, hget⟩ := (collectN_eq_some _ _ _).1 h
  intro x hx
  obtain ⟨i, hi, rfl⟩ := List.getElem_of_mem hx
  exact hP i (hlen ▸ hi) _ ((hget i (hlen ▸ hi)).trans (List.getElem?_eq_getElem hi))

theorem llr_fillsOutputs (c : Llr) (hc : modOrder c.qm) (h : llrEffect c s = some f) : FillsOutputs (.llr c) f := by
  rw [llrEffect_eq_bind] at h
  obtain ⟨out, hout, rfl⟩ := Option.map_eq_some_iff.1 h
  have hsymbols : ∀ xs ∈ out, xs.length = c.qm := forall_mem_of_collectN hout fun i _ xs hxs => by
    obtain ⟨x, -, hmags⟩ := Option.bind_eq_some_iff.1 hxs
    obtain ⟨mags, hm, rfl⟩ := Option.map_eq_some_iff.1 hmags
    rw [length_llrSymbol, length_llrSymbolMags c _ i mags hm, length_llrMags c hc]
  simp only [FillsOutputs, storesOnly, List.map_cons, List.map_nil, length_flatMap_const _ 2 length_bytes16,
    length_flatten_const _ _ hsymbols, ((collectN_eq_some _ _ _).1 hout).1]
  rfl

/-- A codeword is one row of `nl * qm` LLRs for each repetition. -/
theorem length_demapCodeword (c : LayerDemap) (m : Memory) (out : List Int) (hc : demapLegal c)
    (h : demapCodeword c m = some out) : out.length = c.totalLen := by
  obtain ⟨rows, hrows, rfl⟩ := Option.map_eq_some_iff.1 h
  have hrow : ∀ row ∈ rows, row.length = c.qm * c.nl := forall_mem_of_collectN hrows fun r _ row hr => by
    obtain ⟨parts, hparts, rfl⟩ := Option.map_eq_some_iff.1 hr
    rw [length_flatten_const _ c.qm (forall_mem_of_collectN hparts fun l _ part hl => ((collectN_eq_some _ _ _).1 hl).1),
      ((collectN_eq_some _ _ _).1 hparts).1]
  rw [length_flatten_const _ _ hrow, ((collectN_eq_some _ _ _).1 hrows).1, Nat.mul_comm c.qm, demapReps_mul c hc]

theorem demap_fillsOutputs (c : LayerDemap) (hc : demapLegal c) (h : demapEffect c s = some f) :
    FillsOutputs (.layerDemap c) f := by
  obtain ⟨out, hout, rfl⟩ := Option.map_eq_some_iff.1 h
  simp only [FillsOutputs, storesOnly, List.map_cons, List.map_nil, length_flatMap_const _ 2 length_bytes16,
    length_demapCodeword c _ out hc hout, outputsOf, demapOut_eq]
  rfl

theorem descramble_fillsOutputs (c : Descramble) (h : descrambleEffect c s = some f) : FillsOutputs (.descramble c) f := by
  obtain ⟨vs, hvs, rfl⟩ := Option.map_eq_some_iff.1 h
  simp only [FillsOutputs, storesOnly, List.map_cons, List.map_nil, length_flatMap_const _ 2 length_bytes16, goldBits_eq,
    List.length_zipWith, List.length_map, List.length_range, ((collectN_eq_some _ _ _).1 hvs).1, Nat.min_self]
  rfl

@[simp] theorem length_packBits (bs : List Bool) : (packBits bs).length = (bs.length + 7) / 8 := by
  simp [packBits]

/-- The information columns are among the variables (47_ldpc.md R361). -/
theorem ldpcK_le_vars (c : LdpcDec) : ldpcK c ≤ ldpcVars c :=
  Nat.mul_le_mul_right _ (by cases c.bg <;> decide)

/-- A decision has one bit for each variable. -/
theorem length_xhat_ldpcDecide (init : BitVec 24) (c : LdpcDec) (lam : List Int) (r : List Msg) :
    (ldpcDecide init c lam r).xhat.length = ldpcVars c := by
  simp [ldpcDecide]

theorem length_xhat_ldpcLoop (alpha : Nat) (init : BitVec 24) (c : LdpcDec) (lam : List Int) (abort : Nat → Bool)
    (left it : Nat) (r : List Msg) : (ldpcLoop alpha init c lam abort left it r).1.xhat.length = ldpcVars c := by
  induction left generalizing it r with
  | zero =>
    rw [ldpcLoop]
    split <;> exact length_xhat_ldpcDecide _ _ _ _
  | succ left ih =>
    rw [ldpcLoop]
    split
    · exact length_xhat_ldpcDecide _ _ _ _
    · split
      · exact length_xhat_ldpcDecide _ _ _ _
      · exact ih _ _

theorem length_ldpcOutBytes (c : LdpcDec) (d : Decision) (h : d.xhat.length = ldpcVars c) :
    (ldpcOutBytes c d).length = bufBytes (ldpcOut c) := by
  have htake : (d.xhat.take (ldpcK c)).length = ldpcK c := by rw [List.length_take, h, Nat.min_eq_left (ldpcK_le_vars c)]
  rw [ldpcOutBytes, ldpcOut]
  cases c.outmode with
  | packed => simp only [length_packBits, htake, bufBytes, elemBytes]
  | bytes => simp only [List.length_map, htake, bufBytes, elemBytes]

theorem ldpc_fillsOutputs (c : LdpcDec) (h : ldpcEffect c s = some f) : FillsOutputs (.ldpcDec c) f := by
  obtain ⟨ins, -, rfl⟩ := Option.map_eq_some_iff.1 ((ldpcEffect_eq s c).symm.trans h)
  have hbytes := length_ldpcOutBytes c (ldpcOutcome s c ins).1 (length_xhat_ldpcLoop _ _ _ _ _ _ _ _)
  have hbase : (ldpcOut c).base = c.outBase := by
    rw [ldpcOut]
    cases c.outmode <;> rfl
  simp only [FillsOutputs, ldpcStores, List.map_cons, List.map_nil, hbytes, length_bytes32, outputsOf, hbase]
  rfl

theorem crc_fillsOutputs (c : Crc24a) (h : crcEffect c s = some f) : FillsOutputs (.crc24a c) f := by
  obtain ⟨bs, -, rfl⟩ := Option.map_eq_some_iff.1 ((crcEffect_eq c s).symm.trans h)
  simp only [FillsOutputs, crcStores, List.map_cons, List.map_nil, length_bytes32]
  rfl

/-- The stores of a legal command fill its output buffers exactly. -/
theorem effectOf_fillsOutputs (i : Instr) (hl : legal s.params i) (h : effectOf i s = some f) : FillsOutputs i f := by
  cases i with
  | nop =>
    obtain rfl := Option.some.inj h
    rfl
  | fepRx c => exact fep_fillsOutputs s f c h
  | chest c => exact chest_fillsOutputs s f c h
  | mmse c => exact mmse_fillsOutputs s f c h
  | llr c => exact llr_fillsOutputs s f c hl.1 h
  | layerDemap c => exact demap_fillsOutputs s f c hl.1 h
  | descramble c => exact descramble_fillsOutputs s f c h
  | ldpcDec c => exact ldpc_fillsOutputs s f c h
  | crc24a c => exact crc_fillsOutputs s f c h

end

/-- A byte is stored exactly when it lies in an output buffer. -/
theorem FillsOutputs.inWrites_iff {i : Instr} {f : Effect} (h : FillsOutputs i f) (a : Nat) :
    inWrites f.writes a ↔ covers (outputsOf i) a := by
  have hmem : (∃ p ∈ f.writes.map (fun w => (w.1, w.2.length)), p.1 ≤ a ∧ a < p.1 + p.2)
      ↔ ∃ p ∈ (outputsOf i).map (fun b => (b.base, bufBytes b)), p.1 ≤ a ∧ a < p.1 + p.2 := by rw [h]
  simpa only [List.mem_map, exists_exists_and_eq_and, inWrites, covers] using hmem

/-! ## DMEM after a command -/

theorem dmem_apply_complete (s : State) (f : Effect) : (s.apply f).complete.dmem = applyWrites s.dmem f.writes := by
  rw [State.complete_dmem, State.apply_eq]

/-- Settles O20: an error halt keeps DMEM, and a completion stores in the output buffers alone. -/
theorem onlyOutputsWritten : Obligations.OnlyOutputsWritten := by
  intro i s t h a ha
  rcases (exec_eq_next i s t).1 h with ⟨e, -, rfl⟩ | ⟨hlegal, f, hf, rfl⟩
  · rw [State.errorHalt_dmem]
  · rw [dmem_apply_complete]
    apply read_applyWrites_of_not_inWrites
    rw [(effectOf_fillsOutputs s f i hlegal hf).inWrites_iff]
    rintro ⟨b, hb, hr⟩
    exact ha b hb hr

/-- Settles O21: a legal command does not halt, and its stores fill its output buffers. -/
theorem everyOutputByteWritten : Obligations.EveryOutputByteWritten := by
  intro i s t hlegal h b hb a hlo hhi
  rcases (exec_eq_next i s t).1 h with ⟨e, he, -⟩ | ⟨-, f, hf, rfl⟩
  · rw [(reportedError_eq_none_iff _ _).2 hlegal] at he
    cases he
  · rw [dmem_apply_complete]
    exact isSome_read_applyWrites _ _ _ (.inr (((effectOf_fillsOutputs s f i hlegal hf).inWrites_iff a).2 ⟨b, hb, hlo, hhi⟩))

/-- Two completions with one effect on two memories differ in DMEM alone, and there each byte is stored in both or in neither. -/
theorem complete_apply_dmem (s : State) (m : Memory) (f : Effect) :
    ({ s with dmem := m }.apply f).complete
        = { (s.apply f).complete with dmem := ({ s with dmem := m }.apply f).complete.dmem }
      ∧ ∀ a, ((s.apply f).complete.dmem.read a = s.dmem.read a
            ∧ ({ s with dmem := m }.apply f).complete.dmem.read a = m.read a)
          ∨ (s.apply f).complete.dmem.read a = ({ s with dmem := m }.apply f).complete.dmem.read a := by
  refine ⟨by simp [State.apply_eq, State.complete], fun a => ?_⟩
  rw [dmem_apply_complete, dmem_apply_complete]
  by_cases h : inWrites f.writes a
  · exact .inr (read_applyWrites_congr _ _ _ a (.inr h))
  · exact .inl ⟨read_applyWrites_of_not_inWrites _ _ a h, read_applyWrites_of_not_inWrites _ _ a h⟩

/-- Settles O22: the checks read no DMEM and the effect only the inputs, so both states take one outcome with one effect. -/
theorem onlyInputsRead : Obligations.OnlyInputsRead := by
  intro i s m hsame
  rcases exec_cases i s with ⟨e, he, hexec⟩ | ⟨hlegal, hnone, hexec⟩ | ⟨hlegal, f, hf, hexec⟩
  · exact .inl ⟨_, _, hexec, exec_of_reportedError i { s with dmem := m } e he, rfl, fun a => .inl ⟨rfl, rfl⟩⟩
  all_goals
    have heffect : effectOf i { s with dmem := m } = effectOf i s :=
      (effectOf_readsOnly s i hlegal).determined m s.dmem fun a ⟨b, hb, hlo, hhi⟩ => hsame b hb a hlo hhi
  · refine .inr ⟨hexec, ?_⟩
    rw [exec_eq, runCommand, (checksOf_pass s.params i).2 hlegal, heffect, hnone]
  · obtain ⟨hregs, hbytes⟩ := complete_apply_dmem s m f
    exact .inl ⟨_, _, hexec, exec_of_effectOf i { s with dmem := m } f hlegal (heffect.trans hf), hregs, hbytes⟩

/-! ## Result registers (10_state.md R73) -/

/-- Only `LDPC_DEC`, `CRC24A`, and `CHEST` and `MMSE` have a word for `LDPC_RESULT`, one for `CRC_RESULT`, or a warning. -/
theorem effectOf_registers (i : Instr) (s : State) (f : Effect) (h : effectOf i s = some f) :
    ((∀ c, i ≠ .ldpcDec c) → f.ldpcResult = none) ∧ ((∀ c, i ≠ .crc24a c) → f.crcResult = none)
      ∧ ((∀ c, i ≠ .chest c) → (∀ c, i ≠ .mmse c) → f.warnings = 0) := by
  cases i with
  | nop =>
    obtain rfl := Option.some.inj h
    simp [storesOnly]
  | chest c =>
    simp only [effectOf, chestEffect_eq_bind, Option.bind_eq_some_iff, Option.map_eq_some_iff] at h
    obtain ⟨ys, -, ps, -, rfl⟩ := h
    exact ⟨fun _ => rfl, fun _ => rfl, fun hne => absurd rfl (hne c)⟩
  | mmse c =>
    obtain ⟨subs, -, rfl⟩ := Option.map_eq_some_iff.1 ((mmseEffect_eq c s).symm.trans h)
    exact ⟨fun _ => rfl, fun _ => rfl, fun _ hne => absurd rfl (hne c)⟩
  | ldpcDec c =>
    obtain ⟨ins, -, rfl⟩ := Option.map_eq_some_iff.1 ((ldpcEffect_eq s c).symm.trans h)
    exact ⟨fun hne => absurd rfl (hne c), fun _ => rfl, fun _ _ => rfl⟩
  | crc24a c =>
    obtain ⟨bs, -, rfl⟩ := Option.map_eq_some_iff.1 ((crcEffect_eq c s).symm.trans h)
    exact ⟨fun _ => rfl, fun hne => absurd rfl (hne c), fun _ _ => rfl⟩
  | fepRx c | llr c | layerDemap c | descramble c =>
    obtain ⟨x, -, rfl⟩ := Option.map_eq_some_iff.1 h
    exact ⟨fun _ => rfl, fun _ => rfl, fun _ _ => rfl⟩

/-- Settles O23: an error halt touches no result register, a completion those of its effect. -/
theorem resultRegisterFrame : Obligations.ResultRegisterFrame := by
  intro i s t h
  rcases (exec_eq_next i s t).1 h with ⟨e, -, rfl⟩ | ⟨-, f, hf, rfl⟩
  · simp
  · obtain ⟨hldpc, hcrc, hwarn⟩ := effectOf_registers i s f hf
    have hcount : min s.warnCount.toNat 0xFFFFFFFF = s.warnCount.toNat := by
      have := s.warnCount.isLt
      omega
    refine ⟨fun hi => ?_, fun hi => ?_, fun hc hm => ?_, ?_⟩
    · simp [State.apply_eq, hldpc hi]
    · simp [State.apply_eq, hcrc hi]
    · simp [State.apply_eq, hwarn hc hm, hcount]
    · simp [State.apply_eq]

end Sys2Proof.Machine
end

section
/-! PROOF. The engine step and the moves (40_sequencing.md R221, 70_reset_and_hazards.md R462): what a fetch finds, every outcome of an
engine step and of a step, and the statements about one step that follow. -/

namespace Sys2Proof.Machine

/-! ## What a fetch finds (40_sequencing.md R221) -/

theorem bytesOfWord_wordOfBytes (b0 b1 b2 b3 : Byte) : bytesOfWord (wordOfBytes b0 b1 b2 b3) = [b0, b1, b2, b3] := by
  have h0 := b0.isLt
  have h1 := b1.isLt
  have h2 := b2.isLt
  have h3 := b3.isLt
  have hword : (wordOfBytes b0 b1 b2 b3).toNat = b0.toNat + 2 ^ 8 * b1.toNat + 2 ^ 16 * b2.toNat + 2 ^ 24 * b3.toNat := by
    rw [wordOfBytes, toNat_word]
    omega
  rw [bytesOfWord, hword]
  simp only [List.cons.injEq, and_true]
  refine ⟨?_, ?_, ?_, ?_⟩ <;> apply BitVec.eq_of_toNat_eq <;> rw [BitVec.toNat_ofNat] <;> omega

/-- Thirty-two bytes are eight words, whose bytes they are. -/
theorem exists_cmdWords_of_length (bs : List Byte) (h : bs.length = 32) : ∃ w, cmdWordsOfBytes bs = some w ∧ cmdBytes w = bs := by
  match bs, h with
  | [a0, a1, a2, a3, b0, b1, b2, b3, c0, c1, c2, c3, d0, d1, d2, d3, e0, e1, e2, e3, f0, f1, f2, f3, g0, g1, g2, g3,
      k0, k1, k2, k3], _ =>
    refine ⟨⟨wordOfBytes a0 a1 a2 a3, wordOfBytes b0 b1 b2 b3, wordOfBytes c0 c1 c2 c3, wordOfBytes d0 d1 d2 d3,
      wordOfBytes e0 e1 e2 e3, wordOfBytes f0 f1 f2 f3, wordOfBytes g0 g1 g2 g3, wordOfBytes k0 k1 k2 k3⟩, ?_, ?_⟩
    · simp [cmdWordsOfBytes, wordsOfBytes]
    · simp only [cmdBytes, bytesOfWord_wordOfBytes, List.cons_append, List.nil_append]

/-- A fetch inside DMEM gives the words `w` exactly when their 32 bytes stand at `pc`. -/
theorem State.fetch_eq_some_iff (s : State) (w : CmdWords) :
    s.fetchInRange = true ∧ s.fetch = some w ↔ commandAt s w := by
  refine ⟨fun ⟨hrange, hfetch⟩ => ?_, State.fetch_of_commandAt s w⟩
  obtain ⟨bs, hbs, hwords⟩ := Option.bind_eq_some_iff.1 hfetch
  obtain ⟨hlen, hget⟩ := (collectN_eq_some _ _ _).1 hbs
  obtain ⟨w', hw', hbytes⟩ := exists_cmdWords_of_length bs hlen
  obtain rfl := Option.some.inj (hwords.symm.trans hw')
  exact ⟨by simpa [State.fetchInRange] using hrange, fun j hj => by rw [hget j hj, hbytes]⟩

/-- A fetch inside DMEM fails exactly where one of the 32 bytes is unwritten (20_memory.md R121). -/
theorem State.fetch_eq_none_iff (s : State) : s.fetch = none ↔ ∃ j < 32, s.dmem.read (s.cmdPtr.toNat + j) = none := by
  constructor
  · intro h
    by_contra hall
    push Not at hall
    obtain ⟨bs, hbs⟩ := collectN_isSome 32 (fun j => s.dmem.read (s.cmdPtr.toNat + j)) fun j hj =>
      Option.isSome_iff_ne_none.2 (hall j hj)
    obtain ⟨w, hw, -⟩ := exists_cmdWords_of_length bs ((collectN_eq_some _ _ _).1 hbs).1
    rw [State.fetch, loadBytes, hbs, Option.bind_some, hw] at h
    cases h
  · rintro ⟨j, hj, hnone⟩
    rw [State.fetch, Option.bind_eq_none_iff]
    intro bs hbs
    obtain ⟨hlen, hget⟩ := (collectN_eq_some _ _ _).1 hbs
    have := hget j hj
    rw [hnone, List.getElem?_eq_getElem (by omega)] at this
    cases this

/-! ## The latched command -/

theorem State.executeLatched_of_command (s : State) (i : Instr) (h : decode s.latch = .command i) :
    s.executeLatched = exec i s := by
  simp only [State.executeLatched, h]

theorem State.executeLatched_of_reserved (s : State) (k : BitVec 3) (h : decode s.latch = .reservedNonzero k) :
    s.executeLatched = .next (s.errorHalt ⟨.reservedNonzero, k⟩) := by
  simp only [State.executeLatched, h]

/-- A latched command halts with an error, completes, or meets an unwritten input byte. -/
theorem State.executeLatched_cases (s : State) :
    (∃ e : CmdError, e.code ≠ .none ∧ s.executeLatched = .next (s.errorHalt e))
      ∨ ∃ i, decode s.latch = .command i ∧ legal s.params i ∧
          ((effectOf i s = none ∧ s.executeLatched = .fault (.uninitRead s.cmdDone s.cmdPtr))
            ∨ ∃ f, effectOf i s = some f ∧ s.executeLatched = .next (s.apply f).complete) := by
  cases hd : decode s.latch with
  | illegalOpcode => exact .inl ⟨⟨.illegalOpcode, 0⟩, by decide, by simp only [State.executeLatched, hd]⟩
  | reservedNonzero k => exact .inl ⟨⟨.reservedNonzero, k⟩, by simp, s.executeLatched_of_reserved k hd⟩
  | command i =>
    rw [s.executeLatched_of_command i hd]
    rcases exec_cases i s with ⟨e, he, hexec⟩ | ⟨hlegal, hnone, hexec⟩ | ⟨hlegal, f, hf, hexec⟩
    · exact .inl ⟨e, code_ne_none_of_reportedError _ _ _ he, hexec⟩
    · exact .inr ⟨i, rfl, hlegal, .inl ⟨hnone, hexec⟩⟩
    · exact .inr ⟨i, rfl, hlegal, .inr ⟨f, hf, hexec⟩⟩

/-! ## The outcomes of an engine step -/

/-- An engine step completes the command at `pc` and leaves `t`. -/
structure Completes (s t : State) where
  left : s.cmdDone ≠ s.cmdCount
  noAbort : s.abortPending = false
  command : ∃ w i f, commandAt s w ∧ decode w = .command i ∧ legal s.params i ∧ effectOf i { s with latch := w } = some f
    ∧ t = ({ s with latch := w }.apply f).complete

/-- The next states of an engine step: the three halts and a completed command. -/
theorem State.engineStep_eq_next (s t : State) (h : s.engineStep = .next t) :
    (s.cmdDone = s.cmdCount ∧ t = s.haltNormal)
      ∨ (s.cmdDone ≠ s.cmdCount ∧ s.abortPending = true ∧ t = s.haltAborted)
      ∨ (s.cmdDone ≠ s.cmdCount ∧ s.abortPending = false
          ∧ ∃ (l : CmdWords) (e : CmdError), e.code ≠ .none ∧ t = { s with latch := l }.errorHalt e)
      ∨ Completes s t := by
  rcases s.engineStep_cases with ⟨hend, hs⟩ | ⟨hleft, habort, hs⟩ | ⟨hleft, habort, -, hs⟩ | ⟨-, -, -, -, hs⟩
    | ⟨hleft, habort, hrange, w, hw, hs⟩
  all_goals rw [hs] at h
  · exact .inl ⟨hend, (Host.Outcome.next.inj h).symm⟩
  · exact .inr (.inl ⟨hleft, habort, (Host.Outcome.next.inj h).symm⟩)
  · exact .inr (.inr (.inl ⟨hleft, habort, s.latch, ⟨.fetchRange, 0⟩, by decide, (Host.Outcome.next.inj h).symm⟩))
  · cases h
  · rcases { s with latch := w }.executeLatched_cases with ⟨e, he, hx⟩ | ⟨i, hd, hlegal, ⟨-, hx⟩ | ⟨f, hf, hx⟩⟩
    all_goals rw [hx] at h
    · exact .inr (.inr (.inl ⟨hleft, habort, w, e, he, (Host.Outcome.next.inj h).symm⟩))
    · cases h
    · exact .inr (.inr (.inr ⟨hleft, habort, w, i, f, (s.fetch_eq_some_iff w).1 ⟨hrange, hw⟩, hd, hlegal, hf,
        (Host.Outcome.next.inj h).symm⟩))

/-- The faults of an engine step: an unwritten byte of the fetch, or of an input of the legal command at `pc`. -/
theorem State.engineStep_fault_or_next (s : State) :
    (∃ t, s.engineStep = .next t)
      ∨ (s.engineStep = .fault (.uninitRead s.cmdDone s.cmdPtr) ∧ s.cmdPtr.toNat + 32 ≤ s.params.dmemSize
          ∧ ((∃ j < 32, s.dmem.read (s.cmdPtr.toNat + j) = none)
              ∨ ∃ i : Instr, i.wf = true ∧ commandAt s (encode i) ∧ legal s.params i
                  ∧ ∃ b ∈ inputsOf i, ∃ a, inBuf b a = true ∧ s.dmem.read a = none)) := by
  rcases s.engineStep_cases with ⟨-, hs⟩ | ⟨-, -, hs⟩ | ⟨-, -, -, hs⟩ | ⟨-, -, hrange, hw, hs⟩ | ⟨-, -, hrange, w, hw, hs⟩
  · exact .inl ⟨_, hs⟩
  · exact .inl ⟨_, hs⟩
  · exact .inl ⟨_, hs⟩
  · exact .inr ⟨hs, by simpa [State.fetchInRange] using hrange, .inl (s.fetch_eq_none_iff.1 hw)⟩
  · rcases { s with latch := w }.executeLatched_cases with ⟨e, -, hx⟩ | ⟨i, hd, hlegal, ⟨hnone, hx⟩ | ⟨f, -, hx⟩⟩
    · exact .inl ⟨_, hs.trans hx⟩
    · obtain ⟨hw', hwf⟩ := encodeOfDecode w i hd
      have hat : commandAt s (encode i) := hw' ▸ (s.fetch_eq_some_iff w).1 ⟨hrange, hw⟩
      obtain ⟨a, ⟨b, hb, hr⟩, ha⟩ := exists_unwritten_of_effectOf_eq_none i { s with latch := w } hlegal hnone
      exact .inr ⟨hs.trans hx, hat.1, .inr ⟨i, hwf, hat, hlegal, b, hb, a, by simpa [inBuf] using hr, ha⟩⟩
    · exact .inl ⟨_, hs.trans hx⟩

/-! ## Steps of a state about to fetch -/

/-- Settles O7: the latched words are decoded, and the first reserved bit decides. -/
theorem reservedBitHalts : Obligations.ReservedBitHalts := by
  intro s w k hs hw hop hk hbefore hset
  rw [step_of_commandAt s w hs hw]
  exact State.executeLatched_of_reserved _ _ (decode_of_first_reserved w k hop hk hset hbefore)

/-- The engine step of a command at `pc`, whatever the moves to come and the abort inside the step. -/
theorem State.engineStep_of_commandAt (s : State) (i : Instr) (hleft : s.cmdDone ≠ s.cmdCount) (habort : s.abortPending = false)
    (hwf : i.wf = true) (hat : commandAt s (encode i)) : s.engineStep = exec i { s with latch := encode i } := by
  obtain ⟨hrange, hfetch⟩ := s.fetch_of_commandAt _ hat
  simp only [State.engineStep, hleft, habort, hrange, hfetch, if_false, Bool.not_true, Bool.false_eq_true]
  exact State.executeLatched_of_command _ i (decodeOfEncode i hwf)

/-- Settles O5: the fetch finds the command's bytes, which decode to it, for each of the three moves. -/
theorem stepRunsTheDecodedCommand : Obligations.StepRunsTheDecodedCommand := by
  rintro s i rest it ⟨hturns, hrun, hleft, habort⟩ hwf hat
  have hbusy : s.busy = true := by simp [State.busy, hrun]
  refine ⟨?_, ?_, ?_⟩
  · rw [step_of_running s hturns hrun]
    exact s.engineStep_of_commandAt i hleft habort hwf hat
  · exact (if_pos hbusy).trans ({ s with turns := rest }.engineStep_of_commandAt i hleft habort hwf hat)
  · exact (if_pos hbusy).trans (congrArg (mapNext State.landAbort)
      ({ s with turns := rest, midAbort := some it }.engineStep_of_commandAt i hleft habort hwf hat))

/-- Settles O8: the range test comes before the fetch. -/
theorem fetchOutOfRangeHalts : Obligations.FetchOutOfRangeHalts := by
  rintro s ⟨hturns, hrun, hleft, habort⟩ hout
  have hrange : s.fetchInRange = false := by simpa [State.fetchInRange] using hout
  rw [step_of_running s hturns hrun]
  simp only [State.engineStep, hleft, habort, hrange, if_false, Bool.not_false, Bool.false_eq_true, if_true]
  rfl

/-- Settles O9: the fetch of 32 bytes of which one is unwritten has no words. -/
theorem fetchOfUnwrittenFaults : Obligations.FetchOfUnwrittenFaults := by
  rintro s j ⟨hturns, hrun, hleft, habort⟩ hin hj hnone
  have hrange : s.fetchInRange = true := by simpa [State.fetchInRange] using hin
  have hfetch : s.fetch = none := s.fetch_eq_none_iff.2 ⟨j, hj, hnone⟩
  rw [step_of_running s hturns hrun]
  simp only [State.engineStep, hleft, habort, hrange, hfetch, if_false, Bool.not_true, Bool.false_eq_true]

/-- Settles O11: the abort test comes before the fetch. -/
theorem abortedHalt : Obligations.AbortedHalt := by
  intro s hturns hrun hleft habort
  rw [step_of_running s hturns hrun]
  simp only [State.engineStep, hleft, habort, if_false, if_true]
  rfl

/-! ## The moves (70_reset_and_hazards.md R462; log 5) -/

theorem Phase.eq_idle_or_run (p : Phase) : p = .idle ∨ p = .run := by cases p <;> decide

section
variable (s t : State)

/-- The state an engine move steps from: the move used up, and the abort write of an aborted move inside the step. -/
def State.stepping (m : Option Nat) : State := { s with turns := s.turns.tail, midAbort := m }

theorem State.stepping_of_turns_eq_nil (h : s.turns = []) : s.stepping s.midAbort = s := by
  cases s
  simp_all [State.stepping]

theorem State.engineMove_of_idle (h : s.phase = .idle) : s.engineMove = .next s := by simp [State.engineMove, State.busy, h]

theorem State.engineMove_of_run (h : s.phase = .run) : s.engineMove = s.engineStep := by simp [State.engineMove, State.busy, h]

theorem State.engineMoveAborted_of_idle (k : Nat) (h : s.phase = .idle) : s.engineMoveAborted k = .next s := by
  simp [State.engineMoveAborted, State.busy, h]

theorem State.engineMoveAborted_of_run (k : Nat) (h : s.phase = .run) :
    s.engineMoveAborted k = mapNext State.landAbort { s with midAbort := some k }.engineStep := if_pos (decide_eq_true h)

theorem step_of_turns_eq_nil (h : s.turns = []) : step s = s.engineMove := by simp only [step, State.move, h]

theorem step_of_turns_eq_engine (rest : List Turn) (h : s.turns = .engine :: rest) :
    step s = { s with turns := rest }.engineMove := by simp only [step, State.move, h]

theorem step_of_turns_eq_engineAbort (k : Nat) (rest : List Turn) (h : s.turns = .engineAbort k :: rest) :
    step s = { s with turns := rest }.engineMoveAborted k := by simp only [step, State.move, h]

theorem step_of_turns_eq_host (a : HostAccess) (rest : List Turn) (h : s.turns = .host a :: rest) :
    step s = .next ({ s with turns := rest }.hostAccess a) := by simp only [step, State.move, h]

theorem step_of_turns_eq_hardReset (rest : List Turn) (h : s.turns = .hardReset :: rest) :
    step s = .next { s with turns := rest }.hardReset := by simp only [step, State.move, h]

/-- What a step is: an idle engine's move, a running engine's step without or with an abort write inside, a host access or a hard
reset. -/
theorem step_forms :
    (s.phase = .idle ∧ step s = .next { s with turns := s.turns.tail })
      ∨ (s.phase = .run ∧ step s = (s.stepping s.midAbort).engineStep)
      ∨ (s.phase = .run ∧ ∃ k, step s = mapNext State.landAbort (s.stepping (some k)).engineStep)
      ∨ (∃ a rest, s.turns = .host a :: rest ∧ step s = .next ({ s with turns := rest }.hostAccess a))
      ∨ (∃ rest, s.turns = .hardReset :: rest ∧ step s = .next { s with turns := rest }.hardReset) := by
  have htail (m : Option Nat) : s.stepping m = { s with turns := s.turns.tail, midAbort := m } := rfl
  cases hturns : s.turns with
  | nil =>
    have hself := s.stepping_of_turns_eq_nil hturns
    rw [step_of_turns_eq_nil s hturns, hself]
    rcases s.phase.eq_idle_or_run with hp | hp
    · have htail' : { s with turns := [].tail } = s := by rwa [htail, hturns] at hself
      exact .inl ⟨hp, by rw [s.engineMove_of_idle hp, htail']⟩
    · exact .inr (.inl ⟨hp, s.engineMove_of_run hp⟩)
  | cons move rest =>
    simp only [htail, hturns, List.tail_cons]
    cases move with
    | engine =>
      rw [step_of_turns_eq_engine s rest hturns]
      rcases s.phase.eq_idle_or_run with hp | hp
      · exact .inl ⟨hp, State.engineMove_of_idle _ hp⟩
      · exact .inr (.inl ⟨hp, State.engineMove_of_run _ hp⟩)
    | engineAbort k =>
      rw [step_of_turns_eq_engineAbort s k rest hturns]
      rcases s.phase.eq_idle_or_run with hp | hp
      · exact .inl ⟨hp, State.engineMoveAborted_of_idle _ k hp⟩
      · exact .inr (.inr (.inl ⟨hp, k, State.engineMoveAborted_of_run _ k hp⟩))
    | host a => exact .inr (.inr (.inr (.inl ⟨a, rest, rfl, step_of_turns_eq_host s a rest hturns⟩)))
    | hardReset => exact .inr (.inr (.inr (.inr ⟨rest, rfl, step_of_turns_eq_hardReset s rest hturns⟩)))

theorem mapNext_eq_next (f : State → State) (o : Host.Outcome State Fault Refusal) (h : mapNext f o = .next t) :
    ∃ u, o = .next u ∧ t = f u := by
  cases o with
  | next u => exact ⟨u, rfl, (Host.Outcome.next.inj h).symm⟩
  | fault r => cases h
  | refused r => cases h

/-- Every next state of a step. -/
theorem step_cases (h : step s = .next t) :
    (s.phase = .idle ∧ t = { s with turns := s.turns.tail })
      ∨ (s.phase = .run ∧ (s.stepping s.midAbort).engineStep = .next t)
      ∨ (s.phase = .run ∧ ∃ k u, (s.stepping (some k)).engineStep = .next u ∧ t = u.landAbort)
      ∨ (∃ a rest, s.turns = .host a :: rest ∧ t = { s with turns := rest }.hostAccess a)
      ∨ (∃ rest, s.turns = .hardReset :: rest ∧ t = { s with turns := rest }.hardReset) := by
  rcases step_forms s with ⟨hp, hs⟩ | ⟨hp, hs⟩ | ⟨hp, k, hs⟩ | ⟨a, rest, ht, hs⟩ | ⟨rest, ht, hs⟩
  all_goals rw [hs] at h
  · exact .inl ⟨hp, (Host.Outcome.next.inj h).symm⟩
  · exact .inr (.inl ⟨hp, h⟩)
  · exact .inr (.inr (.inl ⟨hp, k, mapNext_eq_next _ _ _ h⟩))
  · exact .inr (.inr (.inr (.inl ⟨a, rest, ht, (Host.Outcome.next.inj h).symm⟩)))
  · exact .inr (.inr (.inr (.inr ⟨rest, ht, (Host.Outcome.next.inj h).symm⟩)))

end

/-- Settles O12: only a running engine's step faults, and it reads the 32 bytes at `pc` and the inputs of the command there. -/
theorem stepOnlyFaultsOnUnwritten : Obligations.StepOnlyFaultsOnUnwritten := by
  intro s
  rcases step_forms s with ⟨-, hs⟩ | ⟨hp, hs⟩ | ⟨hp, k, hs⟩ | ⟨a, rest, -, hs⟩ | ⟨rest, -, hs⟩
  · exact .inl ⟨_, hs⟩
  · rcases (s.stepping s.midAbort).engineStep_fault_or_next with ⟨t, ht⟩ | ⟨hfault, hin, hwhy⟩
    · exact .inl ⟨t, hs.trans ht⟩
    · exact .inr ⟨hs.trans hfault, hp, hin, hwhy⟩
  · rcases (s.stepping (some k)).engineStep_fault_or_next with ⟨t, ht⟩ | ⟨hfault, hin, hwhy⟩
    · exact .inl ⟨t.landAbort, hs.trans (congrArg (mapNext State.landAbort) ht)⟩
    · exact .inr ⟨hs.trans (congrArg (mapNext State.landAbort) hfault), hp, hin, hwhy⟩
  · exact .inl ⟨_, hs⟩
  · exact .inl ⟨_, hs⟩

end Sys2Proof.Machine
end

section
/-! PROOF. The host (10_state.md R53 to R72, 20_memory.md R126, R140 to R142, 60_exceptions.md R421): where an access goes, everything a
host access can do, and the statements about registers, DMEM accesses and resets. -/

namespace Sys2Proof.Machine

/-! ## Where an access goes (20_memory.md R140) -/

section
variable (s : State)

theorem State.target_register (off : Nat) (hoff : off < 0x1000) (halign : off % 4 = 0) :
    s.target off .word = .register off := by
  simp [State.target, accessBytes, halign, hoff]

theorem accessBytes_pos (size : AccessSize) (h : size ≠ .other) : 0 < accessBytes size := by
  cases size <;> simp_all [accessBytes]

theorem window_offset_aligned (size : AccessSize) (hsize : size ≠ .other) (a : Nat) (h : a % accessBytes size = 0) :
    (0x1000000 + a) % accessBytes size = 0 := by
  cases size with
  | other => exact absurd rfl hsize
  | byte | half | word =>
    simp only [accessBytes] at h ⊢
    omega

theorem State.target_dmem (a : Nat) (size : AccessSize) (hidle : s.phase = .idle) (hsize : size ≠ .other)
    (halign : a % accessBytes size = 0) (hin : a + accessBytes size ≤ s.params.dmemSize) :
    s.target (0x1000000 + a) size = .dmem a := by
  have hpos := accessBytes_pos size hsize
  have hword := window_offset_aligned size hsize a halign
  have hbusy : s.busy = false := by simp [State.busy, hidle]
  have hhi : a < s.params.dmemSize := by omega
  have hlo : ¬ 0x1000000 + a < 0x1000 := by omega
  simp [State.target, hsize, hword, hbusy, hhi, hlo]

/-- The accesses of R53, R126, R141, R142 and R421 that fail go nowhere. -/
theorem State.target_busError (off : Nat) (size : AccessSize)
    (h : (s.phase = .run ∧ 0x1000000 ≤ off ∧ off < 0x1000000 + s.params.dmemSize)
      ∨ (0x1000 ≤ off ∧ off < 0x1000000) ∨ 0x1000000 + s.params.dmemSize ≤ off ∨ off % accessBytes size ≠ 0
      ∨ size = .other ∨ (off < 0x1000 ∧ size ≠ .word)) : s.target off size = .busError := by
  unfold State.target
  split
  · rfl
  · next hgood =>
    split
    · next hreg =>
      have hword : size ≠ .word := by
        rintro rfl
        rcases h with h | h | h | h | h | h
        · omega
        · omega
        · omega
        · exact hgood (.inr h)
        · exact hgood (.inl h)
        · exact h.2 rfl
      rw [if_neg hword]
    · next hreg =>
      split
      · next hwin =>
        rcases h with h | h | h | h | h | h
        · rw [if_pos (by simp [State.busy, h.1])]
        · omega
        · omega
        · exact absurd (.inr h) hgood
        · exact absurd (.inl h) hgood
        · omega
      · rfl

/-- An access is a register access, an access of idle DMEM, or a bus error. -/
theorem State.target_cases (off : Nat) (size : AccessSize) :
    (s.target off size = .register off ∧ size = .word ∧ off < 0x1000 ∧ off % 4 = 0)
      ∨ (∃ a, s.target off size = .dmem a ∧ s.phase = .idle ∧ size ≠ .other ∧ a % accessBytes size = 0
          ∧ a < s.params.dmemSize ∧ off = 0x1000000 + a)
      ∨ s.target off size = .busError := by
  unfold State.target
  split
  · exact .inr (.inr rfl)
  · next hgood =>
    push Not at hgood
    obtain ⟨hsize, halign⟩ := hgood
    split
    · next hreg =>
      split
      · next hword => exact .inl ⟨rfl, hword, hreg, by simpa [hword, accessBytes] using halign⟩
      · exact .inr (.inr rfl)
    · split
      · next hwin =>
        split
        · exact .inr (.inr rfl)
        · next hbusy =>
          have hidle : s.phase = .idle := s.phase.eq_idle_or_run.resolve_right (by simpa [State.busy] using hbusy)
          refine .inr (.inl ⟨off - 0x1000000, rfl, hidle, hsize, ?_, by omega, by omega⟩)
          obtain ⟨hlo, -⟩ := hwin
          cases size <;> simp only [accessBytes] at halign ⊢ <;> omega
      · exact .inr (.inr rfl)

/-! ## Accesses of the register window -/

theorem State.hostAccess_read_register (off : Nat) (hoff : off < 0x1000) (halign : off % 4 = 0) :
    s.hostAccess (.read off .word) = { s with response := some ⟨false, s.readReg off⟩ } := by
  simp only [State.hostAccess, s.target_register off hoff halign]

theorem State.hostAccess_write_register (off : Nat) (v : Word) (hoff : off < 0x1000) (halign : off % 4 = 0) :
    s.hostAccess (.write off .word v) = { s.writeReg off v with response := some ⟨false, 0⟩ } := by
  simp only [State.hostAccess, s.target_register off hoff halign]

theorem State.busy_of_idle (h : s.phase = .idle) : s.busy = false := by simp [State.busy, h]

theorem State.busy_of_run (h : s.phase = .run) : s.busy = true := by simp [State.busy, h]

section
variable (v : Word)

/-! ### One equation for each register that takes a write -/

theorem State.writeReg_ctrl : s.writeReg 0x00C v = s.writeCtrl v := rfl

theorem State.writeReg_cmdBase_of_idle (h : s.phase = .idle) :
    s.writeReg 0x020 v = { s with cmdBase := v &&& 0xFFFFFFE0 } := by
  have hwrite : s.writeReg 0x020 v = if s.busy then s else { s with cmdBase := v &&& 0xFFFFFFE0 } := rfl
  rw [hwrite, s.busy_of_idle h, if_neg Bool.false_ne_true]

theorem State.writeReg_cmdCount_of_idle (h : s.phase = .idle) : s.writeReg 0x024 v = { s with cmdCount := v } := by
  have hwrite : s.writeReg 0x024 v = if s.busy then s else { s with cmdCount := v } := rfl
  rw [hwrite, s.busy_of_idle h, if_neg Bool.false_ne_true]

theorem State.writeReg_cmdBase_of_run (h : s.phase = .run) : s.writeReg 0x020 v = s := if_pos (s.busy_of_run h)

theorem State.writeReg_cmdCount_of_run (h : s.phase = .run) : s.writeReg 0x024 v = s := if_pos (s.busy_of_run h)

theorem State.writeReg_irqEn : s.writeReg 0x030 v = { s with irqEn := irqBitsOf v } := rfl

theorem State.writeReg_irqStatus : s.writeReg 0x034 v =
    { s with irqStatus := ⟨s.irqStatus.done && !v.getLsbD 0, s.irqStatus.error && !v.getLsbD 1⟩ } := rfl

theorem State.writeReg_other (off : Nat) (h : off ∉ [0x00C, 0x020, 0x024, 0x030, 0x034]) : s.writeReg off v = s := by
  simp only [List.mem_cons, List.not_mem_nil, or_false, not_or] at h
  obtain ⟨h0, h1, h2, h3, h4⟩ := h
  simp only [State.writeReg, h0, h1, h2, h3, h4, if_false]

theorem State.writeCtrl_of_softReset (h : v.getLsbD 2 = true) : s.writeCtrl v = s.softReset := if_pos h

theorem State.writeCtrl_of_run (h : v.getLsbD 2 = false) (hp : s.phase = .run) :
    s.writeCtrl v = if v.getLsbD 1 then { s with abortPending := true } else s := by
  simp only [State.writeCtrl, h, s.busy_of_run hp, Bool.false_eq_true, if_false, if_true]

theorem State.writeCtrl_of_idle (h : v.getLsbD 2 = false) (hp : s.phase = .idle) :
    s.writeCtrl v = if v.getLsbD 0 then s.startRun else s := by
  simp only [State.writeCtrl, h, s.busy_of_idle hp, Bool.false_eq_true, if_false]

/-- The mask of `CMD_BASE` clears bits [4:0] (10_state.md R63). -/
theorem and_cmdBaseMask (v : Word) : v &&& 0xFFFFFFE0 = BitVec.ofNat 32 (32 * (v.toNat / 32)) := by
  have hmask : ∀ i < 32, (0xFFFFFFE0 : Word).getLsbD i = decide (5 ≤ i) := by decide
  refine BitVec.eq_of_getLsbD_eq fun i hi => ?_
  have hhigh : (32 * (v.toNat / 32)).testBit i = (decide (5 ≤ i) && v.toNat.testBit i) := by
    have hpow : 32 * (v.toNat / 32) = 2 ^ 5 * (v.toNat / 2 ^ 5) := rfl
    rw [hpow, Nat.testBit_two_pow_mul, Nat.testBit_div_two_pow]
    by_cases h5 : 5 ≤ i
    · rw [Nat.sub_add_cancel h5]
    · simp [h5]
  rw [BitVec.getLsbD_and, hmask i hi, BitVec.getLsbD_ofNat, hhigh, Bool.and_comm, decide_eq_true hi, Bool.true_and]
  rfl

end

/-- What a write to a register can do to the state (10_state.md R57 to R72). -/
theorem State.writeReg_cases (off : Nat) (v : Word) :
    s.writeReg off v = s
      ∨ (off = 0x00C ∧ v.getLsbD 2 = true ∧ s.writeReg off v = s.softReset)
      ∨ (off = 0x00C ∧ s.phase = .run ∧ s.writeReg off v = { s with abortPending := true })
      ∨ (off = 0x00C ∧ v.getLsbD 2 = false ∧ v.getLsbD 0 = true ∧ s.phase = .idle ∧ s.writeReg off v = s.startRun)
      ∨ (s.phase = .idle ∧ s.writeReg off v = { s with cmdBase := BitVec.ofNat 32 (32 * (v.toNat / 32)) })
      ∨ (s.phase = .idle ∧ s.writeReg off v = { s with cmdCount := v })
      ∨ (off = 0x030 ∧ s.writeReg off v = { s with irqEn := irqBitsOf v })
      ∨ (off = 0x034 ∧ s.writeReg off v =
          { s with irqStatus := ⟨s.irqStatus.done && !v.getLsbD 0, s.irqStatus.error && !v.getLsbD 1⟩ }) := by
  by_cases hoff : off ∈ [0x00C, 0x020, 0x024, 0x030, 0x034]
  · simp only [List.mem_cons, List.not_mem_nil, or_false] at hoff
    rcases hoff with rfl | rfl | rfl | rfl | rfl
    · rw [State.writeReg_ctrl]
      cases h2 : v.getLsbD 2 with
      | true => exact .inr (.inl ⟨rfl, rfl, s.writeCtrl_of_softReset v h2⟩)
      | false =>
        rcases s.phase.eq_idle_or_run with hp | hp
        · rw [s.writeCtrl_of_idle v h2 hp]
          cases h0 : v.getLsbD 0 with
          | true => exact .inr (.inr (.inr (.inl ⟨rfl, rfl, rfl, hp, rfl⟩)))
          | false => exact .inl rfl
        · rw [s.writeCtrl_of_run v h2 hp]
          cases h1 : v.getLsbD 1 with
          | true => exact .inr (.inr (.inl ⟨rfl, hp, rfl⟩))
          | false => exact .inl rfl
    · rcases s.phase.eq_idle_or_run with hp | hp
      · exact .inr (.inr (.inr (.inr (.inl ⟨hp, by rw [s.writeReg_cmdBase_of_idle v hp, and_cmdBaseMask]⟩))))
      · exact .inl (s.writeReg_cmdBase_of_run v hp)
    · rcases s.phase.eq_idle_or_run with hp | hp
      · exact .inr (.inr (.inr (.inr (.inr (.inl ⟨hp, s.writeReg_cmdCount_of_idle v hp⟩)))))
      · exact .inl (s.writeReg_cmdCount_of_run v hp)
    · exact .inr (.inr (.inr (.inr (.inr (.inr (.inl ⟨rfl, rfl⟩))))))
    · exact .inr (.inr (.inr (.inr (.inr (.inr (.inr ⟨rfl, rfl⟩))))))
  · exact .inl (s.writeReg_other v off hoff)

/-- Everything a host access can do: nothing but the response, a register write, or a store into idle DMEM. -/
theorem State.hostAccess_cases (a : HostAccess) :
    (∃ r : Option Response, s.hostAccess a = { s with response := r })
      ∨ (∃ (off : Nat) (v : Word), a = .write off .word v ∧ off < 0x1000 ∧ off % 4 = 0
          ∧ s.hostAccess a = { s.writeReg off v with response := some ⟨false, 0⟩ })
      ∨ (∃ (x : Nat) (size : AccessSize) (v : Word), s.phase = .idle ∧ size ≠ .other ∧ x % accessBytes size = 0 ∧ x < s.params.dmemSize
          ∧ s.hostAccess a
            = { s with dmem := s.dmem.store x (leBytes (accessBytes size) v.toNat), response := some ⟨false, 0⟩ }) := by
  cases a with
  | read off size =>
    refine .inl ?_
    refine ⟨(s.hostAccess (.read off size)).response, ?_⟩
    rcases s.target_cases off size with ⟨h, -⟩ | ⟨x, h, -⟩ | h <;> simp only [State.hostAccess, h]
  | write off size v =>
    rcases s.target_cases off size with ⟨h, rfl, hoff, halign⟩ | ⟨x, h, hp, hsize, halign, hin, -⟩ | h
    · exact .inr (.inl ⟨off, v, rfl, hoff, halign, by simp only [State.hostAccess, h]⟩)
    · exact .inr (.inr ⟨x, size, v, hp, hsize, halign, hin, by simp only [State.hostAccess, h]⟩)
    · exact .inl ⟨some ⟨true, 0⟩, by simp only [State.hostAccess, h]⟩

end

/-! ## The statements about registers -/

/-- Settles O25: a write of `CTRL` without `SOFT_RESET`, by the phase and its bit. -/
theorem ctrlWrite : Obligations.CtrlWrite := by
  intro s v h2
  have hwrite : s.hostAccess (.write 0x00C .word v) = { s.writeCtrl v with response := some ⟨false, 0⟩ } :=
    s.hostAccess_write_register 0x00C v (by decide) (by decide)
  rw [hwrite]
  refine ⟨fun hp h1 => ?_, fun hp h1 => ?_, fun hp h0 => ?_, fun hp h0 => ?_⟩
  · rw [s.writeCtrl_of_run v h2 hp, h1, if_pos rfl]
  · rw [s.writeCtrl_of_run v h2 hp, h1, if_neg Bool.false_ne_true]
  · rw [s.writeCtrl_of_idle v h2 hp, h0, if_pos rfl]
    rfl
  · rw [s.writeCtrl_of_idle v h2 hp, h0, if_neg Bool.false_ne_true]

/-- Settles O26: the reset state is one state, evaluated. -/
theorem resetValues : Obligations.ResetValues := by
  refine ⟨?_, rfl, rfl, fun a => rfl⟩
  decide

/-- Settles O29: an access that goes nowhere changes nothing but the response. -/
theorem badHostAccessFails : Obligations.BadHostAccessFails := fun s off size v h =>
  s.hostAccess_busError off size v (s.target_busError off size h)

/-- `CAPS` is the sum of its fields, which do not meet (10_state.md R56). -/
theorem toNat_capsWord (p : Params) (h : p.legal) (k : Nat) (hk : p.dmemSize = 2 ^ k) :
    (capsWord p).toNat = k + p.maxRx * 2 ^ 8 + 0x7FF * 2 ^ 12 + 2 ^ 23 := by
  obtain ⟨⟨j, hj, -, hsize⟩, ⟨-, hrx⟩, -⟩ := h
  obtain rfl : k = j := Nat.pow_right_injective (le_refl 2) (hk.symm.trans hsize)
  have hlog : Nat.log2 p.dmemSize = k := by rw [hk, Nat.log2_two_pow]
  have hsizes : Config.fftSizes.length = 11 := rfl
  rw [capsWord, hlog, hsizes, BitVec.toNat_ofNat]
  omega

/-- No register stands past `WARN_COUNT` (10_state.md R53). -/
theorem readReg_past_end (s : State) (off : Nat) (h : 0x040 < off) : s.readReg off = 0 := by
  unfold State.readReg
  repeat rw [if_neg (by omega)]

/-- Settles O31: the register goes on the bus, and the table is read off `readReg`. -/
theorem registerReadHasNoSideEffect : Obligations.RegisterReadHasNoSideEffect := by
  intro s off hoff halign
  refine ⟨s.hostAccess_read_register off hoff halign, readReg_past_end s off, rfl, rfl, rfl, rfl, rfl, rfl, rfl, rfl, rfl, rfl,
    toNat_capsWord s.params, ?_⟩
  have hcode : s.readReg 0x014 = BitVec.ofNat 32 (errCodeVal s.errCode) := rfl
  intro p hp heq
  rw [hcode, heq]
  clear heq
  revert p
  decide

/-- Settles O33: the equation of each register, behind the response. -/
theorem registerWrites : Obligations.RegisterWrites := by
  intro s v
  have hwrite (off : Nat) (hoff : off < 0x1000) (halign : off % 4 = 0) := s.hostAccess_write_register off v hoff halign
  refine ⟨fun hp => ⟨?_, ?_⟩, fun hp => ⟨?_, ?_⟩, ?_, ?_, fun off hoff halign hother => ?_⟩
  · rw [hwrite _ (by decide) (by decide), s.writeReg_cmdBase_of_idle v hp, and_cmdBaseMask]
  · rw [hwrite _ (by decide) (by decide), s.writeReg_cmdCount_of_idle v hp]
  · rw [hwrite _ (by decide) (by decide), s.writeReg_cmdBase_of_run v hp]
  · rw [hwrite _ (by decide) (by decide), s.writeReg_cmdCount_of_run v hp]
  · rw [hwrite _ (by decide) (by decide), s.writeReg_irqEn]
    rfl
  · rw [hwrite _ (by decide) (by decide), s.writeReg_irqStatus]
  · rw [hwrite off hoff halign, s.writeReg_other v off hother]

/-- Bit `b` of a word of flags is flag `b`, and past the flags it is 0. -/
theorem testBit_flagWord (flags : List Bool) (b : Nat) : (flagWord flags).testBit b = flags.getD b false := by
  induction flags generalizing b with
  | nil => simp [flagWord]
  | cons f fs ih =>
    cases b with
    | zero => cases f <;> simp [flagWord, Nat.testBit_zero]
    | succ b =>
      have hdiv : ((if f then 1 else 0) + 2 * flagWord fs) / 2 = flagWord fs := by split <;> omega
      rw [flagWord, Nat.testBit_succ, hdiv, ih, List.getD_cons_succ]

theorem getLsbD_flagWord (flags : List Bool) (b : Nat) (hb : b < 32) :
    (BitVec.ofNat 32 (flagWord flags)).getLsbD b = flags.getD b false := by
  rw [BitVec.getLsbD_ofNat, testBit_flagWord, decide_eq_true hb, Bool.true_and]

/-- Settles O32: the four flag registers are words of flags, and `ERR_INFO` is its three bits. -/
theorem flagRegisterBits : Obligations.FlagRegisterBits := by
  intro s b hb
  have hstatus : s.readReg 0x010 = BitVec.ofNat 32 (flagWord [s.busy, s.done, s.error, s.aborted, s.numwarn]) := rfl
  have hctrl : s.readReg 0x00C = BitVec.ofNat 32 (flagWord [false, s.abortPending]) := rfl
  have hen : s.readReg 0x030 = BitVec.ofNat 32 (flagWord [s.irqEn.done, s.irqEn.error]) := rfl
  have hirq : s.readReg 0x034 = BitVec.ofNat 32 (flagWord [s.irqStatus.done, s.irqStatus.error]) := rfl
  have hinfo : s.readReg 0x01C = s.errInfo.setWidth 32 := rfl
  rw [hstatus, hctrl, hen, hirq, hinfo]
  simp only [getLsbD_flagWord _ b hb, State.busy]
  refine ⟨?_, ?_, ?_, ?_, ?_⟩
  · rcases b with _ | _ | _ | _ | _ | b <;> simp
  · rcases b with _ | _ | b <;> simp
  · rcases b with _ | _ | b <;> simp
  · rcases b with _ | _ | b <;> simp
  · rw [BitVec.getLsbD_setWidth, decide_eq_true hb, Bool.true_and, iff_and_self]
    exact fun h => BitVec.lt_of_getLsbD h

end Sys2Proof.Machine
end

section
/-! PROOF. The invariant of the block (10_state.md sections 1, 2 and 6, 40_sequencing.md R222): it holds at reset, and each thing a step
can do keeps it and the parameters. -/

namespace Sys2Proof.Machine

variable {s : State}

/-! ## Updates that touch few fields -/

theorem Invariant.of_turns (h : Invariant s) (rest : List Turn) : Invariant { s with turns := rest } := { h with }

theorem Invariant.of_response (h : Invariant s) (r : Option Response) : Invariant { s with response := r } := { h with }

theorem Invariant.of_latch (h : Invariant s) (l : CmdWords) : Invariant { s with latch := l } := { h with }

theorem Invariant.of_irqEn (h : Invariant s) (b : IrqBits) : Invariant { s with irqEn := b } := { h with }

theorem Invariant.of_irqStatus (h : Invariant s) (b : IrqBits) : Invariant { s with irqStatus := b } := { h with }

/-- An abort pends only while running. -/
theorem Invariant.of_abortPending (h : Invariant s) (b : Bool) (hb : b = true → s.phase = .run) :
    Invariant { s with abortPending := b } := { h with pendingBusy := hb }

theorem Invariant.of_cmdBase (h : Invariant s) (hidle : s.phase = .idle) (v : Word) (hv : v.toNat % 32 = 0) :
    Invariant { s with cmdBase := v } :=
  { h with
    baseAligned := hv
    runPtr := fun hrun => absurd (hidle.symm.trans hrun) (by decide) }

theorem Invariant.of_cmdCount (h : Invariant s) (hidle : s.phase = .idle) (v : Word) : Invariant { s with cmdCount := v } :=
  { h with runCount := fun hrun => absurd (hidle.symm.trans hrun) (by decide) }

theorem Invariant.of_dmem (h : Invariant s) (m : Memory) (hwf : m.wf = true) (hin : ∀ c ∈ m, c.1 < s.params.dmemSize) :
    Invariant { s with dmem := m } := { h with canonical := hwf, addresses := hin }

/-! ## Reset (10_state.md R78, 70_reset_and_hazards.md R440) -/

theorem invariant_resetWith (p : Params) (hp : p.legal) : Invariant (State.resetWith p) where
  parameters := hp
  canonical := rfl
  addresses := by simp [State.resetWith, State.reset]
  baseAligned := rfl
  ptrAligned := rfl
  pendingBusy := by simp [State.resetWith, State.reset]
  doneNotError := by simp [State.resetWith, State.reset]
  abortedDone := by simp [State.resetWith, State.reset]
  runClear := by simp [State.resetWith, State.reset]
  errorCode := by simp [State.resetWith, State.reset]
  errorCmd := by simp [State.resetWith, State.reset]
  noError := by simp [State.resetWith, State.reset]
  warned := by simp [State.resetWith, State.reset]
  runCount := by simp [State.resetWith, State.reset]
  runPtr := by simp [State.resetWith, State.reset]
  noMidAbort := rfl

theorem default_legal : Params.default.legal := ⟨⟨22, by decide, by decide, by decide⟩, by decide⟩

/-- Settles O16: each field of the reset state, with any legal parameters. -/
theorem resetHasInvariant : Obligations.ResetHasInvariant := ⟨invariant_resetWith, rfl, default_legal⟩

theorem Invariant.hardReset (h : Invariant s) : Invariant s.hardReset :=
  { invariant_resetWith s.params h.parameters with }

theorem mem_loseAll (m : Memory) (bs : List Buf) (c : Host.Cell) (h : c ∈ loseAll m bs) : c ∈ m := by
  induction bs generalizing m with
  | nil => exact h
  | cons b bs ih => exact Memory.mem_lose _ _ _ _ (ih _ h)

theorem Invariant.softReset (h : Invariant s) : Invariant s.softReset :=
  { invariant_resetWith s.params h.parameters with
    canonical := wf_loseAll _ _ h.canonical
    addresses := fun c hc => h.addresses c (mem_loseAll _ _ _ hc)
    noMidAbort := h.noMidAbort }

/-! ## Start, halts and completion -/

theorem Invariant.startRun (h : Invariant s) : Invariant s.startRun :=
  { h with
    ptrAligned := h.baseAligned
    pendingBusy := fun _ => rfl
    doneNotError := by simp
    abortedDone := by simp
    runClear := by simp
    errorCode := by simp
    errorCmd := by simp
    noError := by simp
    warned := by simp
    runCount := by simp
    runPtr := by simp }

/-- A halt without an error: `DONE` comes with no `ERROR`, because a run begins with both clear. -/
theorem Invariant.haltNormal (h : Invariant s) (hrun : s.phase = .run) : Invariant s.haltNormal :=
  { h with
    pendingBusy := by simp
    doneNotError := by simp [h.runClear hrun]
    abortedDone := by simp
    runClear := by simp
    runCount := by simp
    runPtr := by simp }

theorem Invariant.haltAborted (h : Invariant s) (hrun : s.phase = .run) : Invariant s.haltAborted :=
  { h with
    pendingBusy := by simp
    doneNotError := by simp [h.runClear hrun]
    abortedDone := by simp
    runClear := by simp
    runCount := by simp
    runPtr := by simp }

theorem Invariant.errorHalt (h : Invariant s) (hrun : s.phase = .run) (e : CmdError) (he : e.code ≠ .none) :
    Invariant (s.errorHalt e) :=
  { h with
    pendingBusy := by simp
    doneNotError := by simp [h.runClear hrun]
    runClear := by simp
    errorCode := by simp [he]
    errorCmd := by simp
    noError := by simp
    runCount := by simp
    runPtr := by simp }

/-- Counting warnings keeps `NUMWARN` and `WARN_COUNT` together (60_exceptions.md R410). -/
theorem warned_iff (warned : Bool) (count : Word) (n : Nat) (h : warned = true ↔ count ≠ 0) :
    (warned || decide (0 < n)) = true ↔ BitVec.ofNat 32 (min (count.toNat + n) 0xFFFFFFFF) ≠ 0 := by
  have hcount : count ≠ 0 ↔ count.toNat ≠ 0 := by rw [Ne, Ne, ← BitVec.toNat_inj]; rfl
  have hnew : BitVec.ofNat 32 (min (count.toNat + n) 0xFFFFFFFF) ≠ 0 ↔ min (count.toNat + n) 0xFFFFFFFF ≠ 0 := by
    rw [Ne, Ne, ← BitVec.toNat_inj, BitVec.toNat_ofNat, Nat.mod_eq_of_lt (by omega)]
    rfl
  rw [hnew, Bool.or_eq_true, h, hcount, decide_eq_true_iff]
  omega

/-- A legal block's DMEM is below 2^24 bytes. -/
theorem dmemSize_le (p : Params) (h : p.legal) : p.dmemSize ≤ 2 ^ 24 := by
  obtain ⟨⟨k, hk, -, hsize⟩, -⟩ := h
  rw [hsize]
  exact Nat.pow_le_pow_right (by decide) (by omega)

/-- A completed command: the count and `pc` advance together, without wrapping, because the command was inside DMEM. -/
theorem Invariant.complete (h : Invariant s) (hrun : s.phase = .run) (hleft : s.cmdDone ≠ s.cmdCount)
    (hroom : s.cmdPtr.toNat + 32 ≤ s.params.dmemSize) (f : Effect)
    (hin : ∀ a, inWrites f.writes a → a < s.params.dmemSize) : Invariant (s.apply f).complete := by
  have hsize := dmemSize_le s.params h.parameters
  have hcount := h.runCount hrun
  have hptr := h.runPtr hrun
  have hlt : s.cmdDone.toNat < s.cmdCount.toNat := Nat.lt_of_le_of_ne hcount fun heq => hleft (BitVec.eq_of_toNat_eq heq)
  have hmax := s.cmdCount.isLt
  have hdone : (s.cmdDone + 1).toNat = s.cmdDone.toNat + 1 := by
    rw [BitVec.toNat_add]
    exact Nat.mod_eq_of_lt (by simp only [BitVec.reduceToNat]; omega)
  have hnext : (s.cmdPtr + 32).toNat = s.cmdPtr.toNat + 32 := by
    rw [BitVec.toNat_add]
    exact Nat.mod_eq_of_lt (by simp only [BitVec.reduceToNat]; omega)
  rw [State.apply_eq, State.complete]
  exact
    { h with
      canonical := wf_applyWrites _ _ h.canonical
      addresses := fun c hc => (mem_applyWrites _ _ _ hc).elim (h.addresses c) (hin c.1)
      ptrAligned := by
        have := h.ptrAligned
        rw [hnext]
        omega
      errorCmd := fun herr => absurd herr (by simp [h.runClear hrun])
      warned := warned_iff _ _ _ h.warned
      runCount := fun _ => by rw [hdone]; exact hlt
      runPtr := fun _ => by
        rw [hnext, hdone]
        change s.cmdPtr.toNat + 32 = s.cmdBase.toNat + 32 * (s.cmdDone.toNat + 1)
        omega }

/-- The output buffers of a legal command lie inside DMEM (20_memory.md R132). -/
theorem lt_dmemSize_of_covers_outputs (p : Params) (i : Instr) (h : legal p i) (a : Nat) (ha : covers (outputsOf i) a) :
    a < p.dmemSize := by
  obtain ⟨b, hb, hlo, hhi⟩ := ha
  have hmem : b ∈ buffersOf i := by
    cases i with
    | descramble c => exact hb
    | _ => exact List.mem_append_right _ hb
  rcases h.2.2.1 b hmem with hempty | hin
  · omega
  · omega

/-! ## The engine step -/

theorem Invariant.stepping_none (h : Invariant s) : Invariant (s.stepping none) := { h with noMidAbort := rfl }

/-- A completed command is the same with and without the abort inside the step, but for that abort. -/
theorem Invariant.of_completes {t : State} (h : Invariant s) (hrun : s.phase = .run) (m : Option Nat)
    (hc : Completes (s.stepping m) t) : Invariant { t with midAbort := none } ∧ t.params = s.params := by
  obtain ⟨hleft, -, w, i, f, hat, -, hlegal, hf, rfl⟩ := hc
  have hfill := effectOf_fillsOutputs { s.stepping m with latch := w } f i hlegal hf
  have hdone := (h.stepping_none.of_latch w).complete hrun hleft hat.1 f fun a ha =>
    lt_dmemSize_of_covers_outputs s.params i hlegal a ((hfill.inWrites_iff a).1 ha)
  rw [State.apply_eq] at hdone ⊢
  exact ⟨hdone, rfl⟩

/-- The engine step keeps the invariant, but for the abort inside the step, which is still there. -/
theorem Invariant.of_engineStep {t : State} (h : Invariant s) (hrun : s.phase = .run) (m : Option Nat)
    (hs : (s.stepping m).engineStep = .next t) : Invariant { t with midAbort := none } ∧ t.params = s.params := by
  rcases (s.stepping m).engineStep_eq_next t hs with ⟨-, rfl⟩ | ⟨-, -, rfl⟩ | ⟨-, -, l, e, he, rfl⟩ | hc
  · exact ⟨h.stepping_none.haltNormal hrun, rfl⟩
  · exact ⟨h.stepping_none.haltAborted hrun, rfl⟩
  · exact ⟨(h.stepping_none.of_latch l).errorHalt hrun e he, rfl⟩
  · exact h.of_completes hrun m hc

theorem State.engineStep_midAbort (s t : State) (h : s.engineStep = .next t) : t.midAbort = s.midAbort := by
  rcases s.engineStep_eq_next t h with ⟨-, rfl⟩ | ⟨-, -, rfl⟩ | ⟨-, -, l, e, -, rfl⟩ | ⟨-, -, w, i, f, -, -, -, -, rfl⟩
  · rfl
  · rfl
  · rfl
  · simp [State.apply_eq]

/-- With the abort inside the step taken out, the write lands as a pending abort if the engine still runs. -/
theorem Invariant.landAbort {u : State} (h : Invariant { u with midAbort := none }) : Invariant u.landAbort := by
  refine h.of_abortPending (u.abortPending || u.busy) fun hb => ?_
  rcases Bool.or_eq_true_iff.1 hb with hpending | hbusy
  · exact h.pendingBusy hpending
  · simpa [State.busy] using hbusy

/-! ## The host -/

theorem Invariant.writeReg (h : Invariant s) (off : Nat) (v : Word) :
    Invariant (s.writeReg off v) ∧ (s.writeReg off v).params = s.params := by
  rcases s.writeReg_cases off v with hw | ⟨-, -, hw⟩ | ⟨-, hrun, hw⟩ | ⟨-, -, -, -, hw⟩ | ⟨hidle, hw⟩ | ⟨hidle, hw⟩ | ⟨-, hw⟩
    | ⟨-, hw⟩
  all_goals rw [hw]
  · exact ⟨h, rfl⟩
  · exact ⟨h.softReset, rfl⟩
  · exact ⟨h.of_abortPending true fun _ => hrun, rfl⟩
  · exact ⟨h.startRun, rfl⟩
  · refine ⟨h.of_cmdBase hidle _ ?_, rfl⟩
    have := v.isLt
    rw [BitVec.toNat_ofNat]
    omega
  · exact ⟨h.of_cmdCount hidle v, rfl⟩
  · exact ⟨h.of_irqEn _, rfl⟩
  · exact ⟨h.of_irqStatus _, rfl⟩

/-- An aligned access that begins inside DMEM ends inside it, because `DMEM_SIZE` is a power of two from 2^16. -/
theorem access_inside_dmem (p : Params) (hp : p.legal) (x : Nat) (size : AccessSize) (halign : x % accessBytes size = 0)
    (hin : x < p.dmemSize) : x + accessBytes size ≤ p.dmemSize := by
  obtain ⟨⟨k, -, hk, hsize⟩, -⟩ := hp
  have hdvd : 4 ∣ p.dmemSize := by
    rw [hsize]
    exact Nat.pow_dvd_pow 2 (show 2 ≤ k by omega)
  cases size <;> simp only [accessBytes] at halign ⊢ <;> omega

theorem Invariant.hostAccess (h : Invariant s) (a : HostAccess) :
    Invariant (s.hostAccess a) ∧ (s.hostAccess a).params = s.params := by
  rcases s.hostAccess_cases a with ⟨r, hs⟩ | ⟨off, v, -, -, -, hs⟩ | ⟨x, size, v, -, -, halign, hin, hs⟩
  all_goals rw [hs]
  · exact ⟨h.of_response r, rfl⟩
  · obtain ⟨hwrite, hparams⟩ := h.writeReg off v
    exact ⟨hwrite.of_response _, hparams⟩
  · have hend := access_inside_dmem s.params h.parameters x size halign hin
    refine ⟨(h.of_dmem _ (Memory.wf_store _ _ _ h.canonical) fun c hc => ?_).of_response _, rfl⟩
    rcases Memory.mem_store _ _ _ _ hc with hold | ⟨-, hhi⟩
    · exact h.addresses c hold
    · rw [length_leBytes] at hhi
      omega

/-- Settles O15: the moves one by one. -/
theorem stepKeepsInvariant : Obligations.StepKeepsInvariant := by
  intro s t h hs
  rcases step_cases s t hs with ⟨-, rfl⟩ | ⟨hrun, hstep⟩ | ⟨hrun, k, u, hstep, rfl⟩ | ⟨a, rest, -, rfl⟩ | ⟨rest, -, rfl⟩
  · exact ⟨h.of_turns _, rfl⟩
  · obtain ⟨hinv, hparams⟩ := h.of_engineStep hrun _ hstep
    have hmid : t.midAbort = none := (State.engineStep_midAbort _ _ hstep).trans h.noMidAbort
    rw [← hmid] at hinv
    exact ⟨hinv, hparams⟩
  · obtain ⟨hinv, hparams⟩ := h.of_engineStep hrun _ hstep
    exact ⟨hinv.landAbort, hparams⟩
  · exact (h.of_turns rest).hostAccess a
  · exact ⟨(h.of_turns rest).hardReset, rfl⟩

end Sys2Proof.Machine
end

section
/-! PROOF. Runs and moves (10_state.md section 6, 60_exceptions.md R409 to R416, 70_reset_and_hazards.md R461, R462): how the phase
changes, that a run ends, the interrupt output, resuming after an error, and the step of a listed move and of one with an abort inside. -/

namespace Sys2Proof.Machine

/-! ## The outcome bits a step leaves -/

/-- What an engine step leaves of the bits of a run (60_exceptions.md R405, R406, R412, R415). -/
inductive RunBits (s t : State) : Prop where
  | normal (hend : s.cmdDone = s.cmdCount) (hphase : t.phase = .idle) (hdone : t.done = true) (haborted : t.aborted = s.aborted)
      (herror : t.error = s.error) (hirq : t.irqStatus = ⟨true, s.irqStatus.error⟩)
  | aborted (hleft : s.cmdDone ≠ s.cmdCount) (hpending : s.abortPending = true) (hphase : t.phase = .idle) (hdone : t.done = true)
      (haborted : t.aborted = true) (herror : t.error = s.error) (hirq : t.irqStatus = ⟨true, s.irqStatus.error⟩)
  | error (hleft : s.cmdDone ≠ s.cmdCount) (hpending : s.abortPending = false) (hphase : t.phase = .idle) (hdone : t.done = s.done)
      (haborted : t.aborted = s.aborted) (herror : t.error = true) (hcode : t.errCode ≠ .none)
      (hirq : t.irqStatus = ⟨s.irqStatus.done, true⟩)
  | completed (hleft : s.cmdDone ≠ s.cmdCount) (hpending : s.abortPending = false) (hphase : t.phase = s.phase)
      (hcount : t.cmdCount = s.cmdCount) (hnext : t.cmdDone = s.cmdDone + 1) (hturns : t.turns = s.turns)
      (hirq : t.irqStatus = s.irqStatus)

section
variable (s t : State)

theorem State.engineStep_runBits (h : s.engineStep = .next t) : RunBits s t := by
  rcases s.engineStep_eq_next t h with ⟨hend, rfl⟩ | ⟨hleft, hpending, rfl⟩ | ⟨hleft, hpending, l, e, he, rfl⟩
    | ⟨hleft, hpending, w, i, f, -, -, -, -, rfl⟩
  · exact .normal hend rfl rfl rfl rfl rfl
  · exact .aborted hleft hpending rfl rfl rfl rfl rfl
  · exact .error hleft hpending rfl rfl rfl rfl he rfl
  · rw [State.apply_eq]
    exact .completed hleft hpending rfl rfl rfl rfl rfl

/-- No engine step touches the enables (60_exceptions.md R412). -/
theorem State.engineStep_irqEn (h : s.engineStep = .next t) : t.irqEn = s.irqEn := by
  rcases s.engineStep_eq_next t h with ⟨-, rfl⟩ | ⟨-, -, rfl⟩ | ⟨-, -, l, e, -, rfl⟩ | ⟨-, -, w, i, f, -, -, -, -, rfl⟩
  · rfl
  · rfl
  · rfl
  · rw [State.apply_eq]
    rfl

/-- A write of the registers other than `CTRL` keeps the phase, and one of `CTRL` without its reset starts a run or keeps it. -/
theorem State.hostAccess_phase (a : HostAccess) :
    (s.hostAccess a).phase = s.phase
      ∨ (∃ v, a = .write 0x00C .word v ∧ v.getLsbD 2 = true
          ∧ s.hostAccess a = { s.softReset with response := some ⟨false, 0⟩ })
      ∨ (∃ v, a = .write 0x00C .word v ∧ v.getLsbD 2 = false ∧ v.getLsbD 0 = true ∧ s.phase = .idle
          ∧ (s.hostAccess a).phase = .run) := by
  rcases s.hostAccess_cases a with ⟨r, hs⟩ | ⟨off, v, rfl, -, -, hs⟩ | ⟨x, size, v, -, -, -, -, hs⟩
  · exact .inl (by rw [hs])
  · rcases s.writeReg_cases off v with hw | ⟨rfl, h2, hw⟩ | ⟨-, -, hw⟩ | ⟨rfl, h2, h0, hidle, hw⟩ | ⟨-, hw⟩ | ⟨-, hw⟩ | ⟨-, hw⟩
      | ⟨-, hw⟩
    all_goals rw [hw] at hs
    · exact .inl (by rw [hs])
    · exact .inr (.inl ⟨v, rfl, h2, hs⟩)
    · exact .inl (by rw [hs])
    · exact .inr (.inr ⟨v, rfl, h2, h0, hidle, by rw [hs]; rfl⟩)
    all_goals exact .inl (by rw [hs])
  · exact .inl (by rw [hs])

/-- After a soft reset every register reads as after a hard one (70_reset_and_hazards.md R442). -/
theorem State.readReg_softReset (off : Nat) : s.softReset.readReg off = (State.resetWith s.params).readReg off := rfl

end

theorem Phase.idle_ne_run : Phase.idle ≠ .run := by decide

/-- The three ends of a run by the engine itself (10_state.md R77). -/
theorem RunBits.of_idle {s t : State} (h : RunBits s t) (hrun : s.phase = .run) (hidle : t.phase = .idle) :
    (s.cmdDone = s.cmdCount ∧ t.done = true ∧ t.aborted = s.aborted ∧ t.error = s.error)
      ∨ (s.cmdDone ≠ s.cmdCount ∧ s.abortPending = true ∧ t.done = true ∧ t.aborted = true ∧ t.error = s.error)
      ∨ (s.cmdDone ≠ s.cmdCount ∧ s.abortPending = false ∧ t.error = true ∧ t.errCode ≠ .none ∧ t.done = s.done
          ∧ t.aborted = s.aborted) := by
  cases h with
  | normal hend _ hdone haborted herror _ => exact .inl ⟨hend, hdone, haborted, herror⟩
  | aborted hleft hpending _ hdone haborted herror _ => exact .inr (.inl ⟨hleft, hpending, hdone, haborted, herror⟩)
  | error hleft hpending _ hdone haborted herror hcode _ =>
    exact .inr (.inr ⟨hleft, hpending, herror, hcode, hdone, haborted⟩)
  | completed _ _ hphase _ _ _ _ => exact absurd (hidle.symm.trans (hphase.trans hrun)) (by decide)

/-- Settles O13: the phase along each move; only `CTRL` and the four ends of a run change it. -/
theorem phaseChanges : Obligations.PhaseChanges := by
  intro s t h
  rcases step_cases s t h with ⟨hidle, rfl⟩ | ⟨hrun, hstep⟩ | ⟨hrun, k, u, hstep, rfl⟩ | ⟨a, rest, hturns, rfl⟩
    | ⟨rest, hturns, rfl⟩
  · exact ⟨fun _ ht => absurd (hidle.symm.trans ht) (by decide), fun hs _ => absurd (hidle.symm.trans hs) (by decide)⟩
  · refine ⟨fun hs _ => absurd (hrun.symm.trans hs) (by decide), fun _ ht => ?_⟩
    rcases (State.engineStep_runBits _ _ hstep).of_idle hrun ht with h | h | h
    · exact .inl h
    · exact .inr (.inl h)
    · exact .inr (.inr (.inl h))
  · refine ⟨fun hs _ => absurd (hrun.symm.trans hs) (by decide), fun _ ht => ?_⟩
    rcases (State.engineStep_runBits _ _ hstep).of_idle hrun ht with h | h | h
    · exact .inl h
    · exact .inr (.inl h)
    · exact .inr (.inr (.inl h))
  · rcases { s with turns := rest }.hostAccess_phase a with hsame | ⟨v, rfl, h2, ht⟩ | ⟨v, rfl, h2, h0, hidle, hrun⟩
    · exact ⟨fun hs ht => absurd (hs.symm.trans (hsame.symm.trans ht)) (by decide),
        fun hs ht => absurd (hs.symm.trans (hsame.symm.trans ht)) (by decide)⟩
    · rw [ht]
      exact ⟨fun _ hrun => (Phase.idle_ne_run hrun).elim,
        fun _ _ => .inr (.inr (.inr ⟨.inl ⟨v, rest, hturns, h2⟩, fun off _ => State.readReg_softReset _ off⟩))⟩
    · exact ⟨fun _ _ => ⟨v, rest, hturns, h0, h2⟩, fun hs => absurd (hs.symm.trans hidle) (by decide)⟩
  · exact ⟨fun _ hrun => (Phase.idle_ne_run hrun).elim,
      fun _ _ => .inr (.inr (.inr ⟨.inr ⟨rest, hturns⟩, fun off _ => State.readReg_hardReset _ off⟩))⟩

/-- Settles O35: of the four results of an engine step, three end the run, each with its bit. -/
theorem haltSetsOnePendingBit : Obligations.HaltSetsOnePendingBit := by
  intro s t hturns hrun hs hidle
  rw [step_of_running s hturns hrun] at hs
  refine ⟨s.engineStep_irqEn t hs, ?_⟩
  cases s.engineStep_runBits t hs with
  | normal _ _ hdone _ _ hirq => exact .inl ⟨hdone, hirq⟩
  | aborted _ _ _ hdone _ _ hirq => exact .inl ⟨hdone, hirq⟩
  | error _ _ _ _ _ herror _ hirq => exact .inr ⟨herror, hirq⟩
  | completed _ _ hphase _ _ _ _ => exact absurd (hidle.symm.trans (hphase.trans hrun)) (by decide)

/-! ## The interrupt output (60_exceptions.md R411, R412) -/

theorem State.irq_iff (s : State) : s.irq = true ↔
    (s.irqStatus.done = true ∧ s.irqEn.done = true) ∨ (s.irqStatus.error = true ∧ s.irqEn.error = true) := by
  simp only [State.irq, Bool.or_eq_true, Bool.and_eq_true]

/-- No pending bit and no enable is lost, so the output stays asserted. -/
def IrqKept (s t : State) : Prop :=
  t.irqEn = s.irqEn ∧ (s.irqStatus.done = true → t.irqStatus.done = true) ∧ (s.irqStatus.error = true → t.irqStatus.error = true)

theorem IrqKept.irq {s t : State} (h : IrqKept s t) (hs : s.irq = true) : t.irq = true := by
  obtain ⟨hen, hdone, herror⟩ := h
  rw [State.irq_iff] at hs ⊢
  rw [hen]
  exact hs.imp (And.imp_left hdone) (And.imp_left herror)

theorem irqKept_of_eq {s t : State} (hen : t.irqEn = s.irqEn) (hirq : t.irqStatus = s.irqStatus) : IrqKept s t :=
  ⟨hen, by rw [hirq]; exact id, by rw [hirq]; exact id⟩

theorem State.engineStep_irqKept (s t : State) (h : s.engineStep = .next t) : IrqKept s t := by
  refine ⟨s.engineStep_irqEn t h, ?_⟩
  cases s.engineStep_runBits t h with
  | normal _ _ _ _ _ hirq => exact ⟨fun _ => by rw [hirq], fun he => by rw [hirq]; exact he⟩
  | aborted _ _ _ _ _ _ hirq => exact ⟨fun _ => by rw [hirq], fun he => by rw [hirq]; exact he⟩
  | error _ _ _ _ _ _ _ hirq => exact ⟨fun hd => by rw [hirq]; exact hd, fun _ => by rw [hirq]⟩
  | completed _ _ _ _ _ _ hirq => exact ⟨fun hd => by rw [hirq]; exact hd, fun he => by rw [hirq]; exact he⟩

/-- The host accesses that can lower the interrupt output. -/
theorem State.hostAccess_irqKept (s : State) (a : HostAccess) :
    IrqKept s (s.hostAccess a)
      ∨ ∃ off v, a = .write off .word v
          ∧ (off = 0x030 ∨ (off = 0x034 ∧ (v.getLsbD 0 = true ∨ v.getLsbD 1 = true)) ∨ (off = 0x00C ∧ v.getLsbD 2 = true)) := by
  rcases s.hostAccess_cases a with ⟨r, hs⟩ | ⟨off, v, rfl, -, -, hs⟩ | ⟨x, size, v, -, -, -, -, hs⟩
  · exact .inl (by rw [hs]; exact irqKept_of_eq rfl rfl)
  · rcases s.writeReg_cases off v with hw | ⟨rfl, h2, hw⟩ | ⟨-, -, hw⟩ | ⟨-, -, -, -, hw⟩ | ⟨-, hw⟩ | ⟨-, hw⟩ | ⟨rfl, hw⟩
      | ⟨rfl, hw⟩
    case inr.inl => exact .inr ⟨0x00C, v, rfl, .inr (.inr ⟨rfl, h2⟩)⟩
    case inr.inr.inr.inr.inr.inr.inl => exact .inr ⟨0x030, v, rfl, .inl rfl⟩
    case inr.inr.inr.inr.inr.inr.inr =>
      by_cases hbits : v.getLsbD 0 = true ∨ v.getLsbD 1 = true
      · exact .inr ⟨0x034, v, rfl, .inr (.inl ⟨rfl, hbits⟩)⟩
      · obtain ⟨h0, h1⟩ : v.getLsbD 0 = false ∧ v.getLsbD 1 = false := by simpa using hbits
        rw [hs, hw, h0, h1]
        exact .inl (irqKept_of_eq rfl (by simp))
    all_goals
      rw [hs, hw]
      exact .inl (irqKept_of_eq rfl rfl)
  · exact .inl (by rw [hs]; exact irqKept_of_eq rfl rfl)

/-- Settles O34: the formula, its form after a write of the enables, and that no other move loses a pending bit or an enable. -/
theorem interruptOutput : Obligations.InterruptOutput := by
  refine ⟨State.irq_iff, fun s v => ?_, fun s t hs hirq hlow => ?_⟩
  · rw [s.hostAccess_write_register 0x030 v (by decide) (by decide), s.writeReg_irqEn, State.irq_iff]
    rfl
  · rcases step_cases s t hs with ⟨-, rfl⟩ | ⟨-, hstep⟩ | ⟨-, k, u, hstep, rfl⟩ | ⟨a, rest, hturns, rfl⟩ | ⟨rest, hturns, rfl⟩
    · exact absurd (hirq.symm.trans hlow) (by decide)
    · exact absurd (((State.engineStep_irqKept _ _ hstep).irq hirq).symm.trans hlow) (by decide)
    · exact absurd (((State.engineStep_irqKept _ _ hstep).irq hirq).symm.trans hlow) (by decide)
    · rcases { s with turns := rest }.hostAccess_irqKept a with hkept | ⟨off, v, rfl, hwhich⟩
      · exact absurd ((hkept.irq hirq).symm.trans hlow) (by decide)
      · exact .inl ⟨off, v, rest, hturns, hwhich⟩
    · exact .inr ⟨rest, hturns⟩

/-! ## Resuming (60_exceptions.md R409) -/

/-- Settles O36: `pc` is aligned, so it survives the mask of `CMD_BASE`, and `ERR_CMD` is `CMD_DONE`. -/
theorem resumeAfterError : Obligations.ResumeAfterError := by
  intro s h hidle herror t
  have hbase : BitVec.ofNat 32 (32 * (s.cmdPtr.toNat / 32)) = s.cmdPtr := by
    rw [Nat.mul_div_cancel' (Nat.dvd_of_mod_eq_zero h.ptrAligned), BitVec.ofNat_toNat, BitVec.setWidth_eq]
  obtain ⟨hwriteBase, -⟩ := (registerWrites s s.cmdPtr).1 hidle
  rw [hbase] at hwriteBase
  let u : State := { s with cmdBase := s.cmdPtr, response := some ⟨false, 0⟩ }
  have hcount := ((registerWrites u (s.cmdCount - s.errCmd)).1 hidle).2
  have hstart := (ctrlWrite { u with cmdCount := s.cmdCount - s.errCmd } 1 (by decide)).2.2.1 hidle (by decide)
  simp only [t, hwriteBase]
  refine (congrArg (fun s' => State.hostAccess s' (.write 0x00C .word 1)) hcount).trans ?_
  exact hstart.trans (by simp only [u, h.errorCmd herror])

end Sys2Proof.Machine
end

section
/-! PROOF. A run ends (70_reset_and_hazards.md R461), and the step of a listed move and of one with an abort inside
(70_reset_and_hazards.md R462; log 5, log 6). -/

namespace Sys2Proof.Machine

/-! ## A run ends -/

section
variable (s t : State)

theorem run_succ_of_next (M : Host.Core) (k : Nat) (x y : M.State) (h : M.step x = .next y) : M.run (k + 1) x = M.run k y := by
  simp only [Host.Core.run, h]

theorem run_one_of_fault (M : Host.Core) (x : M.State) (f : M.Fault) (h : M.step x = .fault f) : M.run 1 x = .fault f := by
  simp only [Host.Core.run, h]

/-- A running engine's step ends the run, or completes one more command of the list. -/
theorem RunBits.ends_or_advances (h : RunBits s t) (hle : s.cmdDone.toNat ≤ s.cmdCount.toNat) :
    t.phase = .idle
      ∨ (t.phase = s.phase ∧ t.turns = s.turns ∧ t.cmdCount = s.cmdCount ∧ t.cmdDone.toNat = s.cmdDone.toNat + 1
          ∧ s.cmdDone.toNat < s.cmdCount.toNat) := by
  cases h with
  | normal _ hphase _ _ _ _ => exact .inl hphase
  | aborted _ _ hphase _ _ _ _ => exact .inl hphase
  | error _ _ hphase _ _ _ _ _ => exact .inl hphase
  | completed hleft _ hphase hcount hnext hturns _ =>
    have hlt : s.cmdDone.toNat < s.cmdCount.toNat := by
      have := mt BitVec.eq_of_toNat_eq hleft
      omega
    exact .inr ⟨hphase, hturns, hcount, by rw [hnext]; bv_omega, hlt⟩

end

/-- Settles O14: each step ends the run or completes a command, so the commands left bound the steps. -/
theorem everyRunEnds : Obligations.EveryRunEnds := by
  intro s
  induction hn : s.cmdCount.toNat - s.cmdDone.toNat generalizing s with
  | zero =>
    intro hturns hrun hle
    have hstep := step_of_running s hturns hrun
    rcases s.engineStep_fault_or_next with ⟨t, ht⟩ | ⟨hfault, -⟩
    · rcases (s.engineStep_runBits t ht).ends_or_advances s t hle with hidle | ⟨-, -, -, -, hlt⟩
      · exact ⟨1, by omega, .inl ⟨t, run_succ_of_next core 0 s t (hstep.trans ht), hidle⟩⟩
      · omega
    · exact ⟨1, by omega, .inr ⟨_, _, run_one_of_fault core s _ (hstep.trans hfault)⟩⟩
  | succ n ih =>
    intro hturns hrun hle
    have hstep := step_of_running s hturns hrun
    rcases s.engineStep_fault_or_next with ⟨t, ht⟩ | ⟨hfault, -⟩
    · rcases (s.engineStep_runBits t ht).ends_or_advances s t hle with hidle | ⟨hphase, hturns', hcount, hdone, hlt⟩
      · exact ⟨1, by omega, .inl ⟨t, run_succ_of_next core 0 s t (hstep.trans ht), hidle⟩⟩
      · obtain ⟨k, hk, hend⟩ := ih t (by rw [hcount]; omega) (hturns'.trans hturns) (hphase.trans hrun) (by rw [hcount]; omega)
        refine ⟨k + 1, by omega, ?_⟩
        rwa [run_succ_of_next core k s t (hstep.trans ht)]
    · exact ⟨1, by omega, .inr ⟨_, _, run_one_of_fault core s _ (hstep.trans hfault)⟩⟩

/-! ## The engine step's branches (40_sequencing.md R221) -/

section
variable (s : State) (hleft : s.cmdDone ≠ s.cmdCount)
include hleft

theorem State.engineStep_of_abortPending (h : s.abortPending = true) : s.engineStep = .next s.haltAborted := by
  simp only [State.engineStep, if_neg hleft, h, if_true]

variable (habort : s.abortPending = false)
include habort

theorem State.engineStep_of_not_fetchInRange (h : s.fetchInRange = false) :
    s.engineStep = .next (s.errorHalt ⟨.fetchRange, 0⟩) := by
  simp [State.engineStep, hleft, habort, h]

variable (hrange : s.fetchInRange = true)
include hrange

theorem State.engineStep_of_fetch_none (h : s.fetch = none) : s.engineStep = .fault (.uninitRead s.cmdDone s.cmdPtr) := by
  simp [State.engineStep, hleft, habort, hrange, h]

theorem State.engineStep_of_fetch_some (w : CmdWords) (h : s.fetch = some w) :
    s.engineStep = { s with latch := w }.executeLatched := by
  simp [State.engineStep, hleft, habort, hrange, h]

end

/-! ## The moves to come, and an abort inside the step -/

section
variable (s : State) (rest : List Turn)

/-- What a command does says nothing of the moves to come. -/
theorem exec_of_turns (i : Instr) : exec i { s with turns := rest } = mapNext (fun t => { t with turns := rest }) (exec i s) := by
  have heffect : effectOf i { s with turns := rest } = effectOf i s := by cases i <;> rfl
  rw [exec_eq, exec_eq]
  unfold runCommand
  rw [heffect]
  cases firstError (checksOf s.params i) with
  | some e => rfl
  | none =>
    cases effectOf i s with
    | none => rfl
    | some f => simp [mapNext, State.apply_eq, State.complete]

theorem executeLatched_of_turns :
    { s with turns := rest }.executeLatched = mapNext (fun t => { t with turns := rest }) s.executeLatched := by
  unfold State.executeLatched
  cases hd : decode s.latch with
  | illegalOpcode => simp only [mapNext]; rfl
  | reservedNonzero k => simp only [mapNext]; rfl
  | command i => simpa only [hd] using exec_of_turns s rest i

/-- What an engine step does says nothing of the moves to come. -/
theorem State.engineStep_of_turns :
    { s with turns := rest }.engineStep = mapNext (fun t => { t with turns := rest }) s.engineStep := by
  rcases s.engineStep_cases with ⟨hend, hs⟩ | ⟨hleft, habort, hs⟩ | ⟨hleft, habort, hrange, hs⟩ | ⟨hleft, habort, hrange, hw, hs⟩
    | ⟨hleft, habort, hrange, w, hw, hs⟩
  all_goals rw [hs]
  · exact State.engineStep_of_listEnd _ hend
  · exact State.engineStep_of_abortPending _ hleft habort
  · exact State.engineStep_of_not_fetchInRange _ hleft habort hrange
  · exact State.engineStep_of_fetch_none _ hleft habort hrange hw
  · rw [State.engineStep_of_fetch_some { s with turns := rest } hleft habort hrange w hw]
    exact executeLatched_of_turns { s with latch := w } rest

/-- How the next state `u` of a step with an abort inside compares with `t`, that of the step without. -/
structure AbortInside (m : Option Nat) (t u : State) : Prop where
  same : u = { t with turns := rest, midAbort := m, dmem := u.dmem, ldpcResult := u.ldpcResult }
  outputs : (t.phase ≠ s.phase ∨ ∀ c : LdpcDec, c.wf = true → ¬ commandAt s (encode (.ldpcDec c))) →
    u.dmem = t.dmem ∧ u.ldpcResult = t.ldpcResult

theorem AbortInside.of_eq (m : Option Nat) (t : State) : AbortInside s rest m t { t with turns := rest, midAbort := m } :=
  ⟨rfl, fun _ => ⟨rfl, rfl⟩⟩

/-- The outcome `o'` of a step with an abort inside, for the outcome `o` of the step without. -/
structure OutcomeInside (m : Option Nat) (o o' : Host.Outcome State Fault Refusal) : Prop where
  fault : ∀ f, o = .fault f → o' = .fault f
  next : ∀ t, o = .next t → ∃ u, o' = .next u ∧ AbortInside s rest m t u

theorem OutcomeInside.of_eq_mapNext (m : Option Nat) (o o' : Host.Outcome State Fault Refusal)
    (h : o' = mapNext (fun t => { t with turns := rest, midAbort := m }) o) : OutcomeInside s rest m o o' where
  fault := by rintro f rfl; exact h
  next := by rintro t rfl; exact ⟨_, h, AbortInside.of_eq s rest m t⟩

/-- A latched command with an abort inside: an `LDPC_DEC` may stop early, any other command does the same. -/
theorem executeLatched_abortInside (w : CmdWords) (m : Option Nat) (hat : commandAt s w) :
    OutcomeInside s rest m { s with latch := w }.executeLatched { s with latch := w, turns := rest, midAbort := m }.executeLatched := by
  unfold State.executeLatched
  cases hd : decode w with
  | illegalOpcode => exact OutcomeInside.of_eq_mapNext s rest m (.next _) _ rfl
  | reservedNonzero k => exact OutcomeInside.of_eq_mapNext s rest m (.next _) _ rfl
  | command i =>
    by_cases hi : ∃ c, i = .ldpcDec c
    · obtain ⟨c, rfl⟩ := hi
      obtain ⟨hnext, hfault⟩ := execLdpcDec_turns c { s with latch := w } rest m
      refine ⟨hfault, fun t ht => ?_⟩
      obtain ⟨u, hu, hsame, hout⟩ := hnext t ht
      refine ⟨u, hu, hsame, ?_⟩
      rintro (hphase | hno)
      · exact hout hphase
      · obtain ⟨hw, hwf⟩ := encodeOfDecode w _ hd
        exact absurd (hw ▸ hat) (hno c hwf)
    · exact OutcomeInside.of_eq_mapNext s rest m _ _ (exec_turns i (fun c hc => hi ⟨c, hc⟩) { s with latch := w } rest m)

/-- An engine step with an abort inside. -/
theorem State.engineStep_abortInside (m : Option Nat) :
    OutcomeInside s rest m s.engineStep { s with turns := rest, midAbort := m }.engineStep := by
  rcases s.engineStep_cases with ⟨hend, hs⟩ | ⟨hleft, habort, hs⟩ | ⟨hleft, habort, hrange, hs⟩ | ⟨hleft, habort, hrange, hw, hs⟩
    | ⟨hleft, habort, hrange, w, hw, hs⟩
  all_goals rw [hs]
  · rw [State.engineStep_of_listEnd { s with turns := rest, midAbort := m } hend]
    exact OutcomeInside.of_eq_mapNext s rest m (.next _) _ rfl
  · rw [State.engineStep_of_abortPending { s with turns := rest, midAbort := m } hleft habort]
    exact OutcomeInside.of_eq_mapNext s rest m (.next _) _ rfl
  · rw [State.engineStep_of_not_fetchInRange { s with turns := rest, midAbort := m } hleft habort hrange]
    exact OutcomeInside.of_eq_mapNext s rest m (.next _) _ rfl
  · rw [State.engineStep_of_fetch_none { s with turns := rest, midAbort := m } hleft habort hrange hw]
    exact OutcomeInside.of_eq_mapNext s rest m (.fault _) _ rfl
  · rw [State.engineStep_of_fetch_some { s with turns := rest, midAbort := m } hleft habort hrange w hw]
    exact executeLatched_abortInside s rest w m ((s.fetch_eq_some_iff w).1 ⟨hrange, hw⟩)

/-- An engine step that ends the run leaves no abort pending. -/
theorem State.engineStep_abortPending_of_idle (t : State) (h : s.engineStep = .next t) (hrun : s.phase = .run)
    (hidle : t.phase = .idle) : t.abortPending = false := by
  rcases s.engineStep_eq_next t h with ⟨-, rfl⟩ | ⟨-, -, rfl⟩ | ⟨-, -, l, e, -, rfl⟩ | ⟨-, -, w, i, f, -, -, -, -, rfl⟩
  · rfl
  · rfl
  · rfl
  · rw [State.apply_eq] at hidle
    exact absurd (hidle.symm.trans hrun) (by decide)

end

/-- A running engine's move with an abort inside. -/
theorem State.engineMoveAborted_of_engineStep (s : State) (rest : List Turn) (it : Nat) (hrun : s.phase = .run) :
    (∀ f, s.engineStep = .fault f → { s with turns := rest }.engineMoveAborted it = .fault f)
      ∧ ∀ t, s.engineStep = .next t →
          ∃ u, { s with turns := rest }.engineMoveAborted it = .next u.landAbort ∧ AbortInside s rest (some it) t u := by
  have hmove := State.engineMoveAborted_of_run { s with turns := rest } it hrun
  have hinside := s.engineStep_abortInside rest (some it)
  refine ⟨fun f hf => hmove.trans (by rw [hinside.fault f hf]; rfl), fun t ht => ?_⟩
  obtain ⟨u, hu, hsame⟩ := hinside.next t ht
  exact ⟨u, hmove.trans (by rw [hu]; rfl), hsame⟩

/-- Settles O24: an engine step says nothing of the moves to come, and an abort inside it reaches only an `LDPC_DEC`'s outputs. -/
theorem stepTakesTheNextTurn : Obligations.StepTakesTheNextTurn := by
  intro s a rest it
  let s₀ : State := { s with turns := [] }
  have hnone : step s₀ = s₀.engineMove := step_of_turns_eq_nil s₀ rfl
  have hengine : step { s with turns := .engine :: rest } = { s with turns := rest }.engineMove :=
    step_of_turns_eq_engine _ rest rfl
  have habort : step { s with turns := .engineAbort it :: rest } = { s with turns := rest }.engineMoveAborted it :=
    step_of_turns_eq_engineAbort _ it rest rfl
  refine ⟨step_of_turns_eq_host _ a rest rfl, step_of_turns_eq_hardReset _ rest rfl, fun hidle => ?_, fun f hf => ?_, fun t ht => ?_,
    fun t hrun hmid ht => ?_⟩
  · exact ⟨hnone.trans (State.engineMove_of_idle _ hidle), hengine.trans (State.engineMove_of_idle _ hidle),
      habort.trans (State.engineMoveAborted_of_idle _ it hidle)⟩
  · rw [hengine, habort]
    rw [hnone] at hf
    rcases s.phase.eq_idle_or_run with hidle | hrun
    · rw [State.engineMove_of_idle s₀ hidle] at hf
      cases hf
    · rw [State.engineMove_of_run s₀ hrun] at hf
      rw [State.engineMove_of_run { s with turns := rest } hrun]
      exact ⟨(s₀.engineStep_of_turns rest).trans (by rw [hf]; rfl), (s₀.engineMoveAborted_of_engineStep rest it hrun).1 f hf⟩
  · rw [hengine]
    rw [hnone] at ht
    rcases s.phase.eq_idle_or_run with hidle | hrun
    · rw [State.engineMove_of_idle s₀ hidle] at ht
      cases ht
      exact State.engineMove_of_idle { s with turns := rest } hidle
    · rw [State.engineMove_of_run s₀ hrun] at ht
      rw [State.engineMove_of_run { s with turns := rest } hrun]
      exact (s₀.engineStep_of_turns rest).trans (by rw [ht]; rfl)
  · rw [hnone, State.engineMove_of_run s₀ hrun] at ht
    obtain ⟨u, hu, hsame, hout⟩ := (s₀.engineMoveAborted_of_engineStep rest it hrun).2 t ht
    have htmid : t.midAbort = none := (State.engineStep_midAbort s₀ t ht).trans hmid
    rw [habort]
    constructor
    · intro hidle
      have hpending := State.engineStep_abortPending_of_idle s₀ t ht hrun hidle
      refine ⟨hpending, hu.trans (congrArg _ ?_)⟩
      obtain ⟨hdmem, hresult⟩ := hout (.inl (by rw [hidle]; exact fun h => absurd (h.trans hrun) (by decide)))
      rw [hsame, hdmem, hresult]
      simp [State.landAbort, State.busy, hidle, hpending, htmid]
    · intro htrun
      refine ⟨_, hu, ?_, fun hno => hout (.inr hno)⟩
      rw [hsame]
      simp [State.landAbort, State.busy, htrun, htmid]

end Sys2Proof.Machine
end

section
/-! PROOF. Soft reset (70_reset_and_hazards.md R442; log 14) and the host's accesses of DMEM (20_memory.md R121, R122, R126; log 4). -/

namespace Sys2Proof.Machine

/-! ## Soft reset -/

section
variable (s : State)

/-- The command a soft reset interrupts is the one a fetch and its checks would find at `pc`. -/
theorem State.interruptedOutputs_of_commandAt (i : Instr) (hwf : i.wf = true) (hat : commandAt s (encode i))
    (hlegal : legal s.params i) : s.interruptedOutputs = outputsOf i := by
  obtain ⟨hrange, hfetch⟩ := (s.fetch_eq_some_iff (encode i)).2 hat
  simp [State.interruptedOutputs, hrange, hfetch, decodeOfEncode i hwf, (checksOf_pass s.params i).2 hlegal]

theorem State.interruptedOutputs_eq_nil (h : ∀ i : Instr, i.wf = true → legal s.params i → ¬ commandAt s (encode i)) :
    s.interruptedOutputs = [] := by
  unfold State.interruptedOutputs
  split
  · next hrange =>
    split
    · rfl
    · next w hfetch =>
      have hat := (s.fetch_eq_some_iff w).1 ⟨hrange, hfetch⟩
      split
      · next i hd =>
        obtain ⟨hw, hwf⟩ := encodeOfDecode w i hd
        refine if_neg fun hpass => h i hwf ?_ (hw ▸ hat)
        exact (checksOf_pass s.params i).1 (Option.isNone_iff_eq_none.1 hpass)
      · rfl
  · rfl

theorem State.softReset_dmem_of_idle (h : s.phase = .idle) : s.softReset.dmem = s.dmem := by
  simp [State.softReset, s.busy_of_idle h, loseAll]

theorem State.softReset_dmem_of_run (h : s.phase = .run) : s.softReset.dmem = loseAll s.dmem s.interruptedOutputs := by
  simp [State.softReset, s.busy_of_run h]

end

/-- Settles O28: the registers are the reset state's; the memory by what the engine was doing. -/
theorem softReset : Obligations.SoftReset := by
  intro s v h2 t
  have ht : t = { s.softReset with response := some ⟨false, 0⟩ } := by
    simp only [t, s.hostAccess_write_register 0x00C v (by decide) (by decide), State.writeReg_ctrl,
      State.writeCtrl_of_softReset s v h2]
  have hdmem : t.dmem = s.softReset.dmem := by rw [ht]
  refine ⟨fun off _ => ?_, ?_, ?_, ?_, fun hidle => ?_, fun hrun i hwf hat hlegal a => ?_, fun hrun hno => ?_⟩
  · exact (congrArg (State.readReg · off) ht).trans (State.readReg_softReset s off)
  · exact congrArg State.phase ht
  · exact congrArg State.abortPending ht
  · exact congrArg State.irq ht
  · exact hdmem.trans (s.softReset_dmem_of_idle hidle)
  · rw [hdmem, s.softReset_dmem_of_run hrun, s.interruptedOutputs_of_commandAt i hwf hat hlegal, read_loseAll]
  · rw [hdmem, s.softReset_dmem_of_run hrun, s.interruptedOutputs_eq_nil hno]
    rfl

/-! ## Little-endian bytes -/

theorem pow_256_eq (j : Nat) : 256 ^ j = 2 ^ (8 * j) := by rw [Nat.pow_mul]

theorem leNat_lt (bs : List Byte) : leNat bs < 256 ^ bs.length := by
  induction bs with
  | nil => simp [leNat]
  | cons b bs ih =>
    have := b.isLt
    simp only [leNat, List.length_cons, Nat.pow_succ]
    omega

/-- Byte `j` of a little-endian value. -/
theorem leNat_div_mod (bs : List Byte) (j : Nat) (b : Byte) (h : bs[j]? = some b) : leNat bs / 2 ^ (8 * j) % 256 = b.toNat := by
  induction bs generalizing j with
  | nil => simp at h
  | cons c bs ih =>
    have hc := c.isLt
    cases j with
    | zero =>
      simp only [List.getElem?_cons_zero, Option.some.injEq] at h
      subst h
      simp only [leNat]
      omega
    | succ j =>
      have hpow : 2 ^ (8 * (j + 1)) = 256 * 2 ^ (8 * j) := by rw [← pow_256_eq, ← pow_256_eq, Nat.pow_succ, Nat.mul_comm]
      rw [hpow, ← Nat.div_div_eq_div_mul]
      have hdiv : leNat (c :: bs) / 256 = leNat bs := by simp only [leNat]; omega
      rw [hdiv]
      exact ih j (by simpa using h)

theorem getElem?_leBytes (n v j : Nat) (h : j < n) : (leBytes n v)[j]? = some (BitVec.ofNat 8 (v / 2 ^ (8 * j))) := by
  induction n generalizing v j with
  | zero => omega
  | succ n ih =>
    cases j with
    | zero => simp [leBytes]
    | succ j =>
      have hpow : 2 ^ (8 * (j + 1)) = 256 * 2 ^ (8 * j) := by rw [← pow_256_eq, ← pow_256_eq, Nat.pow_succ, Nat.mul_comm]
      simp only [leBytes, List.getElem?_cons_succ]
      rw [ih _ _ (by omega), hpow, ← Nat.div_div_eq_div_mul]

/-! ## Accesses of DMEM -/

theorem pow_accessBytes_le (size : AccessSize) : 256 ^ accessBytes size ≤ 2 ^ 32 := by cases size <;> decide

section
variable (s : State)

/-- The bytes a host read of DMEM takes. -/
def State.hostBytes (a n : Nat) : List Byte := (List.range n).map (fun j => s.hostByte (a + j))

theorem State.toNat_hostLoad (a : Nat) (size : AccessSize) :
    (s.hostLoad a (accessBytes size)).toNat = leNat (s.hostBytes a (accessBytes size)) := by
  have hlt := leNat_lt (s.hostBytes a (accessBytes size))
  have hle := pow_accessBytes_le size
  simp only [State.hostBytes, List.length_map, List.length_range] at hlt
  simp only [State.hostLoad, State.hostBytes, BitVec.toNat_ofNat]
  exact Nat.mod_eq_of_lt (by omega)

theorem State.hostByte_of_read (a : Nat) (b : Byte) (h : s.dmem.read a = some b) : s.hostByte a = b := by
  simp [State.hostByte, h]

theorem State.hostBytes_eq_of_read (a : Nat) (bs : List Byte) (h : ∀ j < bs.length, s.dmem.read (a + j) = bs[j]?) :
    s.hostBytes a bs.length = bs := by
  refine List.ext_getElem (by simp [State.hostBytes]) fun j _ hj => ?_
  have hread := h j hj
  rw [List.getElem?_eq_getElem hj] at hread
  simpa [State.hostBytes] using s.hostByte_of_read _ _ hread

variable (a : Nat) (size : AccessSize) (v : Word) (hidle : s.phase = .idle) (hsize : size ≠ .other)
  (halign : a % accessBytes size = 0) (hin : a + accessBytes size ≤ s.params.dmemSize)
include hidle hsize halign hin

theorem State.hostAccess_read_dmem :
    s.hostAccess (.read (0x1000000 + a) size) = { s with response := some ⟨false, s.hostLoad a (accessBytes size)⟩ } := by
  simp only [State.hostAccess, s.target_dmem a size hidle hsize halign hin]

theorem State.hostAccess_write_dmem :
    s.hostAccess (.write (0x1000000 + a) size v)
      = { s with dmem := s.dmem.store a (leBytes (accessBytes size) v.toNat), response := some ⟨false, 0⟩ } := by
  simp only [State.hostAccess, s.target_dmem a size hidle hsize halign hin]

/-- An aligned read while idle (20_memory.md R122, R126). -/
theorem State.hostAccess_read_dmem_bytes :
    ∃ d : Word, s.hostAccess (.read (0x1000000 + a) size) = { s with response := some ⟨false, d⟩ }
      ∧ d.toNat < 2 ^ (8 * accessBytes size)
      ∧ ∀ j < accessBytes size, d.toNat / 2 ^ (8 * j) % 256 = (s.hostByte (a + j)).toNat := by
  refine ⟨_, s.hostAccess_read_dmem a size hidle hsize halign hin, ?_, fun j hj => ?_⟩
  · rw [s.toNat_hostLoad, ← pow_256_eq]
    simpa [State.hostBytes] using leNat_lt (s.hostBytes a (accessBytes size))
  · rw [s.toNat_hostLoad]
    exact leNat_div_mod _ j _ (by simp [State.hostBytes, hj])

/-- A read of what a write has put there. -/
theorem State.hostAccess_read_after_write :
    (s.hostAccess (.write (0x1000000 + a) size v)).hostAccess (.read (0x1000000 + a) size)
      = { s.hostAccess (.write (0x1000000 + a) size v) with
          response := some ⟨false, BitVec.ofNat 32 (v.toNat % 2 ^ (8 * accessBytes size))⟩ } := by
  rw [s.hostAccess_write_dmem a size v hidle hsize halign hin]
  let t : State := { s with dmem := s.dmem.store a (leBytes (accessBytes size) v.toNat), response := some ⟨false, 0⟩ }
  have hbytes : t.hostBytes a (accessBytes size) = leBytes (accessBytes size) v.toNat := by
    have := t.hostBytes_eq_of_read a (leBytes (accessBytes size) v.toNat) (fun j hj => Memory.read_store_inside _ _ _ _ hj)
    rwa [length_leBytes] at this
  have hload : t.hostLoad a (accessBytes size) = BitVec.ofNat 32 (v.toNat % 2 ^ (8 * accessBytes size)) := by
    rw [State.hostLoad, ← pow_256_eq, ← leNat_leBytes, ← hbytes]
    rfl
  rw [← hload]
  exact t.hostAccess_read_dmem a size hidle hsize halign hin

end

/-! ## The draw for an unwritten byte (log 4) -/

/-- Two states draw the same for every unwritten byte. -/
def sameDraws (s t : State) : Prop := t.hardResets = s.hardResets ∧ t.losses = s.losses

theorem hostByte_eq_of_sameDraws (s t : State) (a : Nat) (h : sameDraws s t) (hs : s.dmem.read a = none)
    (ht : t.dmem.read a = none) : t.hostByte a = s.hostByte a := by
  obtain ⟨hresets, hlosses⟩ := h
  simp only [State.hostByte, hs, ht, hresets, hlosses]

theorem sameDraws_engineStep (s t : State) (h : s.engineStep = .next t) : sameDraws s t := by
  rcases s.engineStep_eq_next t h with ⟨-, rfl⟩ | ⟨-, -, rfl⟩ | ⟨-, -, l, e, -, rfl⟩ | ⟨-, -, w, i, f, -, -, -, -, rfl⟩
  · exact ⟨rfl, rfl⟩
  · exact ⟨rfl, rfl⟩
  · exact ⟨rfl, rfl⟩
  · rw [State.apply_eq]
    exact ⟨rfl, rfl⟩

/-- No host access but a soft reset changes the draws. -/
theorem sameDraws_hostAccess (s : State) (a : HostAccess) (h : ∀ v, a = .write 0x00C .word v → v.getLsbD 2 = false) :
    sameDraws s (s.hostAccess a) := by
  rcases s.hostAccess_cases a with ⟨r, hs⟩ | ⟨off, v, rfl, -, -, hs⟩ | ⟨x, size, v, -, -, -, -, hs⟩
  all_goals rw [hs]
  · exact ⟨rfl, rfl⟩
  · rcases s.writeReg_cases off v with hw | ⟨rfl, h2, -⟩ | ⟨-, -, hw⟩ | ⟨-, -, -, -, hw⟩ | ⟨-, hw⟩ | ⟨-, hw⟩ | ⟨-, hw⟩
      | ⟨-, hw⟩
    · rw [hw]; exact ⟨rfl, rfl⟩
    · exact absurd ((h v rfl).symm.trans h2) Bool.false_ne_true
    all_goals rw [hw]; exact ⟨rfl, rfl⟩
  · exact ⟨rfl, rfl⟩

/-- Settles O30: reads and writes of idle DMEM through their bytes, and the draws along every move but a reset. -/
theorem hostDmemAccess : Obligations.HostDmemAccess := by
  refine ⟨fun s a size v hidle hsize halign hin => ⟨?_, ?_⟩, fun s t a hstep hs ht hhard hsoft => ?_⟩
  · obtain ⟨d, haccess, hlt, hbyte⟩ := s.hostAccess_read_dmem_bytes a size hidle hsize halign hin
    refine ⟨d, haccess, hlt, fun j hj => ⟨fun b hb => ?_, fun _ => hbyte j hj⟩⟩
    rw [hbyte j hj, s.hostByte_of_read _ b hb]
  · refine ⟨?_, fun j hj => ?_, fun x hx => ?_, s.hostAccess_read_after_write a size v hidle hsize halign hin⟩
    all_goals simp only [s.hostAccess_write_dmem a size v hidle hsize halign hin]
    · rw [Memory.read_store_inside _ _ _ _ (by simpa using hj), getElem?_leBytes _ _ _ hj]
    · exact Memory.read_store_outside _ _ _ _ (by simpa using hx)
  · refine hostByte_eq_of_sameDraws s t a ?_ hs ht
    rcases step_cases s t hstep with ⟨-, rfl⟩ | ⟨-, hengine⟩ | ⟨-, k, u, hengine, rfl⟩ | ⟨acc, rest, hturns, rfl⟩
      | ⟨rest, hturns, rfl⟩
    · exact ⟨rfl, rfl⟩
    · exact sameDraws_engineStep (s.stepping s.midAbort) t hengine
    · exact sameDraws_engineStep (s.stepping (some k)) u hengine
    · exact sameDraws_hostAccess { s with turns := rest } acc (fun v hv => hsoft v rest (by rw [hturns, hv]))
    · exact absurd hturns (hhard rest)

end Sys2Proof.Machine
end

section
/-! PROOF. What undoes what: the layer mapping and `LAYER_DEMAP` (45_layer_demap.md R335), `DESCRAMBLE` twice (46_descramble.md R350), and
the CRC of a block with its CRC behind it (48_crc.md R396). -/

namespace Sys2Proof.Machine

/-! ## Layer mapping (45_layer_demap.md R335) -/

/-- The LLRs on layer `l` of a codeword whose symbol `s` stands there as symbol `s / nl`. -/
def mappedLayer (c : LayerDemap) (cw : Nat → Int) (l k : Nat) : Int := cw ((k / c.qm * c.nl + l) * c.qm + k % c.qm)

theorem div_add_of_lt {r n l : Nat} (h : l < n) : (r * n + l) / n = r := by
  rw [Nat.mul_comm, Nat.mul_add_div (by omega), Nat.div_eq_of_lt h, Nat.add_zero]

theorem mod_add_of_lt {r n l : Nat} (h : l < n) : (r * n + l) % n = l := by
  rw [Nat.mul_comm, Nat.mul_add_mod, Nat.mod_eq_of_lt h]

/-- Settles O55: `LAYER_DEMAP` puts LLR `b` of symbol `r` of layer `l` at `(r*nl + l)*qm + b`, where the mapping took it from. -/
theorem layerDemapRoundTrip : Obligations.LayerDemapRoundTrip := by
  intro c s cw hlegal hmapped
  obtain ⟨hnl, -, hqm, -, htotal⟩ : demapLegal c := hlegal.1
  have hqm' : 0 < c.qm := by
    rcases hqm with h | h | h | h <;> omega
  have hnl' : 0 < c.nl := by omega
  have hsymbols : c.totalLen / c.qm = c.totalLen / (c.nl * c.qm) * c.nl := by
    obtain ⟨r, hr⟩ := Nat.dvd_of_mod_eq_zero htotal
    rw [hr, Nat.mul_div_cancel_left _ (Nat.mul_pos hnl' hqm'), show c.nl * c.qm * r = r * c.nl * c.qm by ring,
      Nat.mul_div_cancel _ hqm']
  obtain ⟨t, ht, -, hout, -⟩ := layerDemapResult c s (mappedLayer c cw) hlegal fun l hl e he => by
    have hsym : e / c.qm * c.nl + l < c.totalLen / c.qm := by
      rw [hsymbols]
      exact row_index_lt ((Nat.div_lt_iff_lt_mul hqm').2 he) hl
    have := hmapped _ hsym (e % c.qm) (Nat.mod_lt _ hqm')
    rwa [mod_add_of_lt hl, div_add_of_lt hl, Nat.mul_comm (e / c.qm) c.qm, Nat.div_add_mod] at this
  refine ⟨t, ht, fun e he => ?_⟩
  have hb := Nat.mod_lt e hqm'
  have hl := Nat.mod_lt (e / c.qm) hnl'
  have hsym : e / c.qm < c.totalLen / c.qm := by
    refine Nat.div_lt_div_of_lt_of_dvd ?_ he
    exact (Dvd.intro_left c.nl rfl).trans (Nat.dvd_of_mod_eq_zero htotal)
  have hr : e / c.qm / c.nl < c.totalLen / (c.nl * c.qm) := by
    rw [Nat.div_lt_iff_lt_mul hnl', ← hsymbols]
    exact hsym
  have hread := hout _ hr _ hl _ hb
  have he' : (e / c.qm / c.nl * c.nl + e / c.qm % c.nl) * c.qm + e % c.qm = e := by
    rw [Nat.mul_comm _ c.nl, Nat.div_add_mod, Nat.mul_comm, Nat.div_add_mod]
  rw [mappedLayer, div_add_of_lt hb, mod_add_of_lt hb, he'] at hread
  exact hread

/-! ## Descrambling twice (46_descramble.md R350) -/

theorem sat16_eq_self (v : Int) (h : -32768 ≤ v ∧ v ≤ 32767) : sat16 v = v := by
  unfold sat16 clamp
  grind

theorem descramble_twice_element (g : Bool) (v : Int) (h : -32768 ≤ v ∧ v ≤ 32767) :
    (if g then sat16 (-(if g then sat16 (-v) else v)) else if g then sat16 (-v) else v)
      = if g ∧ v = -32768 then -32767 else v := by
  cases g with
  | false => simp
  | true =>
    by_cases hv : v = -32768
    · subst hv
      decide
    · have hneg := sat16_eq_self (-v) (by omega)
      simp [hv, hneg, sat16_eq_self v h]

/-- Settles O56: the second run reads what the first one left, and its sequence is the same. -/
theorem descrambleTwice : Obligations.DescrambleTwice := by
  intro c s v hlegal hread
  obtain ⟨t, ht, hcompleted, hout, -⟩ := descrambleResult c s v hlegal hread
  have hparams : t.params = s.params := by rw [hcompleted]
  obtain ⟨u, hu, -, hout', -⟩ := descrambleResult c t _ (hparams ▸ hlegal) hout
  refine ⟨t, u, ht, hu, fun i hi => ?_⟩
  rw [hout' i hi, descramble_twice_element _ _ (ldI16_range _ _ _ _ (hread i hi))]

/-! ## The CRC of a block (48_crc.md R396) -/

/-- The lowest bit after a step is the bit the step feeds back. -/
theorem getLsbD_zero_crcStep (r : BitVec 24) (b : Bool) : (crcStep r b).getLsbD 0 = (r.getLsbD 23 ^^ b) := by
  have hpoly : Config.crcPoly.getLsbD 0 = true := by decide
  cases hf : r.getLsbD 23 ^^ b <;> simp_all [crcStep]

/-- A step loses nothing of the register. -/
theorem crcStep_injective (r r' : BitVec 24) (b : Bool) (h : crcStep r b = crcStep r' b) : r = r' := by
  have htop : r.getLsbD 23 = r'.getLsbD 23 := by
    have hlow : (crcStep r b).getLsbD 0 = (crcStep r' b).getLsbD 0 := by rw [h]
    rw [getLsbD_zero_crcStep, getLsbD_zero_crcStep] at hlow
    exact Bool.xor_left_inj.1 hlow
  have hshift : r <<< 1 = r' <<< 1 := by
    unfold crcStep at h
    rw [htop] at h
    cases hf : r'.getLsbD 23 ^^ b with
    | false => simpa only [hf, Bool.false_eq_true, if_false] using h
    | true => simpa only [hf, if_true, BitVec.xor_left_inj] using h
  refine BitVec.eq_of_getLsbD_eq fun i hi => ?_
  by_cases h23 : i = 23
  · rw [h23, htop]
  · have hbit : (r <<< 1).getLsbD (i + 1) = (r' <<< 1).getLsbD (i + 1) := by rw [hshift]
    have hi' : i + 1 < 24 := by omega
    simpa only [BitVec.getLsbD_shiftLeft, hi', decide_true, Bool.true_and, Nat.add_sub_cancel, Nat.not_lt.2 (Nat.le_add_left 1 i),
      decide_false, Bool.not_false] using hbit

theorem crc24_append (init : BitVec 24) (xs ys : List Bool) : crc24 init (xs ++ ys) = crc24 (crc24 init xs) ys :=
  List.foldl_append

/-- The bits behind lose nothing of the register. -/
theorem crc24_injective (r r' : BitVec 24) (bs : List Bool) (h : crc24 r bs = crc24 r' bs) : r = r' := by
  induction bs generalizing r r' with
  | nil => exact h
  | cons b bs ih => exact crcStep_injective r r' b (ih _ _ h)

/-- One flipped bit changes the CRC. -/
theorem crc24_flip_ne (init : BitVec 24) (xs ys : List Bool) (b : Bool) :
    crc24 init (xs ++ (!b) :: ys) ≠ crc24 init (xs ++ b :: ys) := by
  intro h
  rw [crc24_append, crc24_append] at h
  have hstep : crcStep (crc24 init xs) (!b) = crcStep (crc24 init xs) b := crc24_injective _ _ ys h
  have hlow : (crcStep (crc24 init xs) (!b)).getLsbD 0 = (crcStep (crc24 init xs) b).getLsbD 0 := by rw [hstep]
  rw [getLsbD_zero_crcStep, getLsbD_zero_crcStep] at hlow
  exact Bool.not_ne_self b (Bool.xor_right_inj.1 hlow)

theorem bitVal_injective (b b' : Bool) (h : bitVal b = bitVal b') : b = b' := by
  cases b <;> cases b' <;> simp_all [bitVal]

/-- Bits accumulated most significant first are lost neither from the start value nor from the bits. -/
theorem foldl_msb_injective (v v' : Nat) (bs bs' : List Bool) (hlen : bs.length = bs'.length)
    (h : bs.foldl (fun v b => 2 * v + bitVal b) v = bs'.foldl (fun v b => 2 * v + bitVal b) v') : v = v' ∧ bs = bs' := by
  induction bs generalizing bs' v v' with
  | nil => cases bs' <;> simp_all
  | cons b bs ih =>
    cases bs' with
    | nil => simp at hlen
    | cons b' bs' =>
      obtain ⟨hv, rfl⟩ := ih _ _ bs' (by simpa using hlen) h
      dsimp only at hv
      have hb := bitVal_lt b
      have hb' := bitVal_lt b'
      have hbit : bitVal b = bitVal b' := by omega
      exact ⟨by omega, by rw [bitVal_injective b b' hbit]⟩

theorem msbNat_injective (bs bs' : List Bool) (hlen : bs.length = bs'.length) (h : msbNat bs = msbNat bs') : bs = bs' :=
  (foldl_msb_injective 0 0 bs bs' hlen h).2

/-- The bits of a CRC, most significant first. -/
def crcBits (r : BitVec 24) : List Bool := (List.range 24).map (fun t => r.getLsbD (23 - t))

theorem length_crcBits (r : BitVec 24) : (crcBits r).length = 24 := by simp [crcBits]

/-- The low `n` bits of a number, most significant first, are its value modulo `2 ^ n`. -/
theorem msbNat_testBit (n x : Nat) : msbNat ((List.range n).map (fun t => x.testBit (n - 1 - t))) = x % 2 ^ n := by
  induction n generalizing x with
  | zero => simp [msbNat, Nat.mod_one]
  | succ n ih =>
    have hhigh : (List.range n).map (fun t => x.testBit (n - t)) = (List.range n).map (fun t => (x / 2).testBit (n - 1 - t)) := by
      refine List.map_congr_left fun t ht => ?_
      rw [← Nat.testBit_succ]
      congr 1
      have := List.mem_range.1 ht
      omega
    have hlow : bitVal (x.testBit 0) = x % 2 := by
      rcases Nat.mod_two_eq_zero_or_one x with h | h <;> simp [bitVal, h]
    have hstep : msbNat ((List.range (n + 1)).map (fun t => x.testBit (n - t)))
        = 2 * msbNat ((List.range n).map (fun t => x.testBit (n - t))) + bitVal (x.testBit 0) := by
      simp [msbNat, List.range_succ]
    have hpow : (2 : Nat) ^ (n + 1) = 2 * 2 ^ n := by ring
    rw [Nat.add_sub_cancel, hstep, hhigh, ih, hlow, hpow, Nat.mod_mul]
    omega

theorem msbNat_crcBits (r : BitVec 24) : msbNat (crcBits r) = r.toNat :=
  (msbNat_testBit 24 r.toNat).trans (Nat.mod_eq_of_lt r.isLt)

theorem crcVerify_append (init : BitVec 24) (payload tail : List Bool) (htail : tail.length = 24) :
    crcVerify init (payload ++ tail) = true ↔ tail = crcBits (crc24 init payload) := by
  have hlen : (payload ++ tail).length - 24 = payload.length := by simp [htail]
  rw [crcVerify, hlen, List.take_left, List.drop_left, beq_iff_eq, ← msbNat_crcBits]
  exact ⟨fun h => (msbNat_injective _ _ (by rw [htail, length_crcBits]) h).symm, fun h => by rw [h]⟩

theorem set_flip_split (bs : List Bool) (i : Nat) (h : i < bs.length) :
    ∃ xs b ys, bs = xs ++ b :: ys ∧ bs.set i (!bs[i]) = xs ++ (!b) :: ys :=
  ⟨bs.take i, bs[i], bs.drop (i + 1), by simp, by rw [List.set_eq_take_append_cons_drop, if_pos h]⟩

/-- Settles O60: a flipped bit of the CRC is no longer the CRC's; a flipped bit of the payload changes the CRC. -/
theorem crcRoundTrip : Obligations.CrcRoundTrip := by
  intro init payload block
  have hblock : block = payload ++ crcBits (crc24 init payload) := rfl
  refine ⟨(crcVerify_append init payload _ (length_crcBits _)).2 rfl, fun i hi => ?_⟩
  rw [Bool.eq_false_iff]
  intro hverify
  by_cases hpay : i < payload.length
  · have hset : block.set i (!block[i]) = payload.set i (!payload[i]) ++ crcBits (crc24 init payload) := by
      simp [hblock, hpay]
    rw [hset, crcVerify_append _ _ _ (length_crcBits _)] at hverify
    obtain ⟨xs, b, ys, hp, hflip⟩ := set_flip_split payload i hpay
    rw [hflip] at hverify
    refine crc24_flip_ne init xs ys b (BitVec.eq_of_toNat_eq ?_)
    rw [← msbNat_crcBits, ← msbNat_crcBits, ← hverify, ← hp]
  · have hcrc : i - payload.length < (crcBits (crc24 init payload)).length := by
      rw [hblock, List.length_append] at hi
      omega
    have hset : block.set i (!block[i])
        = payload ++ (crcBits (crc24 init payload)).set (i - payload.length) (!(crcBits (crc24 init payload))[i - payload.length]) := by
      have hbit : block[i] = (crcBits (crc24 init payload))[i - payload.length] := by
        simp only [hblock]
        exact List.getElem_append_right (by omega)
      rw [hbit, hblock, List.set_append_right _ _ (by omega)]
    rw [hset, crcVerify_append _ _ _ (by rw [List.length_set, length_crcBits])] at hverify
    have hbits := congrArg (·[i - payload.length]?) hverify
    simp [hcrc] at hbits

end Sys2Proof.Machine
end

section
/-! PROOF. Rounded quotients (00_scope.md R13) and what `CHEST` does (42_chest.md R261 to R267). -/

namespace Sys2Proof.Machine

/-- Settles O46: the floor of a quotient plus one half, on each side of zero. -/
theorem rndRoundsHalfAway : Obligations.RndRoundsHalfAway := rnd_quot

/-! ## Bounds of a rounded quotient -/

/-- A rounded quotient is at most an integer that the quotient does not exceed in magnitude. -/
theorem abs_rndDiv_le (a b k : Int) (hb : 0 < b) (h : |a| ≤ k * b) : |rndDiv a b| ≤ k := by
  have hmag : (a.natAbs : Int) ≤ k * b := by rwa [Int.natCast_natAbs]
  have hquot : (2 * (a.natAbs : Int) + b) / (2 * b) ≤ k := by
    rw [← Int.lt_add_one_iff, Int.ediv_lt_iff_lt_mul (by omega)]
    have hexpand : (k + 1) * (2 * b) = 2 * (k * b) + 2 * b := by ring
    omega
  have hnonneg : 0 ≤ (2 * (a.natAbs : Int) + b) / (2 * b) := Int.ediv_nonneg (by omega) (by omega)
  rcases lt_trichotomy a 0 with ha | rfl | ha
  · rw [rndDiv, Int.sign_eq_neg_one_of_neg ha, neg_one_mul, abs_neg, abs_of_nonneg hnonneg]
    exact hquot
  · simpa [rndDiv] using hnonneg.trans hquot
  · rw [rndDiv, Int.sign_eq_one_of_pos ha, one_mul, abs_of_nonneg hnonneg]
    exact hquot

/-- The rounded mean of values of magnitude at most `k` is of magnitude at most `k`. -/
theorem abs_rnd_mean_le (xs : List Int) (k : Int) (hne : xs ≠ []) (h : ∀ x ∈ xs, |x| ≤ k) :
    |rnd (quot xs.sum xs.length)| ≤ k := by
  have hlen : (0 : Int) < xs.length := by exact_mod_cast List.length_pos_iff.2 hne
  rw [rnd_quot _ _ hlen]
  refine abs_rndDiv_le _ _ k hlen ?_
  clear hne hlen
  induction xs with
  | nil => simp
  | cons x xs ih =>
    have hx := h x (by simp)
    have hxs := ih fun y hy => h y (by simp [hy])
    have htri := abs_add_le x xs.sum
    rw [List.sum_cons, List.length_cons]
    push_cast
    linarith

/-! ## The estimate at a pilot (42_chest.md R262) -/

theorem normSq_eq (z : CInt) : normSq z = z.re ^ 2 + z.im ^ 2 := by
  unfold normSq
  ring

theorem chestLs_eq (y p : CInt) : chestLs y p = specLs y p := by
  have hre : y.re * p.re - y.im * -p.im = y.re * p.re + y.im * p.im := by ring
  have him : y.re * -p.im + y.im * p.re = y.im * p.re - y.re * p.im := by ring
  simp only [chestLs, specLs, normSq_eq, cmul, conj, hre, him]
  split
  · rfl
  · next hne =>
    have hpos : 0 < p.re ^ 2 + p.im ^ 2 := lt_of_le_of_ne (by positivity) (Ne.symm hne)
    rw [rnd_quot _ _ hpos, rnd_quot _ _ hpos]

theorem abs_chestLs_le (y p : CInt) : |(chestLs y p).re| ≤ 32767 ∧ |(chestLs y p).im| ≤ 32767 := by
  unfold chestLs
  dsimp only
  split
  · simp
  · exact ⟨abs_le.2 (satsym15_range _), abs_le.2 (satsym15_range _)⟩

theorem abs_chestAvg_le (hls : List CInt) (hne : hls ≠ []) (h : ∀ z ∈ hls, |z.re| ≤ 32767 ∧ |z.im| ≤ 32767) :
    |(chestAvg hls).re| ≤ 32767 ∧ |(chestAvg hls).im| ≤ 32767 := by
  have hre := abs_rnd_mean_le (hls.map CInt.re) 32767 (by simpa) (by simpa using fun z hz => (h z hz).1)
  have him := abs_rnd_mean_le (hls.map CInt.im) 32767 (by simpa) (by simpa using fun z hz => (h z hz).2)
  rw [List.length_map] at hre him
  rw [chestAvg, csum_re, csum_im]
  exact ⟨hre, him⟩

/-- Settles O49: every estimate is saturated to 32767, and a rounded mean does not leave the range of what it averages. -/
theorem chestMeanBound : Obligations.ChestMeanBound := by
  intro ys ps hne hlen avg
  have hne' : List.zipWith chestLs ys ps ≠ [] := by
    rw [Ne, List.zipWith_eq_nil_iff]
    rintro (h | rfl)
    · exact hne h
    · exact hne (List.length_eq_zero_iff.1 hlen)
  have hall : ∀ z ∈ List.zipWith chestLs ys ps, |z.re| ≤ 32767 ∧ |z.im| ≤ 32767 := by
    intro z hz
    obtain ⟨i, hi, rfl⟩ := List.getElem_of_mem hz
    rw [List.getElem_zipWith]
    exact abs_chestLs_le _ _
  obtain ⟨hre, him⟩ := abs_chestAvg_le _ hne' hall
  exact ⟨(abs_le.1 hre).2, (abs_le.1 him).2, (abs_le.1 hre).1, (abs_le.1 him).1⟩

/-! ## The estimates and the noise variance in the terms of the statements -/

section
variable (c : Chest) (ys ps : Nat → CInt)

/-- The estimates at the pilots. -/
def specEstimates : List CInt := (List.range c.nP).map (fun m => specLs (ys m) (ps m))

theorem zipWith_chestLs_map_range :
    List.zipWith chestLs ((List.range c.nP).map ys) ((List.range c.nP).map ps) = specEstimates c ys ps := by
  simp [specEstimates, List.zipWith_map, List.zipWith_self, chestLs_eq]

theorem chestAvg_specEstimates (hn : c.nP ≠ 0) : chestAvg (specEstimates c ys ps) = specAvg c.nP ys ps := by
  have hlen : (0 : Int) < c.nP := by omega
  rw [chestAvg, csum_re, csum_im, specEstimates, List.map_map, List.map_map, List.length_map, List.length_range,
    rnd_quot _ _ hlen, rnd_quot _ _ hlen, sum_map_range, sum_map_range]
  rfl

/-- A subcarrier's estimate (42_chest.md R264). -/
def specChestOut (k : Nat) : CInt :=
  if c.interp then specAvg c.nP ys ps
  else if k < c.start then specLs (ys 0) (ps 0)
  else specLs (ys (min ((k - c.start) / c.stride) (c.nP - 1))) (ps (min ((k - c.start) / c.stride) (c.nP - 1)))

theorem chestOut_specEstimates (hn : c.nP ≠ 0) (k : Nat) : chestOut c (specEstimates c ys ps) k = specChestOut c ys ps k := by
  have hget (m : Nat) (hm : m < c.nP) : (specEstimates c ys ps).getD m ⟨0, 0⟩ = specLs (ys m) (ps m) :=
    getD_map_range c.nP (fun m => specLs (ys m) (ps m)) ⟨0, 0⟩ m hm
  have hnearest : chestNearest c k < c.nP := by
    unfold chestNearest
    split <;> omega
  rw [chestOut, specChestOut, chestAvg_specEstimates c ys ps hn, hget _ hnearest]
  unfold chestNearest
  split
  · rfl
  · split <;> rfl

theorem fitsC16_specChestOut (hn : c.nP ≠ 0) (k : Nat) : FitsC16 (specChestOut c ys ps k) := by
  have hls (m : Nat) := chestLs_eq (ys m) (ps m) ▸ abs_chestLs_le (ys m) (ps m)
  have havg : |(specAvg c.nP ys ps).re| ≤ 32767 ∧ |(specAvg c.nP ys ps).im| ≤ 32767 := by
    rw [← chestAvg_specEstimates c ys ps hn]
    refine abs_chestAvg_le _ (by simpa [specEstimates] using hn) fun z hz => ?_
    obtain ⟨m, -, rfl⟩ := List.mem_map.1 hz
    exact hls m
  have hall : |(specChestOut c ys ps k).re| ≤ 32767 ∧ |(specChestOut c ys ps k).im| ≤ 32767 := by
    unfold specChestOut
    split
    · exact havg
    · split
      · exact hls 0
      · exact hls _
  obtain ⟨hre, him⟩ := hall
  rw [abs_le] at hre him
  refine ⟨?_, ?_, ?_, ?_⟩ <;> omega

/-- The residual at one pilot (42_chest.md R265). -/
theorem normSq_chestResidual (avg y p : CInt) : normSq (chestResidual avg y p) = specResidual avg y p := by
  have hpos : (0 : Int) < 2 ^ 15 := by norm_num
  simp only [chestResidual, normSq_eq, rnd_quot _ _ hpos, specResidual]

theorem specNoise_range (n shift : Nat) : 0 ≤ specNoise n shift ys ps ∧ specNoise n shift ys ps ≤ 65535 := by
  unfold specNoise
  refine ⟨le_min (Int.ediv_nonneg (Int.ediv_nonneg (Finset.sum_nonneg fun m _ => ?_) (by omega)) (by positivity)) (by omega),
    min_le_right _ _⟩
  unfold specResidual
  positivity

/-- The noise value stored (42_chest.md R265, R266). -/
def specChestNv (sentinel : Nat) : Int := if c.nvEn then specNoise c.nP c.nvShift ys ps else sentinel

theorem chestNoise_map_range (sentinel : Nat) :
    chestNoise sentinel c (specAvg c.nP ys ps) ((List.range c.nP).map ys) ((List.range c.nP).map ps)
      = specChestNv c ys ps sentinel := by
  have hpowers : (List.zipWith (chestResidual (specAvg c.nP ys ps)) ((List.range c.nP).map ys) ((List.range c.nP).map ps)).map
      normSq = (List.range c.nP).map (fun m => specResidual (specAvg c.nP ys ps) (ys m) (ps m)) := by
    simp [List.zipWith_map, List.zipWith_self, Function.comp_def, normSq_chestResidual]
  have hfloor (a : Int) : (quot a c.nP).floor = a / c.nP := by
    rw [quot, Int.cast_natCast]
    exact Rat.floor_intCast_div_natCast a c.nP
  rw [chestNoise, hpowers, sum_map_range, specChestNv]
  dsimp only
  rw [hfloor, asr_eq_ediv, specNoise]

theorem specChestNv_range (sentinel : BitVec 16) :
    0 ≤ specChestNv c ys ps sentinel.toNat ∧ specChestNv c ys ps sentinel.toNat ≤ 65535 := by
  have hsentinel := sentinel.isLt
  have hnoise := specNoise_range ys ps c.nP c.nvShift
  unfold specChestNv
  split <;> omega

/-! ## Reads and the warnings -/

theorem chestWarnings_map_range :
    chestWarnings ((List.range c.nP).map ps)
      = ((Finset.range c.nP).filter (fun m => (ps m).re ^ 2 + (ps m).im ^ 2 = 0)).card := by
  rw [chestWarnings, List.filter_map, List.length_map, Finset.card_def, Finset.filter_val, Finset.range_val, Multiset.range,
    Multiset.filter_coe, Multiset.coe_card]
  simp [Function.comp_def, normSq_eq]

theorem chestPilots_of_readable (m : Memory)
    (h : match c.pilot with
      | .const p => ∀ i < c.nP, ps i = ofC16 p
      | .buffer base => ∀ i < c.nP, holdsC16 m base i (ps i)) : chestPilots c m = some ((List.range c.nP).map ps) := by
  cases hp : c.pilot with
  | const p =>
    simp only [hp] at h
    simp only [chestPilots, hp, Option.some.injEq]
    exact (List.eq_replicate_iff.2 ⟨by simp, by simpa using h⟩).symm
  | buffer base =>
    simp only [hp] at h
    simp only [chestPilots, hp]
    exact collectN_of_forall c.nP _ ps h

end

/-! ## Memory afterwards -/

/-- The two stores of `CHEST`. -/
theorem dmem_apply_chestStores (c : Chest) (s : State) (ys ps : List CInt) :
    (s.apply (chestStores s.params c ys ps)).complete.dmem
      = (s.dmem.store c.hBase (((List.range c.nSc).map (chestOut c (List.zipWith chestLs ys ps))).flatMap bytesC16)).store c.nvAddr
          (bytes16 (chestNoise s.params.nvSentinel.toNat c (chestAvg (List.zipWith chestLs ys ps)) ys ps)) := by
  rw [State.complete_dmem, State.apply_eq, List.flatMap_map]
  rfl

/-- A stored 16-bit value reads back unsigned (20_memory.md R129 `LdU16`). -/
theorem ldU16_store_bytes16 (m : Memory) (a : Nat) (v : Int) (h : 0 ≤ v ∧ v ≤ 65535) :
    ldU16 (m.store a (bytes16 v)) a 0 = some v.toNat := by
  have hread : memRead (m.store a (bytes16 v)) a 2 = some (leNat (((bytes16 v).drop 0).take 2)) :=
    memRead_store m a (bytes16 v) 0 2 (by simp)
  have hall : ((bytes16 v).drop 0).take 2 = bytes16 v := List.take_of_length_le (by simp)
  have hvalue : leNat (bytes16 v) = v.toNat := by
    rw [bytes16, leNat_leBytes, BitVec.toNat_ofInt]
    omega
  rw [ldU16, Nat.mul_zero, Nat.add_zero, hread, hall, hvalue]

/-- A legal `CHEST` has its two outputs apart. -/
theorem chest_h_nv_disjoint (p : Params) (c : Chest) (h : legal p (.chest c)) : bufsDisjoint (chestH c, chestNv c) := by
  obtain ⟨-, -, -, hpairs⟩ := h
  exact hpairs _ (by simp [pairsOf])

/-- Settles O39: the estimates, their mean and the noise are the statement's, and each stands where R267 puts it. -/
theorem chestResult : Obligations.ChestResult := by
  intro c s ys ps hlegal hys hps
  obtain ⟨-, hn, -, -⟩ : chestLegal c := hlegal.1
  have heffect : effectOf (.chest c) s
      = some (chestStores s.params c ((List.range c.nP).map ys) ((List.range c.nP).map ps)) := by
    have hrx : chestRx c s.dmem = some ((List.range c.nP).map ys) := collectN_of_forall c.nP _ ys hys
    rw [effectOf, chestEffect_eq_bind, hrx, chestPilots_of_readable c ps s.dmem hps]
    rfl
  have hexec := exec_of_effectOf (.chest c) s _ hlegal heffect
  have hdmem := dmem_apply_chestStores c s ((List.range c.nP).map ys) ((List.range c.nP).map ps)
  rw [zipWith_chestLs_map_range, chestAvg_specEstimates c ys ps hn, chestNoise_map_range c ys ps] at hdmem
  have hdisjoint := chest_h_nv_disjoint s.params c hlegal
  have hlen : (((List.range c.nSc).map (chestOut c (specEstimates c ys ps))).flatMap bytesC16).length = 4 * c.nSc := by
    rw [length_flatMap_const _ 4 length_bytesC16, List.length_map, List.length_range]
  refine ⟨_, hexec, ?_, fun k hk => ?_, ?_, fun a ha => ?_⟩
  · rw [← chestWarnings_map_range]
    exact completed_apply s _
  · have hout : ((List.range c.nSc).map (chestOut c (specEstimates c ys ps)))[k]? = some (specChestOut c ys ps k) := by
      simp [hk, chestOut_specEstimates c ys ps hn]
    rw [hdmem]
    refine holdsC16_store_outside _ _ _ _ _ _ (holdsC16_store _ _ _ _ _ hout (fitsC16_specChestOut c ys ps hn k)) ?_
    simp only [bufsDisjoint, chestH, chestNv, bufBytes, elemBytes] at hdisjoint
    rw [length_bytes16]
    omega
  · have hrange := specChestNv_range c ys ps s.params.nvSentinel
    rw [hdmem, ldU16_store_bytes16 _ _ _ hrange]
    exact congrArg some (Int.toNat_of_nonneg hrange.1)
  · exact onlyOutputsWritten (.chest c) s _ hexec a ha

end Sys2Proof.Machine
end

section
/-! PROOF. Binary64 rounding (43_mmse.md R289; log 11): `roundF64` is a nearest binary64 number, ties to even. -/

namespace Sys2Proof.Machine

/-! ## The nearest integer, ties to even -/

/-- What makes `m` the nearest integer to `x`, ties to even. -/
structure IsHalfEven (x : Rat) (m : Int) : Prop where
  near : |x - m| ≤ 1 / 2
  tie : |x - m| = 1 / 2 → Even m

theorem isHalfEven_halfEven (x : Rat) : IsHalfEven x (halfEven x) := by
  have hlo : ((x.floor : Int) : Rat) ≤ x := Rat.floor_le x
  have hhi : x < (x.floor : Int) + 1 := by exact_mod_cast Rat.lt_floor_add_one x
  have hdown (h : x - x.floor ≤ 1 / 2) : |x - x.floor| ≤ 1 / 2 := by rwa [abs_of_nonneg (by linarith)]
  have hup (h : 1 / 2 ≤ x - x.floor) : |x - (x.floor + 1 : Int)| ≤ 1 / 2 := by
    rw [abs_le]
    push_cast
    constructor <;> linarith
  unfold halfEven
  dsimp only
  split
  · next hlt => exact ⟨hdown hlt.le, fun h => by rw [abs_of_nonneg (by linarith)] at h; linarith⟩
  · split
    · next hgt =>
      refine ⟨hup hgt.le, fun h => ?_⟩
      rw [abs_of_nonpos (by push_cast; linarith)] at h
      push_cast at h
      linarith
    · next hge hle =>
      split
      · next heven => exact ⟨hdown (by linarith), fun _ => Int.even_iff.2 heven⟩
      · next hodd => exact ⟨hup (by linarith), fun _ => (Int.not_even_iff_odd.1 (mt Int.even_iff.1 hodd)).add_one⟩

section
variable {x : Rat} {m : Int} (h : IsHalfEven x m) (k : Int)
include h

/-- Two integers that differ are at least 1 apart, so another integer is at least as far. -/
theorem IsHalfEven.half_le_of_ne (hk : k ≠ m) : 1 / 2 ≤ |x - k| := by
  have hapart : (1 : Rat) ≤ |(m : Rat) - k| := by
    have : (1 : Int) ≤ |m - k| := Int.one_le_abs (sub_ne_zero.2 (Ne.symm hk))
    exact_mod_cast this
  have htri : |(m : Rat) - k| ≤ |x - k| + |x - m| := by
    rw [← abs_neg (x - m)]
    calc |(m : Rat) - k| = |(x - k) + -(x - m)| := by ring_nf
      _ ≤ _ := abs_add_le _ _
  linarith [h.near]

theorem IsHalfEven.le : |x - m| ≤ |x - k| := by
  by_cases hk : k = m
  · rw [hk]
  · exact h.near.trans (h.half_le_of_ne k hk)

/-- At a tie with another integer, `m` is even and the other is its neighbour. -/
theorem IsHalfEven.of_tie (htie : |x - m| = |x - k|) (hk : k ≠ m) : Even m ∧ |(m : Rat) - k| = 1 := by
  have hhalf : |x - m| = 1 / 2 := le_antisymm h.near (htie ▸ h.half_le_of_ne k hk)
  refine ⟨h.tie hhalf, le_antisymm ?_ ?_⟩
  · calc |(m : Rat) - k| = |(x - k) + -(x - m)| := by ring_nf
      _ ≤ |x - k| + |-(x - m)| := abs_add_le _ _
      _ = 1 := by rw [abs_neg, ← htie, hhalf]; norm_num
  · have : (1 : Int) ≤ |m - k| := Int.one_le_abs (sub_ne_zero.2 (Ne.symm hk))
    exact_mod_cast this

end

/-! ## Powers of two and the binary logarithm -/

theorem pow2_eq_zpow (e : Int) : pow2 e = (2 : Rat) ^ e := by
  cases e with
  | ofNat k => simp [pow2]
  | negSucc k => simp [pow2, zpow_negSucc]

theorem two_zpow_pos (e : Int) : (0 : Rat) < 2 ^ e := by positivity

/-- The binary logarithm brackets a positive rational. -/
theorem ilog2_spec (q : Rat) (hq : 0 < q) : (2 : Rat) ^ ilog2 q ≤ q ∧ q < 2 ^ (ilog2 q + 1) := by
  have hnum : 0 < q.num := Rat.num_pos.2 hq
  let n := q.num.natAbs
  have hn : n ≠ 0 := by simp only [n]; omega
  have hqn : q = (n : Rat) / q.den := by
    have hcast : (n : Int) = q.num := Int.natAbs_of_nonneg hnum.le
    rw [← Int.cast_natCast n, hcast, Rat.num_div_den]
  have hden : (0 : Rat) < q.den := by exact_mod_cast q.den_pos
  have hnlo : (2 : Rat) ^ (Nat.log2 n : Int) ≤ n := by exact_mod_cast Nat.log2_self_le hn
  have hnhi : (n : Rat) < 2 ^ ((Nat.log2 n : Int) + 1) := by exact_mod_cast Nat.lt_log2_self
  have hdlo : (2 : Rat) ^ (Nat.log2 q.den : Int) ≤ q.den := by exact_mod_cast Nat.log2_self_le q.den_nz
  have hdhi : (q.den : Rat) < 2 ^ ((Nat.log2 q.den : Int) + 1) := by exact_mod_cast Nat.lt_log2_self
  let e : Int := (Nat.log2 n : Int) - (Nat.log2 q.den : Int)
  have hhi : q < 2 ^ (e + 1) := by
    rw [hqn, div_lt_iff₀ hden]
    calc (n : Rat) < 2 ^ ((Nat.log2 n : Int) + 1) := hnhi
      _ = 2 ^ (e + 1) * 2 ^ (Nat.log2 q.den : Int) := by rw [← zpow_add₀ two_ne_zero]; congr 1; simp only [e]; ring
      _ ≤ 2 ^ (e + 1) * q.den := mul_le_mul_of_nonneg_left hdlo (two_zpow_pos _).le
  have hlo : 2 ^ (e - 1) ≤ q := by
    rw [hqn, le_div_iff₀ hden]
    calc (2 : Rat) ^ (e - 1) * q.den ≤ 2 ^ (e - 1) * 2 ^ ((Nat.log2 q.den : Int) + 1) :=
          mul_le_mul_of_nonneg_left hdhi.le (two_zpow_pos _).le
      _ = 2 ^ (Nat.log2 n : Int) := by rw [← zpow_add₀ two_ne_zero]; congr 1; simp only [e]; ring
      _ ≤ n := hnlo
  have hcases : ilog2 q = if q < 2 ^ e then e - 1 else e := by rw [ilog2, pow2_eq_zpow]
  rw [hcases]
  split
  · next hlt => exact ⟨hlo, by rwa [sub_add_cancel]⟩
  · next hge => exact ⟨not_lt.1 hge, hhi⟩

/-! ## The rounding of a positive rational -/

/-- The exponent of the last place of the binary64 numbers around `q`. -/
def ulpExp (q : Rat) : Int := max (ilog2 q - 52) (-1074)

theorem roundF64_of_pos (q : Rat) (hq : 0 < q) : roundF64 q = halfEven (q / 2 ^ ulpExp q) * 2 ^ ulpExp q := by
  rw [roundF64, if_neg hq.ne', if_neg hq.le.not_gt, if_neg hq.le.not_gt, pow2_eq_zpow, ulpExp]

theorem roundF64_neg (q : Rat) : roundF64 (-q) = -roundF64 q := by
  rcases lt_trichotomy q 0 with h | rfl | h
  · have hn : 0 < -q := by linarith
    rw [roundF64_of_pos _ hn, roundF64, if_neg h.ne, if_pos h, if_pos h, neg_neg, pow2_eq_zpow, ulpExp]
  · simp [roundF64]
  · rw [roundF64_of_pos _ h, roundF64, if_neg (by linarith), if_pos (by linarith), if_pos (by linarith), neg_neg, pow2_eq_zpow, ulpExp]

theorem IsF64.neg {v : Rat} (h : IsF64 v) : IsF64 (-v) := by
  obtain ⟨m, e, rfl, hm, he⟩ := h
  exact ⟨-m, e, by push_cast; ring, by rwa [Int.natAbs_neg], he⟩

section
variable (q : Rat) (hq : 0 < q)
include hq

/-- A positive rational is less than `2^53` of its last places. -/
theorem lt_of_ulpExp : q < 2 ^ (53 : Int) * 2 ^ ulpExp q := by
  rw [← zpow_add₀ two_ne_zero]
  refine (ilog2_spec q hq).2.trans_le (zpow_le_zpow_right₀ one_le_two ?_)
  have := le_max_left (ilog2 q - 52) (-1074)
  unfold ulpExp
  omega

/-- The rounded number has 53 bits. -/
theorem isF64_roundF64_of_pos : IsF64 (roundF64 q) := by
  have hulp := two_zpow_pos (ulpExp q)
  have hnear := (isHalfEven_halfEven (q / 2 ^ ulpExp q)).near
  have hquot : q / 2 ^ ulpExp q < 2 ^ (53 : Int) := by
    rw [div_lt_iff₀ hulp]
    exact lt_of_ulpExp q hq
  have hpos : 0 < q / 2 ^ ulpExp q := div_pos hq hulp
  rw [abs_le] at hnear
  obtain ⟨hlo, hhi⟩ := hnear
  have hm_lo : -1 < halfEven (q / 2 ^ ulpExp q) := by
    have : (-1 : Rat) < (halfEven (q / 2 ^ ulpExp q) : Int) := by linarith
    exact_mod_cast this
  have hm_hi : halfEven (q / 2 ^ ulpExp q) < 2 ^ 53 + 1 := by
    have : ((halfEven (q / 2 ^ ulpExp q) : Int) : Rat) < 2 ^ (53 : Int) + 1 := by linarith
    exact_mod_cast this
  have hexp : -1074 ≤ ulpExp q := le_max_right _ _
  rw [roundF64_of_pos q hq]
  by_cases htop : halfEven (q / 2 ^ ulpExp q) = 2 ^ 53
  · refine ⟨2 ^ 52, ulpExp q + 1, ?_, by norm_num, by omega⟩
    rw [htop, zpow_add₀ two_ne_zero]
    push_cast
    ring
  · exact ⟨_, ulpExp q, rfl, by omega, hexp⟩

/-- A binary64 number is a multiple of the last place of `q`, or lies below the least number of `q`'s exponent. -/
theorem IsF64.multiple_or_lt {w : Rat} (hw : IsF64 w) :
    (∃ k : Int, w = k * 2 ^ ulpExp q) ∨ (w < 2 ^ (52 : Int) * 2 ^ ulpExp q ∧ 2 ^ (52 : Int) * 2 ^ ulpExp q ≤ q) := by
  obtain ⟨m, e, rfl, hm, he⟩ := hw
  rcases le_or_gt (ulpExp q) e with hle | hlt
  · refine .inl ⟨m * 2 ^ (e - ulpExp q).toNat, ?_⟩
    push_cast
    rw [mul_assoc, ← zpow_natCast, ← zpow_add₀ two_ne_zero, Int.toNat_of_nonneg (by omega), sub_add_cancel]
  · have hexp : ulpExp q = ilog2 q - 52 := by
      rcases max_choice (ilog2 q - 52) (-1074) with h | h
      · exact h
      · rw [ulpExp, h] at hlt
        omega
    refine .inr ⟨?_, ?_⟩
    · have hm' : (m : Rat) < 2 ^ (53 : Int) := by
        have : m < 2 ^ 53 := by omega
        exact_mod_cast this
      calc (m : Rat) * 2 ^ e < 2 ^ (53 : Int) * 2 ^ e := mul_lt_mul_of_pos_right hm' (two_zpow_pos e)
        _ = 2 ^ (53 + e) := by rw [← zpow_add₀ two_ne_zero]
        _ ≤ 2 ^ (52 + ulpExp q) := zpow_le_zpow_right₀ one_le_two (by omega)
        _ = 2 ^ (52 : Int) * 2 ^ ulpExp q := zpow_add₀ two_ne_zero _ _
    · rw [← zpow_add₀ two_ne_zero, hexp, add_sub_cancel]
      exact (ilog2_spec q hq).1

omit hq in
/-- The distances to multiples of the last place, in last places. -/
theorem abs_sub_mul_ulp (k : Int) : |q - k * 2 ^ ulpExp q| = |q / 2 ^ ulpExp q - k| * 2 ^ ulpExp q := by
  have hulp := two_zpow_pos (ulpExp q)
  rw [← abs_of_pos hulp, ← abs_mul, abs_of_pos hulp, sub_mul, div_mul_cancel₀ _ hulp.ne']

theorem abs_sub_roundF64_le_multiple (k : Int) : |q - roundF64 q| ≤ |q - k * 2 ^ ulpExp q| := by
  rw [roundF64_of_pos q hq, abs_sub_mul_ulp q, abs_sub_mul_ulp q]
  exact mul_le_mul_of_nonneg_right ((isHalfEven_halfEven _).le k) (two_zpow_pos _).le

/-- The nearest number and the tie of a positive rational. -/
theorem roundF64_nearest_of_pos (w : Rat) (hw : IsF64 w) :
    |q - roundF64 q| ≤ |q - w|
      ∧ (|q - roundF64 q| = |q - w| → w ≠ roundF64 q →
          ∃ m e : Int, roundF64 q = (2 * m : Int) * (2 : Rat) ^ e ∧ |roundF64 q - w| = (2 : Rat) ^ e ∧ -1074 ≤ e) := by
  have hulp := two_zpow_pos (ulpExp q)
  rcases hw.multiple_or_lt q hq with ⟨k, rfl⟩ | ⟨hlt, hle⟩
  · refine ⟨abs_sub_roundF64_le_multiple q hq k, fun htie hne => ?_⟩
    rw [roundF64_of_pos q hq] at htie hne ⊢
    rw [abs_sub_mul_ulp q, abs_sub_mul_ulp q] at htie
    have hk : k ≠ halfEven (q / 2 ^ ulpExp q) := fun h => hne (by rw [h])
    obtain ⟨heven, hone⟩ := (isHalfEven_halfEven _).of_tie k (mul_right_cancel₀ hulp.ne' htie) hk
    obtain ⟨m, hm⟩ := heven.two_dvd
    refine ⟨m, ulpExp q, by rw [← hm], ?_, le_max_right _ _⟩
    rw [← sub_mul, abs_mul, hone, one_mul, abs_of_pos hulp]
  · have hstrict : |q - roundF64 q| < |q - w| := by
      refine (abs_sub_roundF64_le_multiple q hq (2 ^ 52)).trans_lt ?_
      push_cast
      rw [zpow_ofNat] at hlt hle
      rw [abs_of_nonneg (by linarith), abs_of_nonneg (by linarith)]
      linarith
    exact ⟨hstrict.le, fun h => absurd h hstrict.ne⟩

end

/-- Settles O47: zero is a binary64 number, and the sign carries over. -/
theorem roundF64IsNearestEven : Obligations.RoundF64IsNearestEven := by
  intro q
  rcases lt_trichotomy q 0 with hq | rfl | hq
  · have hneg : 0 < -q := by linarith
    have hround : roundF64 q = -roundF64 (-q) := by rw [roundF64_neg, neg_neg]
    rw [hround]
    refine ⟨(isF64_roundF64_of_pos (-q) hneg).neg, fun w hw => ?_⟩
    obtain ⟨hnear, htie⟩ := roundF64_nearest_of_pos (-q) hneg (-w) hw.neg
    have hflip (v : Rat) : |q - v| = |-q - -v| := by rw [← abs_neg]; ring_nf
    rw [hflip, hflip w, neg_neg]
    refine ⟨hnear, fun heq hne => ?_⟩
    obtain ⟨m, e, hr, hdist, he⟩ := htie heq (fun h => hne (by rw [← h, neg_neg]))
    refine ⟨-m, e, ?_, ?_, he⟩
    · rw [hr]
      push_cast
      ring
    · rw [← hdist, ← abs_neg]
      ring_nf
  · have hzero : roundF64 0 = 0 := if_pos rfl
    rw [hzero]
    refine ⟨⟨0, 0, by simp, by norm_num, by norm_num⟩, fun w _ => ⟨by simp, fun heq hne => ?_⟩⟩
    simp at heq
    exact absurd heq.symm (by simpa using hne)
  · exact ⟨isF64_roundF64_of_pos q hq, roundF64_nearest_of_pos q hq⟩

/-- A binary64 number rounds to itself. -/
theorem roundF64_of_isF64 (v : Rat) (h : IsF64 v) : roundF64 v = v := by
  have hnear := ((roundF64IsNearestEven v).2 v h).1
  rw [sub_self, abs_zero, abs_nonpos_iff, sub_eq_zero] at hnear
  exact hnear.symm

/-- An integer of 53 bits rounds to itself. -/
theorem roundF64_intCast (k : Int) (h : k.natAbs < 2 ^ 53) : roundF64 k = k :=
  roundF64_of_isF64 k ⟨k, 0, by simp, h, by norm_num⟩

end Sys2Proof.Machine
end

section
/-! PROOF. `MMSE` on the binary64 path (43_mmse.md R289): the machine's expansions are the statement's over matrices indexed by `Fin`. -/

namespace Sys2Proof.Machine

/-! ## Folds over a range -/

theorem foldl_range_eq_finFoldl {α : Type} (n : Nat) (f : α → Nat → α) (x : α) :
    (List.range n).foldl f x = Fin.foldl n (fun acc i => f acc i) x := by
  induction n with
  | zero => simp
  | succ n ih => rw [List.range_succ, List.foldl_append, ih, Fin.foldl_succ_last]; rfl

theorem detfLoop_eq_finFoldl (term : Nat → CF64) (k c : Nat) (acc : CF64) :
    detfLoop term k c acc
      = Fin.foldl k (fun acc i => if (c + i) % 2 = 0 then cfadd acc (term (c + i)) else cfsub acc (term (c + i))) acc := by
  induction k generalizing c acc with
  | zero => simp [detfLoop]
  | succ k ih =>
    rw [detfLoop, ih, Fin.foldl_succ]
    simp only [Fin.val_succ, Nat.add_right_comm c 1, Nat.add_assoc, Fin.val_zero, Nat.add_zero]
    rfl

/-! ## Determinants and cofactors -/

/-- The leading part of a matrix as a matrix over `Fin`. -/
def finMatrix (n : Nat) (M : MatF) : Matrix (Fin n) (Fin n) CF64 := fun i j => M i j

theorem finMatrix_minor {n : Nat} (M : MatF) (r c : Fin (n + 1)) :
    finMatrix n (minor M r c) = (finMatrix (n + 1) M).submatrix r.succAbove c.succAbove := by
  ext i j
  all_goals simp only [finMatrix, minor, Matrix.submatrix_apply, skip_val]

/-- `detf` in the order of the statement (43_mmse.md R289). -/
theorem detf_eq_refDet (n : Nat) (M : MatF) : detf n M = refDet n (finMatrix n M) := by
  induction n using Nat.strong_induction_on generalizing M with
  | _ n ih =>
    match n with
    | 0 => rfl
    | 1 => rfl
    | n + 2 =>
      have hminor (c : Fin (n + 2)) :
          detf (n + 1) (minor M 0 c) = refDet (n + 1) ((finMatrix (n + 2) M).submatrix Fin.succ c.succAbove) := by
        rw [ih (n + 1) (by omega), ← Fin.succAbove_zero, ← finMatrix_minor M 0 c]
        rfl
      have hfirst := hminor 0
      rw [Fin.succAbove_zero] at hfirst
      have hstep : (fun (acc : CF64) (c : Fin (n + 1)) =>
            if (1 + c.val) % 2 = 0 then cfadd acc (cfmul (M 0 (1 + c.val)) (detf (n + 1) (minor M 0 (1 + c.val))))
            else cfsub acc (cfmul (M 0 (1 + c.val)) (detf (n + 1) (minor M 0 (1 + c.val)))))
          = fun acc c =>
            if c.val % 2 = 0 then
              refSub acc (refMul (M 0 (c.val + 1))
                (refDet (n + 1) ((finMatrix (n + 2) M).submatrix Fin.succ c.succ.succAbove)))
            else
              refAdd acc (refMul (M 0 (c.val + 1))
                (refDet (n + 1) ((finMatrix (n + 2) M).submatrix Fin.succ c.succ.succAbove))) := by
        funext acc c
        rw [← hminor c.succ, Fin.val_succ, Nat.add_comm 1 c.val]
        rcases Nat.mod_two_eq_zero_or_one c.val with hc | hc
        · rw [if_neg (by omega), if_pos hc]; rfl
        · rw [if_pos (by omega), if_neg (by omega)]; rfl
      rw [detf, refDet, detfLoop_eq_finFoldl, hstep]
      exact congrArg (Fin.foldl (n + 1) _) (congrArg (refMul (M 0 0)) hfirst)

/-- `Cf[j][l]` in the statement's form. -/
theorem cofactorf_eq_refCofactor {n : Nat} (M : MatF) (j l : Fin (n + 1)) :
    cofactorf (n + 1) M j l = refCofactor (finMatrix (n + 1) M) j l := by
  rw [cofactorf, refCofactor, Nat.add_sub_cancel, detf_eq_refDet, finMatrix_minor]
  simp only [Nat.even_iff]
  rfl

/-- `numf[l]` in the statement's form. -/
theorem numf_eq_refNum {n : Nat} (M : MatF) (z : Nat → CF64) (l : Fin (n + 1)) :
    numf (n + 1) M z l = refNum (finMatrix (n + 1) M) (fun j => z j) l := by
  have hcof (j : Fin (n + 1)) := cofactorf_eq_refCofactor M j l
  rw [numf, refNum, Nat.add_sub_cancel, foldl_range_eq_finFoldl, ← hcof 0]
  simp only [← hcof]
  rfl

/-! ## Exact conversions -/

theorem cfOfInt_eq_refExact (z : CInt) (hre : |z.re| ≤ 2 ^ 32) (him : |z.im| ≤ 2 ^ 32) : cfOfInt z = refExact z := by
  rw [Int.abs_eq_natAbs] at hre him
  rw [cfOfInt, refExact, roundF64_intCast _ (by omega), roundF64_intCast _ (by omega)]

/-! ## The two cases of a result -/

section
variable (n oshift s2 : Nat) (A : Mat) (z : Nat → CInt)

/-- The machine's matrix of binary64 numbers. -/
def floatMatrix : MatF := fun i j => cfOfInt (A i j)

/-- The squared magnitude of the determinant, rounded (43_mmse.md R289). -/
def floatQ : Rat :=
  fadd (fmul (detf n (floatMatrix A)).re (detf n (floatMatrix A)).re) (fmul (detf n (floatMatrix A)).im (detf n (floatMatrix A)).im)

theorem floatSub_of_q_eq_zero (h : floatQ n A = 0) : floatSub n oshift s2 A z = mmseFallback n := if_pos h

theorem floatSub_of_q_ne_zero (h : floatQ n A ≠ 0) :
    floatSub n oshift s2 A z =
      { x := (List.range n).map (fun l =>
          floatSymbol oshift (numf n (floatMatrix A) (fun j => cfOfInt (z j)) l) (detf n (floatMatrix A)) (floatQ n A))
        g := (List.range n).map (fun l =>
          floatGain (roundF64 s2) (cofactorf n (floatMatrix A) l l) (detf n (floatMatrix A)) (floatQ n A))
        fallback := false } := if_neg h

end

/-- Settles O51: the expansions agree term by term, and the integers are below `2^53`. -/
theorem mmseFloatPathOrder : Obligations.MmseFloatPathOrder := by
  intro n oshift s2 A z hA hz hs2 M d q r
  have hM : finMatrix (n + 1) (floatMatrix A) = M := by
    ext i j
    all_goals
      obtain ⟨hre, him⟩ := hA i (Nat.le_of_lt_succ i.isLt) j (Nat.le_of_lt_succ j.isLt)
      simp only [finMatrix, floatMatrix, cfOfInt_eq_refExact _ hre him, M]
  have hzf : (fun j : Fin (n + 1) => cfOfInt (z j)) = fun j : Fin (n + 1) => refExact (z j) := by
    funext j
    obtain ⟨hre, him⟩ := hz j (Nat.le_of_lt_succ j.isLt)
    exact cfOfInt_eq_refExact _ hre him
  have hd : detf (n + 1) (floatMatrix A) = d := by rw [detf_eq_refDet, hM]
  have hq : floatQ (n + 1) A = q := by rw [floatQ, hd]; rfl
  have hs2' : roundF64 s2 = s2 := by
    have := roundF64_intCast s2 (by omega)
    exact_mod_cast this
  by_cases h0 : q = 0
  · have hr : r = mmseFallback (n + 1) := floatSub_of_q_eq_zero (n + 1) oshift s2 A z (hq.trans h0)
    simp only [hr, mmseFallback, List.length_replicate, h0, ne_eq, not_true_eq_false, false_implies, and_true, true_and,
      forall_const]
    exact fun l => ⟨List.getElem?_replicate_of_lt l.isLt, List.getElem?_replicate_of_lt l.isLt⟩
  · have hr := floatSub_of_q_ne_zero (n + 1) oshift s2 A z (by rwa [hq])
    rw [hd, hq, hs2'] at hr
    refine ⟨by simp [r, hr], by simp [r, hr], fun h => absurd h h0, fun _ => ⟨by simp only [r, hr], fun l => ⟨?_, ?_⟩⟩⟩
    · have hx : r.x[l]? = some (floatSymbol oshift (numf (n + 1) (floatMatrix A) (fun j => cfOfInt (z j)) l) d q) := by
        simp only [r, hr, Fin.getElem?_fin, List.getElem?_map, List.getElem?_range l.isLt, Option.map_some]
      rw [hx, numf_eq_refNum, hM, hzf]
      rfl
    · have hg : r.g[l]? = some (floatGain s2 (cofactorf (n + 1) (floatMatrix A) l l) d q) := by
        simp only [r, hr, Fin.getElem?_fin, List.getElem?_map, List.getElem?_range l.isLt, Option.map_some]
      rw [hg, cofactorf_eq_refCofactor, hM]
      rfl

end Sys2Proof.Machine
end

section
/-! PROOF. The properties of the equalizer that the spec infers (43_mmse.md section 7): the identity (R292), the gain against the noise
(R293) and the real determinant (R294; log 15). -/

namespace Sys2Proof.Machine

/-! ## The determinant is real (43_mmse.md R294) -/

section
variable (shift0 antennas s2 n : Nat) (h : Nat → Nat → CInt)

/-- No imaginary part above the diagonal is one whose negation saturates (log 15). -/
def UpperNegatable : Prop := ∀ i < n, ∀ j < n, i < j → (specGram shift0 antennas h i j).im ≠ -2147483648

/-- Opposite entries of `A` are conjugates. -/
theorem specA_conj (hneg : UpperNegatable shift0 antennas n h) (i j : Nat) (hi : i < n) (hj : j < n) (hij : i < j) :
    specA shift0 antennas s2 h j i = conj (specA shift0 antennas s2 h i j) := by
  have hupper : specGram shift0 antennas h i j = specInner shift0 antennas (h i) (h j) := if_pos hij.le
  have hrange := sat32_range (∑ rx ∈ Finset.range antennas, ((h i rx).re * (h j rx).im - (h i rx).im * (h j rx).re) / 2 ^ shift0)
  have him : (specInner shift0 antennas (h i) (h j)).im ≠ -2147483648 := hupper ▸ hneg i hi j hj hij
  have hsat : sat32 (-(specInner shift0 antennas (h i) (h j)).im) = -(specInner shift0 antennas (h i) (h j)).im := by
    simp only [specInner] at him ⊢
    exact clamp_of_range _ _ _ (by omega) (by omega)
  rw [specA, specA, if_neg hij.ne', if_neg hij.ne, hupper, specGram, if_neg (by omega), hsat, conj]

theorem isHermitian_gaussMatrix_specA (hneg : UpperNegatable shift0 antennas n h) :
    (gaussMatrix n (specA shift0 antennas s2 h)).IsHermitian := by
  refine Matrix.IsHermitian.ext fun i j => ?_
  simp only [gaussMatrix]
  rcases lt_trichotomy i j with hij | rfl | hij
  · rw [specA_conj shift0 antennas s2 n h hneg i j i.isLt j.isLt hij, gauss_conj, star_star]
  · simp [specA, gauss]
  · rw [specA_conj shift0 antennas s2 n h hneg j i j.isLt i.isLt hij, gauss_conj]

end

/-- A Gaussian integer that is its own conjugate is real. -/
theorem im_eq_zero_of_star_eq (z : GaussianInt) (h : star z = z) : z.im = 0 := by
  have him := congrArg Zsqrtd.im h
  rw [Zsqrtd.im_star] at him
  omega

/-- Settles O54: `A` is Hermitian over the Gaussian integers, so are its adjugate's diagonal and its determinant real. -/
theorem mmseDeterminantIsReal : Obligations.MmseDeterminantIsReal := by
  intro shift0 antennas s2 n h hneg
  have hherm := isHermitian_gaussMatrix_specA shift0 antennas s2 n h hneg
  constructor
  · rw [← gauss_im, gauss_det]
    exact im_eq_zero_of_star_eq _ (by rw [← Matrix.det_conjTranspose, hherm.eq])
  · intro l hl
    have hcof := gauss_cofactor (specA shift0 antennas s2 h) ⟨l, hl⟩ ⟨l, hl⟩
    rw [← gauss_im, hcof]
    have hadj : (gaussMatrix n (specA shift0 antennas s2 h)).adjugate.IsHermitian := hherm.adjugate
    exact im_eq_zero_of_star_eq _ (hadj.apply _ _)

/-! ## One layer on the fixed path -/

/-- A common positive factor leaves a rounded quotient. -/
theorem rndDiv_mul_right (v a k : Int) (ha : 0 < a) (hk : 0 < k) : rndDiv (v * k) (a * k) = rndDiv v a := by
  have hk' : (k : Rat) ≠ 0 := by exact_mod_cast hk.ne'
  rw [← rnd_quot _ _ (Int.mul_pos ha hk), ← rnd_quot _ _ ha]
  congr 1
  unfold quot
  push_cast
  exact mul_div_mul_right _ _ hk'

/-- The result of one layer with regularized power `a` and matched filter `z`. -/
def oneLayer (oshift s2 : Nat) (a : Int) (z : CInt) : SubResult where
  x := [⟨sat16 (rndDiv (z.re * 2 ^ oshift) a), sat16 (rndDiv (z.im * 2 ^ oshift) a)⟩]
  g := [clamp (rndDiv (2 ^ 15 * (a - s2)) a) 0 32767]
  fallback := false

theorem fixedSub_one (oshift s2 : Nat) (A : Mat) (z : Nat → CInt) (a : Int) (hA : A 0 0 = ⟨a, 0⟩) (ha : 0 < a) :
    fixedSub 1 oshift s2 A z = oneLayer oshift s2 a (z 0) := by
  have hdet : det 1 A = ⟨a, 0⟩ := by simp [det, csum, cadd, cmul, hA]
  have hcof : cofactor 1 A 0 0 = ⟨1, 0⟩ := by simp [cofactor, det]
  have hgauss : gauss ⟨a, 0⟩ ≠ 0 := by
    rw [Ne, gauss_eq_zero_iff]
    simpa using ha.ne'
  have hdet' : (gaussMatrix 1 A).det ≠ 0 := by rwa [← gauss_det, hdet]
  have hnorm : (gauss ⟨a, 0⟩).norm = a * a := by simp [norm_gauss, normSq]
  rw [fixedSub_of_det_ne_zero 1 oshift s2 A z hdet', hdet]
  simp only [List.range_one, List.map_cons, List.map_nil, hcof, fixedSymbol_eq _ _ _ hgauss, fixedGain_eq _ _ _ hgauss, hnorm,
    oneLayer, ← gauss_conj, ← gauss_cmul, gauss_re, gauss_im]
  have hsum : csum [cmul ⟨1, 0⟩ (z 0)] = z 0 := by simp [csum, cadd, cmul]
  have hre : (cmul (z 0) (conj ⟨a, 0⟩)).re * 2 ^ oshift = (z 0).re * 2 ^ oshift * a := by simp only [cmul, conj]; ring
  have him : (cmul (z 0) (conj ⟨a, 0⟩)).im * 2 ^ oshift = (z 0).im * 2 ^ oshift * a := by simp only [cmul, conj]; ring
  have hgain : 2 ^ 15 * (a * a - s2 * (cmul ⟨1, 0⟩ (conj ⟨a, 0⟩)).re) = 2 ^ 15 * (a - s2) * a := by simp only [cmul, conj]; ring
  rw [hsum, hre, him, hgain, rndDiv_mul_right _ _ _ ha ha, rndDiv_mul_right _ _ _ ha ha, rndDiv_mul_right _ _ _ ha ha]

theorem fixedSub_one_of_eq_zero (oshift s2 : Nat) (A : Mat) (z : Nat → CInt) (hA : A 0 0 = ⟨0, 0⟩) :
    fixedSub 1 oshift s2 A z = mmseFallback 1 := by
  refine fixedSub_of_det_eq_zero 1 oshift s2 A z ((det_eq_zero_iff 1 A).1 ?_)
  simp [det, csum, cadd, cmul, hA]

/-! ## Identity (43_mmse.md R292) -/

/-- One layer, one antenna: `A` and `z`. -/
theorem mmseSub_one_one (c : Mmse) (s2 : Nat) (y h : CInt) (hl : c.layers = 1) (hr : c.rx = 1) :
    mmseSub c s2 [y] [[h]]
      = subOf c s2 (specA c.shift0 1 s2 (fun _ _ => h)) (fun _ => specInner c.shift0 1 (fun _ => h) (fun _ => y)) := by
  have heq := mmseSub_eq_subOf c s2 (fun _ => y) (fun _ _ => h)
  rwa [hl, hr] at heq

theorem sat32_eq_self (v : Int) (h : -2147483648 ≤ v ∧ v ≤ 2147483647) : sat32 v = v := clamp_of_range _ _ _ h.1 h.2

/-- With channel `(g, 0)`, no noise and no shift: `A` is `g^2` and `z` is `g*y`. -/
theorem specA_one_real (g : Int) (hg : 0 ≤ g ∧ g ≤ 32767) : specA 0 1 0 (fun _ _ => ⟨g, 0⟩) 0 0 = ⟨g * g, 0⟩ := by
  have hsq : -2147483648 ≤ g * g ∧ g * g ≤ 2147483647 := by constructor <;> nlinarith
  simp [specA, specGram, specInner, sat32_eq_self _ hsq]

theorem specInner_one_real (g : Int) (y : CInt) (hg : 0 ≤ g ∧ g ≤ 32767) (hy : FitsC16 y) :
    specInner 0 1 (fun _ => ⟨g, 0⟩) (fun _ => y) = ⟨g * y.re, g * y.im⟩ := by
  obtain ⟨hre, hre', him, him'⟩ := hy
  have hrange (v : Int) (hv : -32768 ≤ v) (hv' : v ≤ 32767) : -2147483648 ≤ g * v ∧ g * v ≤ 2147483647 := by
    constructor <;> nlinarith
  simp [specInner, sat32_eq_self _ (hrange _ hre hre'), sat32_eq_self _ (hrange _ him him')]

theorem fitsC16_ofC16 (p : C16) : FitsC16 (ofC16 p) :=
  ⟨p.re.le_toInt, Int.le_of_lt_add_one p.re.toInt_lt, p.im.le_toInt, Int.le_of_lt_add_one p.im.toInt_lt⟩

theorem rndDiv_one (v : Int) : rndDiv v 1 = v := by
  have hquot : (2 * (v.natAbs : Int) + 1) / (2 * 1) = v.natAbs := by omega
  rw [rndDiv, hquot, Int.sign_mul_natAbs]

/-- An integer rounds to itself. -/
theorem rnd_intCast (v : Int) : rnd (v : Rat) = v := by
  have h := rnd_quot v 1 one_pos
  rwa [rndDiv_one, quot, Int.cast_one, div_one] at h

/-- The binary64 path of one layer whose determinant is 1 gives the matched filter. -/
theorem floatSub_one (s2 : Nat) (A : Mat) (z : Nat → CInt) (hA : A 0 0 = ⟨1, 0⟩) (hz : FitsC16 (z 0)) :
    (floatSub 1 0 s2 A z).x = [z 0] := by
  obtain ⟨hre, hre', him, him'⟩ := hz
  have h0 : roundF64 0 = 0 := if_pos rfl
  have h1 : roundF64 1 = 1 := by
    have := roundF64_intCast 1 (by norm_num)
    exact_mod_cast this
  have hzre : roundF64 (z 0).re = (z 0).re := roundF64_intCast _ (by omega)
  have hzim : roundF64 (z 0).im = (z 0).im := roundF64_intCast _ (by omega)
  have hM : floatMatrix A 0 0 = ⟨1, 0⟩ := by simp [floatMatrix, cfOfInt, hA, h0, h1]
  have hq : floatQ 1 A = 1 := by simp [floatQ, detf, hM, fadd, fmul, h0, h1]
  rw [floatSub_of_q_ne_zero 1 0 s2 A z (by rw [hq]; exact one_ne_zero), hq]
  simp [detf, hM, numf, cofactorf, cfmul, cfOfInt, floatSymbol, fadd, fsub, fmul, fdiv, h0, hzre, hzim, rnd_intCast,
    sat16_eq_self _ ⟨hre, hre'⟩, sat16_eq_self _ ⟨him, him'⟩]

/-- The unit channel of Q1.15 with `oshift = 15` (43_mmse.md R292): exact up to 16383, within 1 elsewhere. -/
theorem unit_channel_bounds (y : Int) (h : -32768 ≤ y ∧ y ≤ 32767) :
    |sat16 (rndDiv (y * 32768) 32767) - y| ≤ 1 ∧ (|y| ≤ 16383 → sat16 (rndDiv (y * 32768) 32767) = y) := by
  have hsign : (y * 32768).sign = y.sign := by
    rw [Int.sign_mul, Int.sign_eq_one_of_pos (by norm_num : (0 : Int) < 32768), mul_one]
  rw [rndDiv, hsign, abs_le, abs_le]
  unfold sat16 clamp
  rcases lt_trichotomy y 0 with hy | rfl | hy
  · rw [Int.sign_eq_neg_one_of_neg hy]
    split_ifs <;> omega
  · decide
  · rw [Int.sign_eq_one_of_pos hy]
    split_ifs <;> omega

/-- Settles O52: the unit channel makes `A` one and `z` the input; the Q1.15 one leaves the quotient by 32767. -/
theorem mmseIdentity : Obligations.MmseIdentity := by
  intro c p hl hr hshift y
  have hfits : FitsC16 y := fitsC16_ofC16 p
  obtain ⟨hlore, hhire, hloim, hhiim⟩ : FitsC16 y := fitsC16_ofC16 p
  have hs2 : mmseS2 [0] = 0 := rfl
  have hsub (g : Int) := mmseSub_one_one c 0 y ⟨g, 0⟩ hl hr
  rw [hshift] at hsub
  refine ⟨fun hoshift => ?_, fun hoshift hfp => ?_⟩
  · have hz := specInner_one_real 1 y (by omega) hfits
    rw [one_mul, one_mul] at hz
    rw [hs2, hsub, subOf, hl, hoshift, hz]
    cases c.fp with
    | true => exact floatSub_one 0 _ _ (specA_one_real 1 (by omega)) hfits
    | false =>
      rw [if_neg Bool.false_ne_true, fixedSub_one 0 0 _ _ 1 (specA_one_real 1 (by omega)) one_pos, oneLayer]
      simp [rndDiv_one, sat16_eq_self _ ⟨hlore, hhire⟩, sat16_eq_self _ ⟨hloim, hhiim⟩]
  · have hz := specInner_one_real 32767 y (by omega) hfits
    have hquot (v : Int) : rndDiv (32767 * v * 2 ^ 15) (32767 * 32767) = rndDiv (v * 32768) 32767 := by
      rw [show 32767 * v * 2 ^ 15 = v * 32768 * 32767 by ring]
      exact rndDiv_mul_right _ _ _ (by norm_num) (by norm_num)
    rw [hs2, hsub, subOf, hl, hoshift, hz, hfp, if_neg Bool.false_ne_true,
      fixedSub_one 15 0 _ _ (32767 * 32767) (specA_one_real 32767 (by omega)) (by norm_num), oneLayer]
    obtain ⟨hre, hre'⟩ := unit_channel_bounds y.re ⟨hlore, hhire⟩
    obtain ⟨him, him'⟩ := unit_channel_bounds y.im ⟨hloim, hhiim⟩
    exact ⟨_, rfl, by simp only [hquot], by simpa only [hquot] using hre, by simpa only [hquot] using him,
      by simpa only [hquot] using hre', by simpa only [hquot] using him'⟩

/-! ## The gain and the noise (43_mmse.md R293) -/

theorem rnd_mono {q q' : Rat} (h : q ≤ q') : rnd q ≤ rnd q' := by
  have hfloor {a b : Rat} (hab : a ≤ b) : (a + 1 / 2).floor ≤ (b + 1 / 2).floor := Rat.floor_monotone (by linarith)
  have hnonneg {a : Rat} (ha : 0 ≤ a) : 0 ≤ (a + 1 / 2).floor := Rat.le_floor_iff.2 (by push_cast; linarith)
  unfold rnd
  split_ifs with hq hq' hq'
  · exact neg_le_neg (hfloor (by linarith))
  · have := hnonneg (a := -q) (by linarith)
    have := hnonneg (a := q') (by linarith)
    omega
  · linarith
  · exact hfloor h

/-- Rounded quotients are in the order of the quotients. -/
theorem rndDiv_le_rndDiv (v a v' a' : Int) (ha : 0 < a) (ha' : 0 < a') (h : v * a' ≤ v' * a) : rndDiv v a ≤ rndDiv v' a' := by
  rw [← rnd_quot _ _ ha, ← rnd_quot _ _ ha']
  refine rnd_mono ?_
  unfold quot
  rw [div_le_div_iff₀ (by exact_mod_cast ha) (by exact_mod_cast ha')]
  exact_mod_cast h

theorem rndDiv_zero (a : Int) : rndDiv 0 a = 0 := by simp [rndDiv]

theorem clamp_mono (v v' lo hi : Int) (h : v ≤ v') (hlohi : lo ≤ hi) : clamp v lo hi ≤ clamp v' lo hi := by
  unfold clamp
  split_ifs <;> omega

/-- A larger divisor gives no larger saturated quotient. -/
theorem abs_sat16_rndDiv_anti (v a a' : Int) (ha : 0 < a) (h : a ≤ a') : |sat16 (rndDiv v a')| ≤ |sat16 (rndDiv v a)| := by
  have ha' : 0 < a' := by omega
  have hzero : sat16 0 = 0 := rfl
  rcases le_total 0 v with hv | hv
  · have h0 := rndDiv_le_rndDiv 0 1 v a' one_pos ha' (by linarith)
    rw [rndDiv_zero] at h0
    have hle := rndDiv_le_rndDiv v a' v a ha' ha (mul_le_mul_of_nonneg_left h hv)
    have hsat : 0 ≤ sat16 (rndDiv v a') := hzero ▸ clamp_mono _ _ _ _ h0 (by omega)
    have hsat' : sat16 (rndDiv v a') ≤ sat16 (rndDiv v a) := clamp_mono _ _ _ _ hle (by omega)
    rwa [abs_of_nonneg hsat, abs_of_nonneg (hsat.trans hsat')]
  · have h0 := rndDiv_le_rndDiv v a' 0 1 ha' one_pos (by linarith)
    rw [rndDiv_zero] at h0
    have hle := rndDiv_le_rndDiv v a v a' ha ha' (mul_le_mul_of_nonpos_left h hv)
    have hsat : sat16 (rndDiv v a') ≤ 0 := hzero ▸ clamp_mono _ _ _ _ h0 (by omega)
    have hsat' : sat16 (rndDiv v a) ≤ sat16 (rndDiv v a') := clamp_mono _ _ _ _ hle (by omega)
    rw [abs_of_nonpos hsat, abs_of_nonpos (hsat'.trans hsat)]
    exact neg_le_neg hsat'

/-- A list of a known length is the list of its values by index. -/
theorem map_range_getD {α : Type} (xs : List α) (d : α) (n : Nat) (h : xs.length = n) :
    (List.range n).map (fun i => xs.getD i d) = xs := by
  subst h
  refine List.ext_getElem (by simp) fun i _ hi => ?_
  simp [hi]

/-- The regularized power of one layer. -/
def regPower (g : Int) (s2 : Nat) : Int := sat32 (g + s2)

/-- The channel power of one layer after saturation. -/
def layerPower (c : Mmse) (h : List CInt) : Int :=
  (specInner c.shift0 c.rx (fun i => h.getD i ⟨0, 0⟩) (fun i => h.getD i ⟨0, 0⟩)).re

/-- The matched filter of one layer. -/
def layerMatched (c : Mmse) (y h : List CInt) : CInt :=
  specInner c.shift0 c.rx (fun i => h.getD i ⟨0, 0⟩) (fun i => y.getD i ⟨0, 0⟩)

theorem layerPower_range (c : Mmse) (h : List CInt) : 0 ≤ layerPower c h ∧ layerPower c h ≤ 2147483647 := by
  simp only [layerPower, specInner]
  refine ⟨?_, (sat32_range _).2⟩
  have hsum : 0 ≤ ∑ rx ∈ Finset.range c.rx, ((h.getD rx ⟨0, 0⟩).re * (h.getD rx ⟨0, 0⟩).re
      + (h.getD rx ⟨0, 0⟩).im * (h.getD rx ⟨0, 0⟩).im) / 2 ^ c.shift0 :=
    Finset.sum_nonneg fun rx _ => Int.ediv_nonneg (add_nonneg (mul_self_nonneg _) (mul_self_nonneg _)) (by positivity)
  exact clamp_mono 0 _ _ _ hsum (by omega)

theorem mmseSub_oneLayer (c : Mmse) (s2 : Nat) (y h : List CInt) (hl : c.layers = 1) (hfp : c.fp = false)
    (hh : h.length = c.rx) (hy : y.length = c.rx) :
    mmseSub c s2 y [h] = if regPower (layerPower c h) s2 = 0 then mmseFallback 1
      else oneLayer c.oshift s2 (regPower (layerPower c h) s2) (layerMatched c y h) := by
  have heq := mmseSub_eq_subOf c s2 (fun i => y.getD i ⟨0, 0⟩) (fun _ i => h.getD i ⟨0, 0⟩)
  have hcols : (List.range 1).map (fun _ => (List.range c.rx).map (fun i => h.getD i ⟨0, 0⟩)) = [h] := by
    rw [map_range_getD h _ _ hh]
    rfl
  rw [hl, hcols, map_range_getD y _ _ hy, subOf, hfp, if_neg Bool.false_ne_true, hl] at heq
  have hA : specA c.shift0 c.rx s2 (fun _ i => h.getD i ⟨0, 0⟩) 0 0 = ⟨regPower (layerPower c h) s2, 0⟩ := by
    simp only [specA, specGram, if_true, le_refl, regPower, layerPower]
  have hpos : 0 ≤ regPower (layerPower c h) s2 :=
    clamp_mono 0 _ _ _ (by have := layerPower_range c h; omega) (by omega)
  rw [heq]
  split
  · next h0 => exact fixedSub_one_of_eq_zero _ _ _ _ (hA.trans (by rw [h0]))
  · next h0 => exact fixedSub_one _ _ _ _ _ hA (by omega)

theorem mmseS2_mono (nv nv' : List Nat) (h : List.Forall₂ (· ≤ ·) nv nv') : mmseS2 nv ≤ mmseS2 nv' := by
  rw [mmseS2, mmseS2, h.length_eq]
  exact Nat.div_le_div_right h.sum_le_sum

/-- More noise gives no larger gain: the noise weighs at least as much in the regularized power. -/
theorem gain_anti (g : Int) (hg : 0 ≤ g ∧ g ≤ 2147483647) (s2 s2' : Nat) (hs : s2 ≤ s2') (hpos : 0 < regPower g s2)
    (hpos' : 0 < regPower g s2') :
    rndDiv (2 ^ 15 * (regPower g s2' - s2')) (regPower g s2') ≤ rndDiv (2 ^ 15 * (regPower g s2 - s2)) (regPower g s2) := by
  refine rndDiv_le_rndDiv _ _ _ _ hpos' hpos ?_
  have hs' : (s2 : Int) ≤ s2' := by exact_mod_cast hs
  have hcross : s2 * regPower g s2' ≤ s2' * regPower g s2 := by
    have hs0 : (0 : Int) ≤ s2 := by omega
    unfold regPower sat32 clamp at *
    split_ifs <;> nlinarith
  linarith [mul_comm (regPower g s2') (regPower g s2)]

/-- With no power at all the gain is 0, whatever noise is added. -/
theorem gain_of_regPower_eq_zero (g : Int) (hg : 0 ≤ g) (s2 s2' : Nat) (hzero : regPower g s2 = 0)
    (hpos' : 0 < regPower g s2') : clamp (rndDiv (2 ^ 15 * (regPower g s2' - s2')) (regPower g s2')) 0 32767 = 0 := by
  have hle : regPower g s2' ≤ s2' := by
    unfold regPower sat32 clamp at *
    split_ifs at * <;> omega
  have hround := rndDiv_le_rndDiv (2 ^ 15 * (regPower g s2' - s2')) (regPower g s2') 0 1 hpos' one_pos (by omega)
  rw [rndDiv_zero] at hround
  exact le_antisymm (clamp_mono _ 0 _ _ hround (by omega)) (clamp_range _ _ _ (by omega)).1

/-- Settles O53: in one layer the power only grows with the noise, the matched filter stays. -/
theorem mmseGainIsMonotone : Obligations.MmseGainIsMonotone := by
  intro c y h nv nv' hl hfp hh hy _ hnv r r'
  have hs := mmseS2_mono nv nv' hnv
  have hg := layerPower_range c h
  have hr : r = _ := mmseSub_oneLayer c (mmseS2 nv) y h hl hfp hh hy
  have hr' : r' = _ := mmseSub_oneLayer c (mmseS2 nv') y h hl hfp hh hy
  have hmono : regPower (layerPower c h) (mmseS2 nv) ≤ regPower (layerPower c h) (mmseS2 nv') :=
    clamp_mono _ _ _ _ (by omega) (by omega)
  have hnonneg : 0 ≤ regPower (layerPower c h) (mmseS2 nv) := clamp_mono 0 _ _ _ (by omega) (by omega)
  by_cases h0 : regPower (layerPower c h) (mmseS2 nv) = 0
  · rw [if_pos h0] at hr
    rw [hr]
    by_cases h0' : regPower (layerPower c h) (mmseS2 nv') = 0
    · rw [if_pos h0'] at hr'
      rw [hr']
      exact ⟨⟨0, 0⟩, ⟨0, 0⟩, 0, 0, rfl, rfl, rfl, rfl, le_refl 0, fun hfallback => absurd hfallback (by decide)⟩
    · rw [if_neg h0'] at hr'
      rw [hr']
      refine ⟨⟨0, 0⟩, _, 0, _, rfl, rfl, rfl, rfl, ?_, fun hfallback => absurd hfallback (by decide)⟩
      exact (gain_of_regPower_eq_zero _ hg.1 _ _ h0 (by omega)).le
  · have hpos : 0 < regPower (layerPower c h) (mmseS2 nv) := by omega
    rw [if_neg h0] at hr
    rw [if_neg (by omega)] at hr'
    rw [hr, hr']
    refine ⟨_, _, _, _, rfl, rfl, rfl, rfl, ?_, fun _ => ⟨?_, ?_⟩⟩
    · exact clamp_mono _ _ _ _ (gain_anti _ hg _ _ hs hpos (by omega)) (by omega)
    · exact abs_sat16_rndDiv_anti _ _ _ hpos hmono
    · exact abs_sat16_rndDiv_anti _ _ _ hpos hmono

end Sys2Proof.Machine
end

section
/-! PROOF. The closed cases of the reference DFT (41_fep.md R248; log 18): a constant window and an impulse. -/

namespace Sys2Proof.Machine

/-! ## Rounding of reals (00_scope.md R13) -/

theorem exists_isRndReal (x : ℝ) : ∃ v, IsRndReal x v := ⟨_, rfl⟩

theorem isRndReal_zero (v : Int) (h : IsRndReal 0 v) : v = 0 := by
  rw [h, if_neg (lt_irrefl 0), Int.floor_eq_zero_iff]
  norm_num

/-- A real of magnitude at most an integer rounds to one of magnitude at most it. -/
theorem IsRndReal.abs_le_int {x : ℝ} {v m : Int} (h : IsRndReal x v) (hx : |x| ≤ m) : |v| ≤ m := by
  have hfloor (y : ℝ) (hy : 0 ≤ y) (hym : y ≤ m) : |⌊y + 1 / 2⌋| ≤ m := by
    have hlo : 0 ≤ ⌊y + 1 / 2⌋ := Int.floor_nonneg.2 (by linarith)
    have hhi : ⌊y + 1 / 2⌋ < m + 1 := Int.floor_lt.2 (by push_cast; linarith)
    rw [abs_of_nonneg hlo]
    omega
  rw [abs_le] at hx
  rw [h]
  split
  · next hneg =>
    rw [abs_neg]
    exact hfloor (-x) (by linarith) (by linarith)
  · next hpos => exact hfloor x (not_lt.1 hpos) hx.2

/-! ## The sums of the two cases -/

/-- A sample as a complex number. -/
noncomputable def sampleC (z : C16) : ℂ := (z.re.toInt : ℂ) + (z.im.toInt : ℂ) * Complex.I

/-- The factor of sample `n` in bin `k` is the `n`-th power of one root of unity. -/
theorem dft_factor (N k n : Nat) :
    Complex.exp (-2 * Real.pi * Complex.I * k * n / N) = Complex.exp (-2 * Real.pi * Complex.I * k / N) ^ n := by
  rw [← Complex.exp_nat_mul]
  congr 1
  ring

theorem dft_root_pow (N k : Nat) (hN : N ≠ 0) : Complex.exp (-2 * Real.pi * Complex.I * k / N) ^ N = 1 := by
  have hN' : (N : ℂ) ≠ 0 := by exact_mod_cast hN
  rw [← Complex.exp_nat_mul, Complex.exp_eq_one_iff]
  refine ⟨-k, ?_⟩
  push_cast
  field_simp

theorem dft_root_ne_one (N k : Nat) (hk : 0 < k) (hkN : k < N) : Complex.exp (-2 * Real.pi * Complex.I * k / N) ≠ 1 := by
  have hN' : (N : ℂ) ≠ 0 := by exact_mod_cast (by omega : N ≠ 0)
  have hpi : (Real.pi : ℂ) ≠ 0 := by exact_mod_cast Real.pi_ne_zero
  rw [Ne, Complex.exp_eq_one_iff]
  rintro ⟨m, hm⟩
  have hcast : -(k : ℂ) = m * N := by
    have h2 : (2 * Real.pi * Complex.I : ℂ) ≠ 0 := mul_ne_zero (mul_ne_zero two_ne_zero hpi) Complex.I_ne_zero
    refine mul_left_cancel₀ h2 ?_
    field_simp at hm ⊢
    linear_combination hm
  have hint : -(k : Int) = m * N := by exact_mod_cast hcast
  have hlt : -1 < m := by
    by_contra hle
    nlinarith
  have hgt : m < 0 := by
    by_contra hge
    nlinarith
  omega

/-- The sum over a constant window: everything in bin 0 (41_fep.md R248). -/
theorem sum_dft_factors (N k : Nat) (hkN : k < N) :
    ∑ n ∈ Finset.range N, Complex.exp (-2 * Real.pi * Complex.I * k * n / N) = if k = 0 then (N : ℂ) else 0 := by
  simp only [dft_factor]
  split
  · next h0 => simp [h0]
  · next h0 =>
    have hgeom := mul_geom_sum (Complex.exp (-2 * Real.pi * Complex.I * k / N)) N
    rw [dft_root_pow N k (by omega), sub_self] at hgeom
    exact (mul_eq_zero.1 hgeom).resolve_left (sub_ne_zero.2 (dft_root_ne_one N k (by omega) hkN))

section
variable {N k : Nat} {z : C16} {S : ℂ}

/-- `S[k]` of a constant window (41_fep.md R248). -/
theorem IsDftSum.of_constant (h : IsDftSum N true (List.replicate N z) k S) (hkN : k < N) :
    S = if k = 0 then (Real.sqrt N : ℂ) * sampleC z else 0 := by
  have hterm : ∀ n ∈ Finset.range N,
      ((((List.replicate N z).getD n ⟨0, 0⟩).re.toInt : ℂ) + (((List.replicate N z).getD n ⟨0, 0⟩).im.toInt : ℂ) * Complex.I)
        * Complex.exp (-2 * Real.pi * Complex.I * k * n / N)
      = sampleC z * Complex.exp (-2 * Real.pi * Complex.I * k * n / N) := by
    intro n hn
    have hget : (List.replicate N z).getD n ⟨0, 0⟩ = z := by simp [Finset.mem_range.1 hn]
    rw [hget, sampleC]
  rw [h, if_pos rfl, Finset.sum_congr rfl hterm, ← Finset.mul_sum, sum_dft_factors N k hkN]
  split
  · have hsqrt : (Real.sqrt N : ℂ) ≠ 0 := by
      have hpos : (0 : ℝ) < N := by exact_mod_cast (by omega : 0 < N)
      exact_mod_cast (Real.sqrt_pos.2 hpos).ne'
    have hsq : (Real.sqrt N : ℂ) * (Real.sqrt N : ℂ) = N := by exact_mod_cast Real.mul_self_sqrt (Nat.cast_nonneg N)
    rw [← hsq]
    field_simp
  · ring

/-- `S[k]` of an impulse (41_fep.md R248). -/
theorem IsDftSum.of_impulse (h : IsDftSum N true (z :: List.replicate (N - 1) ⟨0, 0⟩) k S) (hkN : k < N) :
    S = sampleC z / (Real.sqrt N : ℂ) := by
  rw [h, if_pos rfl, Finset.sum_eq_single_of_mem 0 (by simp; omega)]
  · simp only [List.getD_cons_zero, Nat.cast_zero, mul_zero, zero_div, Complex.exp_zero, mul_one]
    rw [sampleC]
    ring
  · intro n _ hn
    obtain ⟨n, rfl⟩ := Nat.exists_eq_succ_of_ne_zero hn
    have hget : (z :: List.replicate (N - 1) (⟨0, 0⟩ : C16)).getD (n + 1) ⟨0, 0⟩ = ⟨0, 0⟩ := by
      rw [List.getD_cons_succ]
      simp only [List.getD_eq_getElem?_getD, List.getElem?_replicate]
      split <;> rfl
    rw [hget]
    simp

end

theorem sampleC_scale_re (z : C16) (r : ℝ) : ((r : ℂ) * sampleC z).re = z.re.toInt * r := by
  simp [sampleC, mul_comm]

theorem sampleC_scale_im (z : C16) (r : ℝ) : ((r : ℂ) * sampleC z).im = z.im.toInt * r := by
  simp [sampleC, mul_comm]

theorem fftSize_pos (sizeClass : Nat) (h : sizeClass ≤ 10) : 128 ≤ fftSize sizeClass := by
  interval_cases sizeClass <;> decide

/-- An int16 over the root of a DFT size stays within the 16-bit range. -/
theorem sat16_of_isRndReal_div_sqrt (v : BitVec 16) (N : Nat) (hN : 128 ≤ N) (re : Int)
    (h : IsRndReal (v.toInt / Real.sqrt N) re) : sat16 re = re := by
  have hsqrt : (2 : ℝ) ≤ Real.sqrt N := by
    rw [show (2 : ℝ) = Real.sqrt (2 ^ 2) by rw [Real.sqrt_sq (by norm_num)]]
    exact Real.sqrt_le_sqrt (by norm_num; exact_mod_cast (by omega : 4 ≤ N))
  have hv : |(v.toInt : ℝ)| ≤ 32768 := by
    have hlo := v.le_toInt
    have hhi := v.toInt_lt
    rw [abs_le]
    constructor
    · exact_mod_cast hlo
    · exact_mod_cast hhi.le
  have hx : |(v.toInt : ℝ) / Real.sqrt N| ≤ (16384 : Int) := by
    rw [abs_div, abs_of_nonneg (Real.sqrt_nonneg _), div_le_iff₀ (by linarith)]
    push_cast
    linarith
  have hle := h.abs_le_int hx
  rw [abs_le] at hle
  exact sat16_eq_self re (by omega)

/-- Settles O48: the factors of a bin are the powers of a root of unity, whose sum over the window is `N` or 0. -/
theorem referenceDftClosedCases : Obligations.ReferenceDftClosedCases := by
  intro dft c a b x hsize hscale hlen hdft
  have hN := fftSize_pos c.sizeClass hsize
  have hmod (i : Nat) : (c.firstSc + i) % fftSize c.sizeClass < fftSize c.sizeClass := Nat.mod_lt _ (by omega)
  have hbin (i : Nat) (hi : i < c.nSc) := getElem?_fepBins dft c x i hi
  rw [hscale] at hbin
  constructor
  · rintro hx i hi
    obtain ⟨S, re, im, hS, hre, him, hz⟩ := hdft _ (hmod i)
    rw [hx] at hS
    have hSval := hS.of_constant (hmod i)
    by_cases hk : (c.firstSc + i) % fftSize c.sizeClass = 0
    · rw [if_pos hk] at hSval
      refine ⟨_, re, im, hbin i hi, ?_, ?_, by rw [if_pos hk, hz]⟩
      · rwa [hSval, sampleC_scale_re] at hre
      · rwa [hSval, sampleC_scale_im] at him
    · rw [if_neg hk] at hSval
      obtain ⟨re', hre'⟩ := exists_isRndReal (a.toInt * Real.sqrt (fftSize c.sizeClass))
      obtain ⟨im', him'⟩ := exists_isRndReal (b.toInt * Real.sqrt (fftSize c.sizeClass))
      rw [hSval, Complex.zero_re] at hre
      rw [hSval, Complex.zero_im] at him
      refine ⟨_, re', im', hbin i hi, hre', him', ?_⟩
      rw [if_neg hk, hz, isRndReal_zero re hre, isRndReal_zero im him]
      rfl
  · rintro hx i hi
    obtain ⟨S, re, im, hS, hre, him, hz⟩ := hdft _ (hmod i)
    rw [hx] at hS
    have hSval : S = ((Real.sqrt (fftSize c.sizeClass))⁻¹ : ℝ) * sampleC ⟨a, b⟩ := by
      rw [hS.of_impulse (hmod i), Complex.ofReal_inv, div_eq_inv_mul]
    rw [hSval, sampleC_scale_re, ← div_eq_mul_inv] at hre
    rw [hSval, sampleC_scale_im, ← div_eq_mul_inv] at him
    refine ⟨_, hbin i hi, ?_, ?_⟩
    · rwa [hz, sat16_of_isRndReal_div_sqrt a _ hN re hre]
    · rwa [hz, sat16_of_isRndReal_div_sqrt b _ hN im him]

end Sys2Proof.Machine
end

section
/-! PROOF. The decoder's graph and its messages (47_ldpc.md R364 to R367): the list of edges has each joined pair once, so the machine's
sums over lists are sums over the joined checks or variables. -/

namespace Sys2Proof.Machine

/-! ## Lifting sizes (47_ldpc.md R362) -/

/-- The set index of a lifting size is the place of its `a`. -/
theorem liftingSet_eq_setIndex (zc : Nat) (h : liftingSize zc) : liftingSet zc = setIndex zc := by
  have hsizes : ∀ a ∈ [2, 3, 5, 7, 9, 11, 13, 15], ∀ j < 9, a * 2 ^ j ≤ 384 → liftingSet (a * 2 ^ j) = setIndex (a * 2 ^ j) := by
    decide
  obtain ⟨hle, a, ha, j, hj, rfl⟩ := h
  exact hsizes a ha j hj hle

theorem liftingSize_pos (zc : Nat) (h : liftingSize zc) : 0 < zc := by
  obtain ⟨-, a, ha, j, -, rfl⟩ := h
  have ha' : 0 < a := by
    have hall : ∀ a ∈ [2, 3, 5, 7, 9, 11, 13, 15], 0 < a := by decide
    exact hall a ha
  positivity

/-! ## The edges (47_ldpc.md R365) -/

theorem mem_entryEdges (zc i j shift : Nat) (hz : 0 < zc) (e : Edge) :
    e ∈ entryEdges zc i j shift ↔
      e.c / zc = i ∧ e.v / zc = j ∧ e.v % zc = (e.c % zc + shift % zc) % zc := by
  rw [entryEdges, List.mem_map]
  constructor
  · rintro ⟨r, hr, rfl⟩
    have hr' : r < zc := List.mem_range.1 hr
    have hv : (r + shift % zc) % zc < zc := Nat.mod_lt _ hz
    exact ⟨div_add_of_lt hr', div_add_of_lt hv, by simp only [mod_add_of_lt hr', mod_add_of_lt hv]⟩
  · rintro ⟨rfl, rfl, hshift⟩
    refine ⟨e.c % zc, List.mem_range.2 (Nat.mod_lt _ hz), ?_⟩
    rw [← hshift, Nat.mul_comm, Nat.div_add_mod, Nat.mul_comm, Nat.div_add_mod]

theorem nodup_entryEdges (zc i j shift : Nat) : (entryEdges zc i j shift).Nodup :=
  List.nodup_range.map_on fun r hr r' hr' h => by
    have hc := congrArg Edge.c h
    simpa using hc

section
variable (table : BgTable) (c : LdpcDec)

/-- The edges of the command's graph. -/
def edgesOf : List Edge := ldpcEdges table c.bg c.zc

variable (hz : liftingSize c.zc)
include hz

/-- The edges are the joined pairs of a check and a variable. -/
theorem mem_edgesOf (e : Edge) :
    e ∈ edgesOf table c ↔ e.c < ldpcCheckNodes c ∧ e.v < ldpcVars c ∧ joined table c e.c e.v = true := by
  have hpos := liftingSize_pos c.zc hz
  have hrow : e.c / c.zc < ldpcMb c.bg ↔ e.c < ldpcCheckNodes c := Nat.div_lt_iff_lt_mul hpos
  have hcol : e.v / c.zc < ldpcNb c.bg ↔ e.v < ldpcVars c := Nat.div_lt_iff_lt_mul hpos
  rw [edgesOf, ldpcEdges, liftingSet_eq_setIndex c.zc hz, ← hrow, ← hcol, joined]
  simp only [List.mem_flatMap, List.mem_range]
  constructor
  · rintro ⟨i, hi, j, hj, he⟩
    cases hentry : table c.bg (setIndex c.zc) i j with
    | none => simp [hentry] at he
    | some shift =>
      rw [hentry] at he
      obtain ⟨rfl, rfl, hshift⟩ := (mem_entryEdges _ _ _ _ hpos e).1 he
      refine ⟨hi, hj, ?_⟩
      rw [hentry]
      simpa using hshift
  · rintro ⟨hi, hj, he⟩
    refine ⟨_, hi, _, hj, ?_⟩
    cases hentry : table c.bg (setIndex c.zc) (e.c / c.zc) (e.v / c.zc) with
    | none => simp [hentry] at he
    | some shift =>
      rw [hentry] at he
      exact (mem_entryEdges _ _ _ _ hpos e).2 ⟨rfl, rfl, by simpa using he⟩

theorem nodup_edgesOf : (edgesOf table c).Nodup := by
  have hpos := liftingSize_pos c.zc hz
  have hblock (i j : Nat) (e : Edge)
      (he : e ∈ (match table c.bg (liftingSet c.zc) i j with
        | none => []
        | some shift => entryEdges c.zc i j shift)) : e.c / c.zc = i ∧ e.v / c.zc = j := by
    cases hentry : table c.bg (liftingSet c.zc) i j with
    | none => simp [hentry] at he
    | some shift =>
      rw [hentry] at he
      obtain ⟨hi, hj, -⟩ := (mem_entryEdges _ _ _ _ hpos e).1 he
      exact ⟨hi, hj⟩
  rw [edgesOf, ldpcEdges, List.nodup_flatMap]
  refine ⟨fun i _ => List.nodup_flatMap.2 ⟨fun j _ => ?_, ?_⟩, ?_⟩
  · cases table c.bg (liftingSet c.zc) i j with
    | none => exact List.nodup_nil
    | some shift => exact nodup_entryEdges _ _ _ _
  · refine List.nodup_range.imp fun {j j'} hne e he he' => ?_
    exact hne ((hblock i j e he).2.symm.trans (hblock i j' e he').2)
  · refine List.nodup_range.imp fun {i i'} hne e he he' => ?_
    obtain ⟨j, -, hj⟩ := List.mem_flatMap.1 he
    obtain ⟨j', -, hj'⟩ := List.mem_flatMap.1 he'
    exact hne ((hblock i j e hj).1.symm.trans (hblock i' j' e hj').1)

/-! ## The edges of a variable and of a check -/

/-- The checks joined to a variable. -/
def checksOn (table : BgTable) (c : LdpcDec) (v : Nat) : Finset Nat :=
  (Finset.range (ldpcCheckNodes c)).filter (fun k => joined table c k v = true)

/-- The variables joined to a check. -/
def varsOn (table : BgTable) (c : LdpcDec) (k : Nat) : Finset Nat :=
  (Finset.range (ldpcVars c)).filter (fun v => joined table c k v = true)

/-- A sum over the edges of a variable is one over its checks. -/
theorem sum_edges_of_var (v : Nat) (hv : v < ldpcVars c) (P : Nat → Bool) (f : Edge → Int) :
    (((edgesOf table c).filter (fun e => e.v == v && P e.c)).map f).sum
      = ∑ k ∈ (checksOn table c v).filter (fun k => P k = true), f ⟨k, v⟩ := by
  rw [← List.sum_toFinset _ ((nodup_edgesOf table c hz).filter _)]
  refine Finset.sum_nbij' (fun e => e.c) (fun k => ⟨k, v⟩) ?_ ?_ ?_ ?_ ?_
  · intro e he
    simp only [List.mem_toFinset, List.mem_filter, Bool.and_eq_true, beq_iff_eq] at he
    obtain ⟨hmem, rfl, hP⟩ := he
    obtain ⟨hc, -, hj⟩ := (mem_edgesOf table c hz e).1 hmem
    simp [checksOn, hc, hj, hP]
  · intro k hk
    simp only [checksOn, Finset.mem_filter, Finset.mem_range] at hk
    obtain ⟨⟨hc, hj⟩, hP⟩ := hk
    simp [mem_edgesOf table c hz, hc, hv, hj, hP]
  · intro e he
    simp only [List.mem_toFinset, List.mem_filter, Bool.and_eq_true, beq_iff_eq] at he
    obtain ⟨-, rfl, -⟩ := he
    rfl
  · intro k _
    rfl
  · intro e he
    simp only [List.mem_toFinset, List.mem_filter, Bool.and_eq_true, beq_iff_eq] at he
    obtain ⟨-, rfl, -⟩ := he
    rfl

/-- The edges of a check that satisfy a condition on the variable, up to their order. -/
theorem edges_of_check_perm (k : Nat) (hk : k < ldpcCheckNodes c) (P : Nat → Bool) :
    ((edgesOf table c).filter (fun e => e.c == k && P e.v)).Perm
      (((varsOn table c k).filter (fun v => P v = true)).toList.map (fun v => ⟨k, v⟩)) := by
  refine (List.perm_ext_iff_of_nodup ((nodup_edgesOf table c hz).filter _)
    ((Finset.nodup_toList _).map fun v v' h => congrArg Edge.v h)).2 fun e => ?_
  simp only [List.mem_filter, mem_edgesOf table c hz, Bool.and_eq_true, beq_iff_eq, List.mem_map, Finset.mem_toList, varsOn,
    Finset.mem_filter, Finset.mem_range]
  constructor
  · rintro ⟨⟨-, hv, hj⟩, rfl, hP⟩
    exact ⟨e.v, ⟨⟨hv, hj⟩, hP⟩, rfl⟩
  · rintro ⟨v, ⟨⟨hv, hj⟩, hP⟩, rfl⟩
    exact ⟨⟨hk, hv, hj⟩, rfl, hP⟩

end

end Sys2Proof.Machine
end

section
/-! PROOF. One iteration of the decoder (47_ldpc.md R363, R366, R367): the machine's messages are those of the statement's recursion. -/

namespace Sys2Proof.Machine

/-! ## The least magnitude of a list -/

theorem minAbs_cons_cons (p p' : Int) (ps : List Int) : minAbs (p :: p' :: ps) = min p.natAbs (minAbs (p' :: ps)) := rfl

theorem minAbs_le (qs : List Int) (q : Int) (h : q ∈ qs) : minAbs qs ≤ q.natAbs := by
  induction qs with
  | nil => simp at h
  | cons p ps ih =>
    cases ps with
    | nil => rw [List.mem_singleton.1 h, minAbs]
    | cons p' ps =>
      rw [minAbs_cons_cons]
      rcases List.mem_cons.1 h with rfl | h
      · exact min_le_left _ _
      · exact (min_le_right _ _).trans (ih h)

theorem exists_minAbs_eq (qs : List Int) (h : qs ≠ []) : ∃ q ∈ qs, minAbs qs = q.natAbs := by
  induction qs with
  | nil => exact absurd rfl h
  | cons p ps ih =>
    cases ps with
    | nil => exact ⟨p, by simp, rfl⟩
    | cons p' ps =>
      obtain ⟨q, hq, hmin⟩ := ih (by simp)
      rw [minAbs_cons_cons, hmin]
      rcases min_choice p.natAbs q.natAbs with hm | hm
      · exact ⟨p, by simp, hm⟩
      · exact ⟨q, by simp [hq], hm⟩

/-- The least magnitude of the values of a function on a finite set; 0 on the empty set. -/
def leastMag (vs : Finset Nat) (q : Nat → Int) : Nat := ((vs.image (fun v => (q v).natAbs)).min).untopD 0

theorem leastMag_empty (q : Nat → Int) : leastMag ∅ q = 0 := rfl

theorem leastMag_spec (vs : Finset Nat) (q : Nat → Int) (h : vs.Nonempty) :
    (∀ v ∈ vs, leastMag vs q ≤ (q v).natAbs) ∧ ∃ v ∈ vs, leastMag vs q = (q v).natAbs := by
  have hne : (vs.image (fun v => (q v).natAbs)).Nonempty := h.image _
  have hmin : leastMag vs q = (vs.image (fun v => (q v).natAbs)).min' hne := by
    rw [leastMag, ← Finset.coe_min' hne, WithTop.untopD_coe]
  rw [hmin]
  refine ⟨fun v hv => Finset.min'_le _ _ (Finset.mem_image_of_mem _ hv), ?_⟩
  obtain ⟨v, hv, hval⟩ := Finset.mem_image.1 (Finset.min'_mem _ hne)
  exact ⟨v, hv, hval.symm⟩

/-- The least magnitude of a list that lists a set's values. -/
theorem minAbs_eq_leastMag (vs : Finset Nat) (q : Nat → Int) (qs : List Int) (h : ∀ x, x ∈ qs ↔ ∃ v ∈ vs, q v = x) :
    minAbs qs = leastMag vs q := by
  rcases vs.eq_empty_or_nonempty with rfl | hne
  · have hnil : qs = [] := List.eq_nil_iff_forall_not_mem.2 fun x hx => by simpa using (h x).1 hx
    rw [hnil, leastMag_empty, minAbs]
  · obtain ⟨hle, v, hv, hleast⟩ := leastMag_spec vs q hne
    obtain ⟨x, hx, hmin⟩ := exists_minAbs_eq qs fun hnil => by
      have := (h (q v)).2 ⟨v, hv, rfl⟩
      simp [hnil] at this
    obtain ⟨w, hw, rfl⟩ := (h x).1 hx
    refine le_antisymm ?_ (hmin ▸ hle w hw)
    rw [hleast]
    exact minAbs_le qs _ ((h _).2 ⟨v, hv, rfl⟩)

/-! ## Messages on the edges -/

section
variable (table : BgTable) (c : LdpcDec)

/-- The messages with value `f k v` on the edge of check `k` and variable `v`. -/
def msgsOf (f : Nat → Nat → Int) : List Msg := (edgesOf table c).map (fun e => (e, f e.c e.v))

/-- The other variables of a check. -/
def othersOn (k v : Nat) : Finset Nat := (varsOn table c k).filter (fun v2 => v2 ≠ v)

/-- The value sent by a check to a variable for the values `q` of its other variables (47_ldpc.md R366 (b)). -/
def checkValue (alpha k v : Nat) (q : Nat → Int) : Int :=
  (∏ v2 ∈ othersOn table c k v, sgn (q v2)) * ((alpha * leastMag (othersOn table c k v) q / 4 : Nat) : Int)

theorem map_fst_msgsOf (f : Nat → Nat → Int) : (msgsOf table c f).map (·.1) = edgesOf table c := by
  simp [msgsOf, Function.comp_def]

variable (hz : liftingSize c.zc)
include hz

theorem varToCheck_msgsOf (lam : List Int) (f : Nat → Nat → Int) (k v : Nat) (hv : v < ldpcVars c) :
    varToCheck lam (msgsOf table c f) ⟨k, v⟩
      = sat127 (lam.getD v 0 + ∑ k2 ∈ (checksOn table c v).filter (fun k2 => k2 ≠ k), f k2 v) := by
  have hsum := sum_edges_of_var table c hz v hv (fun k2 => k2 != k) (fun e => f e.c e.v)
  simp only [bne_iff_ne] at hsum
  rw [varToCheck, msgsOf, List.filter_map, List.map_map, ← hsum]
  rfl

theorem ldpcPost_msgsOf (lam : List Int) (f : Nat → Nat → Int) (v : Nat) (hv : v < ldpcVars c) :
    ldpcPost lam (msgsOf table c f) v = lam.getD v 0 + ∑ k ∈ checksOn table c v, f k v := by
  have hsum := sum_edges_of_var table c hz v hv (fun _ => true) (fun e => f e.c e.v)
  simp only [Bool.and_true, Finset.filter_true] at hsum
  rw [ldpcPost, msgsOf, List.filter_map, List.map_map, ← hsum]
  rfl

theorem checkToVar_msgsOf (alpha : Nat) (q : Nat → Nat → Int) (k v : Nat) (hk : k < ldpcCheckNodes c) :
    checkToVar alpha (msgsOf table c q) ⟨k, v⟩ = checkValue table c alpha k v (q k) := by
  let qs : List Int := ((msgsOf table c q).filter (fun m => m.1.c == k && m.1.v != v)).map (·.2)
  have hperm : qs.Perm ((othersOn table c k v).toList.map (q k)) := by
    have hedges := (edges_of_check_perm table c hz k hk (fun v2 => v2 != v)).map (fun e => q e.c e.v)
    simp only [bne_iff_ne, List.map_map] at hedges
    simp only [qs, msgsOf, List.filter_map, List.map_map]
    exact hedges
  have hmem (x : Int) : x ∈ qs ↔ ∃ v2 ∈ othersOn table c k v, q k v2 = x := by
    rw [hperm.mem_iff, List.mem_map]
    simp only [Finset.mem_toList]
  have hprod : (qs.map sgn).prod = ∏ v2 ∈ othersOn table c k v, sgn (q k v2) := by
    rw [(hperm.map sgn).prod_eq, List.map_map]
    exact Finset.prod_map_toList _ _
  have hmin := minAbs_eq_leastMag (othersOn table c k v) (q k) qs hmem
  have hvalue : checkToVar alpha (msgsOf table c q) ⟨k, v⟩
      = if qs.isEmpty then 0 else (qs.map sgn).prod * ((alpha * minAbs qs / 4 : Nat) : Int) := rfl
  rw [hvalue, hprod, hmin, checkValue]
  split
  · next hnil =>
    have hmag : leastMag (othersOn table c k v) (q k) = 0 := by rw [← hmin, List.isEmpty_iff.1 hnil, minAbs]
    simp [hmag]
  · rfl

/-! ## One iteration -/

/-- One iteration on messages given by a function (47_ldpc.md R366). -/
theorem ldpcIterate_msgsOf (alpha : Nat) (lam : List Int) (f : Nat → Nat → Int) :
    ldpcIterate alpha lam (msgsOf table c f)
      = msgsOf table c (fun k v => checkValue table c alpha k v (fun v2 =>
          sat127 (lam.getD v2 0 + ∑ k2 ∈ (checksOn table c v2).filter (fun k2 => k2 ≠ k), f k2 v2))) := by
  have hq : (msgsOf table c f).map (fun m => (m.1, varToCheck lam (msgsOf table c f) m.1))
      = msgsOf table c (fun k v => sat127 (lam.getD v 0 + ∑ k2 ∈ (checksOn table c v).filter (fun k2 => k2 ≠ k), f k2 v)) := by
    simp only [msgsOf, List.map_map]
    refine List.map_congr_left fun e he => ?_
    obtain ⟨-, hv, -⟩ := (mem_edgesOf table c hz e).1 he
    have hvar := varToCheck_msgsOf table c hz lam f e.c e.v hv
    rw [msgsOf] at hvar
    simp only [Function.comp_apply, hvar]
  rw [ldpcIterate, hq]
  simp only [msgsOf, List.map_map]
  refine List.map_congr_left fun e he => ?_
  obtain ⟨hc, -, -⟩ := (mem_edgesOf table c hz e).1 he
  have hcheck := checkToVar_msgsOf table c hz alpha
    (fun k v => sat127 (lam.getD v 0 + ∑ k2 ∈ (checksOn table c v).filter (fun k2 => k2 ≠ k), f k2 v)) e.c e.v hc
  rw [msgsOf] at hcheck
  simp only [Function.comp_apply, hcheck]

end

/-! ## The statement's recursion -/

section
variable (alpha : Nat) (table : BgTable) (c : LdpcDec) (ins : Nat → Int)

/-- The input of the machine's decoder. -/
def inputsUpTo : List Int := (List.range c.e).map ins

theorem getD_ldpcLam (v : Nat) (hv : v < ldpcVars c) : (ldpcLam c (inputsUpTo c ins)).getD v 0 = specLam c ins v := by
  rw [ldpcLam, getD_map_range _ _ _ v hv, specLam]
  split
  · rfl
  · split
    · next h =>
      rw [inputsUpTo, getD_map_range _ _ _ _ (by omega), asr_eq_ediv]
    · rfl

theorem filter_joined_checks (v k : Nat) :
    (Finset.range (ldpcCheckNodes c)).filter (fun k2 => joined table c k2 v = true ∧ k2 ≠ k)
      = (checksOn table c v).filter (fun k2 => k2 ≠ k) := by
  rw [checksOn, Finset.filter_filter]

theorem filter_joined_vars (k v : Nat) :
    (Finset.range (ldpcVars c)).filter (fun v2 => joined table c k v2 = true ∧ v2 ≠ v) = othersOn table c k v := by
  rw [othersOn, varsOn, Finset.filter_filter]

/-- The statement's recursion, one iteration unfolded. -/
theorem specR_succ (it k v : Nat) :
    specR alpha table c ins (it + 1) k v = checkValue table c alpha k v (fun v2 =>
      sat127 (specLam c ins v2 + ∑ k2 ∈ (checksOn table c v2).filter (fun k2 => k2 ≠ k), specR alpha table c ins it k2 v2)) := by
  rw [specR]
  simp only [filter_joined_checks, filter_joined_vars]
  rfl

/-- What a check sends depends on the values of the joined variables alone. -/
theorem checkValue_congr (k v : Nat) (q q' : Nat → Int) (h : ∀ v2 < ldpcVars c, q v2 = q' v2) :
    checkValue table c alpha k v q = checkValue table c alpha k v q' := by
  have hall : ∀ v2 ∈ othersOn table c k v, q v2 = q' v2 := fun v2 hv2 => by
    simp only [othersOn, varsOn, Finset.mem_filter, Finset.mem_range] at hv2
    exact h v2 hv2.1.1
  have himage : (othersOn table c k v).image (fun v2 => (q v2).natAbs) = (othersOn table c k v).image (fun v2 => (q' v2).natAbs) :=
    Finset.image_congr fun v2 hv2 => by simp only [hall v2 hv2]
  rw [checkValue, checkValue, leastMag, leastMag, himage, Finset.prod_congr rfl fun v2 hv2 => by rw [hall v2 hv2]]

/-- The messages after an iteration, by the statement's recursion. -/
def specMsgs (it : Nat) : List Msg := msgsOf table c (specR alpha table c ins it)

theorem specMsgs_zero : specMsgs alpha table c ins 0 = (edgesOf table c).map (fun e => (e, 0)) := by
  simp only [specMsgs, msgsOf, specR]

variable (hz : liftingSize c.zc)
include hz

theorem ldpcIterate_specMsgs (it : Nat) :
    ldpcIterate alpha (ldpcLam c (inputsUpTo c ins)) (specMsgs alpha table c ins it) = specMsgs alpha table c ins (it + 1) := by
  rw [specMsgs, ldpcIterate_msgsOf table c hz, specMsgs]
  congr 1
  funext k v
  rw [specR_succ]
  exact checkValue_congr alpha table c k v _ _ fun v2 hv2 => by rw [getD_ldpcLam c ins v2 hv2]

theorem ldpcPost_specMsgs (it v : Nat) (hv : v < ldpcVars c) :
    ldpcPost (ldpcLam c (inputsUpTo c ins)) (specMsgs alpha table c ins it) v = specPost alpha table c ins it v := by
  rw [specMsgs, ldpcPost_msgsOf table c hz _ _ v hv, getD_ldpcLam c ins v hv]
  rfl

end

end Sys2Proof.Machine
end

section
/-! PROOF. What `LDPC_DEC` does (47_ldpc.md R368 to R375): the decision on the statement's messages, the stop of R371, and the bits and the
result word in memory. -/

namespace Sys2Proof.Machine

/-! ## The decision (47_ldpc.md R368 to R370) -/

section
variable (table : BgTable) (c : LdpcDec)

/-- A list of one bit for each variable. -/
def bitsUpTo (bits : Nat → Bool) : List Bool := (List.range (ldpcVars c)).map bits

theorem syndromeOk_bitsUpTo (hz : liftingSize c.zc) (bits : Nat → Bool) :
    syndromeOk (ldpcCheckNodes c) (edgesOf table c) (bitsUpTo c bits) = true ↔ specSyndOk table c bits := by
  have hcard (k : Nat) (hk : k < ldpcCheckNodes c) :
      ((edgesOf table c).filter (fun e => e.c == k && (bitsUpTo c bits).getD e.v false)).length
        = ((Finset.range (ldpcVars c)).filter (fun v => joined table c k v = true ∧ bits v = true)).card := by
    rw [(edges_of_check_perm table c hz k hk (fun v => (bitsUpTo c bits).getD v false)).length_eq, List.length_map,
      Finset.length_toList, varsOn, Finset.filter_filter]
    refine congrArg Finset.card (Finset.filter_congr fun v hv => ?_)
    rw [bitsUpTo, getD_map_range _ _ _ v (Finset.mem_range.1 hv)]
  simp only [syndromeOk, List.all_eq_true, List.mem_range, beq_iff_eq, specSyndOk]
  refine forall_congr' fun k => forall_congr' fun hk => ?_
  rw [hcard k hk, Nat.even_iff]

theorem take_bitsUpTo (bits : Nat → Bool) : (bitsUpTo c bits).take (ldpcK c) = (List.range (ldpcK c)).map bits := by
  rw [bitsUpTo, ← List.map_take, List.take_range, Nat.min_eq_left (ldpcK_le_vars c)]

end

section
variable (alpha : Nat) (init : BitVec 24) (table : BgTable) (c : LdpcDec) (ins : Nat → Int)

/-- The hard decision on the statement's posteriors. -/
def specBit (it v : Nat) : Bool := decide (specPost alpha table c ins it v < 0)

/-- The decision on the statement's messages. -/
def specDecision (it : Nat) : Decision :=
  ldpcDecide init c (ldpcLam c (inputsUpTo c ins)) (specMsgs alpha table c ins it)

variable (hz : liftingSize c.zc) (it : Nat)
include hz

theorem map_ldpcPost_specMsgs :
    (List.range (ldpcVars c)).map (ldpcPost (ldpcLam c (inputsUpTo c ins)) (specMsgs alpha table c ins it))
      = (List.range (ldpcVars c)).map (specPost alpha table c ins it) :=
  List.map_congr_left fun v hv => ldpcPost_specMsgs alpha table c ins hz it v (List.mem_range.1 hv)

theorem specDecision_xhat : (specDecision alpha init table c ins it).xhat = bitsUpTo c (specBit alpha table c ins it) := by
  simp only [specDecision, ldpcDecide, map_ldpcPost_specMsgs alpha table c ins hz it, List.map_map]
  rfl

theorem specDecision_undecided :
    (specDecision alpha init table c ins it).undecided = true ↔ specUndecided c (specPost alpha table c ins it) := by
  simp only [specDecision, ldpcDecide, map_ldpcPost_specMsgs alpha table c ins hz it, List.any_eq_true, List.mem_map,
    List.mem_range, beq_iff_eq, specUndecided]
  constructor
  · rintro ⟨_, ⟨v, hv, rfl⟩, h0⟩
    exact ⟨v, hv, h0⟩
  · rintro ⟨v, hv, h0⟩
    exact ⟨_, ⟨v, hv, rfl⟩, h0⟩

theorem specDecision_syndOk :
    (specDecision alpha init table c ins it).syndOk = true ↔ specSyndOk table c (specBit alpha table c ins it) := by
  rw [← syndromeOk_bitsUpTo table c hz, ← specDecision_xhat alpha init table c ins hz it]
  simp only [specDecision, ldpcDecide, specMsgs, map_fst_msgsOf]

theorem specDecision_crcOk :
    (specDecision alpha init table c ins it).crcOk = true ↔ specCrcOk init c (specBit alpha table c ins it) := by
  have hfields : (specDecision alpha init table c ins it).crcOk
      = (c.crcEt && decide (24 ≤ ldpcK c)
          && crcVerify init ((specDecision alpha init table c ins it).xhat.take (ldpcK c))) := rfl
  rw [hfields, specDecision_xhat alpha init table c ins hz it, take_bitsUpTo, Bool.and_eq_true, Bool.and_eq_true, decide_eq_true_eq,
    specCrcOk, and_assoc]
  refine and_congr_right fun _ => and_congr_right fun hK => ?_
  exact crcVerify_map_range_iff init _ _ hK

/-- The machine's test of convergence is the statement's. -/
theorem specDecision_converged :
    (!(specDecision alpha init table c ins it).undecided
        && ((specDecision alpha init table c ins it).syndOk || (specDecision alpha init table c ins it).crcOk)) = true
      ↔ specConverged init table c (specPost alpha table c ins it) := by
  have hundecided := specDecision_undecided alpha init table c ins hz it
  have hsynd := specDecision_syndOk alpha init table c ins hz it
  have hcrc := specDecision_crcOk alpha init table c ins hz it
  rw [Bool.and_eq_true, Bool.or_eq_true, hsynd, hcrc, Bool.not_eq_true', ← Bool.not_eq_true, hundecided]
  rfl

end

/-! ## The stop (47_ldpc.md R371) -/

/-- The stop of R371 among the iterations from `first` to `last`. -/
def stopsBetween (init : BitVec 24) (table : BgTable) (c : LdpcDec) (post : Nat → Nat → Int) (abort : Nat → Bool)
    (first last it : Nat) (why : Stop) : Prop :=
  first ≤ it ∧ it ≤ last
    ∧ (∀ i, first ≤ i → i < it → ¬ specConverged init table c (post i) ∧ abort i = false)
    ∧ match why with
      | .converged => specConverged init table c (post it)
      | .limit => ¬ specConverged init table c (post it) ∧ it = last
      | .aborted => ¬ specConverged init table c (post it) ∧ it < last ∧ abort it = true

section
variable (alpha : Nat) (init : BitVec 24) (table : BgTable) (c : LdpcDec) (ins : Nat → Int) (hz : liftingSize c.zc)
  (abort : Nat → Bool)
include hz

/-- The loop from the statement's messages stops by R371 on the statement's decision. -/
theorem ldpcLoop_specMsgs (left n : Nat) :
    ∃ it why, ldpcLoop alpha init c (ldpcLam c (inputsUpTo c ins)) abort left (n + 1) (specMsgs alpha table c ins n)
        = (specDecision alpha init table c ins it, it, why)
      ∧ stopsBetween init table c (specPost alpha table c ins) abort (n + 1) (n + 1 + left) it why := by
  have hiterate := ldpcIterate_specMsgs alpha table c ins hz n
  have hconv := specDecision_converged alpha init table c ins hz (n + 1)
  have hnone (i : Nat) (h1 : n + 1 ≤ i) (h2 : i < n + 1) :
      ¬ specConverged init table c (specPost alpha table c ins i) ∧ abort i = false := by omega
  induction left generalizing n with
  | zero =>
    simp only [ldpcLoop, hiterate]
    split
    · next h => exact ⟨n + 1, .converged, rfl, le_refl _, le_refl _, hnone, hconv.1 h⟩
    · next h => exact ⟨n + 1, .limit, rfl, le_refl _, le_refl _, hnone, mt hconv.2 h, rfl⟩
  | succ left ih =>
    simp only [ldpcLoop, hiterate]
    split
    · next h => exact ⟨n + 1, .converged, rfl, le_refl _, by omega, hnone, hconv.1 h⟩
    · next h =>
      split
      · next habort => exact ⟨n + 1, .aborted, rfl, le_refl _, by omega, hnone, mt hconv.2 h, by omega, habort⟩
      · next habort =>
        obtain ⟨it, why, hloop, hfirst, hlast, hearlier, hwhy⟩ := ih (n + 1)
          (ldpcIterate_specMsgs alpha table c ins hz (n + 1)) (specDecision_converged alpha init table c ins hz (n + 2))
          (fun i h1 h2 => by omega)
        refine ⟨it, why, hloop, by omega, by omega, fun i h1 h2 => ?_, ?_⟩
        · rcases Nat.eq_or_lt_of_le h1 with rfl | hlt
          · exact ⟨mt hconv.2 h, by simpa using habort⟩
          · exact hearlier i hlt h2
        · rwa [Nat.add_right_comm (n + 1) 1 left] at hwhy

/-- The whole decoding stops by R371. -/
theorem ldpcDecode_spec (hmax : c.maxIter ≠ 0) :
    ∃ it why, ldpcDecode alpha init table c abort (inputsUpTo c ins) = (specDecision alpha init table c ins it, it, why)
      ∧ specStops init table c (specPost alpha table c ins) abort it why := by
  obtain ⟨it, why, hloop, hstops⟩ := ldpcLoop_specMsgs alpha init table c ins hz abort (c.maxIter - 1) 0
  have hlast : 0 + 1 + (c.maxIter - 1) = c.maxIter := by omega
  rw [hlast] at hstops
  refine ⟨it, why, ?_, hstops⟩
  rw [ldpcDecode, ← hloop, specMsgs_zero]
  rfl

end

end Sys2Proof.Machine
end

section
/-! PROOF. What `LDPC_DEC` leaves (47_ldpc.md R372 to R375; log 6): packed bits read back, the bits of the result word, and the whole
command. -/

namespace Sys2Proof.Machine

/-! ## Bytes of bits (20_memory.md R129) -/

theorem memRead_one (m : Memory) (a : Nat) : memRead m a 1 = (m.read a).map BitVec.toNat := by
  cases h : m.read a <;> simp [memRead, loadBytes, collectN, collect, leNat, h]

theorem msbNat_lt (bs : List Bool) : msbNat bs < 2 ^ bs.length := by
  induction bs using List.reverseRecOn with
  | nil => simp [msbNat]
  | append_singleton bs b ih =>
    have hb := bitVal_lt b
    have hlast : msbNat (bs ++ [b]) = 2 * msbNat bs + bitVal b := by simp [msbNat]
    rw [hlast, List.length_append, List.length_singleton, Nat.pow_succ]
    omega

/-- The bits of a number made of bits. -/
theorem testBit_msbNat_map_range (n : Nat) (f : Nat → Bool) (t : Nat) (ht : t < n) :
    (msbNat ((List.range n).map f)).testBit (n - 1 - t) = f t := by
  have hlt : msbNat ((List.range n).map f) < 2 ^ n := by simpa using msbNat_lt ((List.range n).map f)
  have hbits := msbNat_testBit n (msbNat ((List.range n).map f))
  rw [Nat.mod_eq_of_lt hlt] at hbits
  have hlists := msbNat_injective _ _ (by simp) hbits
  have hget := congrArg (·[t]?) hlists
  simpa [ht] using hget

/-- A packed byte holds its bits most significant first. -/
theorem testBit_packByte (bs : List Bool) (t : Nat) (ht : t < 8) : (packByte bs).toNat.testBit (7 - t) = bs.getD t false := by
  have hsum : ((List.range 8).map (fun t => if bs.getD t false then 2 ^ (7 - t) else 0)).sum
      = msbNat ((List.range 8).map (fun t => bs.getD t false)) := by
    rw [msbNat_map_range, sum_map_range]
  have hlt : msbNat ((List.range 8).map (fun t => bs.getD t false)) < 2 ^ 8 := by
    simpa using msbNat_lt ((List.range 8).map (fun t => bs.getD t false))
  rw [packByte, hsum, BitVec.toNat_ofNat, Nat.mod_eq_of_lt hlt]
  exact testBit_msbNat_map_range 8 (fun t => bs.getD t false) t ht

/-- Bit `i` of stored packed bits, 0 past the bits. -/
theorem ldPbit_of_packBits (m : Memory) (a : Nat) (bs : List Bool) (i : Nat) (hi : i / 8 < (packBits bs).length)
    (h : m.read (a + i / 8) = (packBits bs)[i / 8]?) : ldPbit m a i = some (bs.getD i false) := by
  have hbyte : (packBits bs)[i / 8]? = some (packByte (bs.drop (8 * (i / 8)))) := by
    rw [length_packBits] at hi
    simp [packBits, hi]
  have hbit := testBit_packByte (bs.drop (8 * (i / 8))) (i % 8) (Nat.mod_lt _ (by norm_num))
  rw [List.getD_eq_getElem?_getD, List.getElem?_drop, Nat.div_add_mod, ← List.getD_eq_getElem?_getD] at hbit
  rw [ldPbit, memRead_one, h, hbyte, Option.map_some, Option.map_some, ← hbit, Nat.testBit_eq_decide_div_mod_eq]
  rfl

/-! ## The result word (47_ldpc.md R374) -/

section
variable (d : Decision) (iters : Nat) (stop : Stop) (hit : iters < 256)

/-- The flags of the result word, from bit 8 on. -/
def resultFlags : List Bool :=
  [!d.undecided && d.syndOk, !d.undecided && d.crcOk, decide (stop = .converged), decide (stop = .aborted), d.undecided]

theorem flagWord_lt (flags : List Bool) : flagWord flags < 2 ^ flags.length := by
  induction flags with
  | nil => simp [flagWord]
  | cons f fs ih =>
    rw [flagWord, List.length_cons, Nat.pow_succ]
    split <;> omega

theorem flagWord_resultFlags_lt : flagWord (resultFlags d stop) < 32 := flagWord_lt (resultFlags d stop)

include hit

theorem toNat_ldpcResultWord : (ldpcResultWord d iters stop).toNat = iters + 2 ^ 8 * flagWord (resultFlags d stop) := by
  have hflags := flagWord_resultFlags_lt d stop
  have hword : ldpcResultWord d iters stop = BitVec.ofNat 32 (iters + 2 ^ 8 * flagWord (resultFlags d stop)) := rfl
  rw [hword, BitVec.toNat_ofNat]
  exact Nat.mod_eq_of_lt (by omega)

theorem ldpcResultWord_lt : (ldpcResultWord d iters stop).toNat < 2 ^ 13 := by
  have hflags := flagWord_resultFlags_lt d stop
  rw [toNat_ldpcResultWord d iters stop hit]
  omega

theorem ldpcResultWord_mod : (ldpcResultWord d iters stop).toNat % 256 = iters := by
  rw [toNat_ldpcResultWord d iters stop hit]
  omega

theorem getLsbD_ldpcResultWord (j : Nat) : (ldpcResultWord d iters stop).getLsbD (8 + j) = (resultFlags d stop).getD j false := by
  have hdiv : (iters + 2 ^ 8 * flagWord (resultFlags d stop)) / 2 ^ 8 = flagWord (resultFlags d stop) := by omega
  rw [← BitVec.testBit_toNat, toNat_ldpcResultWord d iters stop hit, ← testBit_flagWord]
  calc (iters + 2 ^ 8 * flagWord (resultFlags d stop)).testBit (8 + j)
      = ((iters + 2 ^ 8 * flagWord (resultFlags d stop)) / 2 ^ 8).testBit j := by rw [Nat.testBit_div_two_pow, Nat.add_comm 8 j]
    _ = _ := by rw [hdiv]

end

/-! ## The command -/

theorem abortSeen_eq (s : State) : s.abortSeen = fun n => s.abortPending || s.midAbort.any (fun k => decide (k ≤ n)) := by
  funext n
  rw [State.abortSeen]
  cases s.midAbort <;> rfl

theorem dmem_apply_ldpcStores (s : State) (c : LdpcDec) (out : Decision × Nat × Stop) :
    (s.apply (ldpcStores c out)).complete.dmem
      = (s.dmem.store c.outBase (ldpcOutBytes c out.1)).store c.resAddr (bytes32 (ldpcResultWord out.1 out.2.1 out.2.2)) := by
  rw [State.complete_dmem, State.apply_eq]
  rfl

theorem base_ldpcOut (c : LdpcDec) : (ldpcOut c).base = c.outBase := by
  unfold ldpcOut
  cases c.outmode <;> rfl

/-- The output bytes stay after the result word is stored (20_memory.md R133). -/
theorem read_ldpcStores (s : State) (c : LdpcDec) (out : Decision × Nat × Stop) (hlegal : legal s.params (.ldpcDec c))
    (hlen : out.1.xhat.length = ldpcVars c) (j : Nat) (hj : j < (ldpcOutBytes c out.1).length) :
    (s.apply (ldpcStores c out)).complete.dmem.read (c.outBase + j) = (ldpcOutBytes c out.1)[j]? := by
  obtain ⟨-, -, -, hpairs⟩ := hlegal
  have hdisjoint : bufsDisjoint (ldpcOut c, ldpcRes c) := hpairs _ (by simp [pairsOf])
  have hbytes := length_ldpcOutBytes c out.1 hlen
  have hres : bufBytes (ldpcRes c) = 4 := rfl
  have hbase : (ldpcRes c).base = c.resAddr := rfl
  simp only [bufsDisjoint, base_ldpcOut, ← hbytes, hres, hbase] at hdisjoint
  rw [dmem_apply_ldpcStores, Memory.read_store_outside _ _ _ _ (by rw [length_bytes32]; omega), Memory.read_store_inside _ _ _ _ hj]

/-- The decided bits in memory, packed or one to a byte (47_ldpc.md R372). -/
theorem ldpcOut_read_back (s : State) (c : LdpcDec) (out : Decision × Nat × Stop) (bits : Nat → Bool)
    (hlegal : legal s.params (.ldpcDec c)) (hbits : out.1.xhat = bitsUpTo c bits) :
    match c.outmode with
    | .packed => ∀ e < 8 * ((ldpcK c + 7) / 8),
        ldPbit (s.apply (ldpcStores c out)).complete.dmem c.outBase e = some (decide (e < ldpcK c) && bits e)
    | .bytes => ∀ e < ldpcK c,
        (s.apply (ldpcStores c out)).complete.dmem.read (c.outBase + e) = some (if bits e then 1 else 0) := by
  have hlen : out.1.xhat.length = ldpcVars c := by simp [hbits, bitsUpTo]
  have htake : out.1.xhat.take (ldpcK c) = (List.range (ldpcK c)).map bits := by rw [hbits, take_bitsUpTo]
  have hread := read_ldpcStores s c out hlegal hlen
  cases hmode : c.outmode with
  | packed =>
    intro e he
    have hbytes : ldpcOutBytes c out.1 = packBits ((List.range (ldpcK c)).map bits) := by simp only [ldpcOutBytes, hmode, htake]
    rw [hbytes] at hread
    have hin : e / 8 < (packBits ((List.range (ldpcK c)).map bits)).length := by
      rw [length_packBits, List.length_map, List.length_range]
      omega
    rw [ldPbit_of_packBits _ _ _ e hin (hread _ hin)]
    by_cases hK : e < ldpcK c <;> simp [hK]
  | bytes =>
    intro e he
    have hbytes : ldpcOutBytes c out.1 = ((List.range (ldpcK c)).map bits).map byteBit := by simp only [ldpcOutBytes, hmode, htake]
    rw [hbytes] at hread
    rw [hread e (by simpa using he)]
    simp [he, byteBit]

/-- Settles O44: the decoder runs on the statement's messages, stops by R371, and its decision stands in memory and in the result
word. -/
theorem ldpcDecResult : Obligations.LdpcDecResult := by
  intro c s ins hwf hlegal hread
  obtain ⟨hmax, hz, -, -⟩ : ldpcLegal c := hlegal.1
  have hmax8 : c.maxIter < 256 := by
    simp only [LdpcDec.wf, fits, Bool.and_eq_true, decide_eq_true_eq] at hwf
    omega
  obtain ⟨it, why, hdecode, hstops⟩ := ldpcDecode_spec s.params.cnAlphaNum s.params.crcInit Config.bgTable c ins hz s.abortSeen hmax
  have hit : it < 256 := by
    obtain ⟨-, hle, -⟩ := hstops
    omega
  let d := specDecision s.params.cnAlphaNum s.params.crcInit Config.bgTable c ins it
  have hundecided : d.undecided = true ↔ _ := specDecision_undecided _ s.params.crcInit Config.bgTable c ins hz it
  have hsynd : d.syndOk = true ↔ _ := specDecision_syndOk _ s.params.crcInit Config.bgTable c ins hz it
  have hcrc : d.crcOk = true ↔ _ := specDecision_crcOk _ s.params.crcInit Config.bgTable c ins hz it
  have heffect : effectOf (.ldpcDec c) s = some (ldpcStores c (d, it, why)) := by
    rw [effectOf, ldpcEffect_eq, collectN_of_forall c.e _ ins hread, Option.map_some, ldpcOutcome, ← hdecode]
    rfl
  have hexec := exec_of_effectOf (.ldpcDec c) s _ hlegal heffect
  have hbit (j : Nat) := getLsbD_ldpcResultWord d it why hit j
  have hframe := onlyOutputsWritten (.ldpcDec c) s _ hexec
  have hresult : (s.apply (ldpcStores c (d, it, why))).complete.ldpcResult = ldpcResultWord d it why := by
    rw [State.complete_ldpcResult, State.apply_eq]
    rfl
  have hdecided (flag : Bool) : (!d.undecided && flag) = true
      ↔ ¬ specUndecided c (specPost s.params.cnAlphaNum Config.bgTable c ins it) ∧ flag = true := by
    rw [Bool.and_eq_true, Bool.not_eq_true', ← Bool.not_eq_true, hundecided]
  refine ⟨_, it, why, hexec, abortSeen_eq s ▸ hstops, completed_apply s _, ?_, ?_, hframe⟩
  · rw [dmem_apply_ldpcStores, hresult]
    exact memRead_store_bytes32 _ _ _
  · simp only [hresult]
    refine ⟨ldpcResultWord_mod d it why hit, ?_, ?_, ?_, ?_, ?_, ldpcResultWord_lt d it why hit,
      ldpcOut_read_back s c (d, it, why) _ hlegal (specDecision_xhat _ s.params.crcInit Config.bgTable c ins hz it)⟩
    · exact (iff_of_eq (congrArg (· = true) (hbit 0))).trans ((hdecided d.syndOk).trans (and_congr_right fun _ => hsynd))
    · exact (iff_of_eq (congrArg (· = true) (hbit 1))).trans ((hdecided d.crcOk).trans (and_congr_right fun _ => hcrc))
    · exact (iff_of_eq (congrArg (· = true) (hbit 2))).trans decide_eq_true_iff
    · exact (iff_of_eq (congrArg (· = true) (hbit 3))).trans decide_eq_true_iff
    · exact (iff_of_eq (congrArg (· = true) (hbit 4))).trans hundecided

end Sys2Proof.Machine
end

section
/-! PROOF. The decoder's properties that the spec infers (47_ldpc.md R366, R377, R378; log 16): the range of the messages, no information,
and a noiseless codeword. -/

namespace Sys2Proof.Machine

/-! ## The range of the messages (47_ldpc.md R366) -/

theorem abs_sgn (x : Int) : |sgn x| = 1 := by
  unfold sgn
  split <;> simp

theorem abs_prod_sgn (qs : List Int) : |(qs.map sgn).prod| = 1 := by
  induction qs with
  | nil => simp
  | cons q qs ih => rw [List.map_cons, List.prod_cons, abs_mul, abs_sgn, ih, one_mul]

theorem abs_varToCheck_le (lam : List Int) (r : List Msg) (e : Edge) : |varToCheck lam r e| ≤ 127 :=
  abs_le.2 (sat127_range _)

/-- A check sends no more than the least magnitude it gets, for a factor up to 4/4. -/
theorem abs_checkToVar_le (alpha : Nat) (halpha : alpha ≤ 4) (q : List Msg) (hq : ∀ m ∈ q, |m.2| ≤ 127) (e : Edge) :
    |checkToVar alpha q e| ≤ 127 := by
  unfold checkToVar
  dsimp only
  split
  · simp
  · next hne =>
    obtain ⟨x, hx, hmin⟩ := exists_minAbs_eq _ (mt List.isEmpty_iff.2 hne)
    obtain ⟨m, hm, rfl⟩ := List.mem_map.1 hx
    have hmag := hq m (List.mem_filter.1 hm).1
    rw [Int.abs_eq_natAbs] at hmag
    rw [abs_mul, abs_prod_sgn, one_mul, hmin, Nat.abs_cast]
    have hscale : alpha * m.2.natAbs ≤ 4 * m.2.natAbs := Nat.mul_le_mul_right _ halpha
    omega

/-- Settles O57: the first message is saturated, the second is at most the least of the first ones. -/
theorem ldpcMessagesStayInRange : Obligations.LdpcMessagesStayInRange := by
  intro alpha lam r halpha
  refine ⟨abs_varToCheck_le lam r, fun m hm => ?_⟩
  obtain ⟨m', -, rfl⟩ := List.mem_map.1 hm
  refine abs_checkToVar_le alpha halpha _ (fun q hq => ?_) _
  obtain ⟨q', -, rfl⟩ := List.mem_map.1 hq
  exact abs_varToCheck_le lam r q'.1

/-! ## No information (47_ldpc.md R377) -/

/-- Every message is 0. -/
def AllZero (r : List Msg) : Prop := ∀ m ∈ r, m.2 = 0

theorem sum_eq_zero_of_allZero (r : List Msg) (h : AllZero r) (P : Msg → Bool) : ((r.filter P).map (·.2)).sum = 0 :=
  List.sum_eq_zero fun x hx => by
    obtain ⟨m, hm, rfl⟩ := List.mem_map.1 hx
    exact h m (List.mem_filter.1 hm).1

/-- An input of zeros, and no input past it. -/
def ZeroInput (lam : List Int) : Prop := ∀ v, lam.getD v 0 = 0

theorem zeroInput_ldpcLam (c : LdpcDec) (ins : List Int) (h : ∀ x ∈ ins, x = 0) : ZeroInput (ldpcLam c ins) := by
  intro v
  by_cases hv : v < ldpcVars c
  · have hget : ins.getD (v - 2 * c.zc) 0 = 0 := by
      rw [List.getD_eq_getElem?_getD]
      cases hi : ins[v - 2 * c.zc]? with
      | none => rfl
      | some x => exact h x (List.mem_of_getElem? hi)
    rw [ldpcLam, getD_map_range _ _ _ v hv, hget, asr_eq_ediv, Int.zero_ediv]
    split_ifs <;> rfl
  · have hnone : (ldpcLam c ins)[v]? = none := List.getElem?_eq_none (by simpa [ldpcLam] using hv)
    rw [List.getD_eq_getElem?_getD, hnone, Option.getD_none]

section
variable (alpha : Nat) (lam : List Int) (hlam : ZeroInput lam) (r : List Msg) (hr : AllZero r)
include hlam hr

theorem varToCheck_eq_zero (e : Edge) : varToCheck lam r e = 0 := by
  rw [varToCheck, hlam, sum_eq_zero_of_allZero r hr, add_zero]
  rfl

theorem ldpcPost_eq_zero (v : Nat) : ldpcPost lam r v = 0 := by
  rw [ldpcPost, hlam, sum_eq_zero_of_allZero r hr, add_zero]

theorem allZero_ldpcIterate : AllZero (ldpcIterate alpha lam r) := by
  intro m hm
  obtain ⟨m', -, rfl⟩ := List.mem_map.1 hm
  let q := r.map (fun m => (m.1, varToCheck lam r m.1))
  have hq : AllZero q := by
    intro m hm
    obtain ⟨m', -, rfl⟩ := List.mem_map.1 hm
    exact varToCheck_eq_zero lam hlam r hr m'.1
  change checkToVar alpha q m'.1 = 0
  unfold checkToVar
  dsimp only
  split
  · rfl
  · next hne =>
    obtain ⟨x, hx, hmin⟩ := exists_minAbs_eq _ (mt List.isEmpty_iff.2 hne)
    obtain ⟨m, hm, rfl⟩ := List.mem_map.1 hx
    rw [hmin, hq m (List.mem_filter.1 hm).1]
    simp

/-- The decision on no information: undecided, every bit 0. -/
theorem ldpcDecide_of_allZero (init : BitVec 24) (c : LdpcDec) (hvars : ldpcVars c ≠ 0) :
    (ldpcDecide init c lam r).undecided = true ∧ (ldpcDecide init c lam r).xhat = List.replicate (ldpcVars c) false := by
  have hpost : (List.range (ldpcVars c)).map (ldpcPost lam r) = List.replicate (ldpcVars c) 0 :=
    List.eq_replicate_iff.2 ⟨by simp, by simpa using fun v _ => ldpcPost_eq_zero lam hlam r hr v⟩
  have hfields : (ldpcDecide init c lam r).undecided = ((List.range (ldpcVars c)).map (ldpcPost lam r)).any (· == 0)
      ∧ (ldpcDecide init c lam r).xhat = ((List.range (ldpcVars c)).map (ldpcPost lam r)).map (fun p => decide (p < 0)) :=
    ⟨rfl, rfl⟩
  rw [hfields.1, hfields.2, hpost]
  exact ⟨by simp [hvars], by simp⟩

/-- The loop on no information runs to its last iteration. -/
theorem ldpcLoop_of_allZero (init : BitVec 24) (c : LdpcDec) (hvars : ldpcVars c ≠ 0) (left it : Nat) :
    ∃ d : Decision, ldpcLoop alpha init c lam (fun _ => false) left it r = (d, it + left, .limit)
      ∧ d.undecided = true ∧ d.xhat = List.replicate (ldpcVars c) false := by
  have hr' := allZero_ldpcIterate alpha lam hlam r hr
  induction left generalizing it r with
  | zero =>
    obtain ⟨hund, hxhat⟩ := ldpcDecide_of_allZero lam hlam _ hr' init c hvars
    exact ⟨_, by simp [ldpcLoop, hund], hund, hxhat⟩
  | succ left ih =>
    obtain ⟨hund, -⟩ := ldpcDecide_of_allZero lam hlam _ hr' init c hvars
    obtain ⟨d, hloop, hd⟩ := ih _ hr' (it + 1) (allZero_ldpcIterate alpha lam hlam _ hr')
    refine ⟨d, ?_, hd⟩
    simp only [ldpcLoop, hund, Bool.not_true, Bool.false_and, Bool.false_eq_true, if_false, hloop, Nat.add_right_comm it 1 left,
      Nat.add_assoc]

end

theorem ldpcVars_ne_zero (c : LdpcDec) (hz : liftingSize c.zc) : ldpcVars c ≠ 0 := by
  have hpos := liftingSize_pos c.zc hz
  have hcols : 0 < ldpcNb c.bg := by cases c.bg <;> decide
  exact (Nat.mul_pos hcols hpos).ne'

/-- Settles O58: all messages stay 0, so no iteration decides anything. -/
theorem ldpcNoInformationHitsLimit : Obligations.LdpcNoInformationHitsLimit := by
  intro alpha init table c ins hlegal hzero
  obtain ⟨hmax, hz, -, -⟩ := hlegal
  have hstart : AllZero ((ldpcEdges table c.bg c.zc).map (fun e => (e, 0))) := by
    intro m hm
    obtain ⟨e, -, rfl⟩ := List.mem_map.1 hm
    rfl
  obtain ⟨d, hloop, hund, hxhat⟩ := ldpcLoop_of_allZero alpha (ldpcLam c ins) (zeroInput_ldpcLam c ins hzero) _ hstart init c
    (ldpcVars_ne_zero c hz) (c.maxIter - 1) 1
  have hlast : 1 + (c.maxIter - 1) = c.maxIter := by omega
  rw [hlast] at hloop
  refine ⟨d, hloop, hund, hxhat, ?_⟩
  simp [ldpcResultWord, hund, flagWord]

end Sys2Proof.Machine
end

section
/-! PROOF. A noiseless codeword is decoded at once (47_ldpc.md R378; log 16): after one iteration every posterior has its bit's sign. -/

namespace Sys2Proof.Machine

/-! ## Signs of bits -/

/-- The sign an LLR of a bit has. -/
def bitSign (b : Bool) : Int := if b then -1 else 1

theorem bitSign_mul_self (b : Bool) : bitSign b * bitSign b = 1 := by cases b <;> rfl

/-- A value has at least the magnitude `m` on its bit's side. -/
def OnSide (m : Int) (b : Bool) (v : Int) : Prop := m ≤ bitSign b * v

theorem onSide_iff (m : Int) (b : Bool) (v : Int) : OnSide m b v ↔ if b then v ≤ -m else m ≤ v := by
  cases b with
  | false => simp [OnSide, bitSign]
  | true => simp [OnSide, bitSign]; omega

theorem OnSide.natAbs_ge {m : Nat} {b : Bool} {v : Int} (h : OnSide m b v) : m ≤ v.natAbs := by
  rw [onSide_iff] at h
  cases b <;> simp at h <;> omega

theorem OnSide.sgn_eq {m : Int} {b : Bool} {v : Int} (hm : 0 < m) (h : OnSide m b v) : sgn v = bitSign b := by
  rw [onSide_iff] at h
  cases b <;> simp [sgn, bitSign] at h ⊢ <;> omega

/-- A bit on whose side a value lies strictly is the value's hard decision. -/
theorem OnSide.decision {b : Bool} {v : Int} (h : OnSide 1 b v) : v ≠ 0 ∧ decide (v < 0) = b := by
  rw [onSide_iff] at h
  cases b <;> simp at h ⊢ <;> omega

/-- Over an even number of ones the signs multiply to 1. -/
theorem prod_bitSign (vs : Finset Nat) (x : Nat → Bool) (h : Even (vs.filter (fun v => x v = true)).card) :
    ∏ v ∈ vs, bitSign (x v) = 1 := by
  simp only [bitSign]
  rw [Finset.prod_ite, Finset.prod_const, Finset.prod_const_one, mul_one, h.neg_one_pow]

/-! ## Joined pairs -/

section
variable (table : BgTable) (c : LdpcDec)

theorem joined_iff (k v : Nat) :
    joined table c k v = true ↔
      ∃ shift, table c.bg (setIndex c.zc) (k / c.zc) (v / c.zc) = some shift ∧ v % c.zc = (k % c.zc + shift % c.zc) % c.zc := by
  rw [joined]
  cases table c.bg (setIndex c.zc) (k / c.zc) (v / c.zc) <;> simp

/-- Some check of a row with an entry in a variable's column is joined to the variable. -/
theorem exists_joined_check (hpos : 0 < c.zc) (i v : Nat)
    (h : (table c.bg (setIndex c.zc) i (v / c.zc)).isSome = true) : ∃ k, k / c.zc = i ∧ joined table c k v = true := by
  obtain ⟨shift, hshift⟩ := Option.isSome_iff_exists.1 h
  have hr : (v % c.zc + (c.zc - shift % c.zc)) % c.zc < c.zc := Nat.mod_lt _ hpos
  have hs := Nat.mod_lt shift hpos
  refine ⟨i * c.zc + (v % c.zc + (c.zc - shift % c.zc)) % c.zc, div_add_of_lt hr, (joined_iff table c _ v).2 ⟨shift, ?_, ?_⟩⟩
  · rwa [div_add_of_lt hr]
  · rw [mod_add_of_lt hr, Nat.mod_add_mod, Nat.add_assoc, Nat.sub_add_cancel hs.le, Nat.add_mod_right, Nat.mod_mod]

/-- A check of a row with an entry in a column is joined to some variable of the column. -/
theorem exists_joined_var (hpos : 0 < c.zc) (k j : Nat)
    (h : (table c.bg (setIndex c.zc) (k / c.zc) j).isSome = true) : ∃ v, v / c.zc = j ∧ joined table c k v = true := by
  obtain ⟨shift, hshift⟩ := Option.isSome_iff_exists.1 h
  have hr : (k % c.zc + shift % c.zc) % c.zc < c.zc := Nat.mod_lt _ hpos
  refine ⟨j * c.zc + (k % c.zc + shift % c.zc) % c.zc, div_add_of_lt hr, (joined_iff table c k _).2 ⟨shift, ?_, mod_add_of_lt hr⟩⟩
  rwa [div_add_of_lt hr]

/-- A check is joined to one variable of a column at most. -/
theorem joined_column_unique (k v v' : Nat) (h : joined table c k v = true) (h' : joined table c k v' = true)
    (hcol : v / c.zc = v' / c.zc) : v = v' := by
  obtain ⟨shift, hshift, hv⟩ := (joined_iff table c k v).1 h
  obtain ⟨shift', hshift', hv'⟩ := (joined_iff table c k v').1 h'
  rw [← hcol, hshift] at hshift'
  cases hshift'
  rw [← Nat.div_add_mod v c.zc, ← Nat.div_add_mod v' c.zc, hcol, hv, hv']

end

theorem eq_one_sub_of_ne (a b : Nat) (ha : a < 2) (hb : b < 2) (h : a ≠ b) : a = 1 - b := by omega

/-! ## The premises of R378 -/

/-- The input of R378: LLRs of magnitude at least 2 and the right sign for a codeword, whose punctured columns each have a row of the
statement's kind. -/
structure NoNoise (table : BgTable) (c : LdpcDec) (ins : Nat → Int) (x : Nat → Bool) : Prop where
  size : liftingSize c.zc
  full : c.e = (ldpcNb c.bg - 2) * c.zc
  codeword : specSyndOk table c x
  llrs : ∀ i < c.e, if x (2 * c.zc + i) then ins i / 2 ^ c.inShift ≤ -2 else 2 ≤ ins i / 2 ^ c.inShift
  rows : ∀ j < 2, ∃ i < ldpcMb c.bg, (table c.bg (setIndex c.zc) i j).isSome = true
    ∧ (table c.bg (setIndex c.zc) i (1 - j)).isSome = false
    ∧ ∃ j' < ldpcNb c.bg, 2 ≤ j' ∧ (table c.bg (setIndex c.zc) i j').isSome = true

section
variable {table : BgTable} {c : LdpcDec} {ins : Nat → Int} {x : Nat → Bool} (h : NoNoise table c ins x)

theorem specLam_punctured (c : LdpcDec) (ins : Nat → Int) (v : Nat) (hv : v < 2 * c.zc) : specLam c ins v = 0 := if_pos hv

theorem punctured_iff (c : LdpcDec) (hpos : 0 < c.zc) (v : Nat) : v < 2 * c.zc ↔ v / c.zc < 2 := (Nat.div_lt_iff_lt_mul hpos).symm

include h

theorem NoNoise.onSide_specLam (v : Nat) (hv : v < ldpcVars c) (hlo : 2 * c.zc ≤ v) : OnSide 2 (x v) (specLam c ins v) := by
  have hcols : 2 ≤ ldpcNb c.bg := by cases c.bg <;> decide
  have hvars : ldpcVars c = 2 * c.zc + c.e := by
    rw [h.full, ldpcVars, ← Nat.add_mul, Nat.add_sub_cancel' hcols]
  have hllr := h.llrs (v - 2 * c.zc) (by omega)
  rw [Nat.add_sub_cancel' hlo] at hllr
  have hlam : specLam c ins v = sat127 (ins (v - 2 * c.zc) / 2 ^ c.inShift) := by
    rw [specLam, if_neg (by omega), if_pos (by omega)]
  rw [onSide_iff, hlam]
  unfold sat127 clamp
  cases hx : x v <;> simp only [hx, if_true, Bool.false_eq_true, if_false] at hllr ⊢ <;> split_ifs <;> omega

theorem NoNoise.specLam_side (v : Nat) (hv : v < ldpcVars c) : OnSide 0 (x v) (specLam c ins v) := by
  rcases lt_or_ge v (2 * c.zc) with hlo | hlo
  · rw [specLam_punctured c ins v hlo, OnSide, mul_zero]
  · exact le_trans (by norm_num) (h.onSide_specLam v hv hlo)

/-- The signs of a codeword's bits on the other variables of a check multiply to the sign of the variable's own. -/
theorem NoNoise.prod_others (k v : Nat) (hk : k < ldpcCheckNodes c) (hv : v < ldpcVars c) (hj : joined table c k v = true) :
    ∏ v2 ∈ othersOn table c k v, bitSign (x v2) = bitSign (x v) := by
  have hall : ∏ v2 ∈ varsOn table c k, bitSign (x v2) = 1 := by
    refine prod_bitSign _ _ ?_
    rw [varsOn, Finset.filter_filter]
    exact h.codeword k hk
  have hmem : v ∈ varsOn table c k := by simp [varsOn, hv, hj]
  have hothers : othersOn table c k v = (varsOn table c k).erase v := by
    ext w
    simp [othersOn, and_comm]
  have hsplit := Finset.mul_prod_erase (varsOn table c k) (fun v2 => bitSign (x v2)) hmem
  rw [hall, ← hothers] at hsplit
  calc ∏ v2 ∈ othersOn table c k v, bitSign (x v2)
      = bitSign (x v) * bitSign (x v) * ∏ v2 ∈ othersOn table c k v, bitSign (x v2) := by rw [bitSign_mul_self, one_mul]
    _ = bitSign (x v) := by rw [mul_assoc, hsplit, mul_one]

/-- A check none of whose other variables is punctured sends its variable's sign. -/
theorem NoNoise.checkValue_of_unpunctured (alpha k v : Nat) (hk : k < ldpcCheckNodes c) (hv : v < ldpcVars c)
    (hj : joined table c k v = true) (hothers : ∀ v2 ∈ othersOn table c k v, 2 * c.zc ≤ v2) :
    bitSign (x v) * checkValue table c alpha k v (specLam c ins)
      = ((alpha * leastMag (othersOn table c k v) (specLam c ins) / 4 : Nat) : Int) := by
  have hsigns : ∏ v2 ∈ othersOn table c k v, sgn (specLam c ins v2) = bitSign (x v) := by
    rw [← h.prod_others k v hk hv hj]
    refine Finset.prod_congr rfl fun v2 hv2 => ?_
    have hvars : v2 < ldpcVars c := by
      simp only [othersOn, varsOn, Finset.mem_filter, Finset.mem_range] at hv2
      exact hv2.1.1
    exact (h.onSide_specLam v2 hvars (hothers v2 hv2)).sgn_eq (by norm_num)
  rw [checkValue, hsigns, ← mul_assoc, bitSign_mul_self, one_mul]

/-- No check sends the wrong sign (47_ldpc.md R366): one with a punctured other variable sends 0. -/
theorem NoNoise.checkValue_side (alpha k v : Nat) (hk : k < ldpcCheckNodes c) (hv : v < ldpcVars c)
    (hj : joined table c k v = true) : OnSide 0 (x v) (checkValue table c alpha k v (specLam c ins)) := by
  by_cases hothers : ∀ v2 ∈ othersOn table c k v, 2 * c.zc ≤ v2
  · rw [OnSide, h.checkValue_of_unpunctured alpha k v hk hv hj hothers]
    exact Int.natCast_nonneg _
  · push Not at hothers
    obtain ⟨v2, hv2, hlow⟩ := hothers
    have hleast := (leastMag_spec (othersOn table c k v) (specLam c ins) ⟨v2, hv2⟩).1 v2 hv2
    rw [specLam_punctured c ins v2 hlow, Int.natAbs_zero, Nat.le_zero] at hleast
    simp [OnSide, checkValue, hleast]

/-- The check of R378's row sends a punctured variable its sign. -/
theorem NoNoise.exists_check (alpha : Nat) (halpha : 2 ≤ alpha) (v : Nat) (hv : v < ldpcVars c) (hlow : v < 2 * c.zc) :
    ∃ k ∈ checksOn table c v, OnSide 1 (x v) (checkValue table c alpha k v (specLam c ins)) := by
  have hpos := liftingSize_pos c.zc h.size
  have hcol : v / c.zc < 2 := (punctured_iff c hpos v).1 hlow
  obtain ⟨i, hi, hentry, hother, j', hj', hj2, hfurther⟩ := h.rows (v / c.zc) hcol
  obtain ⟨k, rfl, hj⟩ := exists_joined_check table c hpos i v hentry
  have hk : k < ldpcCheckNodes c := (Nat.div_lt_iff_lt_mul hpos).1 hi
  have hunpunctured : ∀ v2 ∈ othersOn table c k v, 2 * c.zc ≤ v2 := by
    intro v2 hv2
    simp only [othersOn, varsOn, Finset.mem_filter, Finset.mem_range] at hv2
    obtain ⟨⟨-, hjoined⟩, hne⟩ := hv2
    by_contra hlow2
    have hcol2 : v2 / c.zc < 2 := (punctured_iff c hpos v2).1 (by omega)
    by_cases hsame : v2 / c.zc = v / c.zc
    · exact hne (joined_column_unique table c k v2 v hjoined hj hsame)
    · obtain ⟨shift, hshift, -⟩ := (joined_iff table c k v2).1 hjoined
      have hcol' : v2 / c.zc = 1 - v / c.zc := eq_one_sub_of_ne _ _ hcol2 hcol hsame
      rw [hcol'] at hshift
      simp [hshift] at hother
  obtain ⟨w, hwcol, hw⟩ := exists_joined_var table c hpos k j' hfurther
  have hwvars : w < ldpcVars c := (Nat.div_lt_iff_lt_mul hpos).1 (by rwa [hwcol])
  have hwv : w ≠ v := by
    rintro rfl
    omega
  have hnonempty : (othersOn table c k v).Nonempty := ⟨w, by simp [othersOn, varsOn, hwvars, hw, hwv]⟩
  obtain ⟨-, v2, hv2, hleast⟩ := leastMag_spec (othersOn table c k v) (specLam c ins) hnonempty
  have hvars2 : v2 < ldpcVars c := by
    simp only [othersOn, varsOn, Finset.mem_filter, Finset.mem_range] at hv2
    exact hv2.1.1
  have hmag : 2 ≤ leastMag (othersOn table c k v) (specLam c ins) :=
    hleast ▸ OnSide.natAbs_ge (m := 2) (h.onSide_specLam v2 hvars2 (hunpunctured v2 hv2))
  have hscaled : 2 * 2 ≤ alpha * leastMag (othersOn table c k v) (specLam c ins) := Nat.mul_le_mul halpha hmag
  refine ⟨k, by simp [checksOn, hk, hj], ?_⟩
  rw [OnSide, h.checkValue_of_unpunctured alpha k v hk hv hj hunpunctured]
  omega

omit h in
/-- The messages of the first iteration are those of the inputs (47_ldpc.md R366). -/
theorem specR_one (alpha k v : Nat) :
    specR alpha table c ins 1 k v = checkValue table c alpha k v (specLam c ins) := by
  rw [specR_succ]
  refine checkValue_congr alpha table c k v _ _ fun v2 hv2 => ?_
  have hzero : ∑ k2 ∈ (checksOn table c v2).filter (fun k2 => k2 ≠ k), specR alpha table c ins 0 k2 v2 = 0 :=
    Finset.sum_eq_zero fun _ _ => rfl
  rw [hzero, add_zero, specLam]
  split_ifs
  · rfl
  · exact clamp_of_range _ _ _ (sat127_range _).1 (sat127_range _).2
  · rfl

/-- After one iteration every posterior has its bit's sign. -/
theorem NoNoise.onSide_specPost (alpha : Nat) (halpha : 2 ≤ alpha) (v : Nat) (hv : v < ldpcVars c) :
    OnSide 1 (x v) (specPost alpha table c ins 1 v) := by
  have hpost : bitSign (x v) * specPost alpha table c ins 1 v
      = bitSign (x v) * specLam c ins v
        + ∑ k ∈ checksOn table c v, bitSign (x v) * checkValue table c alpha k v (specLam c ins) := by
    rw [specPost, mul_add, Finset.mul_sum]
    simp only [specR_one]
    rfl
  have hterm : ∀ k ∈ checksOn table c v, 0 ≤ bitSign (x v) * checkValue table c alpha k v (specLam c ins) := by
    intro k hk
    simp only [checksOn, Finset.mem_filter, Finset.mem_range] at hk
    exact h.checkValue_side alpha k v hk.1 hv hk.2
  rw [OnSide, hpost]
  rcases lt_or_ge v (2 * c.zc) with hlow | hhigh
  · obtain ⟨k, hk, hside⟩ := h.exists_check alpha halpha v hv hlow
    have hone : 1 ≤ ∑ k ∈ checksOn table c v, bitSign (x v) * checkValue table c alpha k v (specLam c ins) :=
      hside.trans (Finset.single_le_sum hterm hk)
    have hlam : 0 ≤ bitSign (x v) * specLam c ins v := h.specLam_side v hv
    linarith
  · have hsum := Finset.sum_nonneg hterm
    have hlam : 2 ≤ bitSign (x v) * specLam c ins v := h.onSide_specLam v hv hhigh
    linarith

end

/-- A decoder that converges in its first iteration stops there. -/
theorem specStops_of_converged_one {init : BitVec 24} {table : BgTable} {c : LdpcDec} {post : Nat → Nat → Int}
    {abort : Nat → Bool} {it : Nat} {why : Stop} (h : specStops init table c post abort it why)
    (hconv : specConverged init table c (post 1)) : it = 1 ∧ why = .converged := by
  obtain ⟨hfirst, -, hearlier, hwhy⟩ := h
  have hit : it = 1 := by
    by_contra hne
    exact (hearlier 1 le_rfl (by omega)).1 hconv
  subst hit
  cases why with
  | converged => exact ⟨rfl, rfl⟩
  | limit => exact absurd hconv hwhy.1
  | aborted => exact absurd hconv hwhy.1

/-- Settles O59: each posterior of the first iteration has its bit's sign, so the decision is the codeword. -/
theorem ldpcNoNoiseDecodesAtOnce : Obligations.LdpcNoNoiseDecodesAtOnce := by
  intro alpha init table c abort ins x halpha _ hlegal hfull hlen hcodeword hllrs hrows
  obtain ⟨hmax, hz, -, -⟩ := hlegal
  let f : Nat → Int := fun i => ins.getD i 0
  have hins : inputsUpTo c f = ins := map_range_getD ins 0 c.e hlen
  have hnoise : NoNoise table c f x := by
    refine ⟨hz, hfull, hcodeword, fun i hi => ?_, hrows⟩
    have hget : ins[i]? = some (f i) := by simp [f, hlen, hi]
    exact hllrs i hi _ hget
  have hpost (v : Nat) (hv : v < ldpcVars c) := (hnoise.onSide_specPost alpha halpha v hv).decision
  have hxhat : bitsUpTo c (specBit alpha table c f 1) = bitsUpTo c x :=
    List.map_congr_left fun v hv => (hpost v (List.mem_range.1 hv)).2
  have hundecided : ¬ specUndecided c (specPost alpha table c f 1) := fun ⟨v, hv, h0⟩ => (hpost v hv).1 h0
  have hsynd : specSyndOk table c (specBit alpha table c f 1) := by
    rw [← syndromeOk_bitsUpTo table c hz, hxhat, syndromeOk_bitsUpTo table c hz]
    exact hcodeword
  obtain ⟨it, why, hdecode, hstops⟩ := ldpcDecode_spec alpha init table c f hz abort hmax
  obtain ⟨rfl, rfl⟩ := specStops_of_converged_one hstops ⟨hundecided, .inl hsynd⟩
  rw [hins] at hdecode
  refine ⟨_, hdecode, ?_, (specDecision_syndOk alpha init table c f hz 1).2 hsynd,
    (specDecision_xhat alpha init table c f hz 1).trans hxhat⟩
  rw [← Bool.not_eq_true, specDecision_undecided alpha init table c f hz 1]
  exact hundecided

end Sys2Proof.Machine
end
